-- ==== Sys2Proof/Word.lean ====
section
/-!
DEFINITION. The words of the machine (R3, R12): bytes, 32-bit registers, 64-bit pairs and masks,
80-bit virtual addresses. Everything is little-endian (R3).
-/
namespace Sys2Proof

/-- A byte of memory. -/
abbrev Byte := BitVec 8
/-- A v or k register (R12). -/
abbrev Word := BitVec 32
/-- A `.d` pair, a lane mask or a 64-bit special register (R14, R17). -/
abbrev DWord := BitVec 64
/-- An 80-bit virtual address or base register (R12, R23). -/
abbrev Addr := BitVec 80
/-- The widest value an instruction moves per lane: a group of four registers (R272). -/
abbrev QWord := BitVec 128
/-- One bit per lane of a train of at most 64 lanes; bit l is lane l (R17). -/
abbrev LaneMask := BitVec 64

end Sys2Proof
end

