-- ==== Sys2Proof/Syntax.lean ====
section
/-!
DEFINITION. The instructions (R30 to R50 and each instruction's entry) and the steps the device
takes on its own or at the host's command (spec/95_what_each_step_holds.md): one constructor of
`Instr` for each row of spec/opcode_table.json.
-/
namespace Sys2Proof

/-- The form of a word (R30), with the two meanings of an F96 extension word (R38). -/
inductive Form
  | f64
  /-- F96 with fn[9] = 0: Turntable specifications -/
  | f96t
  /-- F96 with fn[9] = 1: a 32-bit immediate, or the entry's own meaning -/
  | f96i
  | f128
  deriving DecidableEq, Repr

/-- A Turntable specification (R38, R39): pattern and parameter. -/
structure Turn where
  pat : BitVec 3
  k   : BitVec 7
  deriving DecidableEq, Repr

/-- The identity pattern. -/
def Turn.id : Turn := ⟨0, 0⟩

/-- An operand as a specifier names it (R36). -/
inductive Opnd
  /-- the field is not used (a dash in the entry) -/
  | none
  /-- v register, empty behaviour bit (R25: true traps), Turntable specification -/
  | v (r : BitVec 8) (trapEmpty : Bool) (t : Turn)
  | k (r : BitVec 6)
  | q (r : BitVec 3)
  | b (r : BitVec 4)
  /-- an immediate, sign-extended to 64 bits from the 6, 32 or 64 bits that carry it -/
  | imm (x : DWord)
  | sreg (i : BitVec 6)
  deriving DecidableEq, Repr

/-- The P64 memory-modifier prefix (R41). -/
structure Prefix where
  nochk  : Bool
  cr     : Bool
  policy : BitVec 4
  space  : BitVec 3
  scope  : BitVec 3
  order  : BitVec 3
  deriving DecidableEq, Repr

/-- What all instructions share (R33): form, stop bit, guard, operands, prefix. -/
structure Args where
  form  : Form
  stop  : Bool
  guard : BitVec 3
  gneg  : Bool
  dst   : Opnd
  s1    : Opnd
  s2    : Opnd
  s3    : Opnd
  pre   : Option Prefix
  deriving DecidableEq, Repr

/-- The shared fn layout of R57 and of R102: px [8:6]; py or rm [5:3]; s or ov [2]; u or hf [1];
d or fb [0]. -/
structure Mods where
  px : BitVec 3
  py : BitVec 3
  s  : Bool
  u  : Bool
  d  : Bool
  deriving DecidableEq, Repr

/-- fn of the predicate instructions (R71). -/
structure PredMods where
  pd  : BitVec 3
  pa  : BitVec 3
  pb  : BitVec 3
  inv : Bool
  deriving DecidableEq, Repr

/-- The address fields of memory instructions (R268). -/
structure AddrMods where
  scale : BitVec 3
  o64   : Bool
  deriving DecidableEq, Repr

/-- fn of `redx` and `scan` (R171). -/
structure RedMods where
  excl : Bool
  op   : BitVec 4
  s    : Bool
  u    : Bool
  d    : Bool
  deriving DecidableEq, Repr

/-- The contraction extension (R190). -/
structure CxExt where
  bs   : BitVec 8
  as_  : BitVec 8
  sbs  : BitVec 8
  sas  : BitVec 8
  goff : BitVec 8
  sb   : BitVec 4
  sa   : BitVec 4
  b    : BitVec 4
  a    : BitVec 4
  deriving DecidableEq, Repr

/-- The extension of `accpk` and `accup` (R204). -/
structure PkExt where
  ss : BitVec 8
  ds : BitVec 8
  s  : BitVec 4
  d  : BitVec 4
  deriving DecidableEq, Repr

/-- fn and extension of `bcopy` (R308, R309, R310). -/
structure CopyMods where
  dir   : BitVec 2
  arv   : Bool
  rv    : BitVec 5
  stride : BitVec 12
  tr    : Bool
  span  : BitVec 3
  bmoff : BitVec 18
  bm    : Bool
  rows  : BitVec 11
  len   : BitVec 12
  es    : BitVec 2
  sib   : BitVec 2
  pol   : BitVec 2
  deriving DecidableEq, Repr

/-- fn and extension of `sdef` (R317). -/
structure SdefMods where
  sx  : Bool
  dir : Bool
  isz : BitVec 2
  asz : BitVec 2
  q   : BitVec 3
  a   : BitVec 4
  b   : BitVec 4
  sv  : BitVec 4
  deriving DecidableEq, Repr

/-- fn and extension of `mdef` (R323). -/
structure MdefMods where
  q    : BitVec 3
  scr  : Bool
  fkey : Bool
  k    : Word
  thr  : Word
  deriving DecidableEq, Repr

/-- fn and extension of `casl` (R278). -/
structure CaslMods where
  task  : BitVec 8
  d     : Bool
  scale : BitVec 3
  o64   : Bool
  pay   : Opnd
  deriving DecidableEq, Repr

/-- What one start of the module finds (R379): whether the image verifies, whether each of the
dies 0–3, of the stacks 0–7 and CXL port 0 comes up, and the ports that did. -/
structure StartIn where
  imageOk : Bool
  diesOk  : Bool
  stacksOk : Bool
  cxl0Ok  : Bool
  cxlUp   : BitVec 4
  milernUp : BitVec 16
  deriving DecidableEq, Repr

/-- One access that a peer device asks of this device (R355 to R358). -/
structure PeerIn where
  /-- number of the device that asks -/
  src   : Nat
  ctx   : Nat
  va    : DWord
  /-- 0 load, 1 store, 2 the atomic of opcode `op`, 3 compare-and-swap, 4 the check alone, of an access
  that reads (`op` 0), writes (1), does both (2) or writes where its comparison holds (3) -/
  kind  : Nat
  op    : BitVec 4
  /-- bytes from `va` on that a load or an atomic acts on, within one line; of a store, the bytes of each lane's
  access -/
  n     : Nat
  /-- what a store writes: offsets from `va` and bytes, the later of two at one offset winning -/
  ws    : List (Nat × Byte)
  data  : DWord
  cmp   : DWord
  tag   : Nat
  deriving DecidableEq, Repr

/-- One thing a flit of a Milern link carries (R361): a request of a peer, or the answer to a
request of this device. -/
inductive FlitItem
  | request (r : PeerIn)
  /-- answer to request `tag`: trap code (0 for none), reason, the bytes read, and those lost to an
  uncorrectable error, by offset, with the reason of each -/
  | answer (tag : Nat) (code : Nat) (reason : Nat) (value : BitVec 1024) (lost : List (Nat × Nat))
  /-- the keep-alive of a device (R361) -/
  | alive (dev : Nat)
  deriving DecidableEq, Repr

/-- One reading of a die's sensors (R385). Droop and corrected-error words count inside the
device; the sample brings the sensor's own reading. -/
structure Sample where
  thermal : List (Nat × BitVec 32)
  /-- droop monitor, supply voltage in mV, droop events since the last sample -/
  droop   : List (Nat × Nat × Nat)
  process : List (Nat × BitVec 32)
  deriving DecidableEq, Repr

/-- Where an uncorrectable or corrected error lies (R344, reasons of R338). -/
inductive ErrPlace
  /-- stored memory, by physical address -/
  | hbm (pa : Nat)
  | l2 (pa : Nat)
  | l1 (core pa : Nat)
  /-- scratchpad byte of a team -/
  | scratch (uid off : Nat)
  /-- v register of a train -/
  | vreg (uid train reg : Nat)
  | acc (uid off : Nat)
  | cxl (pa : Nat)
  deriving DecidableEq, Repr

/-- Every instruction, and every step of the device, one constructor for each row of
spec/opcode_table.json, in the table's order within each group. -/
inductive Instr
  -- control (04)
  | nop (a : Args)
  | trap (a : Args) (code : Word)
  | exit (a : Args)
  | br (a : Args) (h : Bool) (off : Word)
  | bri (a : Args) (h : Bool)
  | call (a : Args) (off : Word)
  | calli (a : Args)
  | ret (a : Args)
  | rte (a : Args)
  | rteNext (a : Args)
  | rds (a : Args) (d : Bool)
  | wrs (a : Args) (d : Bool)
  | yield (a : Args)
  | sleep (a : Args)
  | loop (a : Args) (h : Bool) (off : Word)
  -- moves and base registers
  | mov (a : Args) (m : Mods)
  | movStream (a : Args) (m : Mods)
  | li (a : Args) (m : Mods)
  | bset (a : Args) (m : Mods)
  | bget (a : Args)
  | bgetHi (a : Args)
  | badd (a : Args) (m : Mods)
  | sel (a : Args) (m : Mods)
  | pand (a : Args) (m : PredMods)
  | por (a : Args) (m : PredMods)
  | pxor (a : Args) (m : PredMods)
  | pnot (a : Args) (m : PredMods)
  | pget (a : Args)
  | pset (a : Args) (mask : BitVec 7)
  | lea (a : Args) (m : Mods)
  | bcmp (a : Args) (m : Mods)
  -- integer and logic
  | iadd (a : Args) (m : Mods)
  | isub (a : Args) (m : Mods)
  | imul (a : Args) (m : Mods)
  | imulh (a : Args) (m : Mods)
  | imad (a : Args) (m : Mods)
  | ineg (a : Args) (m : Mods)
  | iabs (a : Args) (m : Mods)
  | imin (a : Args) (m : Mods)
  | imax (a : Args) (m : Mods)
  | div (a : Args) (m : Mods)
  | rem (a : Args) (m : Mods)
  | icmp (a : Args) (m : Mods)
  | imulw (a : Args) (m : Mods)
  | iaddx (a : Args) (m : Mods)
  | isubx (a : Args) (m : Mods)
  | isad (a : Args) (m : Mods)
  | and (a : Args) (m : Mods)
  | or (a : Args) (m : Mods)
  | xor (a : Args) (m : Mods)
  | not (a : Args) (m : Mods)
  | andn (a : Args) (m : Mods)
  | shl (a : Args) (m : Mods)
  | shr (a : Args) (m : Mods)
  | sar (a : Args) (m : Mods)
  | rotl (a : Args) (m : Mods)
  | bfx (a : Args) (m : Mods)
  | bfi (a : Args) (m : Mods)
  | popc (a : Args) (m : Mods)
  | clz (a : Args) (m : Mods)
  | ctz (a : Args) (m : Mods)
  | brev (a : Args) (m : Mods)
  | lop3 (a : Args) (table : BitVec 8) (d : Bool)
  -- float (06)
  | fadd (a : Args) (m : Mods)
  | fsub (a : Args) (m : Mods)
  | fmul (a : Args) (m : Mods)
  | ffma (a : Args) (m : Mods)
  | fmin (a : Args) (m : Mods)
  | fmax (a : Args) (m : Mods)
  | fabs (a : Args) (m : Mods)
  | fneg (a : Args) (m : Mods)
  | fcmp (a : Args) (m : Mods)
  | fclass (a : Args) (m : Mods)
  | fscale (a : Args) (m : Mods)
  | fround (a : Args) (m : Mods)
  | frcp (a : Args) (m : Mods)
  | fsqrt (a : Args) (m : Mods)
  | frsqrt (a : Args) (m : Mods)
  | fexp2 (a : Args) (m : Mods)
  | flog2 (a : Args) (m : Mods)
  | fsin (a : Args) (m : Mods)
  | fcos (a : Args) (m : Mods)
  | ftanh (a : Args) (m : Mods)
  | fdp2 (a : Args) (m : Mods)
  | fdp4 (a : Args) (m : Mods)
  | idp4 (a : Args) (m : Mods)
  | cvt (a : Args) (rm dt st : BitVec 3)
  | pack (a : Args) (rm : BitVec 3) (ov : Bool) (f : BitVec 4) (int : Bool)
  | unpack (a : Args) (f : BitVec 4) (int : Bool)
  | cbdec (a : Args) (hi e4m3 : Bool)
  | rnd (a : Args) (f : Bool)
  | hadd2 (a : Args) (m : Mods)
  | hmul2 (a : Args) (m : Mods)
  | hfma2 (a : Args) (m : Mods)
  | hmax2 (a : Args) (m : Mods)
  -- parallel (08)
  | join (a : Args) (n : BitVec 3)
  | jset (a : Args) (op n p : BitVec 3)
  | jget (a : Args) (n : BitVec 3)
  | split (a : Args) (w : BitVec 3)
  | fuse (a : Args)
  | elect (a : Args) (pd : BitVec 3) (wr : Bool)
  | vote (a : Args) (inv : Bool) (pd op p : BitVec 3)
  | perm (a : Args) (z d : Bool)
  | redx (a : Args) (m : RedMods)
  | scan (a : Args) (m : RedMods)
  | rvinit (a : Args) (n : BitVec 5)
  | arrive (a : Args) (n : BitVec 5)
  | await (a : Args) (n : BitVec 5)
  | arrwait (a : Args) (n : BitVec 5)
  | rgive (a : Args) (n : BitVec 5)
  | rtake (a : Args) (n : BitVec 5)
  | rtakeRole (a : Args) (r : BitVec 4)
  | glaunch (a : Args) (d : Bool)
  | tlaunch (a : Args) (scope : BitVec 3)
  | rvget (a : Args) (f : BitVec 2) (n : BitVec 5)
  | matchLanes (a : Args) (d : Bool)
  | actv (a : Args) (which : BitVec 2)
  -- memory (14)
  | ld (a : Args) (size : BitVec 3) (sx : Bool) (m : AddrMods)
  | st (a : Args) (size : BitVec 3) (m : AddrMods)
  | stCr (a : Args) (size : BitVec 3) (m : AddrMods)
  | atom (a : Args) (op : BitVec 4) (m : AddrMods) (d : Bool)
  | cas (a : Args) (ps : BitVec 3) (m : AddrMods) (d : Bool)
  | casl (a : Args) (m : CaslMods)
  | fence (a : Args) (scope order : BitVec 3)
  | pref (a : Args) (l2 : Bool) (m : AddrMods)
  | inval (a : Args)
  | invalAll (a : Args)
  | crdecl (a : Args) (op : BitVec 2) (d : Bool)
  | crdrop (a : Args)
  | cbld (a : Args) (d : Bool)
  | stash (a : Args)
  | unstash (a : Args)
  | waitm (a : Args)
  -- contraction and accumulator (09)
  | cx (a : Args) (x : CxExt)
  | cxs (a : Args) (x : CxExt)
  | cxt (a : Args) (n : BitVec 5) (x : CxExt)
  | accrd (a : Args) (d : Bool)
  | accwr (a : Args) (d : Bool)
  | accclr (a : Args)
  | accpk (a : Args) (x : PkExt)
  | accmv (a : Args)
  | accup (a : Args) (x : PkExt)
  -- engines (17)
  | bcopy (a : Args) (m : CopyMods)
  | sdef (a : Args) (m : SdefMods)
  | sfree (a : Args) (q : BitVec 3)
  | sstat (a : Args) (q : BitVec 3)
  | mdef (a : Args) (m : MdefMods)
  | mnext (a : Args) (thr : Bool)
  | mfree (a : Args)
  | qlen (a : Args) (q : BitVec 3)
  | mstat (a : Args)
  -- steps of a train and its units
  | sleepExpire (uid train : Nat)
  | tlaunchHoldExpire (uid train : Nat)
  | contractionComplete (uid job : Nat)
  | copyChunkDone (uid copy chunk : Nat)
  | streamFetch (uid train q : Nat)
  | longLatencyFill (uid train prod : Nat)
  | runSlot (core pipe : Nat)
  -- steps of the memory system
  | storePortPass (uid train : Nat)
  | homeWrite (req : Nat)
  | sharerUpdate (req core : Nat)
  | storeAck (req : Nat)
  | homeRead (uid train prod line : Nat)
  | replicaDrop (line slice : Nat)
  | l1Evict (core line : Nat)
  | l2Evict (line : Nat)
  | translationWalk (core ctx vpage : Nat)
  -- continuation atomics and the Platform
  | caslHome (req : Nat)
  | caslReserve (req : Nat)
  | caslHoldExpire (req : Nat)
  | platformAccept (slice n : Nat)
  | gatherWindowClose (core idx : Nat)
  | taskTrainPlace (core idx : Nat)
  | platformSteal (thief victim : Nat)
  -- the Timetable, traps and pre-emption
  | launchDoorbell (ctx queue : Nat)
  | launchReady (launch : Nat)
  | teamPlace (partition : Nat)
  | teamRetire (uid : Nat)
  | trapEntry (uid train : Nat)
  | deferredTrap (uid train : Nat)
  | preemptRequest (core : Nat)
  | vacate (core : Nat) (uids : List Nat)
  | teamRestore (uid core : Nat)
  -- power, monitors, boot, registers
  | arbiterPeriod (uncore : Nat) (full : List (Nat × Nat))
  | monitorSample (die : Nat) (x : Sample) (starts : List StartIn)
  | monitorClear (die off : Nat)
  | powerOnReset (starts : List StartIn)
  | hostResetRequest (starts : List StartIn)
  | firmwareUp (windows : List (Nat × Nat)) (device : Nat)
  | bootTimeout (starts : List StartIn)
  | budgetWrite (w : Nat)
  | pweightWrite (partition w : Nat)
  | registerWrite (pa size : Nat) (x : DWord)
  -- context commands
  | createContext (ctx : Nat)
  | destroyContext (ctx : Nat)
  | invalidateTranslation (ctx : Nat)
  | checkpointPhase1 (ctx : Nat)
  | checkpointPhase2 (ctx : Nat)
  | restore (ctx : Nat)
  | resumeTrappedTrain (ctx : Nat)
  | endTeam (ctx : Nat)
  | commandComplete (ctx : Nat)
  -- links, peers, host
  | flitReceive (port : Nat) (good : Bool) (items : List FlitItem)
  | linkSilenceTimeout (port : Nat)
  | peerRequest (r : PeerIn)
  | peerTimeout (tag : Nat)
  | hostWrite (pa : Nat) (bytes : List Byte)
  | hostRead (pa n : Nat)
  -- completions of held work
  | accumulatorInstructionComplete (uid job : Nat)
  | crdeclCrdropDone (uid train : Nat)
  | stashTransferDone (uid train : Nat)
  | modulePowerLoss
  | memoryError (place : ErrPlace) (corrected : Bool)
  | hostOwnershipRecall (line : Nat) (host : List (Nat × Byte))
  | notificationWindowEnd (ctx : Nat)
  deriving DecidableEq, Repr

end Sys2Proof
end

