-- ==== Sys2Proof/WellFormed.lean ====
section
/-!
DEFINITION. The encoding checks of step 2 of R32: the forms an opcode allows (R47), the operand
kinds each field accepts (R37, R56), the register groups (R14, R272), the Turntable (R38, R39), the
immediates (R38, R40), the reserved codes and unaccepted modifiers of each entry, the prefix codes
(R44, R119, R206, R271). An instruction that fails one raises ILLEGAL_INSTRUCTION.
-/
namespace Sys2Proof

/-- The operand kinds of R56, with the stream FIFO of R321. -/
inductive Kind | V | K | B | I | S | Q
  deriving DecidableEq, Repr

/-- What one specifier field accepts: the kinds (none: a dash) and the number of 32-bit registers
of a v or k operand. -/
structure FieldSig where
  kinds : List Kind
  n     : Nat
  deriving DecidableEq, Repr

/-- What an entry says of its word: the forms it allows; the fields; whether an F96 word with
fn[9] = 1 carries an immediate source (R38) or has a meaning of its own; whether an F128 extension
is a 64-bit immediate (R40); whether the instruction is memory-class (R43). -/
structure Sig where
  forms : List Form
  dst   : FieldSig
  s1    : FieldSig
  s2    : FieldSig
  s3    : FieldSig
  imm32 : Bool
  imm64 : Bool
  mem   : Bool
  deriving DecidableEq, Repr

/-- A field that is not used. -/
def dash : FieldSig := ⟨[], 1⟩
def kV : List Kind := [.V]
def kK : List Kind := [.K]
def kB : List Kind := [.B]
def kVK : List Kind := [.V, .K]
def kKI : List Kind := [.K, .I]
def kVKI : List Kind := [.V, .K, .I]

/-- Forms of the opcode map (R47): A, AB with both meanings, AB with the immediate or own meaning
only, C. -/
def fA : List Form := [.f64]
def fAB : List Form := [.f64, .f96t, .f96i]
def fABi : List Form := [.f64, .f96i]
def fC : List Form := [.f128]

/-- Two registers when wide, one otherwise. -/
def wide (d : Bool) : Nat := if d then 2 else 1

/-- A signature with an immediate meaning of F96. -/
def mkSig (forms : List Form) (dst s1 s2 s3 : FieldSig) : Sig :=
  ⟨forms, dst, s1, s2, s3, true, false, false⟩

/-- The signature of a memory-class instruction. -/
def mkMem (forms : List Form) (dst s1 s2 s3 : FieldSig) : Sig :=
  ⟨forms, dst, s1, s2, s3, true, false, true⟩

/-- No field used, F64. -/
def sigBare : Sig := mkSig fA dash dash dash dash

/-- The usual integer shape D, A, B of width `n`. -/
def sigAB (n : Nat) : Sig := mkSig fAB ⟨kVK, n⟩ ⟨kVKI, n⟩ ⟨kVKI, n⟩ dash

/-- The field of the random bits (R105). -/
def sigR (rm : BitVec 3) : FieldSig := if rm = 4 then ⟨kVK, 1⟩ else dash

/-- Registers of a size code of `ld` and `st` (R272). -/
def sizeRegs (size : BitVec 3) : Nat := if size = 3 then 2 else if size = 4 then 4 else 1

/-- The entry's signature of each instruction. A step of the device has no encoding. The spec gives `badd`, `lea`,
`glaunch`, `crdecl` and `cbld` an immediate, or a pair with `.d`: an immediate with `.d` is accepted too (log entry
129). -/
def sigOf : Instr → Sig
  | .nop _ => mkSig [.f64, .f96t, .f128] dash dash dash dash
  | .trap _ _ => { mkSig fABi dash dash dash dash with imm32 := false }
  | .exit _ => sigBare
  | .br _ _ _ => { mkSig fABi dash dash dash dash with imm32 := false }
  | .bri _ _ => mkSig fA dash ⟨kB, 1⟩ ⟨kVKI, 1⟩ dash
  | .call _ _ => { mkSig fABi ⟨kB, 1⟩ dash dash dash with imm32 := false }
  | .calli _ => mkSig fA ⟨kB, 1⟩ ⟨kB, 1⟩ dash dash
  | .ret _ => mkSig fA dash ⟨kB, 1⟩ dash dash
  | .rte _ => sigBare
  | .rteNext _ => sigBare
  | .rds _ d => mkSig fA ⟨[.V, .K, .B], wide d⟩ ⟨[.S], 1⟩ dash dash
  | .wrs _ d => mkSig fA ⟨[.S], 1⟩ ⟨[.V, .K, .I, .B], wide d⟩ dash dash
  | .yield _ => sigBare
  | .sleep _ => mkSig fABi dash ⟨kKI, 1⟩ dash dash
  | .loop _ _ _ => { mkSig fABi ⟨kK, 1⟩ dash dash dash with imm32 := false }
  | .mov _ m => mkSig fAB ⟨[.V, .K, .B], wide m.d⟩ ⟨[.V, .K, .I, .B], wide m.d⟩ dash dash
  | .movStream _ m => mkSig [.f64, .f96t] ⟨kV, wide m.d⟩ ⟨[.Q], 1⟩ dash dash
  | .li _ m => { mkSig [.f96i, .f128] ⟨[.V, .K, .B], wide m.d⟩ ⟨[.I], 1⟩ dash dash with imm64 := true }
  | .bset _ _ => mkSig fABi ⟨kB, 1⟩ ⟨kK, 2⟩ ⟨kKI, 1⟩ dash
  | .bget _ => mkSig fA ⟨kVK, 2⟩ ⟨kB, 1⟩ dash dash
  | .bgetHi _ => mkSig fA ⟨kVK, 1⟩ ⟨kB, 1⟩ dash dash
  | .badd _ m => mkSig fABi ⟨kB, 1⟩ ⟨kB, 1⟩ ⟨kKI, wide m.d⟩ dash
  | .sel _ m => sigAB (wide m.d)
  | .pand _ _ => sigBare
  | .por _ _ => sigBare
  | .pxor _ _ => sigBare
  | .pnot _ _ => sigBare
  | .pget _ => mkSig fA ⟨kVK, 1⟩ dash dash dash
  | .pset _ _ => mkSig fA dash ⟨kVKI, 1⟩ dash dash
  | .lea _ m => mkSig fAB ⟨[.V, .K, .B], 2⟩ ⟨kB, 1⟩ ⟨kVKI, wide m.d⟩ dash
  | .bcmp _ _ => mkSig fA dash ⟨kB, 1⟩ ⟨kB, 1⟩ dash
  | .iadd _ m => sigAB (wide m.d)
  | .isub _ m => sigAB (wide m.d)
  | .imul _ m => sigAB (wide m.d)
  | .imulh _ m => sigAB (wide m.d)
  | .imad _ m => mkSig fAB ⟨kVK, wide m.d⟩ ⟨kVKI, wide m.d⟩ ⟨kVKI, wide m.d⟩ ⟨kVKI, wide m.d⟩
  | .ineg _ m => mkSig fA ⟨kVK, wide m.d⟩ ⟨kVKI, wide m.d⟩ dash dash
  | .iabs _ m => mkSig fA ⟨kVK, wide m.d⟩ ⟨kVKI, wide m.d⟩ dash dash
  | .imin _ m => sigAB (wide m.d)
  | .imax _ m => sigAB (wide m.d)
  | .div _ m => sigAB (wide m.d)
  | .rem _ m => sigAB (wide m.d)
  | .icmp _ m => mkSig fAB dash ⟨kVKI, wide m.d⟩ ⟨kVKI, wide m.d⟩ dash
  | .imulw _ _ => mkSig fAB ⟨kVK, 2⟩ ⟨kVKI, 1⟩ ⟨kVKI, 1⟩ dash
  | .iaddx _ m => sigAB (wide m.d)
  | .isubx _ m => sigAB (wide m.d)
  | .isad _ _ => mkSig fAB ⟨kVK, 1⟩ ⟨kVKI, 1⟩ ⟨kVKI, 1⟩ ⟨kVKI, 1⟩
  | .and _ m => sigAB (wide m.d)
  | .or _ m => sigAB (wide m.d)
  | .xor _ m => sigAB (wide m.d)
  | .not _ m => mkSig fA ⟨kVK, wide m.d⟩ ⟨kVKI, wide m.d⟩ dash dash
  | .andn _ m => sigAB (wide m.d)
  | .shl _ m => mkSig fAB ⟨kVK, wide m.d⟩ ⟨kVKI, wide m.d⟩ ⟨kVKI, 1⟩ dash
  | .shr _ m => mkSig fAB ⟨kVK, wide m.d⟩ ⟨kVKI, wide m.d⟩ ⟨kVKI, 1⟩ dash
  | .sar _ m => mkSig fAB ⟨kVK, wide m.d⟩ ⟨kVKI, wide m.d⟩ ⟨kVKI, 1⟩ dash
  | .rotl _ m => mkSig fAB ⟨kVK, wide m.d⟩ ⟨kVKI, wide m.d⟩ ⟨kVKI, 1⟩ dash
  | .bfx _ m => mkSig fAB ⟨kVK, wide m.d⟩ ⟨kVKI, wide m.d⟩ ⟨kVKI, 1⟩ dash
  | .bfi _ m => mkSig fAB ⟨kVK, wide m.d⟩ ⟨kVKI, wide m.d⟩ ⟨kVKI, wide m.d⟩ ⟨kVKI, 1⟩
  | .popc _ m => mkSig fA ⟨kVK, 1⟩ ⟨kVK, wide m.d⟩ dash dash
  | .clz _ m => mkSig fA ⟨kVK, 1⟩ ⟨kVK, wide m.d⟩ dash dash
  | .ctz _ m => mkSig fA ⟨kVK, 1⟩ ⟨kVK, wide m.d⟩ dash dash
  | .brev _ m => mkSig fA ⟨kVK, wide m.d⟩ ⟨kVK, wide m.d⟩ dash dash
  | .lop3 _ _ d => mkSig fAB ⟨kVK, wide d⟩ ⟨kVKI, wide d⟩ ⟨kVKI, wide d⟩ ⟨kVKI, wide d⟩
  | .fadd _ m => mkSig fAB ⟨kVK, 1⟩ ⟨kVKI, 1⟩ ⟨kVKI, 1⟩ (sigR m.py)
  | .fsub _ m => mkSig fAB ⟨kVK, 1⟩ ⟨kVKI, 1⟩ ⟨kVKI, 1⟩ (sigR m.py)
  | .fmul _ m => mkSig fAB ⟨kVK, 1⟩ ⟨kVKI, 1⟩ ⟨kVKI, 1⟩ (sigR m.py)
  | .ffma _ _ => mkSig fAB ⟨kVK, 1⟩ ⟨kVKI, 1⟩ ⟨kVKI, 1⟩ ⟨kVKI, 1⟩
  | .fmin _ _ => sigAB 1
  | .fmax _ _ => sigAB 1
  | .fabs _ _ => mkSig fA ⟨kVK, 1⟩ ⟨kVKI, 1⟩ dash dash
  | .fneg _ _ => mkSig fA ⟨kVK, 1⟩ ⟨kVKI, 1⟩ dash dash
  | .fcmp _ _ => mkSig fAB dash ⟨kVKI, 1⟩ ⟨kVKI, 1⟩ dash
  | .fclass _ _ => mkSig fA ⟨kVK, 1⟩ ⟨kVK, 1⟩ dash dash
  | .fscale _ m => mkSig fAB ⟨kVK, 1⟩ ⟨kVKI, 1⟩ ⟨kVKI, 1⟩ (sigR m.py)
  | .fround _ m => mkSig fA ⟨kVK, 1⟩ ⟨kVKI, 1⟩ (sigR m.py) dash
  | .frcp _ _ => mkSig fA ⟨kVK, 1⟩ ⟨kVK, 1⟩ dash dash
  | .fsqrt _ _ => mkSig fA ⟨kVK, 1⟩ ⟨kVK, 1⟩ dash dash
  | .frsqrt _ _ => mkSig fA ⟨kVK, 1⟩ ⟨kVK, 1⟩ dash dash
  | .fexp2 _ _ => mkSig fA ⟨kVK, 1⟩ ⟨kVK, 1⟩ dash dash
  | .flog2 _ _ => mkSig fA ⟨kVK, 1⟩ ⟨kVK, 1⟩ dash dash
  | .fsin _ _ => mkSig fA ⟨kVK, 1⟩ ⟨kVK, 1⟩ dash dash
  | .fcos _ _ => mkSig fA ⟨kVK, 1⟩ ⟨kVK, 1⟩ dash dash
  | .ftanh _ _ => mkSig fA ⟨kVK, 1⟩ ⟨kVK, 1⟩ dash dash
  | .fdp2 _ _ => mkSig fAB ⟨kVK, 1⟩ ⟨kVKI, 1⟩ ⟨kVKI, 1⟩ ⟨kVKI, 1⟩
  | .fdp4 _ _ => mkSig fAB ⟨kVK, 1⟩ ⟨kVKI, 1⟩ ⟨kVKI, 1⟩ ⟨kVKI, 1⟩
  | .idp4 _ _ => mkSig fAB ⟨kVK, 1⟩ ⟨kVKI, 1⟩ ⟨kVKI, 1⟩ ⟨kVKI, 1⟩
  | .cvt _ rm dt st => mkSig fAB ⟨kVK, if 3 ≤ dt.toNat then 2 else 1⟩
      ⟨kVKI, if 3 ≤ st.toNat then 2 else 1⟩ (sigR rm) dash
  | .pack _ rm _ _ _ => mkSig fAB ⟨kVK, 1⟩ ⟨kVKI, 1⟩ ⟨kVKI, 1⟩ (sigR rm)
  | .unpack _ _ _ => mkSig fAB ⟨kVK, 1⟩ ⟨kVK, 1⟩ ⟨kVKI, 1⟩ dash
  | .cbdec _ _ _ => mkSig fA ⟨kVK, 2⟩ ⟨kVK, 1⟩ dash dash
  | .rnd _ _ => mkSig fAB ⟨kVK, 1⟩ ⟨kVK, 2⟩ ⟨kK, 2⟩ dash
  | .hadd2 _ m => mkSig fAB ⟨kVK, 1⟩ ⟨kVKI, 1⟩ ⟨kVKI, 1⟩ (sigR m.py)
  | .hmul2 _ m => mkSig fAB ⟨kVK, 1⟩ ⟨kVKI, 1⟩ ⟨kVKI, 1⟩ (sigR m.py)
  | .hfma2 _ _ => mkSig fAB ⟨kVK, 1⟩ ⟨kVKI, 1⟩ ⟨kVKI, 1⟩ ⟨kVKI, 1⟩
  | .hmax2 _ _ => sigAB 1
  | .join _ _ => sigBare
  | .jset _ op _ _ => if op.toNat ≤ 2 then mkSig fABi dash ⟨kKI, 2⟩ dash dash else sigBare
  | .jget _ _ => mkSig fA ⟨kVK, 2⟩ dash dash dash
  | .split _ _ => mkSig fA ⟨kK, 1⟩ dash dash dash
  | .fuse _ => mkSig fA ⟨kK, 1⟩ dash dash dash
  | .elect _ _ wr => mkSig fA (if wr then ⟨kK, 1⟩ else dash) dash dash dash
  | .vote _ _ _ op _ => mkSig fA (if op = 3 then ⟨kVK, 2⟩ else dash) dash dash dash
  | .perm _ _ d => mkSig fABi ⟨kVK, wide d⟩ ⟨kV, wide d⟩ ⟨kVKI, 1⟩ dash
  | .redx _ m => mkSig fA ⟨kVK, wide m.d⟩ ⟨kV, wide m.d⟩ dash dash
  | .scan _ m => mkSig fA ⟨kV, wide m.d⟩ ⟨kV, wide m.d⟩ dash dash
  | .rvinit _ _ => mkSig fABi dash ⟨kKI, 1⟩ ⟨kKI, 2⟩ dash
  | .arrive _ _ => sigBare
  | .await _ _ => sigBare
  | .arrwait _ _ => sigBare
  | .rgive _ _ => sigBare
  | .rtake _ _ => sigBare
  | .rtakeRole _ _ => sigBare
  | .glaunch _ d => mkSig fA ⟨kK, 1⟩ ⟨kB, 1⟩ ⟨kKI, wide d⟩ dash
  | .tlaunch _ _ => mkSig fAB ⟨kVK, 1⟩ ⟨kVKI, 2⟩ ⟨kVKI, 2⟩ ⟨kKI, 1⟩
  | .rvget _ f _ => mkSig fA ⟨kVK, if 2 ≤ f.toNat then 2 else 1⟩ dash dash dash
  | .matchLanes _ d => mkSig fA ⟨kVK, 2⟩ ⟨kV, wide d⟩ dash dash
  | .actv _ _ => mkSig fA ⟨kVK, 2⟩ dash dash dash
  | .ld _ size _ m => mkMem fAB ⟨kVK, sizeRegs size⟩ ⟨kB, 1⟩ ⟨kVKI, wide m.o64⟩ dash
  | .st _ size m => mkMem fAB dash ⟨kB, 1⟩ ⟨kVKI, wide m.o64⟩
      ⟨if size = 4 then kVK else kVKI, sizeRegs size⟩
  | .stCr _ size m => mkMem fAB dash ⟨kB, 1⟩ ⟨kVKI, wide m.o64⟩ ⟨kVKI, sizeRegs size⟩
  | .atom _ _ m d => mkMem fAB ⟨kVK, wide d⟩ ⟨kB, 1⟩ ⟨kVKI, wide m.o64⟩ ⟨kVKI, wide d⟩
  | .cas _ _ m d => mkMem fAB ⟨kVK, wide d⟩ ⟨kB, 1⟩ ⟨kVKI, wide m.o64⟩ ⟨kVKI, wide d⟩
  | .casl _ m => mkMem [.f64, .f128] ⟨kVK, if m.d then 4 else 2⟩ ⟨kB, 1⟩ ⟨kVKI, wide m.o64⟩
      ⟨kVKI, wide m.d⟩
  | .fence _ _ _ => mkMem fA dash dash dash dash
  | .pref _ _ m => mkMem fAB dash ⟨kB, 1⟩ ⟨kVKI, wide m.o64⟩ dash
  | .inval _ => mkMem fA dash ⟨kB, 1⟩ ⟨kVKI, 1⟩ dash
  | .invalAll _ => mkMem fA dash dash dash dash
  | .crdecl _ _ d => mkMem fABi ⟨kK, 1⟩ ⟨kB, 1⟩ ⟨kKI, wide d⟩ dash
  | .crdrop _ => mkMem fA ⟨kK, 1⟩ ⟨kB, 1⟩ dash dash
  | .cbld _ d => mkMem fA dash ⟨kB, 1⟩ ⟨kKI, wide d⟩ dash
  | .stash _ => mkMem fA dash ⟨kKI, 1⟩ ⟨kKI, 1⟩ dash
  | .unstash _ => mkMem fA dash ⟨kKI, 1⟩ ⟨kKI, 1⟩ dash
  | .waitm _ => mkMem fABi dash ⟨kKI, 1⟩ ⟨kKI, 1⟩ dash
  | .cx _ _ => mkSig [.f64, .f128] dash ⟨kV, 1⟩ ⟨kV, 1⟩ ⟨kK, 2⟩
  | .cxs _ _ => mkSig fC dash dash dash ⟨kK, 2⟩
  | .cxt _ _ _ => mkSig fC dash dash dash ⟨kK, 2⟩
  | .accrd _ d => mkSig fABi ⟨kV, wide d⟩ ⟨kKI, 1⟩ ⟨kVKI, 1⟩ dash
  | .accwr _ d => mkSig fABi dash ⟨kKI, 1⟩ ⟨kVKI, 1⟩ ⟨kVK, wide d⟩
  | .accclr _ => mkSig fA dash ⟨kK, 1⟩ dash dash
  | .accpk _ _ => mkSig fC dash dash dash ⟨kK, 2⟩
  | .accmv _ => mkSig fABi dash ⟨kK, 1⟩ ⟨kKI, 1⟩ dash
  | .accup _ _ => mkSig fC dash dash dash ⟨kK, 2⟩
  | .bcopy _ m => mkSig fC dash (if m.dir = 2 then dash else ⟨kB, 1⟩) ⟨kVK, 1⟩ ⟨kVK, 1⟩
  | .sdef _ _ => mkSig fC ⟨kK, 1⟩ ⟨kK, 1⟩ ⟨kKI, 1⟩ ⟨kK, 1⟩
  | .sfree _ _ => sigBare
  | .sstat _ _ => mkSig fA ⟨kVK, 2⟩ dash dash dash
  | .mdef _ _ => mkSig fC ⟨kK, 1⟩ ⟨kKI, 1⟩ dash dash
  | .mnext _ thr => mkSig fA ⟨kK, 1⟩ ⟨kKI, 1⟩ (if thr then ⟨kKI, 1⟩ else dash) dash
  | .mfree _ => sigBare
  | .qlen _ _ => mkSig fA ⟨kVK, 1⟩ dash dash dash
  | .mstat _ => mkSig fA ⟨kVK, 2⟩ dash dash dash
  | _ => mkSig [] dash dash dash dash

/-- The common part of an instruction; none for a step of the device. -/
def argsOf : Instr → Option Args
  | .nop a | .trap a _ | .exit a | .br a _ _ | .bri a _ | .call a _ | .calli a | .ret a | .rte a
  | .rteNext a | .rds a _ | .wrs a _ | .yield a | .sleep a | .loop a _ _ | .mov a _
  | .movStream a _ | .li a _ | .bset a _ | .bget a | .bgetHi a | .badd a _ | .sel a _ | .pand a _
  | .por a _ | .pxor a _ | .pnot a _ | .pget a | .pset a _ | .lea a _ | .bcmp a _ | .iadd a _
  | .isub a _ | .imul a _ | .imulh a _ | .imad a _ | .ineg a _ | .iabs a _ | .imin a _ | .imax a _
  | .div a _ | .rem a _ | .icmp a _ | .imulw a _ | .iaddx a _ | .isubx a _ | .isad a _ | .and a _
  | .or a _ | .xor a _ | .not a _ | .andn a _ | .shl a _ | .shr a _ | .sar a _ | .rotl a _
  | .bfx a _ | .bfi a _ | .popc a _ | .clz a _ | .ctz a _ | .brev a _ | .lop3 a _ _ | .fadd a _
  | .fsub a _ | .fmul a _ | .ffma a _ | .fmin a _ | .fmax a _ | .fabs a _ | .fneg a _ | .fcmp a _
  | .fclass a _ | .fscale a _ | .fround a _ | .frcp a _ | .fsqrt a _ | .frsqrt a _ | .fexp2 a _
  | .flog2 a _ | .fsin a _ | .fcos a _ | .ftanh a _ | .fdp2 a _ | .fdp4 a _ | .idp4 a _
  | .cvt a _ _ _ | .pack a _ _ _ _ | .unpack a _ _ | .cbdec a _ _ | .rnd a _ | .hadd2 a _
  | .hmul2 a _ | .hfma2 a _ | .hmax2 a _ | .join a _ | .jset a _ _ _ | .jget a _ | .split a _
  | .fuse a | .elect a _ _ | .vote a _ _ _ _ | .perm a _ _ | .redx a _ | .scan a _ | .rvinit a _
  | .arrive a _ | .await a _ | .arrwait a _ | .rgive a _ | .rtake a _ | .rtakeRole a _
  | .glaunch a _ | .tlaunch a _ | .rvget a _ _ | .matchLanes a _ | .actv a _ | .ld a _ _ _
  | .st a _ _ | .stCr a _ _ | .atom a _ _ _ | .cas a _ _ _ | .casl a _ | .fence a _ _ | .pref a _ _
  | .inval a | .invalAll a | .crdecl a _ _ | .crdrop a | .cbld a _ | .stash a | .unstash a
  | .waitm a | .cx a _ | .cxs a _ | .cxt a _ _ | .accrd a _ | .accwr a _ | .accclr a | .accpk a _
  | .accmv a | .accup a _ | .bcopy a _ | .sdef a _ | .sfree a _ | .sstat a _ | .mdef a _
  | .mnext a _ | .mfree a | .qlen a _ | .mstat a => some a
  | .sleepExpire .. | .tlaunchHoldExpire .. | .contractionComplete .. | .copyChunkDone ..
  | .streamFetch .. | .longLatencyFill .. | .runSlot .. | .storePortPass .. | .homeWrite ..
  | .sharerUpdate .. | .storeAck .. | .homeRead .. | .replicaDrop .. | .l1Evict .. | .l2Evict ..
  | .translationWalk .. | .caslHome .. | .caslReserve .. | .caslHoldExpire .. | .platformAccept ..
  | .gatherWindowClose .. | .taskTrainPlace .. | .platformSteal .. | .launchDoorbell ..
  | .launchReady .. | .teamPlace .. | .teamRetire .. | .trapEntry .. | .deferredTrap ..
  | .preemptRequest .. | .vacate .. | .teamRestore .. | .arbiterPeriod .. | .monitorSample ..
  | .monitorClear .. | .powerOnReset .. | .hostResetRequest .. | .firmwareUp .. | .bootTimeout ..
  | .budgetWrite .. | .pweightWrite .. | .registerWrite .. | .createContext .. | .destroyContext ..
  | .invalidateTranslation .. | .checkpointPhase1 .. | .checkpointPhase2 .. | .restore ..
  | .resumeTrappedTrain .. | .endTeam .. | .commandComplete .. | .flitReceive ..
  | .linkSilenceTimeout .. | .peerRequest .. | .peerTimeout .. | .hostWrite .. | .hostRead ..
  | .accumulatorInstructionComplete .. | .crdeclCrdropDone .. | .stashTransferDone ..
  | .modulePowerLoss | .memoryError .. | .hostOwnershipRecall .. | .notificationWindowEnd .. => none

/-- Width in bits of a special register, 0 where the index names none (R16, R17). -/
def sregWidth (i : BitVec 6) : Nat :=
  match i.toNat with
  | 0 => 6 | 1 => 6 | 2 => 7 | 3 => 6 | 4 => 32 | 5 => 6 | 6 => 32 | 7 => 11 | 8 => 4
  | 9 => 64 | 10 => 32 | 11 => 32 | 12 => 80 | 13 => 64 | 14 => 12 | 15 => 32 | 16 => 80 | 17 => 80
  | _ => 0

/-- The special registers a program may write (R17). -/
def sregWritable (i : BitVec 6) : Bool :=
  i == 9 || i == 10 || i == 11 || i == 12 || i == 15 || i == 16

/-- The kind of an operand, none for an unused field. -/
def Opnd.kind : Opnd → Option Kind
  | .none => Option.none
  | .v .. => some .V
  | .k _ => some .K
  | .q _ => some .Q
  | .b _ => some .B
  | .imm _ => some .I
  | .sreg _ => some .S

def Opnd.isImm : Opnd → Bool
  | .imm _ => true
  | _ => false

def Opnd.isV : Opnd → Bool
  | .v .. => true
  | _ => false

def Opnd.isB : Opnd → Bool
  | .b _ => true
  | _ => false

/-- A Turntable specification R39 allows. -/
def Turn.ok (t : Turn) : Bool :=
  t.pat.toNat ≤ 5 && (!(t.pat == 0 || t.pat == 4) || t.k == 0)

/-- The low `n` bits of `x`, sign-extended, give `x` back. -/
def fitsSigned (x : DWord) (n : Nat) : Bool := (x.setWidth n).signExtend 64 == x

/-- An operand a field accepts in the given form (R14, R36 to R40, R56). `imm64` says that an F128
extension carries an immediate. An F96 word with fn[9] = 0 takes the signed 6-bit immediate of F64
(DESIGN CHOICE, log entry 125: R56 names only the other forms). -/
def Opnd.ok (o : Opnd) (fs : FieldSig) (form : Form) (imm32 imm64 : Bool) : Bool :=
  match o with
  | .none => fs.kinds.isEmpty
  | .v r _ t => fs.kinds.contains .V && r.toNat % fs.n == 0 &&
      (if form = .f96t then t.ok else t == Turn.id)
  | .k r => fs.kinds.contains .K && r.toNat % fs.n == 0
  | .q _ => fs.kinds.contains .Q
  | .b _ => fs.kinds.contains .B
  | .sreg _ => fs.kinds.contains .S
  | .imm x => fs.kinds.contains .I &&
      (if form = .f96i && imm32 then fitsSigned x 32
       else if form = .f128 && imm64 then true else fitsSigned x 6)

/-- A destination carries neither an empty bit nor a Turntable specification (R33, R39). -/
def Opnd.plainDst : Opnd → Bool
  | .v _ e t => !e && t == Turn.id
  | _ => true

/-- Immediate-form sources among the three. -/
def immCount (a : Args) : Nat :=
  a.s1.isImm.toNat + a.s2.isImm.toNat + a.s3.isImm.toNat

/-- Forms, guard (R35), operands and immediates of an instruction against its signature. -/
def argsOk (sg : Sig) (a : Args) : Bool :=
  sg.forms.contains a.form && !(a.guard == 7 && a.gneg) &&
  a.dst.ok sg.dst a.form sg.imm32 sg.imm64 && a.dst.plainDst &&
  a.s1.ok sg.s1 a.form sg.imm32 sg.imm64 && a.s2.ok sg.s2 a.form sg.imm32 sg.imm64 &&
  a.s3.ok sg.s3 a.form sg.imm32 sg.imm64 &&
  (!(a.form == .f96i && sg.imm32) || immCount a == 1) &&
  (sg.mem || a.pre.isNone)

/-- fn of the shared layout with only the named fields allowed (R57, R102). -/
def Mods.only (m : Mods) (px py s u d : Bool) : Bool :=
  (px || m.px == 0) && (py || m.py == 0) && (s || !m.s) && (u || !m.u) && (d || !m.d)

/-- The address fields of R268. -/
def AddrMods.ok (m : AddrMods) : Bool := m.scale.toNat ≤ 4 && !(m.o64 && m.scale != 0)

/-- In an F96 word with fn[9] = 1 the extension is source 2 (R268, R283). -/
def extIsS2 (a : Args) : Bool := a.form != .f96i || a.s2.isImm

/-- The codes 1–11 of R83 with an element size. -/
def fmtKnown (f : BitVec 4) : Bool := f.toNat ≤ 11

/-- Integer and offset element formats (R83). -/
def fmtInt (f : BitVec 4) : Bool := f == 6 || f == 7 || f == 8 || f == 9 || f == 11

/-- The modifier checks of each entry, beyond the operand fields. -/
def modsOk : Instr → Bool
  | .trap a code => a.form != .f64 || code.toNat < 512
  | .br a _ off => a.form != .f64 || fitsSigned (off.signExtend 64) 27
  | .call a off => a.form != .f64 || fitsSigned (off.signExtend 64) 27
  | .loop a _ off => a.form != .f64 || fitsSigned (off.signExtend 64) 27
  | .rds a d => match a.s1, a.dst with
      | .sreg i, .b _ => sregWidth i == 80 && !d
      | .sreg i, _ => (0 < sregWidth i && sregWidth i ≤ 32 && !d) || (sregWidth i == 64 && d)
      | _, _ => false
  | .wrs a d => match a.dst, a.s1 with
      | .sreg i, .b _ => sregWritable i && sregWidth i == 80 && !d
      | .sreg i, _ => sregWritable i &&
          ((sregWidth i ≤ 32 && !d) || (sregWidth i == 64 && d))
      | _, _ => false
  | .yield a => a.stop
  | .mov a m => m.only false false false false true && (a.dst.isB == a.s1.isB) &&
      (!a.dst.isB || !m.d)
  | .movStream _ m => m.only false false false false true
  | .li a m => m.only false false false false true &&
      (if a.form = .f128 then a.dst.isB == !m.d else !a.dst.isB)
  | .bset _ m => m.only false false false false false
  | .badd _ m => m.only false false false false true
  | .sel _ m => m.only true true false false true && m.px.toNat ≤ 1
  | .pnot _ m => m.pb == 0 && !m.inv
  | .lea _ m => m.only false true false false true && m.py.toNat ≤ 4 && !(m.d && m.py != 0)
  | .bcmp _ m => m.only true true false false false && m.py.toNat ≤ 5
  | .iadd _ m | .isub _ m | .imul _ m | .imad _ m =>
      m.only false false true true true && !(m.u && !m.s)
  | .imulh _ m => m.only false false false true true
  | .ineg _ m | .iabs _ m => m.only false false true false true
  | .imin _ m | .imax _ m | .div _ m | .rem _ m => m.only false false false true true
  | .icmp _ m => m.only true true false true true && m.py.toNat ≤ 5
  | .imulw _ m | .isad _ m => m.only false false false true false
  | .iaddx _ m | .isubx _ m => m.only true true true false true && (m.s || m.py == 0)
  | .and _ m | .or _ m | .xor _ m | .not _ m | .andn _ m | .shl _ m | .shr _ m | .sar _ m
  | .rotl _ m | .bfi _ m | .popc _ m | .clz _ m | .ctz _ m | .brev _ m =>
      m.only false false false false true
  | .bfx _ m => m.only false false false true true
  | .fadd _ m | .fsub _ m | .fmul _ m | .fscale _ m | .fround _ m =>
      m.only false true false false false && m.py.toNat ≤ 4
  | .ffma _ m | .frcp _ m | .fsqrt _ m => m.only false true false false false && m.py.toNat ≤ 3
  | .fmin _ m | .fmax _ m | .fabs _ m | .fneg _ m | .fclass _ m | .frsqrt _ m | .fexp2 _ m
  | .flog2 _ m | .fsin _ m | .fcos _ m | .ftanh _ m => m.only false false false false false
  | .fcmp _ m => m.only true true false false false
  | .fdp2 _ m => m.only false true false true false && m.py.toNat ≤ 3
  | .fdp4 _ m => m.only false true false true true && m.py.toNat ≤ 3
  | .idp4 _ m => m.only false false true true true
  | .cvt _ rm dt st => rm.toNat ≤ 4 && dt.toNat ≤ 4 && st.toNat ≤ 4 && dt != st &&
      (dt == 0 || st == 0 || rm == 0)
  | .pack _ rm ov f int => rm.toNat ≤ 4 && fmtKnown f && f != 0 && f != 10 &&
      !(ov && fmtInt f) && !(rm != 0 && int && fmtInt f)
  | .unpack _ f int => fmtKnown f && f != 0 && f != 10 && !(int && !fmtInt f)
  | .hadd2 _ m | .hmul2 _ m => m.only false true true true false && m.py.toNat ≤ 4
  | .hfma2 _ m => m.only false true true true false && m.py.toNat ≤ 3
  | .hmax2 _ m => m.only false false false true false
  | .jset _ op _ p => op.toNat ≤ 5 && (4 ≤ op.toNat || p == 0)
  | .split _ w => w.toNat ≤ 4
  | .vote _ _ pd op _ => op.toNat ≤ 3 && (op != 3 || pd == 0)
  | .redx _ m => !m.excl && redOk m
  | .scan _ m => redOk m
  | .rvinit _ n | .arrive _ n | .await _ n | .arrwait _ n | .rvget _ _ n | .cxt _ n _ => n.toNat < 24
  | .rgive _ n | .rtake _ n => n != 0
  | .tlaunch _ scope => scope.toNat ≤ 6
  | .actv _ w => w != 3
  | .ld a size sx m => size.toNat ≤ 4 && (!sx || size.toNat ≤ 1) && m.ok && extIsS2 a
  | .st a size m => size.toNat ≤ 4 && m.ok && extIsS2 a
  | .stCr a size m => (size == 2 || size == 3) && m.ok && extIsS2 a &&
      (match a.pre with | some p => p.cr | none => false)
  | .atom a op m d => op.toNat ≤ 10 && !(d && 9 ≤ op.toNat) && m.ok && extIsS2 a
  | .cas a _ m _ => m.ok && extIsS2 a
  | .casl a m => AddrMods.ok ⟨m.scale, m.o64⟩ &&
      (match m.pay with
       | .none => true
       | .v r _ t => r != 0 && r.toNat % 2 == 0 && t == Turn.id
       | .k r => r.toNat % 2 == 0
       | _ => false) &&
      (a.form != .f64 || (m.scale == 0 && !m.o64 && m.pay == .none))
  | .fence _ scope order => scope.toNat ≤ 6 && order.toNat ≤ 5
  | .pref a _ m => m.ok && extIsS2 a
  | .waitm a => extIsS2 a
  | .cx a x => a.form != .f64 || x == ⟨0, 0, 0, 0, 0, 0, 0, 0, 0⟩
  | .bcopy _ m => m.dir != 3 && (if m.arv then m.rv.toNat < 24 else m.rv == 0) && m.pol != 3 &&
      (m.bm || m.bmoff == 0) && (m.tr || m.es == 0) && (m.dir == 2 || m.sib == 0) &&
      (m.dir != 2 || (m.pol == 0 && m.stride == 0)) &&
      (!m.tr || m.dir == 0) &&
      ((m.len.toNat + 1) * 16) % (16 * 2 ^ m.span.toNat) == 0 &&
      (!m.tr || ((m.len.toNat + 1) * 16) % (2 ^ m.es.toNat) == 0)
  | .sdef _ m => !(m.sx && m.dir) && (!m.dir || m.b == 0)
  | .mdef _ m => !m.scr || m.q == 0
  | _ => true
where
  /-- The fn bits each row of R171 accepts. -/
  redOk (m : RedMods) : Bool :=
    match m.op.toNat with
    | 0 => !m.u || m.s
    | 1 | 2 => !m.s
    | 3 | 4 | 5 => !m.s && !m.u
    | 6 | 7 | 8 => !m.s && !m.u && !m.d
    | _ => false

/-- A code of the P64 prefix that R42 does not reserve. -/
def Prefix.known (p : Prefix) : Bool :=
  p.order.toNat ≤ 5 && p.scope.toNat ≤ 6 && p.space.toNat ≤ 5 && p.policy.toNat ≤ 6

/-- Every field of the prefix lies in the lists given; code 0 is always accepted (R42, R44). -/
def Prefix.within (p : Prefix) (orders : List Nat) (scopes : Bool) (spaces policies : List Nat)
    (nochk : Bool) : Bool :=
  p.known && (p.order == 0 || orders.contains p.order.toNat) && (scopes || p.scope == 0) &&
  (p.space == 0 || spaces.contains p.space.toNat) &&
  (p.policy == 0 || policies.contains p.policy.toNat) && !p.cr && (nochk || !p.nochk)

/-- A load or store that the prefix sends to the accumulator space has 4 or 8 bytes (R215). -/
def Prefix.accSize (p : Prefix) (size : BitVec 3) : Bool := p.space != 3 || size == 2 || size == 3

/-- The prefix codes an instruction accepts (R271, R119, R206, R275). -/
def prefixOk (i : Instr) (p : Prefix) : Bool :=
  match i with
  | .ld _ size _ _ => p.within [1, 2, 5] true [1, 2, 3, 4, 5] [1, 2, 3, 4, 5, 6] true && p.accSize size
  | .st _ size _ => p.within [1, 3, 5] true [1, 2, 3, 4, 5] [1, 2, 3, 5, 6] false && p.accSize size
  | .stCr .. => { p with cr := false }.within [1, 3] true [1] [1, 2, 3, 5, 6] false
  | .atom .. | .cas .. => p.within [1, 2, 3, 4, 5] true [1, 2, 4, 5] [1, 2, 3, 6] true
  | .casl .. => p.within [1, 2, 3, 4, 5] true [1] [1, 2, 3, 6] true
  | .pref .. => p.within [] false [1] [1, 2, 3, 4] false
  | .waitm .. => p.within [1, 2] true [2, 4] [] false
  | .cbld .. => p.within [1, 2] true [1] [1, 2, 3, 4, 5, 6] true
  | .stash .. | .unstash .. => p.within [] false [] [1, 2, 3, 6] false
  | _ => p.within [] false [] [] false

/-- The instruction passes every check of step 2 of R32 that its words alone decide. A step of the
device is no instruction. -/
def wellFormed (i : Instr) : Bool :=
  match argsOf i with
  | none => false
  | some a =>
    argsOk (sigOf i) a && modsOk i &&
    (match a.pre with
     | none => true
     | some p => prefixOk i p)

end Sys2Proof
end

