-- ==== Sys2Proof/Decode.lean ====
section
/-!
DEFINITION. Decoding a unit (an instruction, or a prefix with its instruction) from its bytes, and
the encoder, from the tables of R30 to R43, R47 and each instruction's entry. The decoder reads the
fields, then keeps the instruction only when it is well formed and its own encoding gives back the
word: a reserved field with a nonzero value is a bit the instruction does not carry (R5).
-/
namespace Sys2Proof

/-- Why a unit has no instruction. Every case but `truncated` raises ILLEGAL_INSTRUCTION (R32). -/
inductive DecodeError
  /-- fewer bytes than the length bits ask for -/
  | truncated
  /-- R47: an unassigned opcode, or a modifier code with no instruction -/
  | unassigned
  /-- R43: a prefix before a prefix or before an instruction that is not memory-class -/
  | prefixPlacement
  /-- R36, R37: a reserved operand specifier -/
  | operand
  /-- R32 step 2: the entry does not accept a form, operand kind, modifier or prefix code -/
  | notAccepted
  /-- R5, R33: a reserved field is not zero -/
  | reserved
  deriving DecidableEq, Repr

/-- The fields of an instruction word (R33) with its extension and prefix. -/
structure Raw where
  len   : BitVec 2
  stop  : Bool
  op    : BitVec 8
  guard : BitVec 3
  gneg  : Bool
  dst   : BitVec 9
  s1    : BitVec 9
  s2    : BitVec 9
  s3    : BitVec 9
  e1    : Bool
  e2    : Bool
  e3    : Bool
  fn    : BitVec 10
  ext   : DWord
  pre   : Option Prefix
  deriving DecidableEq, Repr

/-- The 64 bits of R33. -/
def Raw.word (r : Raw) : DWord :=
  r.fn ++ BitVec.ofBool r.e3 ++ BitVec.ofBool r.e2 ++ BitVec.ofBool r.e1 ++ r.s3 ++ r.s2 ++ r.s1 ++
    r.dst ++ BitVec.ofBool r.gneg ++ r.guard ++ r.op ++ BitVec.ofBool r.stop ++ r.len

/-- The fields of a 64-bit word (R33). -/
def rawOf (w ext : DWord) (pre : Option Prefix) : Raw where
  len := w.extractLsb' 0 2
  stop := w.getLsbD 2
  op := w.extractLsb' 3 8
  guard := w.extractLsb' 11 3
  gneg := w.getLsbD 14
  dst := w.extractLsb' 15 9
  s1 := w.extractLsb' 24 9
  s2 := w.extractLsb' 33 9
  s3 := w.extractLsb' 42 9
  e1 := w.getLsbD 51
  e2 := w.getLsbD 52
  e3 := w.getLsbD 53
  fn := w.extractLsb' 54 10
  ext := ext
  pre := pre

/-- The P64 word (R41). -/
def Prefix.word (p : Prefix) : DWord :=
  (0 : BitVec 46) ++ BitVec.ofBool p.nochk ++ BitVec.ofBool p.cr ++ p.policy ++ p.space ++ p.scope ++
    p.order ++ (0 : BitVec 1) ++ (3 : BitVec 2)

/-- The fields of a P64 word (R41). -/
def prefixOf (w : DWord) : Prefix where
  nochk := w.getLsbD 17
  cr := w.getLsbD 16
  policy := w.extractLsb' 12 4
  space := w.extractLsb' 9 3
  scope := w.extractLsb' 6 3
  order := w.extractLsb' 3 3

/-! ## Operand specifiers (R36) -/

/-- The specifier of an operand. An immediate carried by the extension has the value 0. -/
def Opnd.code (o : Opnd) (inExt : Bool) : BitVec 9 :=
  match o with
  | .none => 0
  | .v r _ _ => (0 : BitVec 1) ++ r
  | .k r => (4 : BitVec 3) ++ r
  | .q r => (0x28 : BitVec 6) ++ r
  | .b r => (0x15 : BitVec 5) ++ r
  | .imm x => (6 : BitVec 3) ++ (if inExt then 0 else x.setWidth 6)
  | .sreg i => (7 : BitVec 3) ++ i

def Opnd.ebit : Opnd → Bool
  | .v _ e _ => e
  | _ => false

/-- The 10 bits of a Turntable specification (R38). -/
def Opnd.turn : Opnd → BitVec 10
  | .v _ _ t => t.k ++ t.pat
  | _ => 0

/-- The operand that a specifier names (R36): `e` its empty bit, `t` its Turntable bits, `ext` the
value of an immediate that the extension carries. -/
def opndOf (c : BitVec 9) (e : Bool) (t : BitVec 10) (ext : Option DWord) : Option Opnd :=
  if c.getLsbD 8 = false then some (.v (c.setWidth 8) e ⟨t.setWidth 3, t.extractLsb' 3 7⟩)
  else
    match (c.extractLsb' 6 2).toNat with
    | 0 => some (.k (c.setWidth 6))
    | 1 => if c.extractLsb' 3 3 = 0 then some (.q (c.setWidth 3))
           else if c.extractLsb' 4 2 = 1 then some (.b (c.setWidth 4)) else none
    | 2 => match ext with
           | some x => if c.setWidth 6 = (0 : BitVec 6) then some (.imm x) else none
           | none => some (.imm ((c.setWidth 6).signExtend 64))
    | _ => some (.sreg (c.setWidth 6))

/-! ## The encoder -/

/-- The length bits (R30). -/
def Form.bits : Form → BitVec 2
  | .f64 => 0
  | .f96t => 1
  | .f96i => 1
  | .f128 => 2

/-- Bytes of a form (R30). -/
def Form.bytes : Form → Nat
  | .f64 => 8
  | .f96t => 12
  | .f96i => 12
  | .f128 => 16

/-- fn of the shared layout (R57, R102). -/
def Mods.fn (m : Mods) : BitVec 9 :=
  m.px ++ m.py ++ BitVec.ofBool m.s ++ BitVec.ofBool m.u ++ BitVec.ofBool m.d

def modsOf (fn : BitVec 10) : Mods :=
  ⟨fn.extractLsb' 6 3, fn.extractLsb' 3 3, fn.getLsbD 2, fn.getLsbD 1, fn.getLsbD 0⟩

def PredMods.fn (m : PredMods) : BitVec 10 := BitVec.ofBool m.inv ++ m.pb ++ m.pa ++ m.pd

def predModsOf (fn : BitVec 10) : PredMods :=
  ⟨fn.extractLsb' 0 3, fn.extractLsb' 3 3, fn.extractLsb' 6 3, fn.getLsbD 9⟩

def RedMods.fn (m : RedMods) : BitVec 9 :=
  (0 : BitVec 1) ++ BitVec.ofBool m.excl ++ m.op ++ BitVec.ofBool m.s ++ BitVec.ofBool m.u ++
    BitVec.ofBool m.d

def redModsOf (fn : BitVec 10) : RedMods :=
  ⟨fn.getLsbD 7, fn.extractLsb' 3 4, fn.getLsbD 2, fn.getLsbD 1, fn.getLsbD 0⟩

/-- Bits [4:1] of R268. -/
def AddrMods.bits (m : AddrMods) : BitVec 4 := m.scale ++ BitVec.ofBool m.o64

def addrModsOf (fn : BitVec 10) : AddrMods := ⟨fn.extractLsb' 2 3, fn.getLsbD 1⟩

def CxExt.word (x : CxExt) : DWord :=
  x.bs ++ x.as_ ++ x.sbs ++ x.sas ++ x.goff ++ (0 : BitVec 8) ++ x.sb ++ x.sa ++ x.b ++ x.a

def cxExtOf (w : DWord) : CxExt :=
  ⟨w.extractLsb' 56 8, w.extractLsb' 48 8, w.extractLsb' 40 8, w.extractLsb' 32 8,
   w.extractLsb' 24 8, w.extractLsb' 12 4, w.extractLsb' 8 4, w.extractLsb' 4 4, w.extractLsb' 0 4⟩

def PkExt.word (x : PkExt) : DWord := (0 : BitVec 40) ++ x.ss ++ x.ds ++ x.s ++ x.d

def pkExtOf (w : DWord) : PkExt :=
  ⟨w.extractLsb' 16 8, w.extractLsb' 8 8, w.extractLsb' 4 4, w.extractLsb' 0 4⟩

def CopyMods.fn (m : CopyMods) : BitVec 9 :=
  m.rv ++ BitVec.ofBool m.arv ++ (0 : BitVec 1) ++ m.dir

def CopyMods.word (m : CopyMods) : DWord :=
  m.stride ++ BitVec.ofBool m.tr ++ m.span ++ m.bmoff ++ BitVec.ofBool m.bm ++ m.rows ++ m.len ++
    m.es ++ m.sib ++ m.pol

def copyModsOf (fn : BitVec 10) (w : DWord) : CopyMods where
  dir := fn.extractLsb' 0 2
  arv := fn.getLsbD 3
  rv := fn.extractLsb' 4 5
  stride := w.extractLsb' 52 12
  tr := w.getLsbD 51
  span := w.extractLsb' 48 3
  bmoff := w.extractLsb' 30 18
  bm := w.getLsbD 29
  rows := w.extractLsb' 18 11
  len := w.extractLsb' 6 12
  es := w.extractLsb' 4 2
  sib := w.extractLsb' 2 2
  pol := w.extractLsb' 0 2

def SdefMods.fn (m : SdefMods) : BitVec 9 :=
  BitVec.ofBool m.sx ++ BitVec.ofBool m.dir ++ m.isz ++ m.asz ++ m.q

def SdefMods.word (m : SdefMods) : DWord := (0 : BitVec 52) ++ m.sv ++ m.b ++ m.a

def sdefModsOf (fn : BitVec 10) (w : DWord) : SdefMods :=
  ⟨fn.getLsbD 8, fn.getLsbD 7, fn.extractLsb' 5 2, fn.extractLsb' 3 2, fn.extractLsb' 0 3,
   w.extractLsb' 0 4, w.extractLsb' 4 4, w.extractLsb' 8 4⟩

def MdefMods.fn (m : MdefMods) : BitVec 9 :=
  (0 : BitVec 4) ++ m.q ++ BitVec.ofBool m.scr ++ BitVec.ofBool m.fkey

def mdefModsOf (fn : BitVec 10) (w : DWord) : MdefMods :=
  ⟨fn.extractLsb' 2 3, fn.getLsbD 1, fn.getLsbD 0, w.extractLsb' 32 32, w.extractLsb' 0 32⟩

/-- The extension of an F128 `casl` (R278). -/
def CaslMods.word (m : CaslMods) : DWord :=
  (0 : BitVec 50) ++ BitVec.ofBool m.pay.ebit ++ m.pay.code false ++ BitVec.ofBool m.o64 ++ m.scale

/-- Opcode, fn[8:0] and the extension that an instruction's modifiers give; fn[9] where the entry
defines it. -/
structure Code where
  op  : BitVec 8
  fn  : BitVec 9 := 0
  top : Bool := false
  ext : DWord := 0

/-- Each instruction's opcode (R47) and function field. -/
def codeOf : Instr → Code
  | .nop _ => { op := 0x00 }
  | .trap a code => if a.form = .f64 then { op := 0x01, fn := code.setWidth 9 }
      else { op := 0x01, ext := code.setWidth 64 }
  | .exit _ => { op := 0x02 }
  | .br _ h _ => { op := 0x03, fn := (BitVec.ofBool h).setWidth 9 }
  | .bri _ h => { op := 0x04, fn := (BitVec.ofBool h).setWidth 9 }
  | .call _ _ => { op := 0x05 }
  | .calli _ => { op := 0x06 }
  | .ret _ => { op := 0x07 }
  | .rte _ => { op := 0x08 }
  | .rteNext _ => { op := 0x08, fn := 1 }
  | .rds _ d => { op := 0x09, fn := (BitVec.ofBool d).setWidth 9 }
  | .wrs _ d => { op := 0x0A, fn := (BitVec.ofBool d).setWidth 9 }
  | .yield _ => { op := 0x0B }
  | .sleep _ => { op := 0x0C }
  | .loop _ h _ => { op := 0x0D, fn := (BitVec.ofBool h).setWidth 9 }
  | .mov _ m => { op := 0x10, fn := m.fn }
  | .movStream _ m => { op := 0x10, fn := m.fn }
  | .li _ m => { op := 0x11, fn := m.fn }
  | .bset _ m => { op := 0x12, fn := m.fn }
  | .bget _ => { op := 0x13 }
  | .bgetHi _ => { op := 0x13, fn := 1 }
  | .badd _ m => { op := 0x14, fn := m.fn }
  | .sel _ m => { op := 0x15, fn := m.fn }
  | .pand _ m => { op := 0x16, fn := m.fn.setWidth 9, top := m.inv }
  | .por _ m => { op := 0x17, fn := m.fn.setWidth 9, top := m.inv }
  | .pxor _ m => { op := 0x18, fn := m.fn.setWidth 9, top := m.inv }
  | .pnot _ m => { op := 0x19, fn := m.fn.setWidth 9, top := m.inv }
  | .pget _ => { op := 0x1A }
  | .pset _ mask => { op := 0x1B, fn := mask.setWidth 9 }
  | .lea _ m => { op := 0x1C, fn := m.fn }
  | .bcmp _ m => { op := 0x1D, fn := m.fn }
  | .iadd _ m => { op := 0x20, fn := m.fn }
  | .isub _ m => { op := 0x21, fn := m.fn }
  | .imul _ m => { op := 0x22, fn := m.fn }
  | .imulh _ m => { op := 0x23, fn := m.fn }
  | .imad _ m => { op := 0x24, fn := m.fn }
  | .ineg _ m => { op := 0x25, fn := m.fn }
  | .iabs _ m => { op := 0x26, fn := m.fn }
  | .imin _ m => { op := 0x27, fn := m.fn }
  | .imax _ m => { op := 0x28, fn := m.fn }
  | .div _ m => { op := 0x29, fn := m.fn }
  | .rem _ m => { op := 0x2A, fn := m.fn }
  | .icmp _ m => { op := 0x2B, fn := m.fn }
  | .imulw _ m => { op := 0x2C, fn := m.fn }
  | .iaddx _ m => { op := 0x2D, fn := m.fn }
  | .isubx _ m => { op := 0x2E, fn := m.fn }
  | .isad _ m => { op := 0x2F, fn := m.fn }
  | .and _ m => { op := 0x30, fn := m.fn }
  | .or _ m => { op := 0x31, fn := m.fn }
  | .xor _ m => { op := 0x32, fn := m.fn }
  | .not _ m => { op := 0x33, fn := m.fn }
  | .andn _ m => { op := 0x34, fn := m.fn }
  | .shl _ m => { op := 0x35, fn := m.fn }
  | .shr _ m => { op := 0x36, fn := m.fn }
  | .sar _ m => { op := 0x37, fn := m.fn }
  | .rotl _ m => { op := 0x38, fn := m.fn }
  | .bfx _ m => { op := 0x39, fn := m.fn }
  | .bfi _ m => { op := 0x3A, fn := m.fn }
  | .popc _ m => { op := 0x3B, fn := m.fn }
  | .clz _ m => { op := 0x3C, fn := m.fn }
  | .ctz _ m => { op := 0x3D, fn := m.fn }
  | .brev _ m => { op := 0x3E, fn := m.fn }
  | .lop3 _ t d => { op := 0x3F, fn := t ++ BitVec.ofBool d }
  | .fadd _ m => { op := 0x40, fn := m.fn }
  | .fsub _ m => { op := 0x41, fn := m.fn }
  | .fmul _ m => { op := 0x42, fn := m.fn }
  | .ffma _ m => { op := 0x43, fn := m.fn }
  | .fmin _ m => { op := 0x44, fn := m.fn }
  | .fmax _ m => { op := 0x45, fn := m.fn }
  | .fabs _ m => { op := 0x46, fn := m.fn }
  | .fneg _ m => { op := 0x47, fn := m.fn }
  | .fcmp _ m => { op := 0x48, fn := m.fn }
  | .fclass _ m => { op := 0x49, fn := m.fn }
  | .fscale _ m => { op := 0x4A, fn := m.fn }
  | .fround _ m => { op := 0x4B, fn := m.fn }
  | .frcp _ m => { op := 0x4C, fn := m.fn }
  | .fsqrt _ m => { op := 0x4D, fn := m.fn }
  | .frsqrt _ m => { op := 0x4E, fn := m.fn }
  | .fexp2 _ m => { op := 0x4F, fn := m.fn }
  | .flog2 _ m => { op := 0x50, fn := m.fn }
  | .fsin _ m => { op := 0x51, fn := m.fn }
  | .fcos _ m => { op := 0x52, fn := m.fn }
  | .fdp2 _ m => { op := 0x53, fn := m.fn }
  | .fdp4 _ m => { op := 0x54, fn := m.fn }
  | .idp4 _ m => { op := 0x55, fn := m.fn }
  | .cvt _ rm dt st => { op := 0x56, fn := rm ++ dt ++ st }
  | .pack _ rm ov f int => { op := 0x57, fn := rm ++ BitVec.ofBool ov ++ f ++ BitVec.ofBool int }
  | .unpack _ f int => { op := 0x58, fn := (0 : BitVec 4) ++ f ++ BitVec.ofBool int }
  | .cbdec _ hi e => { op := 0x59, fn := (0 : BitVec 7) ++ BitVec.ofBool e ++ BitVec.ofBool hi }
  | .ftanh _ m => { op := 0x5A, fn := m.fn }
  | .rnd _ f => { op := 0x5B, fn := (BitVec.ofBool f).setWidth 9 }
  | .hadd2 _ m => { op := 0x5C, fn := m.fn }
  | .hmul2 _ m => { op := 0x5D, fn := m.fn }
  | .hfma2 _ m => { op := 0x5E, fn := m.fn }
  | .hmax2 _ m => { op := 0x5F, fn := m.fn }
  | .join _ n => { op := 0x60, fn := n.setWidth 9 }
  | .jset _ op n p => { op := 0x61, fn := op ++ p ++ n }
  | .jget _ n => { op := 0x62, fn := n.setWidth 9 }
  | .split _ w => { op := 0x63, fn := w.setWidth 9 }
  | .fuse _ => { op := 0x64 }
  | .elect _ pd wr => { op := 0x65, fn := (0 : BitVec 5) ++ BitVec.ofBool wr ++ pd }
  | .vote _ inv pd op p => { op := 0x66, fn := pd ++ op ++ p, top := inv }
  | .perm _ z d => { op := 0x67, fn := (0 : BitVec 7) ++ BitVec.ofBool z ++ BitVec.ofBool d }
  | .redx _ m => { op := 0x68, fn := m.fn }
  | .scan _ m => { op := 0x69, fn := m.fn }
  | .rvinit _ n => { op := 0x6A, fn := n.setWidth 9 }
  | .arrive _ n => { op := 0x6B, fn := n.setWidth 9 }
  | .await _ n => { op := 0x6C, fn := n.setWidth 9 }
  | .arrwait _ n => { op := 0x6D, fn := n.setWidth 9 }
  | .rgive _ n => { op := 0x6E, fn := n.setWidth 9 }
  | .rtake _ n => { op := 0x6F, fn := n.setWidth 9 }
  | .rtakeRole _ r => { op := 0x6F, fn := (0 : BitVec 3) ++ (1 : BitVec 1) ++ (0 : BitVec 1) ++ r }
  | .glaunch _ d => { op := 0x70, fn := (BitVec.ofBool d).setWidth 9 }
  | .tlaunch _ scope => { op := 0x71, fn := scope ++ (0 : BitVec 6) }
  | .rvget _ f n => { op := 0x72, fn := (0 : BitVec 2) ++ f ++ n }
  | .matchLanes _ d => { op := 0x73, fn := (BitVec.ofBool d).setWidth 9 }
  | .actv _ w => { op := 0x74, fn := w.setWidth 9 }
  | .ld _ size sx m => { op := 0x80, fn := size ++ BitVec.ofBool sx ++ m.bits ++ (0 : BitVec 1) }
  | .st _ size m => { op := 0x81, fn := size ++ (0 : BitVec 1) ++ m.bits ++ (0 : BitVec 1) }
  | .stCr _ size m => { op := 0x81, fn := size ++ (0 : BitVec 1) ++ m.bits ++ (0 : BitVec 1) }
  | .atom _ op m d => { op := 0x82, fn := op ++ m.bits ++ BitVec.ofBool d }
  | .cas _ ps m d => { op := 0x83, fn := ps ++ (0 : BitVec 1) ++ m.bits ++ BitVec.ofBool d }
  | .casl a m => { op := 0x84, fn := BitVec.ofBool m.d ++ m.task,
                   ext := if a.form = .f128 then m.word else 0 }
  | .fence _ scope order => { op := 0x85, fn := scope ++ order ++ (0 : BitVec 3) }
  | .pref _ l2 m => { op := 0x86, fn := (0 : BitVec 3) ++ BitVec.ofBool l2 ++ m.bits ++ (0 : BitVec 1) }
  | .inval _ => { op := 0x87 }
  | .invalAll _ => { op := 0x87, fn := 1 }
  | .crdecl _ op d => { op := 0x88, fn := (0 : BitVec 6) ++ op ++ BitVec.ofBool d }
  | .crdrop _ => { op := 0x89 }
  | .cbld _ d => { op := 0x8A, fn := (BitVec.ofBool d).setWidth 9 }
  | .stash _ => { op := 0x8B }
  | .unstash _ => { op := 0x8C }
  | .waitm _ => { op := 0x8D }
  | .cx a x => { op := 0x90, ext := if a.form = .f128 then x.word else 0 }
  | .cxs _ x => { op := 0x91, ext := x.word }
  | .cxt _ n x => { op := 0x92, fn := n.setWidth 9, ext := x.word }
  | .accrd _ d => { op := 0x93, fn := (BitVec.ofBool d).setWidth 9 }
  | .accwr _ d => { op := 0x94, fn := (BitVec.ofBool d).setWidth 9 }
  | .accclr _ => { op := 0x95 }
  | .accpk _ x => { op := 0x96, ext := x.word }
  | .accmv _ => { op := 0x97 }
  | .accup _ x => { op := 0x98, ext := x.word }
  | .bcopy _ m => { op := 0xA0, fn := m.fn, ext := m.word }
  | .sdef _ m => { op := 0xA1, fn := m.fn, ext := m.word }
  | .sfree _ q => { op := 0xA2, fn := q.setWidth 9 }
  | .sstat _ q => { op := 0xA3, fn := q.setWidth 9 }
  | .mdef _ m => { op := 0xA4, fn := m.fn, ext := m.k ++ m.thr }
  | .mnext _ thr => { op := 0xA5, fn := (BitVec.ofBool thr).setWidth 9 }
  | .mfree _ => { op := 0xA6 }
  | .qlen _ q => { op := 0xA7, fn := q.setWidth 9 }
  | .mstat _ => { op := 0xA8 }
  | _ => { op := 0xFF }

/-- The word offset of `br`, `call` and `loop` (R75). -/
def offsetOf : Instr → Option Word
  | .br _ _ off => some off
  | .call _ off => some off
  | .loop _ _ off => some off
  | _ => none

/-- The value of the immediate source. -/
def immOf (a : Args) : DWord :=
  match a.s1, a.s2, a.s3 with
  | .imm x, _, _ => x
  | _, .imm x, _ => x
  | _, _, .imm x => x
  | _, _, _ => 0

/-- The extension word of the common part: Turntable specifications, an immediate, or nothing. -/
def argsExt (sg : Sig) (a : Args) : DWord :=
  match a.form with
  | .f64 => 0
  | .f96t => ((0 : BitVec 2) ++ a.s3.turn ++ a.s2.turn ++ a.s1.turn : BitVec 32).setWidth 64
  | .f96i => if sg.imm32 then ((immOf a).setWidth 32).setWidth 64 else 0
  | .f128 => if sg.imm64 then immOf a else 0

/-- An immediate of the word is carried by the extension. -/
def inExt (sg : Sig) (form : Form) : Bool :=
  (form == .f96i && sg.imm32) || (form == .f128 && sg.imm64)

/-- The fields of an instruction's words; none for a step of the device. -/
def rawInstr (i : Instr) : Option Raw :=
  match argsOf i with
  | none => none
  | some a =>
    let sg := sigOf i
    let c := codeOf i
    let x := inExt sg a.form
    let off : BitVec 27 := match offsetOf i with
      | some o => if a.form = .f64 then o.setWidth 27 else 0
      | none => 0
    let offExt : DWord := match offsetOf i with
      | some o => if a.form = .f64 then 0 else o.setWidth 64
      | none => 0
    some {
      len := a.form.bits, stop := a.stop, op := c.op, guard := a.guard, gneg := a.gneg
      dst := a.dst.code false
      s1 := a.s1.code x ||| off.setWidth 9
      s2 := a.s2.code x ||| off.extractLsb' 9 9
      s3 := a.s3.code x ||| off.extractLsb' 18 9
      e1 := a.s1.ebit, e2 := a.s2.ebit, e3 := a.s3.ebit
      fn := BitVec.ofBool (c.top || a.form == .f96i) ++ c.fn
      ext := c.ext ||| argsExt sg a ||| offExt
      pre := a.pre }

/-- `n` bytes of `x`, the lowest address first (R3). -/
def bytesLE (n : Nat) (x : Nat) : List Byte :=
  match n with
  | 0 => []
  | n + 1 => BitVec.ofNat 8 x :: bytesLE n (x / 256)

/-- The number that bytes hold, the lowest address first (R3). -/
def natLE : List Byte → Nat
  | [] => 0
  | b :: bs => b.toNat + 256 * natLE bs

/-- The bytes of an instruction: its prefix if it has one, its first 64 bits, its extension. A step
of the device has none. -/
def encode (i : Instr) : List Byte :=
  match rawInstr i, argsOf i with
  | some r, some a =>
    (match r.pre with
     | some p => bytesLE 8 p.word.toNat
     | none => []) ++
    bytesLE 8 r.word.toNat ++ bytesLE (a.form.bytes - 8) r.ext.toNat
  | _, _ => []

/-- Bytes of the unit that an instruction forms with its prefix (R31). -/
def unitBytes (a : Args) : Nat := a.form.bytes + (if a.pre.isSome then 8 else 0)

/-! ## The decoder -/

/-- The form of a word (R30, R34, R38). -/
def formOf (len : BitVec 2) (fn : BitVec 10) : Option Form :=
  match len.toNat with
  | 0 => some .f64
  | 1 => if fn.getLsbD 9 then some .f96i else some .f96t
  | 2 => some .f128
  | _ => none

/-- An operand of a field; a dash takes no operand, and a value in it fails the last check. -/
def fieldOf (fs : FieldSig) (c : BitVec 9) (e : Bool) (t : BitVec 10) (ext : Option DWord) :
    Option Opnd :=
  if fs.kinds.isEmpty then some .none else opndOf c e t ext

/-- The common part of a word read under a signature. -/
def argsFrom (sg : Sig) (r : Raw) : Option Args := do
  let form ← formOf r.len r.fn
  let turns := form == .f96t
  let ext : Option DWord :=
    if form == .f96i && sg.imm32 then some ((r.ext.setWidth 32).signExtend 64)
    else if form == .f128 && sg.imm64 then some r.ext else none
  let t (lo : Nat) : BitVec 10 := if turns then r.ext.extractLsb' lo 10 else 0
  let dst ← fieldOf sg.dst r.dst false 0 none
  let s1 ← fieldOf sg.s1 r.s1 r.e1 (t 0) ext
  let s2 ← fieldOf sg.s2 r.s2 r.e2 (t 10) ext
  let s3 ← fieldOf sg.s3 r.s3 r.e3 (t 20) ext
  some { form := form, stop := r.stop, guard := r.guard, gneg := r.gneg,
         dst := dst, s1 := s1, s2 := s2, s3 := s3, pre := r.pre }

/-- The common part with nothing in it. -/
def Args.blank : Args := ⟨.f64, false, 7, false, .none, .none, .none, .none, none⟩

/-- The instruction that a constructor makes of a word. -/
def build (k : Args → Instr) (r : Raw) : Option Instr :=
  (argsFrom (sigOf (k Args.blank)) r).map k

/-- The word offset of a branch: 27 bits of the word, or the extension (R75). -/
def rawOffset (r : Raw) : Word :=
  if r.len = 0 then (r.s3 ++ r.s2 ++ r.s1 : BitVec 27).signExtend 32 else r.ext.setWidth 32

/-- The payload operand of an F128 `casl` (R278). -/
def payOf (w : DWord) : Option Opnd :=
  let c : BitVec 9 := w.extractLsb' 4 9
  if c = 0 then some .none else opndOf c (w.getLsbD 13) 0 none

/-- The instruction that the fields of a word name (R47), before the checks. -/
def assemble (r : Raw) : Option Instr :=
  let fn := r.fn
  let m := modsOf fn
  let pm := predModsOf fn
  let am := addrModsOf fn
  let b0 := fn.getLsbD 0
  let n5 : BitVec 5 := fn.extractLsb' 0 5
  let n3 : BitVec 3 := fn.extractLsb' 0 3
  match r.op.toNat with
  | 0x00 => build .nop r
  | 0x01 => build (.trap · (if r.len = 0 then (fn.setWidth 9).setWidth 32 else r.ext.setWidth 32)) r
  | 0x02 => build .exit r
  | 0x03 => build (.br · b0 (rawOffset r)) r
  | 0x04 => build (.bri · b0) r
  | 0x05 => build (.call · (rawOffset r)) r
  | 0x06 => build .calli r
  | 0x07 => build .ret r
  | 0x08 => if b0 then build .rteNext r else build .rte r
  | 0x09 => build (.rds · b0) r
  | 0x0A => build (.wrs · b0) r
  | 0x0B => build .yield r
  | 0x0C => build .sleep r
  | 0x0D => build (.loop · b0 (rawOffset r)) r
  | 0x10 => if r.s1.extractLsb' 3 6 = (0x28 : BitVec 6) then build (.movStream · m) r
            else build (.mov · m) r
  | 0x11 => build (.li · m) r
  | 0x12 => build (.bset · m) r
  | 0x13 => if b0 then build .bgetHi r else build .bget r
  | 0x14 => build (.badd · m) r
  | 0x15 => build (.sel · m) r
  | 0x16 => build (.pand · pm) r
  | 0x17 => build (.por · pm) r
  | 0x18 => build (.pxor · pm) r
  | 0x19 => build (.pnot · pm) r
  | 0x1A => build .pget r
  | 0x1B => build (.pset · (fn.extractLsb' 0 7)) r
  | 0x1C => build (.lea · m) r
  | 0x1D => build (.bcmp · m) r
  | 0x20 => build (.iadd · m) r
  | 0x21 => build (.isub · m) r
  | 0x22 => build (.imul · m) r
  | 0x23 => build (.imulh · m) r
  | 0x24 => build (.imad · m) r
  | 0x25 => build (.ineg · m) r
  | 0x26 => build (.iabs · m) r
  | 0x27 => build (.imin · m) r
  | 0x28 => build (.imax · m) r
  | 0x29 => build (.div · m) r
  | 0x2A => build (.rem · m) r
  | 0x2B => build (.icmp · m) r
  | 0x2C => build (.imulw · m) r
  | 0x2D => build (.iaddx · m) r
  | 0x2E => build (.isubx · m) r
  | 0x2F => build (.isad · m) r
  | 0x30 => build (.and · m) r
  | 0x31 => build (.or · m) r
  | 0x32 => build (.xor · m) r
  | 0x33 => build (.not · m) r
  | 0x34 => build (.andn · m) r
  | 0x35 => build (.shl · m) r
  | 0x36 => build (.shr · m) r
  | 0x37 => build (.sar · m) r
  | 0x38 => build (.rotl · m) r
  | 0x39 => build (.bfx · m) r
  | 0x3A => build (.bfi · m) r
  | 0x3B => build (.popc · m) r
  | 0x3C => build (.clz · m) r
  | 0x3D => build (.ctz · m) r
  | 0x3E => build (.brev · m) r
  | 0x3F => build (.lop3 · (fn.extractLsb' 1 8) b0) r
  | 0x40 => build (.fadd · m) r
  | 0x41 => build (.fsub · m) r
  | 0x42 => build (.fmul · m) r
  | 0x43 => build (.ffma · m) r
  | 0x44 => build (.fmin · m) r
  | 0x45 => build (.fmax · m) r
  | 0x46 => build (.fabs · m) r
  | 0x47 => build (.fneg · m) r
  | 0x48 => build (.fcmp · m) r
  | 0x49 => build (.fclass · m) r
  | 0x4A => build (.fscale · m) r
  | 0x4B => build (.fround · m) r
  | 0x4C => build (.frcp · m) r
  | 0x4D => build (.fsqrt · m) r
  | 0x4E => build (.frsqrt · m) r
  | 0x4F => build (.fexp2 · m) r
  | 0x50 => build (.flog2 · m) r
  | 0x51 => build (.fsin · m) r
  | 0x52 => build (.fcos · m) r
  | 0x53 => build (.fdp2 · m) r
  | 0x54 => build (.fdp4 · m) r
  | 0x55 => build (.idp4 · m) r
  | 0x56 => build (.cvt · (fn.extractLsb' 6 3) (fn.extractLsb' 3 3) (fn.extractLsb' 0 3)) r
  | 0x57 => build (.pack · (fn.extractLsb' 6 3) (fn.getLsbD 5) (fn.extractLsb' 1 4) b0) r
  | 0x58 => build (.unpack · (fn.extractLsb' 1 4) b0) r
  | 0x59 => build (.cbdec · b0 (fn.getLsbD 1)) r
  | 0x5A => build (.ftanh · m) r
  | 0x5B => build (.rnd · b0) r
  | 0x5C => build (.hadd2 · m) r
  | 0x5D => build (.hmul2 · m) r
  | 0x5E => build (.hfma2 · m) r
  | 0x5F => build (.hmax2 · m) r
  | 0x60 => build (.join · n3) r
  | 0x61 => build (.jset · (fn.extractLsb' 6 3) n3 (fn.extractLsb' 3 3)) r
  | 0x62 => build (.jget · n3) r
  | 0x63 => build (.split · n3) r
  | 0x64 => build .fuse r
  | 0x65 => build (.elect · n3 (fn.getLsbD 3)) r
  | 0x66 => build (.vote · (fn.getLsbD 9) (fn.extractLsb' 6 3) (fn.extractLsb' 3 3) n3) r
  | 0x67 => build (.perm · (fn.getLsbD 1) b0) r
  | 0x68 => build (.redx · (redModsOf fn)) r
  | 0x69 => build (.scan · (redModsOf fn)) r
  | 0x6A => build (.rvinit · n5) r
  | 0x6B => build (.arrive · n5) r
  | 0x6C => build (.await · n5) r
  | 0x6D => build (.arrwait · n5) r
  | 0x6E => build (.rgive · n5) r
  | 0x6F => if fn.getLsbD 5 then build (.rtakeRole · (fn.extractLsb' 0 4)) r
            else build (.rtake · n5) r
  | 0x70 => build (.glaunch · b0) r
  | 0x71 => build (.tlaunch · (fn.extractLsb' 6 3)) r
  | 0x72 => build (.rvget · (fn.extractLsb' 5 2) n5) r
  | 0x73 => build (.matchLanes · b0) r
  | 0x74 => build (.actv · (fn.extractLsb' 0 2)) r
  | 0x80 => build (.ld · (fn.extractLsb' 6 3) (fn.getLsbD 5) am) r
  | 0x81 => match r.pre with
    | some p => if p.cr then build (.stCr · (fn.extractLsb' 6 3) am) r
                else build (.st · (fn.extractLsb' 6 3) am) r
    | none => build (.st · (fn.extractLsb' 6 3) am) r
  | 0x82 => build (.atom · (fn.extractLsb' 5 4) am b0) r
  | 0x83 => build (.cas · (fn.extractLsb' 6 3) am b0) r
  | 0x84 =>
    if r.len = 2 then do
      let pay ← payOf r.ext
      build (.casl · ⟨fn.extractLsb' 0 8, fn.getLsbD 8, r.ext.extractLsb' 0 3, r.ext.getLsbD 3, pay⟩) r
    else build (.casl · ⟨fn.extractLsb' 0 8, fn.getLsbD 8, 0, false, .none⟩) r
  | 0x85 => build (.fence · (fn.extractLsb' 6 3) (fn.extractLsb' 3 3)) r
  | 0x86 => build (.pref · (fn.getLsbD 5) am) r
  | 0x87 => if b0 then build .invalAll r else build .inval r
  | 0x88 => build (.crdecl · (fn.extractLsb' 1 2) b0) r
  | 0x89 => build .crdrop r
  | 0x8A => build (.cbld · b0) r
  | 0x8B => build .stash r
  | 0x8C => build .unstash r
  | 0x8D => build .waitm r
  | 0x90 => build (.cx · (if r.len = 2 then cxExtOf r.ext else ⟨0, 0, 0, 0, 0, 0, 0, 0, 0⟩)) r
  | 0x91 => build (.cxs · (cxExtOf r.ext)) r
  | 0x92 => build (.cxt · n5 (cxExtOf r.ext)) r
  | 0x93 => build (.accrd · b0) r
  | 0x94 => build (.accwr · b0) r
  | 0x95 => build .accclr r
  | 0x96 => build (.accpk · (pkExtOf r.ext)) r
  | 0x97 => build .accmv r
  | 0x98 => build (.accup · (pkExtOf r.ext)) r
  | 0xA0 => build (.bcopy · (copyModsOf fn r.ext)) r
  | 0xA1 => build (.sdef · (sdefModsOf fn r.ext)) r
  | 0xA2 => build (.sfree · n3) r
  | 0xA3 => build (.sstat · n3) r
  | 0xA4 => build (.mdef · (mdefModsOf fn r.ext)) r
  | 0xA5 => build (.mnext · b0) r
  | 0xA6 => build .mfree r
  | 0xA7 => build (.qlen · n3) r
  | 0xA8 => build .mstat r
  | _ => none

/-- Opcodes 0x80 to 0x8F (R43). -/
def memoryClass (op : BitVec 8) : Bool := op.extractLsb' 4 4 == (8 : BitVec 4)

/-- An assigned opcode (R47). -/
def assigned (op : BitVec 8) : Bool :=
  let n := op.toNat
  n ≤ 0x0D || (0x10 ≤ n && n ≤ 0x1D) || (0x20 ≤ n && n ≤ 0x74) || (0x80 ≤ n && n ≤ 0x8D) ||
  (0x90 ≤ n && n ≤ 0x98) || (0xA0 ≤ n && n ≤ 0xA8)

/-- The checks of step 2 of R32 on the fields of a unit. -/
def decodeRaw (r : Raw) : Except DecodeError Instr :=
  if !assigned r.op then .error .unassigned
  else if r.pre.isSome && !memoryClass r.op then .error .prefixPlacement
  else match assemble r with
    | none => .error .operand
    | some i =>
      if !wellFormed i then .error .notAccepted
      else if rawInstr i = some r then .ok i else .error .reserved

/-- Bytes of the form that length bits name; 8 for a prefix (R30). -/
def lenBytes (len : BitVec 2) : Nat :=
  match len.toNat with
  | 1 => 12
  | 2 => 16
  | _ => 8

/-- The instruction at the start of the bytes, without a prefix before it. -/
def decodePlain (pre : Option Prefix) (bs : List Byte) : Except DecodeError (Instr × List Byte) :=
  if bs.length < 8 then .error .truncated
  else
    let w : DWord := BitVec.ofNat 64 (natLE (bs.take 8))
    let len : BitVec 2 := w.setWidth 2
    let n := lenBytes len
    if bs.length < n then .error .truncated
    else if len = 3 then .error .prefixPlacement
    else
      match decodeRaw (rawOf w (BitVec.ofNat 64 (natLE ((bs.drop 8).take (n - 8)))) pre) with
      | .ok i => .ok (i, bs.drop n)
      | .error e => .error e

/-- The unit at the start of the bytes, and the bytes after it (R30, R41, R43). That the bytes end before
the unit does comes first (R32). -/
def decode (bs : List Byte) : Except DecodeError (Instr × List Byte) :=
  if bs.length < 8 then .error .truncated
  else
    let w : DWord := BitVec.ofNat 64 (natLE (bs.take 8))
    if w.setWidth 2 = (3 : BitVec 2) then
      let p := prefixOf w
      match decodePlain (some p) (bs.drop 8) with
      | .error .truncated => .error .truncated
      | r => if p.word ≠ w then .error .reserved else r
    else decodePlain none bs

/-- The instruction of the decoder, if it gives one. -/
def decodeUnit (bs : List Byte) : Option Instr :=
  match decode bs with
  | .ok (i, _) => some i
  | .error _ => none

/-- The longest unit: a prefix and an F96 or F128 instruction. -/
def maxUnit : Nat := 24

/-- The instruction the decoder reads from the bits `w` laid out as the hardware stores them: the
lowest eight bits at the lowest address (R3), every bit from `nbits` up zero. -/
def decodeTableWord (nbits w : Nat) : Option Instr :=
  decodeUnit (bytesLE maxUnit (w % 2 ^ nbits))

end Sys2Proof
end

