-- ==== Sys2Proof/Config.lean ====
section
/-!
DEFINITION. What an implementation fixes, and the values the manual leaves open.
A constant with no body is a free value: nothing can be proved about what it is.
-/
namespace Sys2Proof

/-- R348: the contents of a save image are device-defined. Byte `off` of the image a team
wrote when it was vacated for the `gen`-th time on this device. Free value; log entry 8. -/
opaque Config.imageByte (gen off : Nat) : Byte

/-- R348: how many bytes of saved structures the image of the `gen`-th vacate holds, taken up to
256 KiB. Free value; log entry 8. -/
opaque Config.imageHead (gen : Nat) : Nat

/-- R369: the layout and contents of a checkpoint beyond the fields the manual names are
device-defined. Byte `off` of the `gen`-th checkpoint. Free value; log entry 8. -/
opaque Config.checkpointByte (gen off : Nat) : Byte

/-- R382, R383: the module power estimate of a period, in W, is the device's own estimate.
Free value of period number `n`; log entry 9. -/
opaque Config.powerEstimate (n : Nat) : Word

/-- R377: the codes of the last notification cause are the device's own; the manual names the
events (R368) and no codes. Free value, by event: 0 a train halted, 1 the fault queue advanced, 2 a
fault on the fault queue or save area, 3 a phase of a checkpoint or restore completed, 4 a link or
peer went down. Log entry 10. -/
opaque Config.causeCode (event : Nat) : Byte

/-- R243: which of the values that invariant loads may find in an 8-byte granule the `draw`-th read
takes, counted from the current one. Free value; log entry 114. -/
opaque Config.invariantPick (draw granule : Nat) : Nat

/-- R218: the set of a slice that a line falls into; the manual gives their number and not which lines
share one. Free value; log entry 14. -/
opaque Config.l2Set (line : Nat) : Nat

/-- R120: which of the tables that a decode may see while one is being loaded gives it the entry `index`.
Free value of draw number `draw`; log entry 115. -/
opaque Config.tablePick (draw index : Nat) : Nat

/-- R4, R17: how many cycles before the cycle `n`, by which every core has left reset, a core left it: the
manual gives no order in which the cores do, and their counts are not comparable. Free value; log entry
116. -/
opaque Config.resetLead (n core : Nat) : Nat

/-- R361, R376: the Milern port that a route word names; the manual gives the word no format. Free value;
log entry 88. -/
opaque Config.routePort (route : DWord) : BitVec 4

/-- R9: the load-to-use figures, in core cycles, that the default schedule uses. No result
depends on them. -/
def Config.latScratch : Nat := 12
/-- R9: an L1 hit. -/
def Config.latL1 : Nat := 16
/-- R9: the near L2 slice. -/
def Config.latNear : Nat := 60
/-- R9: a far L2 slice of the same die. -/
def Config.latFar : Nat := 90
/-- R9: an L2 slice on another die. -/
def Config.latDie : Nat := 220
/-- R9: HBM4E. -/
def Config.latHbm : Nat := 300
/-- R9: pooled CXL memory. -/
def Config.latCxl : Nat := 600
/-- R61: `div` and `rem`, 32 and 64 bits. -/
def Config.latDiv (wide : Bool) : Nat := if wide then 68 else 36
/-- R104: a transcendental fill. -/
def Config.latFunc : Nat := 24

end Sys2Proof
end

