-- ==== Sys2Proof/Machine/State.lean ====
section
/-!
DEFINITION. All the state the manual gives the device, as plain data, and the device after reset.
Log entry 1 says how a program comes to run from `State.reset`; entries 2 and 3 name the registers
whose value at reset the manual does not give.
-/
namespace Sys2Proof.Machine

/-- A finite map from numbers, as a list with strictly rising keys. -/
abbrev AMap (α : Type) := List (Nat × α)

/-- Stored memory (HBM4E, pooled CXL and host memory of R216, by physical address): the bytes that
are not 0. An unlisted address reads 0 (log entry 4). -/
abbrev Memory := List Host.Cell

/-- A line of 128 bytes; byte i is bits [8i+7:8i] (R217). -/
abbrev Line := BitVec 1024

/-! ## Accesses -/

/-- Where an access acts: global memory by physical address; the scratchpad or the accumulator
window of a team; the peer device of that number, by virtual address there (R213, R355). -/
inductive Place
  | glob
  | scr (uid : Nat)
  | acc (uid : Nat)
  | peer (dev : Nat)
  deriving DecidableEq, Repr

/-- What a lane's entry of the store queue does when it is performed (R234). -/
inductive MemOp
  | store
  | atom (op : BitVec 4)
  | cas
  | casl (task : BitVec 8) (payload : DWord)
  /-- commutative store into a range of the given operation (R227) -/
  | fold (op : BitVec 2)
  deriving DecidableEq, Repr

/-- One lane's store, atomic or commutative store. `addrs` holds the place's address of each byte,
lowest first. -/
structure LaneOp where
  lane  : Nat
  va    : Addr
  place : Place
  addrs : List Nat
  op    : MemOp
  data  : QWord
  cmp   : DWord
  /-- its page may be written: a `cas` or `casl` that fails its comparison needs no more than a
  readable one (R341) -/
  mayWrite : Bool
  deriving DecidableEq, Repr

/-- An entry of a train's store queue (R234): the number of its instruction in program order, its
order and scope codes (R42), whether its policy allocates in L2 and where it ranks for replacement
(R224), its lanes, and the producer its old values go to. -/
structure SqEntry where
  seq    : Nat
  pc     : Addr
  order  : BitVec 3
  scope  : BitVec 3
  policy : BitVec 4
  ops    : List LaneOp
  prod   : Option Nat
  deriving DecidableEq, Repr

/-- One separate access of a load: its lane, the first byte of the lane's value it reads, the
place's addresses of its bytes, and its value once it is performed (R242). -/
structure Part where
  lane  : Nat
  shift : Nat
  va    : Addr
  place : Place
  addrs : List Nat
  /-- its page may be written (R341) -/
  mayWrite : Bool
  got   : Option DWord
  /-- its data did not come: the reason of an uncorrectable error (R344), or 16 times the trap code
  plus the reason of a peer's refusal (R357, R362); 0 for none -/
  bad   : BitVec 8
  deriving DecidableEq, Repr

/-- Where a producer writes: a number of registers from a v or k register on. -/
inductive Dst
  | v (r n : Nat)
  | k (r n : Nat)
  deriving DecidableEq, Repr

/-- What a long-latency producer waits for (R24). -/
inductive ProdKind
  /-- a value computed at issue (`div`, `rem`, the functions of R112) -/
  | alu
  /-- a load: bytes per lane, sign-extended or not -/
  | load (n : Nat) (sx : Bool)
  /-- `accrd`: its reads are no loads, and follow R200 alone -/
  | acc (n : Nat)
  /-- atomics: old values come back with the acknowledgements (R277) -/
  | atom (n : Nat)
  | cas (n : Nat) (pS : BitVec 3)
  | casl (n : Nat)
  deriving DecidableEq, Repr

/-- A long-latency producer of a train (R24 to R27). -/
structure Producer where
  seq    : Nat
  pc     : Addr
  kind   : ProdKind
  dst    : Dst
  /-- the lanes that passed -/
  lanes  : LaneMask
  order  : BitVec 3
  scope  : BitVec 3
  policy : BitVec 4
  nochk  : Bool
  parts  : List Part
  /-- value per lane, as it is written -/
  vals   : AMap QWord
  /-- lanes whose `cas` comparison held -/
  oks    : LaneMask
  flags  : BitVec 6
  /-- lanes whose data met an uncorrectable error, with the reason (R344) -/
  bad    : AMap (BitVec 8)
  /-- its split stands at the instruction until the data have come, since they may be lost (R344, R357,
  R362) -/
  held   : Bool
  /-- the earliest cycle of the default schedule -/
  due    : Nat
  deriving DecidableEq, Repr

/-- Who last released into a line, and at what scope (R229). -/
structure ScopeRec where
  scope : BitVec 3
  ctx   : Nat
  core  : Nat
  uid   : Nat
  train : Nat
  deriving DecidableEq, Repr

/-- Stages of a request beyond the core store port (R221, R236, R293). -/
inductive Stage
  | toHome
  /-- written at the home; these cores have still to apply the update -/
  | updating (left : List Nat)
  /-- a `casl` that waits at its slice for an entry, until the given cycle -/
  | holding (till : Nat)
  /-- left for a peer device, to answer by the given cycle -/
  | atPeer (till : Nat)
  deriving DecidableEq, Repr

/-- A request that has passed the core store port and has not been acknowledged (R235, R236). -/
structure Req where
  core    : Nat
  uid     : Nat
  ctx     : Nat
  trains  : List Nat
  seq     : Nat
  pc      : Addr
  order   : BitVec 3
  scope   : BitVec 3
  policy  : BitVec 4
  place   : Place
  /-- line number, for a global request -/
  line    : Nat
  ops     : List LaneOp
  /-- train and producer that take the old values -/
  prod    : Option (Nat × Nat)
  /-- a peer's request: the device that asked, and its name there (R357) -/
  peer    : Option (Nat × Nat)
  /-- its stores are those of a `stash` (R207) -/
  stash   : Bool
  /-- old values, statuses of `casl`, flags, gathered at the home -/
  olds    : AMap QWord
  oks     : LaneMask
  flags   : BitVec 6
  bad     : AMap (BitVec 8)
  stage   : Stage
  /-- requests that must be performed before this release is (R238) -/
  waitFor : List Nat
  /-- operations that the home takes after those of `ops` (R242, R274; log entry 16) -/
  rest    : List LaneOp
  /-- what the home has written for it, by offset in the line, and the record it left (R221, R229) -/
  wrote   : List (Nat × Byte)
  mark    : Option ScopeRec
  due     : Nat
  deriving DecidableEq, Repr

/-! ## Caches -/

/-- A line of an L1 (R219): its valid 32-byte sectors, the scope record it carries (R229), the
replica slice that supplied it (R225), and whether it ranks first for replacement (R224). -/
structure L1Line where
  data    : Line
  sectors : BitVec 4
  scope   : Option ScopeRec
  via     : Option Nat
  first   : Bool
  /-- its sectors were filled at different moments, and a write came between (R223, R242) -/
  mixed   : Bool
  deriving DecidableEq, Repr

/-- A replica of a line in a near slice (R225): the slice by die and number (64·die + slice), the
cores it supplied, and the launches it was made for. -/
structure Replica where
  slice    : Nat
  supplied : List Nat
  launches : List Nat
  /-- its way in that slice, and the cycle of its last use (R218) -/
  way      : Nat
  used     : Nat
  deriving DecidableEq, Repr

/-- A line in L2 at its home (R221, R225, R229). -/
structure L2Line where
  data     : Line
  modified : Bool
  sharers  : List Nat
  replicas : List Replica
  scope    : Option ScopeRec
  first    : Bool
  /-- its way in the slice, and the cycle of its last use (R218) -/
  way      : Nat
  used     : Nat
  deriving DecidableEq, Repr

/-- A commutative partial of one word (R227): the core, whether it has been sent to the home, the
physical address of the word, the operation, and the values folded in. -/
structure Partial where
  core   : Nat
  atHome : Bool
  pa     : Nat
  op     : BitVec 2
  vals   : List DWord
  deriving DecidableEq, Repr

/-- A valid leaf translation in a TLB (R341, R343): virtual page of 256 KiB, or the group or 8 GiB
page it stands for, and the leaf's fields. -/
structure TlbEntry where
  ctx   : Nat
  /-- bits of the page offset: 18, 25 (contig, R342) or 33 -/
  bits  : Nat
  vpage : Nat
  pbase : Nat
  r     : Bool
  w     : Bool
  x     : Bool
  deriving DecidableEq, Repr

/-! ## Trains -/

/-- Why a split waits, in the sense of R46. -/
inductive Wait
  /-- v registers to become full (R25, R26) -/
  | full (regs : List Nat)
  /-- room in the store queue (R234) -/
  | sqRoom
  /-- every producer and contraction issued earlier, for `%flags` (R19, R183) -/
  | flags
  /-- every producer of the train (R79, R147, R334) -/
  | drain
  /-- producers and an empty store queue (R147, R148) -/
  | quiet
  /-- free Siding entries (R142) -/
  | siding (n : Nat)
  /-- the partner at `fuse` (R148) -/
  | partner
  /-- a register claim to be granted (R151) -/
  | claim
  /-- producers into the registers a `rgive` surrenders (R178) -/
  | regs (from_ : Nat)
  /-- a phase of a rendezvous point to complete (R153) -/
  | phase (n : Nat) (ph : Nat)
  /-- the train's own earlier arrivals, held at firing points (R175): the points -/
  | turn (points : List Nat)
  /-- an `arrwait` whose arrival is held at a firing point (R193), by the arrival's name -/
  | held (n : Nat) (tok : Nat)
  | sleep (till : Nat)
  /-- the conditions of a fence or a release (R241, R282, R301, R179, R334): for an acquire the
  train's loads; for a release its stores, past the port or (`wide`) beyond it, and these requests;
  peers count where `sys` -/
  | fence (acq rel wide sys : Bool) (reqs : List Nat)
  /-- a scratchpad word (R283): team, offset, mask -/
  | word (uid off : Nat) (mask : Word)
  /-- room in the copy engine (R314) -/
  | copyRoom (n : Nat)
  /-- elements of a stream (R321) -/
  | stream (q need : Nat)
  /-- earlier work on accumulator or scratchpad bytes (R201), jobs below the given number -/
  | jobs (below : Nat)
  /-- the train's scratchpad stores and its jobs, before an arrival or `exit` (R201) -/
  | arrival
  /-- a translation (R269): the pages that the core TLB lacks -/
  | walk (pages : List Nat)
  /-- lines that a home is updating or that a copy owns (R221, R245) -/
  | lines (ls : List Nat)
  /-- work that a unit does for the instruction: `crdecl`, `crdrop`, `stash`, `unstash`, `tlaunch` -/
  | unit
  /-- the data of the instruction's own producer, which may be lost (R344, R357, R362) -/
  | data (id : Nat)
  /-- what a peer device says of accesses to it, by address in the peer space (R357) -/
  | probe (eas : List Nat)
  deriving DecidableEq, Repr

/-- State of a Siding entry (R140). -/
inductive SplitSt
  | ready
  | waiting (w : Wait)
  | atJoin (n : BitVec 3)
  deriving DecidableEq, Repr

/-- A failure of a lane: trap code, reason, the page it is grouped by, and its first failing byte. -/
structure Failure where
  lane   : Nat
  code   : Nat
  reason : Nat
  page   : Nat
  addr   : Addr
  deriving DecidableEq, Repr

/-- What a waiting instruction has already done, for when it issues again. -/
inductive Resume
  | none
  | slept
  /-- its wait has ended a run, and it begins the next (R46) -/
  | begun
  /-- a walk has answered; the train holds what faulted (R269) -/
  | walked
  /-- `arrwait` has arrived, `await` has begun: the point, and the phase awaited -/
  | phase (n ph : Nat)
  /-- a claim or a held arrival under way, by its name -/
  | tok (k : Nat)
  | granted
  /-- a stream pop that waits, its destination marked empty (R321) -/
  | popping
  /-- the requests a fence, `glaunch` or `tlaunch` found beyond the port -/
  | fence (reqs : List Nat)
  /-- `tlaunch`: statuses so far, lanes left, end of the hold of the lane at the head, and whether the
  Platform has had room since before that end (R301) -/
  | tlaunch (sts : AMap Word) (left : List Nat) (till : Nat) (room : Bool)
  /-- `crdecl` or `crdrop` under way: operation, start, length (R286) -/
  | crWork (drop : Bool) (op : BitVec 2) (start : Addr) (len : Nat)
  /-- `stash` or `unstash` under way: lowest memory address, scratchpad offset, length, for
  `stash` the pages translated at issue, the policy, and the pieces of 128 bytes that are left (R207) -/
  | stashWork (out : Bool) (lo : Addr) (off len : Nat) (pages : AMap Nat) (policy : BitVec 4)
      (left : List Nat)
  /-- the unit's work is done, with its status -/
  | unitDone (status : Word)
  /-- the unit met a fault: trap code, reason, address -/
  | unitFault (code reason : Nat) (va : Addr) (len : Nat)
  /-- its producer's data are on their way; the lanes that failed at issue -/
  | data (id : Nat) (fails : List Failure)
  /-- they have come: the lanes that took them, and every lane that failed -/
  | dataDone (passed : LaneMask) (fails : List Failure)
  /-- `cbld` under way: the accesses of its table that have been performed (R119) -/
  | table (parts : List Part)
  /-- `cbld` has read its table, which stands under this name (R119) -/
  | loaded (k : Nat)
  /-- `waitm` has read its word with the condition holding (R283) -/
  | seen
  deriving DecidableEq, Repr

/-- An entry of the Siding (R140): one split. -/
structure Split where
  pc     : Addr
  mask   : LaneMask
  st     : SplitSt
  /-- the next instruction is a replay (R270) -/
  replay : Bool
  resume : Resume
  /-- held while a handler runs (R331) -/
  held   : Bool
  deriving DecidableEq, Repr

/-- A fault record before it is written (R336, R337); its position and number come at writing. -/
structure Rec where
  fetch  : Bool
  atomic : Bool
  write  : Bool
  reason : BitVec 8
  source : BitVec 4
  code   : BitVec 8
  core   : BitVec 16
  ctx    : BitVec 12
  team   : Word
  detail : Word
  resume : Addr
  train  : BitVec 6
  unit   : BitVec 5
  /-- bytes 32 to 63 of the record, by R337 -/
  body   : BitVec 256
  deriving DecidableEq, Repr

/-- A trap whose entry waits for queue room (R331). -/
structure PendTrap where
  idx  : Nat
  code : Nat
  recs : List Rec
  deriving DecidableEq, Repr

/-- A deferred trap (R333): its code, and its record's fields that do not depend on the split that
takes it. -/
structure Deferred where
  code   : Nat
  reason : Nat
  detail : Word
  source : Nat
  atomic : Bool
  write  : Bool
  addr   : Addr
  length : Nat
  lanes  : LaneMask
  unit   : Nat
  deriving DecidableEq, Repr

/-- A train in a handler (R331, R334): where the trapping split stood, and what its waiting
instruction had already done. -/
structure Handler where
  pc     : Addr
  resume : Resume
  deriving DecidableEq, Repr

/-- What the index engine has read of an element that is not yet in the FIFO: its index from B, its data
from A (R318). -/
structure Flight where
  index : Option DWord
  elem  : Option DWord
  deriving DecidableEq, Repr

/-- A stream of the index engine (R317 to R320). -/
structure Stream where
  dir     : Bool
  sx      : Bool
  isz     : Nat
  asz     : Nat
  baseA   : Addr
  baseB   : Addr
  save    : Addr
  count   : Nat
  stride  : Int
  limit   : Nat
  /-- elements that have entered the FIFO; popped elements -/
  fetched : Nat
  popped  : Nat
  fifo    : List DWord
  /-- elements in flight, by number (R318) -/
  ahead   : AMap Flight
  /-- 0 running; 1, 2, 3 suspended (R319) -/
  state   : Nat
  /-- address of the record of the suspension, once it is written (R320, R335) -/
  recAt   : Addr
  told    : Bool
  /-- stores of the train before this number must be performed before a read (R245) -/
  seq     : Nat
  deriving DecidableEq, Repr

/-- One input of a merge (R323). -/
structure MergeIn where
  base   : Addr
  count  : Nat
  cursor : Nat
  ended  : Bool
  /-- pairs read and not yet emitted, by number: the head, and those read ahead of it (R323, R327) -/
  ahead  : AMap DWord
  deriving DecidableEq, Repr

/-- The merge tree's state (R323 to R327). -/
structure Merge where
  uid     : Nat
  train   : Nat
  q       : Nat
  scr     : Option Nat
  fkey    : Bool
  k       : Nat
  thr     : Word
  emitted : Nat
  ins     : List MergeIn
  fifo    : List DWord
  /-- pairs emitted by a stopped `mnext` (R325) -/
  kept    : Nat
  /-- stores of the train before this number must be performed before a read (R245) -/
  seq     : Nat
  done    : Bool
  deriving DecidableEq, Repr

/-- A train (R12, R17, R124, R140). -/
structure Train where
  width   : Nat
  /-- launch pipe and order of binding (R125, R137) -/
  pipe    : Nat
  bound   : Nat
  /-- the split from which its next run issues, where it is ready; the cycle since which it has been, and run
  slots passed over since (R137) -/
  next    : Option Nat
  since   : Nat
  passed  : Nat
  prio    : Nat
  /-- v registers that are not 0, keyed 64·register + lane -/
  v       : AMap Word
  /-- v registers marked empty (R24), rising -/
  empty   : List Nat
  /-- k and b registers that are not 0 -/
  k       : AMap Word
  b       : AMap Addr
  /-- lanes in which p0 to p6 are true, where any is -/
  p       : AMap LaneMask
  /-- join masks j0 to j7 that are not 0 (R143) -/
  j       : AMap LaneMask
  /-- `%home` and team lane number of each lane (R17, R128) -/
  home    : List Nat
  lanes   : List Nat
  /-- lanes active: neither inactive from launch nor exited (R10, R79) -/
  active  : LaneMask
  done    : LaneMask
  flags   : BitVec 6
  memctl  : BitVec 13
  trap    : Word
  fault   : Addr
  role    : Nat
  /-- v registers per lane it holds (R150) -/
  budget  : Nat
  siding  : List Split
  sq      : List SqEntry
  prods   : AMap Producer
  /-- number of the next instruction -/
  seq     : Nat
  handler : Option Handler
  /-- halted in the trapped state (R332); the place in the Siding of the split that trapped -/
  trapped : Bool
  trapIdx : Nat
  pend    : Option PendTrap
  defer   : List Deferred
  /-- pages whose walk faulted, with code and reason: consumed by the instruction that waits -/
  walked  : AMap (Nat × Nat)
  /-- what peers have said of accesses, by address in the peer space: code and reason, 0 and 0 for a
  pass; consumed by the instruction that waits (R357) -/
  asked   : AMap (Nat × Nat)
  streams : AMap Stream
  /-- the merge tree's state while the train is vacated (R327) -/
  merge   : Option Merge
  /-- ended: all its lanes have exited (R79) -/
  ended   : Bool
  deriving DecidableEq, Repr

/-! ## Teams -/

/-- A descriptor of a team-scope contraction (R193). -/
structure CxDesc where
  fmt  : Word
  tile : Word
  ext  : CxExt
  a    : Nat
  b    : Nat
  sa   : Nat
  sb   : Nat
  deriving DecidableEq, Repr

/-- Operations held at a firing point (R193). -/
inductive Held
  | arrive (train : Nat)
  /-- an `arrwait`, and its name -/
  | arrwait (train : Nat) (tok : Nat)
  | copy (copy : Nat)
  | cxt (train : Nat) (lanes : List Nat) (d : CxDesc)
  /-- the end of a train that follows its own held arrivals (R154, R175) -/
  | ends (train : Nat)
  deriving DecidableEq, Repr

/-- A rendezvous point (R152, R193). -/
structure Rv where
  expected : Nat
  arrivals : Nat
  members  : LaneMask
  arrived  : LaneMask
  /-- members that ended after arriving, to leave at the completion (R154) -/
  leaving  : LaneMask
  /-- number of the current phase -/
  phase    : Nat
  /-- the phase's descriptor and team lane numbers, once a `cxt` has arrived -/
  desc     : Option CxDesc
  part     : List Nat
  /-- the contraction that is firing -/
  firing   : Option Nat
  held     : List Held
  deriving DecidableEq, Repr

/-- A waiting register claim (R151): its name, train, lane-blocks, the registers per lane it adds,
and the new role of a `rtake.role`. -/
structure Claim where
  tok    : Nat
  train  : Nat
  blocks : Nat
  add    : Nat
  role   : Option Nat
  deriving DecidableEq, Repr

/-- A copy in flight (R308 to R316). `pages` holds the translations taken at issue: the physical
address of each virtual 256 KiB page. -/
structure Copy where
  train   : Nat
  dir     : Nat
  g       : Addr
  pages   : AMap Nat
  p       : Nat
  /-- team and offset of the destination sibling -/
  sib     : Nat
  sibOff  : Nat
  rows    : Nat
  len     : Nat
  stride  : Nat
  span    : Nat
  tr      : Bool
  esize   : Nat
  bm      : Option Nat
  rv      : Option Nat
  policy  : Nat
  /-- chunks not yet done; none is left while its arrival is held at a firing point (R193) -/
  left    : List Nat
  /-- of chunks not done: bytes read and not yet written, and bytes written, numbered as in `left`'s order
  (R1, R315) -/
  taken   : AMap Byte
  moved   : List Nat
  /-- the core whose engine runs it (R314, R347) -/
  core    : Nat
  /-- stores of the issuing train before this number must be performed first (R245) -/
  seq     : Nat
  due     : Nat
  deriving DecidableEq, Repr

/-- A participant's operand and side rows as read (R187): raw bits, lowest byte first. -/
structure CxRow where
  t    : Nat
  a    : Nat
  b    : Nat
  sa   : Nat
  sb   : Nat
  /-- offset and length of a row in which a byte has an uncorrectable error (R344) -/
  bad  : Option (Nat × Nat)
  deriving DecidableEq, Repr

/-- The codebook tables that a decode may see, the one in force at its issue first, and the number of its
draw (R120). -/
structure Codebooks where
  tables : List (AMap Word)
  draw   : Nat
  deriving DecidableEq, Repr

/-- Work of the contraction array and the accumulator unit (R180, R200). -/
inductive JobKind
  /-- format word, tile word, transpose offset, codebook, rows by rising t -/
  | contract (fmt tile : Word) (goff : BitVec 8) (book : Codebooks) (rows : List CxRow)
  /-- `accwr`: bytes by offset, in their order -/
  | write (ws : List (Nat × Byte))
  /-- an accumulator store that has passed the port of a halted core (R235, R345) -/
  | store (ws : List (Nat × Byte))
  | clear (tile : Word)
  | move (tile : Word) (off : Nat)
  /-- conversion word, tile word, extension, offsets of side and data rows -/
  | pack (conv tile : Word) (x : PkExt) (sd dt : Nat)
  | unpack (conv tile : Word) (x : PkExt) (sd dt : Nat)
  deriving DecidableEq, Repr

/-- A job of a team: the train that issued it, or none for a fired `cxt`; the point it fires
(R193); the cursor at which it pauses, block and output row, with the flags gathered so far (R197).
Jobs and producers share one order of names, the order in which they reached the unit (R200). -/
structure Job where
  train : Option Nat
  rv    : Option Nat
  kind  : JobKind
  block : Nat
  row   : Nat
  flags : BitVec 6
  /-- the cycles of its unit that it has still to take, from a cycle on (R196, R383) -/
  since : Nat
  left  : Nat
  deriving DecidableEq, Repr

/-- Where a team is: resident on a core; vacated into a save slot of its context (R346); retired,
with its scratchpad kept for its siblings (R214). -/
inductive Loc
  | core (n : Nat)
  | saved (slot gen : Nat)
  | retired (core : Nat)
  deriving DecidableEq, Repr

/-- A team (R127 to R131, R150, R198, R291). -/
structure Team where
  ctx     : Nat
  loc     : Loc
  /-- number of the launch; none for a task team -/
  launch  : Option Nat
  group   : Nat
  sib     : Nat
  csize   : Nat
  team    : Word
  grid    : Word
  arg     : Addr
  prio    : Nat
  determ  : Bool
  fused   : Bool
  split   : Nat
  lanes   : Nat
  width   : Nat
  regs    : Nat
  roles   : List Nat
  scrSize : Nat
  /-- where its allocation starts in the core's scratchpad (R135) -/
  scrAt   : Nat
  /-- scratchpad bytes that are not 0 (R215) -/
  scr     : AMap Byte
  accSize : Nat
  /-- accumulator words that are not 0, by word (R198) -/
  acc     : AMap Word
  stash   : Addr
  stLo    : Addr
  stHi    : Nat
  events  : Addr
  pool    : Nat
  claims  : List Claim
  rvs     : AMap Rv
  trains  : AMap Train
  copies  : AMap Copy
  jobs    : AMap Job
  nextId  : Nat
  /-- requests of the core it was vacated from, which its trains' releases and loads still follow
  (R248) -/
  owed    : List Nat
  /-- once every train has ended: the requests of its core that its completion follows (R155, R249) -/
  closing : Option (List Nat)
  /-- stopped by system software (R332) or by a bad image (R348) -/
  aborted : Bool
  deriving DecidableEq, Repr

/-! ## Cores, clusters, the Platform -/

/-- A task's launch (R281, R288): context, index, argument record, and what its entry read gave. -/
structure Task where
  ctx    : Nat
  task   : BitVec 8
  rec_   : BitVec 256
  header : Addr
  arg    : Addr
  prio   : Nat
  /-- the order in which its Platform took it, among all tasks (R302) -/
  order  : Nat
  deriving DecidableEq, Repr

/-- A forming train of a Platform (R296). -/
structure Forming where
  tasks : List Task
  close : Nat
  deriving DecidableEq, Repr

/-- A departed task train (R296): its tasks, and what the header read gave; `lost` is the reason for
which they are lost (R294), 0 for none, and `wait` the name under which the record of the first of them
waits for room (R335). -/
structure Departed where
  tasks  : List Task
  regs   : Nat
  budget : Nat
  split  : Nat
  scr    : Nat
  lost   : Nat
  wait   : Option Nat
  deriving DecidableEq, Repr

/-- A run in progress (R45): the train, the place of its split, instructions issued. -/
structure Run where
  uid   : Nat
  train : Nat
  idx   : Nat
  count : Nat
  deriving DecidableEq, Repr

/-- An issue pipe (R125, R137, R383): its run, the gang passes begun in the current window, and the
cycle from which the default schedule lets it issue again. -/
structure Pipe where
  run    : Option Run
  window : Nat
  passes : Nat
  next   : Nat
  deriving DecidableEq, Repr

/-- A core (R126, R135, R136, R219, R296, R343, R345). -/
structure Core where
  split     : Nat
  /-- the launch for which the core drains (R136) -/
  draining  : Option Nat
  l1        : AMap L1Line
  tlb       : List TlbEntry
  pipes     : AMap Pipe
  forming   : List Forming
  departed  : List Departed
  merge     : Option Merge
  /-- halted by a pre-emption request (R345) -/
  halted    : Bool
  /-- teams still to vacate -/
  vacating  : List Nat
  grant     : Nat
  deriving DecidableEq, Repr

/-- An entry of a slice launch queue (R293): the core that its launch is bound to; a lost launch holds
its entry until its record, which waits by this name, is written (R335); the request of the `casl`, at
whose acknowledgement the launch can be delivered (R247). -/
structure LqEntry where
  core : Nat
  task : Task
  lost : Option Nat
  req  : Option Nat
  deriving DecidableEq, Repr

/-- A slice's launch queue: launches, and `casl` requests that wait in arrival order (R293). -/
structure Slice where
  queue   : List LqEntry
  waiting : List Nat
  deriving DecidableEq, Repr

/-! ## The Timetable -/

/-- An accepted launch (R130, R132). -/
structure Launch where
  ctx     : Nat
  prio    : Nat
  order   : Nat
  csize   : Nat
  determ  : Bool
  fused   : Bool
  grid    : Word
  teams   : Nat
  header  : Addr
  arg     : Addr
  events  : Addr
  stash   : Addr
  stashsz : Nat
  deps    : List (Addr × Nat)
  /-- its dependences are satisfied (R133) -/
  ready   : Bool
  /-- groups placed, teams retired -/
  placed  : Nat
  retired : Nat
  lanes   : Nat
  width   : Nat
  regs    : Nat
  roles   : List Nat
  scrSize : Nat
  split   : Nat
  deriving DecidableEq, Repr

/-! ## Contexts -/

/-- A commutative range (R226): start, length, operation. -/
structure Range where
  start : Addr
  len   : Nat
  op    : BitVec 2
  deriving DecidableEq, Repr

/-- A launch queue's registers (R356). -/
structure LqRegs where
  base : Addr
  size : BitVec 5
  ctl  : Addr
  deriving DecidableEq, Repr

/-- A writer that waits for fault-queue room (R335): a train at its trap entry; an engine's suspended
stream; a record of a writer that traps no train, by a name. -/
inductive FqWriter
  | train (uid tn : Nat)
  | stream (uid tn q : Nat) (r : Rec)
  | rec_ (key : Nat) (r : Rec)
  deriving DecidableEq, Repr

/-- A context (R7, R328, R356, R377, R90, R226). -/
structure Ctx where
  created   : Bool
  ptroot    : BitVec 56
  fqbase    : Addr
  fqsize    : BitVec 5
  fqctl     : Addr
  vector    : Addr
  trapmask  : BitVec 17
  scopechk  : Bool
  save      : Addr
  saveslots : BitVec 16
  tasktable : Addr
  memctl    : Word
  partition : BitVec 4
  devmap    : Addr
  peerok    : Bool
  lq        : List LqRegs
  nvec      : BitVec 11
  /-- status register: last notification cause, command status -/
  cause     : Byte
  cmdStatus : Byte
  /-- the command register and its arguments (R377) -/
  command   : DWord
  args      : List DWord
  /-- what the command under way has come to, for its completion: 0 not yet, or a command status -/
  outcome   : Byte
  /-- codebook entries that are not 0 (R90) -/
  codebook  : AMap Word
  /-- tables that a `cbld` has read and not yet put in force, by a name (R119, R120) -/
  loading   : AMap (AMap Word)
  ranges    : List Range
  /-- writers that wait for fault-queue room, in arrival order (R335) -/
  fqWait    : List FqWriter
  /-- end of the current microsecond of notifications, and whether records came in it (R368) -/
  noteTill  : Nat
  noteDue   : Bool
  /-- launch queues whose doorbell has rung, or that are being processed up to the given count (R366) -/
  bells     : List (Nat × Option Nat)
  /-- placement of its teams is stopped, by phase 1 of a checkpoint (R369) -/
  quiesced  : Bool
  /-- slice queue entries and Platform tasks unloaded with the context (R302) -/
  unloaded  : List LqEntry
  /-- save slots in use -/
  slots     : List Nat
  deriving DecidableEq, Repr

/-! ## The rest of the device -/

/-- What a checkpoint holds (R369). -/
structure Ckpt where
  gen      : Nat
  at_      : Nat
  size     : Nat
  /-- the number of the device that wrote it -/
  device   : Nat
  ctxId    : Nat
  ctx      : Ctx
  teams    : AMap Team
  launches : AMap Launch
  /-- every name in it lies below this one -/
  nextId   : Nat
  /-- range starts, lengths and their nonzero bytes by offset -/
  ranges   : List (Addr × Nat × AMap Byte)
  deriving DecidableEq, Repr

/-- Boot registers (R378, R381). -/
structure Boot where
  mode   : BitVec 4
  stage  : Byte
  fails  : BitVec 4
  reason : Byte
  /-- the cycle by which the firmware must report up (R379) -/
  till   : Nat
  /-- the cycle by which every core has left reset (R17, R21) -/
  from_  : Nat
  cxlUp  : BitVec 4
  milern : BitVec 16
  deriving DecidableEq, Repr

/-- A Milern port (R361): consecutive failures, the cycle of the last flit received. -/
structure Port where
  fails : Nat
  last  : Nat
  deriving DecidableEq, Repr

/-- A die's monitors (R385), its throttle (R384) and its shared TLB (R343). -/
structure Die where
  thermal   : AMap Word
  droop     : AMap DWord
  process   : AMap Word
  corrected : AMap Word
  /-- corrected errors since the last sample, by reason code (R385) -/
  pending   : AMap Nat
  throttled : Bool
  tlb       : List TlbEntry
  /-- the end of the arbiter period in which the sensors were last sampled (R385) -/
  sampled   : Nat
  /-- what the droop and corrected-error words took in the cycle `newAt` (R385) -/
  newAt     : Nat
  newDroop  : AMap DWord
  newCorr   : AMap Word
  deriving DecidableEq, Repr

/-- A partition (R7, R218, R382, R134): memory share word, cluster mask, power weight, and the
context served last at each priority. -/
structure Partition where
  share   : Word
  mask    : DWord
  weight  : Byte
  served  : AMap Nat
  deriving DecidableEq, Repr

/-- A peer load in flight (R357): team, train, producer, and the cycle it times out. -/
structure PeerLoad where
  uid   : Nat
  train : Nat
  prod  : Nat
  dev   : Nat
  /-- the virtual address there and the bytes that it asks for -/
  addr  : Nat
  n     : Nat
  till  : Nat
  deriving DecidableEq, Repr

/-- A question to a peer device whether an access passes its checks (R357): team, train, address in the
peer space, and the cycle it times out. -/
structure Probe where
  uid   : Nat
  train : Nat
  ea    : Nat
  dev   : Nat
  till  : Nat
  deriving DecidableEq, Repr

/-- What invariant loads may find in an 8-byte granule (R243): the kernels that have promised that it is not
written; and values that writes have replaced, with the kernels that lived then. -/
structure InvCell where
  promised : List Nat
  olds     : List (DWord × List Nat)
  deriving DecidableEq, Repr

/-- What a step may do: one issue of a pipe, one step of the device, or nothing while the model's
clock advances by the given cycles; `pick` says which of the accesses that the next step could take it
takes, by their places (log entry 16). -/
inductive Action
  | issue (core pipe : Nat)
  | ev (i : Instr)
  | tick (n : Nat)
  | pick (places : List Nat)
  deriving DecidableEq, Repr

/-- The device. -/
structure State where
  /-- the model's own clock: core cycles (log entry 5) -/
  now       : Nat
  /-- the model's own schedule: steps to take next (log entry 5) -/
  agenda    : List Action
  /-- the model's own: the accesses that the next step takes, where it could take several; none named,
  all of them (log entry 16) -/
  pick      : List Nat
  /-- the pipe that issues: core, pipe -/
  turn      : Nat × Nat
  /-- the model's own counters: names of requests, launches and teams, and free values drawn -/
  nextId    : Nat
  drawn     : Nat
  mem       : Memory
  l2        : AMap L2Line
  partials  : List Partial
  net       : AMap Req
  peerLoads : AMap PeerLoad
  probes    : AMap Probe
  /-- promises of invariant loads and the writes that may break them, by 8-byte granule (R243) -/
  inv       : AMap InvCell
  cores     : AMap Core
  /-- clusters whose L1s are fused (R220) -/
  fused     : List Nat
  teams     : AMap Team
  slices    : AMap Slice
  launches  : AMap Launch
  ctxs      : AMap Ctx
  parts     : AMap Partition
  dies      : AMap Die
  boot      : Boot
  /-- power budget, estimate of the last period, end of the current period (R382, R383) -/
  budget    : Nat
  estimate  : Word
  period    : Nat
  ports     : AMap Port
  /-- Milern routes, and the port assigned to each 64 GiB window of the pool (R361, R363) -/
  routes    : AMap DWord
  windows   : AMap Nat
  /-- this device's number (R355) -/
  device    : Nat
  /-- what has been sent to peers, by device, and waits at the ports (R357, R361) -/
  outbox    : List (Nat × FlitItem)
  /-- the cycle in which each peer device was last heard (R361) -/
  lastHeard : AMap Nat
  /-- peer devices that have stopped responding (R361, R362, R368) -/
  silent    : List Nat
  /-- 8-byte granules with an uncorrectable error: place kind and address (R344) -/
  errs      : List ErrPlace
  /-- MSI-X messages sent: vector and cause, newest first (R368) -/
  msix      : List (Nat × Byte)
  /-- what the last host read returned -/
  hostOut   : List Byte
  ckpts     : List Ckpt
  deriving DecidableEq, Repr

/-- Why a step stops. -/
inductive Fault
  /-- An instruction was given to `exec` while the pipe named by `turn` has no run in progress, or
  its run names no resident train: no machine state issues it. Raised by the arms of the encoded
  instructions. Safe: `step` never reaches it. -/
  | noTrain
  deriving DecidableEq, Repr

/-- Why an instruction has no meaning here. -/
inductive Refusal
  /-- The instruction has no meaning in this model yet. Raised by the dispatch. Safe. -/
  | notModelled (mnemonic : String)
  deriving DecidableEq, Repr

/-- Boot registers before the first start (R378, R379): mode starting, no stage reached. The link
status is written by the start (R381); before it, no port is up. -/
def Boot.reset : Boot := ⟨0, 0, 0, 0, 6000000000, 0, 0, 0⟩

/-- The device right after reset: nothing placed, no context created, memory with nothing listed;
the arbiter's budget has no reset value in the manual (log entry 3). -/
def State.reset : State where
  now := 0
  agenda := []
  pick := []
  turn := (0, 0)
  nextId := 0
  drawn := 0
  mem := []
  l2 := []
  partials := []
  net := []
  peerLoads := []
  probes := []
  inv := []
  cores := []
  fused := []
  teams := []
  slices := []
  launches := []
  ctxs := []
  parts := []
  dies := []
  boot := Boot.reset
  budget := 2400
  estimate := 0
  period := 12000
  ports := []
  routes := []
  windows := []
  device := 0
  outbox := []
  lastHeard := []
  silent := []
  errs := []
  msix := []
  hostOut := []
  ckpts := []

end Sys2Proof.Machine
end

