-- ==== Sys2Proof/Machine/Map.lean ====
section
/-!
DEFINITION. Finite maps with rising keys, maps with a default that is not listed, stored memory in
its canonical form, and the byte and mask helpers the rest of the machine uses.
-/
namespace Sys2Proof.Machine

/-- The value at key `k`. -/
def mapGet {α : Type} : AMap α → Nat → Option α
  | [], _ => none
  | (k', x) :: t, k => if k' = k then some x else mapGet t k

/-- `m` with the value at key `k` set to `x`, keys kept rising. -/
def mapPut {α : Type} : AMap α → Nat → α → AMap α
  | [], k, x => [(k, x)]
  | (k', y) :: t, k, x =>
    if k < k' then (k, x) :: (k', y) :: t
    else if k = k' then (k, x) :: t
    else (k', y) :: mapPut t k x

/-- `m` without key `k`. -/
def mapDel {α : Type} : AMap α → Nat → AMap α
  | [], _ => []
  | (k', y) :: t, k => if k' = k then mapDel t k else (k', y) :: mapDel t k

/-- `m` with the value at key `k`, where there is one, replaced by `f` of it. -/
def mapMod {α : Type} (m : AMap α) (k : Nat) (f : α → α) : AMap α :=
  match mapGet m k with
  | none => m
  | some x => mapPut m k (f x)

/-- The value at key `k` of a map that lists only what differs from `d`. -/
def defGet {α : Type} (d : α) (m : AMap α) (k : Nat) : α := (mapGet m k).getD d

/-- Set the value at key `k` of a map that lists only what differs from `d`. -/
def defPut {α : Type} [DecidableEq α] (d : α) (m : AMap α) (k : Nat) (x : α) : AMap α :=
  if x = d then mapDel m k else mapPut m k x

/-- The keys of `m`, rising. -/
def mapKeys {α : Type} (m : AMap α) : List Nat := m.map Prod.fst

/-- Keys strictly rising. -/
def risingKeys {α : Type} : AMap α → Bool
  | [] => true
  | [_] => true
  | (k, _) :: (k', y) :: t => k < k' && risingKeys ((k', y) :: t)

/-- What an unlisted address of stored memory reads as (log entry 4). -/
def memDefault : Byte := 0

/-- Stored memory is in its canonical form: addresses strictly rising, no entry equal to what an
unlisted address reads as. -/
def memWf (m : Memory) : Bool := risingKeys m && m.all fun c => c.2 != memDefault

/-- The canonical form, by the name the rest of the package uses. -/
abbrev Memory.wf (m : Memory) : Bool := memWf m

/-- One byte of stored memory. -/
def memGet (m : Memory) (a : Nat) : Byte := defGet memDefault m a

/-- Store one byte. -/
def memPut (m : Memory) (a : Nat) (x : Byte) : Memory := defPut memDefault m a x

/-- Store bytes from address `a` on. -/
def memPutBytes (m : Memory) (a : Nat) : List Byte → Memory
  | [] => m
  | x :: xs => memPutBytes (memPut m a x) (a + 1) xs

/-- Insert into a list without repeats, kept rising. -/
def setAdd : List Nat → Nat → List Nat
  | [], x => [x]
  | y :: t, x => if x < y then x :: y :: t else if x = y then y :: t else y :: setAdd t x

/-- Remove from a list. -/
def setDel (l : List Nat) (x : Nat) : List Nat := l.filter (· != x)

/-- `f` applied to the element at place `n`. -/
def listMod {α : Type} : List α → Nat → (α → α) → List α
  | [], _, _ => []
  | x :: t, 0, f => f x :: t
  | x :: t, n + 1, f => x :: listMod t n f

/-- The element at place `n` replaced by a list. -/
def listReplace {α : Type} : List α → Nat → List α → List α
  | [], _, _ => []
  | _ :: t, 0, l => l ++ t
  | x :: t, n + 1, l => x :: listReplace t n l

/-- The list without the element at place `n`. -/
def listDrop {α : Type} (l : List α) (n : Nat) : List α := listReplace l n []

/-! ## Bits and bytes -/

/-- Bytes, lowest first, as one number (R3). -/
def leNat : List Byte → Nat
  | [] => 0
  | b :: t => b.toNat + 256 * leNat t

/-- The `n` low bytes of `x`, lowest first (R3). -/
def natLe : Nat → Nat → List Byte
  | 0, _ => []
  | n + 1, x => BitVec.ofNat 8 x :: natLe n (x / 256)

/-- Bits [lo+n-1:lo] of a number. -/
def bitsOf (x lo n : Nat) : Nat := x / 2 ^ lo % 2 ^ n

/-- One bit of a number. -/
def bitOf (x i : Nat) : Bool := x / 2 ^ i % 2 == 1

/-- The lanes of a mask, ascending. -/
def lanesOf (m : LaneMask) : List Nat := (List.range 64).filter fun l => m.getLsbD l

/-- The mask of a list of lanes. -/
def maskOf : List Nat → LaneMask
  | [] => 0
  | l :: t => BitVec.ofNat 64 (2 ^ l % 2 ^ 64) ||| maskOf t

/-- The mask of lanes 0 to n - 1. -/
def lowMask (n : Nat) : LaneMask := BitVec.ofNat 64 (2 ^ n - 1)

/-- The lowest lane of a list in ascending order. -/
def headLane : List Nat → Nat
  | [] => 0
  | l :: _ => l

/-- Byte `i` of a line. -/
def lineByte (x : Line) (i : Nat) : Byte := x.extractLsb' (8 * i) 8

/-- A line with byte `i` set. -/
def lineSet (x : Line) (i : Nat) (b : Byte) : Line :=
  (x &&& ~~~ ((0xFF#1024) <<< (8 * i))) ||| (b.setWidth 1024 <<< (8 * i))

/-- Bytes, lowest first, as a line. -/
def lineOf (l : List Byte) : Line := BitVec.ofNat 1024 (leNat l)

/-- ⌈a / b⌉. -/
def ceilDiv (a b : Nat) : Nat := (a + b - 1) / b

/-- `a` rounded up to a multiple of `b`. -/
def roundUp (a b : Nat) : Nat := ceilDiv a b * b

/-- Floor of the square root, by `fuel` steps of the bitwise method from bit `fuel` down. -/
def sqrtFrom (n : Nat) : Nat → Nat → Nat
  | 0, r => r
  | k + 1, r =>
    let r' := r + 2 ^ k
    if r' * r' ≤ n then sqrtFrom n k r' else sqrtFrom n k r

/-- Floor of the square root. -/
def natSqrt (n : Nat) : Nat := sqrtFrom n (Nat.log2 n / 2 + 1) 0

end Sys2Proof.Machine
end

