-- ==== Sys2Proof/Machine/Flags.lean ====
section
/-!
DEFINITION. The six sticky flags (R18) and every computation of this machine that sets one: the
saturating helpers of R28 and R57, rounding by R94 and R95, the conversions of R96 and R97, the sums
of R106, R107 and R182, and the functions of R112, on exact numbers.
-/
namespace Sys2Proof.Machine

/-- A set of sticky flags: bit 0 invalid, 1 divzero, 2 overflow, 3 underflow, 4 inexact, 5 SAT. -/
abbrev FlagSet := BitVec 6

def fInvalid : FlagSet := 1
def fDivzero : FlagSet := 2
def fOverflow : FlagSet := 4
def fUnderflow : FlagSet := 8
def fInexact : FlagSet := 16
def fSat : FlagSet := 32

/-- The flag when the condition holds. -/
def flagIf (c : Bool) (f : FlagSet) : FlagSet := if c then f else 0

/-! ## Saturation (R28, R57) -/

/-- An exact integer clamped to a range, with SAT when that changes it. -/
def clampSat (lo hi x : Int) : Int × FlagSet :=
  if x < lo then (lo, fSat) else if hi < x then (hi, fSat) else (x, 0)

/-- Sat32, Sat64, SatU32 and SatU64 of R28 and R57: the range of `w` bits. -/
def satInt (w : Nat) (unsigned : Bool) (x : Int) : Int × FlagSet :=
  if unsigned then clampSat 0 (2 ^ w - 1) x else clampSat (-2 ^ (w - 1)) (2 ^ (w - 1) - 1) x

/-! ## Exact numbers -/

/-- The value of a float code (R85, R86): a NaN, signalling or quiet; an infinity; or
(−1)^neg · m · 2^e, which keeps the sign of a zero. -/
inductive Num
  | nan (signalling : Bool)
  | inf (neg : Bool)
  | fin (neg : Bool) (m : Nat) (e : Int)
  deriving DecidableEq, Repr

/-- A float format (R84): exponent width, fraction width, bias. -/
structure Fmt where
  expW : Nat
  fracW : Nat
  bias : Nat
  deriving DecidableEq, Repr

/-- The float formats, by their code (R83, R84). -/
def fmtOf (f : Nat) : Fmt :=
  match f with
  | 0 => ⟨8, 23, 127⟩
  | 1 => ⟨8, 7, 127⟩
  | 2 => ⟨5, 10, 15⟩
  | 3 => ⟨4, 3, 7⟩
  | 4 => ⟨5, 2, 15⟩
  | _ => ⟨2, 1, 1⟩

/-- Bits per element of a format (R83); CB2 counts 2. -/
def elemBits (f : Nat) : Nat :=
  match f with
  | 0 => 32 | 1 => 16 | 2 => 16 | 3 => 8 | 4 => 8 | 5 => 4 | 6 => 8 | 7 => 8 | 8 => 8 | 9 => 4
  | 10 => 2 | _ => 4

/-- A format of kind binary float (R83). -/
def isFloatFmt (f : Nat) : Bool := f ≤ 5

/-- The largest finite magnitude code (R84). -/
def maxMag (f : Nat) : Nat :=
  match f with
  | 0 => 0x7F7FFFFF | 1 => 0x7F7F | 2 => 0x7BFF | 3 => 0x7E | 4 => 0x7B | _ => 7

/-- The magnitude code of infinity, for a format that has one (R84). -/
def infMag (f : Nat) : Nat :=
  match f with
  | 0 => 0x7F800000 | 1 => 0x7F80 | 2 => 0x7C00 | _ => 0x7C

/-- The canonical NaN (R86); FP4 has none, and R96 gives +0 there. -/
def nanCode (f : Nat) : Nat :=
  match f with
  | 0 => 0x7FC00000 | 1 => 0x7FC0 | 2 => 0x7E00 | 3 => 0x7F | 4 => 0x7E | _ => 0

/-- The sign bit of a format, when set. -/
def signBit (f : Nat) (neg : Bool) : Nat := if neg then 2 ^ (elemBits f - 1) else 0

/-- Decode of R101 for a float format. -/
def decodeFloat (f c : Nat) : Num :=
  let F := fmtOf f
  let neg := bitOf c (F.expW + F.fracW)
  let e := bitsOf c F.fracW F.expW
  let m := bitsOf c 0 F.fracW
  let ones := e == 2 ^ F.expW - 1
  if f = 3 && ones && m == 7 then .nan false
  else if ones && !(f == 3 || f == 5) then
    if m = 0 then .inf neg else .nan (!bitOf m (F.fracW - 1))
  else if e = 0 then .fin neg m (1 - (F.bias : Int) - F.fracW)
  else .fin neg (m + 2 ^ F.fracW) ((e : Int) - F.bias - F.fracW)

/-- Sign-extended value of the low `n` bits. -/
def sext (n x : Nat) : Int :=
  let y := x % 2 ^ n
  if n ≠ 0 ∧ 2 ^ (n - 1) ≤ y then (y : Int) - 2 ^ n else y

/-- An integer as an exact number; zero is +0. -/
def numOfInt (x : Int) : Num := .fin (x < 0) x.natAbs 0

/-- Decode of R101 for an integer format: INT8, UINT8, INT4 (R87), OB8 and OB4 with zero point `z`
(R88). -/
def decodeInt (f c z : Nat) : Int :=
  match f with
  | 6 => sext 8 c
  | 7 => (c % 256 : Nat)
  | 8 => ((c % 256 : Nat) : Int) - (z % 256 : Nat)
  | 9 => ((c % 16 : Nat) : Int) - (z % 16 : Nat)
  | _ => sext 4 c

/-- CB2Decode of R89: twice the value of element `i` of group `x`, from the group's table entry. -/
def cb2Twice (entry x i : Nat) : Int :=
  let h : Int := if bitOf x 0 then 1 else 0
  let f := if i < 7 then bitOf x (i + 1)
    else bitOf x 1 ^^ bitOf x 2 ^^ bitOf x 3 ^^ bitOf x 4 ^^ bitOf x 5 ^^ bitOf x 6 ^^ bitOf x 7
  let e := sext 4 (bitsOf entry (4 * i) 4)
  if f then -(2 * e + h) else 2 * e + h

/-- The entry `index` that a decode sees: where the tables differ in it, that of one of them (R120). The
free value is drawn for the decode's own `group`. -/
def codeEntry (b : Codebooks) (group index : Nat) : Word :=
  let xs := b.tables.map fun t => defGet 0 t index
  match xs with
  | [] => 0
  | x :: rest =>
    if rest.all (· == x) then x else (xs[Config.tablePick b.draw group % xs.length]?).getD x

/-- Element `i` of a CB2 row (R89 to R91); the row's groups are numbered from `base` on. -/
def cb2Num (b : Codebooks) (base row i : Nat) : Num :=
  let x := bitsOf row (16 * (i / 8)) 16
  let t := cb2Twice (codeEntry b (base + i / 8) (x / 256)).toNat x (i % 8)
  .fin (t < 0) t.natAbs (-1)

/-- The product of two exact numbers; 0 × ∞ gives a NaN. -/
def mulNum (a b : Num) : Num :=
  match a, b with
  | .nan s, .nan t => .nan (s || t)
  | .nan s, _ => .nan s
  | _, .nan s => .nan s
  | .inf s, .inf t => .inf (s ^^ t)
  | .inf s, .fin t m _ => if m = 0 then .nan true else .inf (s ^^ t)
  | .fin s m _, .inf t => if m = 0 then .nan true else .inf (s ^^ t)
  | .fin s m e, .fin t m' e' => .fin (s ^^ t) (m * m') (e + e')

/-- An exact number with its sign changed. -/
def negNum : Num → Num
  | .nan s => .nan s
  | .inf s => .inf (!s)
  | .fin s m e => .fin (!s) m e

/-- An exact number times 2^k. -/
def scaleNum (a : Num) (k : Int) : Num :=
  match a with
  | .fin s m e => .fin s m (e + k)
  | x => x

def isNan : Num → Bool
  | .nan _ => true
  | _ => false

def isSnan : Num → Bool
  | .nan true => true
  | _ => false

def isInf : Num → Bool
  | .inf _ => true
  | _ => false

/-- The sign bit of a number. -/
def numNeg : Num → Bool
  | .nan _ => false
  | .inf s => s
  | .fin s _ _ => s

/-- The least exponent among finite numbers. -/
def minExp : List Num → Int
  | [] => 0
  | [.fin _ _ e] => e
  | .fin _ _ e :: t => min e (minExp t)
  | _ :: t => minExp t

/-- The exact sum of the finite numbers of a list, in units of 2^e, for an `e` at or below every
exponent. -/
def sumAt (e : Int) : List Num → Int
  | [] => 0
  | .fin s m e' :: t =>
    let x : Int := (m * 2 ^ (e' - e).toNat : Nat)
    (if s then -x else x) + sumAt e t
  | _ :: t => sumAt e t

/-! ## Rounding (R93 to R95) -/

/-- n · 2^k rounded down, and whether nothing was dropped. -/
def shiftFloor (n : Nat) (k : Int) : Nat × Bool :=
  if 0 ≤ k then (n * 2 ^ k.toNat, true)
  else (n / 2 ^ (-k).toNat, n % 2 ^ (-k).toNat == 0)

/-- Whether the larger-magnitude neighbour is chosen (R94): `n` the smaller neighbour in units of
the spacing, `f` = ⌊f · 2^32⌋ of the fraction, `ex` whether the fraction has no bits below those. -/
def roundsUp (mode : Nat) (neg : Bool) (n f : Nat) (ex : Bool) (r : Nat) : Bool :=
  match mode with
  | 0 => 2 ^ 31 < f || (f == 2 ^ 31 && (!ex || n % 2 == 1))
  | 1 => false
  | 2 => !neg
  | 3 => neg
  | _ => r < f

/-- OverflowResult of R95: the magnitude code. -/
def overflowMag (f mode : Nat) (neg ov : Bool) : Nat :=
  let away := match mode with
    | 1 => false
    | 2 => !neg
    | 3 => neg
    | _ => true
  if !ov || f = 5 || !away then maxMag f
  else if f = 3 then 0x7F else infMag f

/-- Round of R94 for |x| in [n · 2^e, (n + 1) · 2^e), equal to n · 2^e exactly when `ex`; n is not 0
and, when not `ex`, has more than 32 bits below the spacing of `f`. The E4M3 overflow code 0x7F
takes no sign. -/
def roundCore (f mode r : Nat) (ov neg : Bool) (n : Nat) (e : Int) (ex : Bool) : Nat × FlagSet :=
  let F := fmtOf f
  let lg : Int := (Nat.log2 n : Int) + e
  let emin : Int := 1 - (F.bias : Int)
  let q : Int := max lg emin - F.fracW
  let (t, ex1) := shiftFloor n (e - q + 32)
  let exact := ex && ex1
  let lo := t / 2 ^ 32
  let fr := t % 2 ^ 32
  let changed := !(fr == 0 && exact)
  let y := if changed && roundsUp mode neg lo fr exact r then lo + 1 else lo
  let mag := (q + F.fracW - emin).toNat * 2 ^ F.fracW + y
  let fl := flagIf changed (fInexact ||| flagIf (lg < emin) fUnderflow)
  if maxMag f < mag then
    let c := overflowMag f mode neg ov
    let c := if f = 3 && c = 0x7F then c else c + signBit f neg
    (c, fl ||| fOverflow ||| fInexact)
  else (mag + signBit f neg, fl)

/-- The code of a number in float format `f`, rounded (R94) and with R96 for NaN, infinity and
zero: what a conversion to `f` writes. -/
def toFloat (f mode r : Nat) (ov : Bool) (x : Num) : Nat × FlagSet :=
  match x with
  | .nan s => (nanCode f, flagIf (s || f = 5) fInvalid)
  | .inf neg =>
    if f = 5 then (7 + signBit f neg, fInvalid)
    else if f = 3 then
      if ov then (0x7F, fInvalid) else (0x7E + signBit f neg, fOverflow ||| fInexact)
    else (infMag f + signBit f neg, 0)
  | .fin neg m e =>
    if m = 0 then (signBit f neg, 0) else roundCore f mode r ov neg m e true

/-- R106 and R107: the sum of `terms`, rounded once to float format `f`, where `srcs` are the
operands from which the terms were formed. -/
def sumRound (f mode r : Nat) (ov : Bool) (srcs terms : List Num) : Nat × FlagSet :=
  let fl := flagIf (srcs.any isSnan) fInvalid
  if srcs.any isNan then (nanCode f, fl)
  else if terms.any isNan || (terms.any (· == .inf false) && terms.any (· == .inf true)) then
    (nanCode f, fInvalid)
  else if terms.any (· == .inf false) then (infMag f, fl)
  else if terms.any (· == .inf true) then (infMag f + signBit f true, fl)
  else
    let e := minExp terms
    let s := sumAt e terms
    if s = 0 then
      (signBit f (terms.all numNeg || mode == 3), fl)
    else
      let (c, g) := roundCore f mode r ov (s < 0) s.natAbs e true
      (c, fl ||| g)

/-- R106, R107 for a product of two operands. -/
def mulRound (f mode r : Nat) (ov : Bool) (a b : Num) : Nat × FlagSet :=
  let fl := flagIf (isSnan a || isSnan b) fInvalid
  if isNan a || isNan b then (nanCode f, fl)
  else match mulNum a b with
    | .nan _ => (nanCode f, fInvalid)
    | .inf s => (infMag f + signBit f s, fl)
    | .fin s m e =>
      if m = 0 then (signBit f s, fl)
      else
        let (c, g) := roundCore f mode r ov s m e true
        (c, fl ||| g)

/-- FSum of R182: FP32, RNE. -/
def fsum (srcs terms : List Num) : Nat × FlagSet := sumRound 0 0 0 true srcs terms

/-- A finite number rounded to an integer by R94's procedure with a spacing of 1, and whether that
changed it (R97). -/
def roundToInt (mode r : Nat) (neg : Bool) (m : Nat) (e : Int) : Int × Bool :=
  let (t, ex) := shiftFloor m (e + 32)
  let lo := t / 2 ^ 32
  let fr := t % 2 ^ 32
  let changed := !(fr == 0 && ex)
  let y := if changed && roundsUp mode neg lo fr ex r then lo + 1 else lo
  (if neg then -(y : Int) else y, changed)

/-- ToInt of R101: to the range lo … hi, by R96 and R97. -/
def toInt (lo hi : Int) (mode r : Nat) (x : Num) : Int × FlagSet :=
  match x with
  | .nan _ => (0, fInvalid)
  | .inf neg => (if neg then lo else hi, fInvalid)
  | .fin neg m e =>
    let (y, changed) := roundToInt mode r neg m e
    if y < lo then (lo, fInvalid)
    else if hi < y then (hi, fInvalid)
    else (y, flagIf changed fInexact)

/-- The code range of an integer or offset format (R83, R97). -/
def intRange (f : Nat) : Int × Int :=
  match f with
  | 6 => (-128, 127)
  | 7 => (0, 255)
  | 8 => (0, 255)
  | 9 => (0, 15)
  | _ => (-8, 7)

/-! ## Minimum, maximum, comparison, class -/

/-- A key that orders non-NaN numbers, −0 below +0 (R108): compares as `a < b`. -/
def numLt (a b : Num) : Bool :=
  match a, b with
  | .nan _, _ => false
  | _, .nan _ => false
  | .inf s, .inf t => s && !t
  | .inf s, .fin .. => s
  | .fin .., .inf t => !t
  | .fin s m e, .fin t m' e' =>
    let e0 := min e e'
    let x := m * 2 ^ (e - e0).toNat
    let y := m' * 2 ^ (e' - e0).toNat
    match s, t with
    | true, false => true
    | false, true => false
    | false, false => x < y
    | true, true => y < x

/-- a = b as values: −0 and +0 are equal (R110). -/
def numEq (a b : Num) : Bool :=
  match a, b with
  | .nan _, _ => false
  | _, .nan _ => false
  | .inf s, .inf t => s == t
  | .fin s m e, .fin t m' e' =>
    let e0 := min e e'
    let x := m * 2 ^ (e - e0).toNat
    let y := m' * 2 ^ (e' - e0).toNat
    x == y && (x == 0 || s == t)
  | _, _ => false

/-- `fmin` and `fmax` of R108 on codes of format `f`. -/
def minMaxCode (f : Nat) (isMax : Bool) (a b : Nat) : Nat × FlagSet :=
  let x := decodeFloat f a
  let y := decodeFloat f b
  let fl := flagIf (isSnan x || isSnan y) fInvalid
  if isNan x && isNan y then (nanCode f, fl)
  else if isNan x then (b, fl)
  else if isNan y then (a, fl)
  else if isMax then (if numLt x y then b else a, fl)
  else (if numLt y x then b else a, fl)

/-- The conditions of R110. -/
def fcmpHolds (cond : Nat) (a b : Num) : Bool :=
  let un := isNan a || isNan b
  let eq := numEq a b
  let lt := !un && !eq && numLt a b
  match cond with
  | 0 => eq
  | 1 => un || !eq
  | 2 => lt
  | 3 => lt || eq
  | 4 => !un && !eq && !lt
  | 5 => !un && !lt
  | 6 => un
  | _ => !un

/-- The class word of R109. -/
def fclassOf (c : Nat) : Nat :=
  match decodeFloat 0 c with
  | .nan s => if s then 2 ^ 8 else 2 ^ 9
  | .inf neg => if neg then 1 else 2 ^ 7
  | .fin neg m e =>
    if m = 0 then (if neg then 2 ^ 3 else 2 ^ 4)
    else if m < 2 ^ 23 && e == -149 then (if neg then 2 ^ 2 else 2 ^ 5)
    else (if neg then 2 else 2 ^ 6)

/-! ## The functions of R112

Each irrational value is enclosed in an interval of integers in units of 2^-P; the result is the one
that both ends round to, for the first of a rising row of precisions at which they agree. The bounds
on the error of each series are far above the number of its roundings. -/

/-- Σ tⁱ⁺¹ = tⁱ · y / (i + 1): e^y for y below 1, in units of 2^-P. -/
def expSeries (P y : Nat) : Nat → Nat → Nat → Nat
  | 0, _, _ => 0
  | k + 1, i, t => t + expSeries P y k (i + 1) (t * y / 2 ^ P / (i + 1))

/-- e^y, y below 1 in units of 2^-P. -/
def expFix (P y : Nat) : Nat := expSeries P y (P / 4 + 30) 0 (2 ^ P)

/-- Σ z^(2i+1) / (2i+1). -/
def atanhSeries (P z2 : Nat) : Nat → Nat → Nat → Nat
  | 0, _, _ => 0
  | k + 1, i, t => t / (2 * i + 1) + atanhSeries P z2 k (i + 1) (t * z2 / 2 ^ P)

/-- 2 · atanh z = ln ((1 + z) / (1 − z)), z at most 1/3 in units of 2^-P. -/
def atanh2Fix (P z : Nat) : Nat := 2 * atanhSeries P (z * z / 2 ^ P) (P / 3 + 8) 0 z

/-- ln 2. -/
def ln2Fix (P : Nat) : Nat := atanh2Fix P (2 ^ P / 3)

/-- Σ (−1)^i / ((2i+1) d^(2i+1)): atan (1/d). -/
def atanInvSeries (d2 : Nat) : Nat → Nat → Nat → Int
  | 0, _, _ => 0
  | k + 1, i, t => (t / (2 * i + 1) : Nat) - atanInvSeries d2 k (i + 1) (t / d2)

/-- π. -/
def piFix (P : Nat) : Nat :=
  (16 * atanInvSeries 25 (P / 4 + 8) 0 (2 ^ P / 5)
    - 4 * atanInvSeries 57121 (P / 4 + 8) 0 (2 ^ P / 239)).toNat

/-- Σ (−1)^i y^(2i+1) / (2i+1)!. -/
def sinSeries (P y2 : Nat) : Nat → Nat → Nat → Int
  | 0, _, _ => 0
  | k + 1, i, t =>
    (t : Int) - sinSeries P y2 k (i + 1) (t * y2 / 2 ^ P / ((2 * i + 2) * (2 * i + 3)))

/-- sin y, y at most 1.6 in units of 2^-P. -/
def sinFix (P y : Nat) : Nat := (sinSeries P (y * y / 2 ^ P) (P / 4 + 20) 0 y).toNat

/-- Square `k` times, in units of 2^-P. -/
def squareFix (P : Nat) : Nat → Nat → Nat
  | 0, x => x
  | k + 1, x => squareFix P k (x * x / 2 ^ P)

/-- An irrational value x = v · 2^s, where `v P` is v in units of 2^-(P+64) with an error below
2^40 units, rounded to FP32 by `mode`. -/
def roundIrr (mode : Nat) (neg : Bool) (s : Int) (v : Nat → Nat) : Nat → Nat → Nat × FlagSet
  | 0, P =>
    roundCore 0 mode 0 true neg (max 1 (v P)) (s - (P + 64 : Nat)) false
  | k + 1, P =>
    let lo := v P - 2 ^ 40
    let hi := v P + 2 ^ 40
    let e : Int := s - (P + 64 : Nat)
    if lo = 0 then roundIrr mode neg s v k (2 * P)
    else
      let a := roundCore 0 mode 0 true neg lo e false
      let b := roundCore 0 mode 0 true neg hi e false
      if a = b then a else roundIrr mode neg s v k (2 * P)

/-- The precisions tried: 96 · 2^i bits, i up to 5. -/
def irrFuel : Nat := 6

/-- 1 / a. -/
def rcpCore (mode : Nat) (neg : Bool) (m : Nat) (e : Int) : Nat × FlagSet :=
  roundCore 0 mode 0 true neg (2 ^ 200 / m) (-200 - e) (2 ^ 200 % m == 0)

/-- √a. -/
def sqrtCore (mode m : Nat) (e : Int) : Nat × FlagSet :=
  let odd := e % 2 ≠ 0
  let m := if odd then 2 * m else m
  let e := if odd then e - 1 else e
  let n := natSqrt (m * 2 ^ 240)
  roundCore 0 mode 0 true false n (e / 2 - 120) (n * n == m * 2 ^ 240)

/-- 1 / √a. -/
def rsqrtCore (m : Nat) (e : Int) : Nat × FlagSet :=
  let odd := e % 2 ≠ 0
  let m := if odd then 2 * m else m
  let e := if odd then e - 1 else e
  let n := natSqrt (2 ^ 400 / m)
  roundCore 0 0 0 true false n (-200 - e / 2) (n * n * m == 2 ^ 400)

/-- 2^a. -/
def exp2Core (neg : Bool) (m : Nat) (e : Int) : Nat × FlagSet :=
  if 2000 ≤ m * 2 ^ e.toNat / 2 ^ (-e).toNat then
    roundCore 0 0 0 true false 1 (if neg then -2000 else 2000) true
  else
    let den : Nat := 2 ^ (-e).toNat
    let x : Int := (m * 2 ^ e.toNat : Nat)
    let x := if neg then -x else x
    let n := x / (den : Int)
    let f := (x % (den : Int)).toNat
    if f = 0 then roundCore 0 0 0 true false 1 n true
    else roundIrr 0 false n (fun P =>
      let Q := P + 64
      expFix Q (ln2Fix Q * f / den)) irrFuel 96

/-- log₂ a, a not a power of two. -/
def log2Core (m : Nat) (e : Int) : Nat × FlagSet :=
  let lg := Nat.log2 m
  let L : Int := (lg : Int) + e
  let d := 2 ^ lg
  if m = d then
    if L = 0 then (0, 0) else roundCore 0 0 0 true (L < 0) L.natAbs 0 true
  else roundIrr 0 (L < 0) 0 (fun P =>
    let Q := P + 64
    let z := (m - d) * 2 ^ Q / (m + d)
    let frac := atanh2Fix Q z * 2 ^ Q / ln2Fix Q
    if L < 0 then L.natAbs * 2 ^ Q - frac else L.natAbs * 2 ^ Q + frac) irrFuel 96

/-- sin (π u / d), 0 < u/d ≤ 1/2. -/
def sinPiCore (neg : Bool) (u d : Nat) : Nat × FlagSet :=
  if 2 * u = d then roundCore 0 0 0 true neg 1 0 true
  else roundIrr 0 neg 0 (fun P =>
    let Q := P + 64
    sinFix Q (piFix Q * u / d)) irrFuel 96

/-- sin (π a), a finite and not 0. -/
def sinCore (neg : Bool) (m : Nat) (e : Int) : Nat × FlagSet :=
  if 0 ≤ e then (signBit 0 neg, 0)
  else
    let d := 2 ^ (-e).toNat
    let u := m % (2 * d)
    if u % d = 0 then (signBit 0 neg, 0)
    else
      let flip := d < u
      let u := u % d
      let u := if d < 2 * u then d - u else u
      sinPiCore (neg ^^ flip) u d

/-- cos (π a), a finite. -/
def cosCore (m : Nat) (e : Int) : Nat × FlagSet :=
  let d := 2 ^ (-e).toNat
  let u := m * 2 ^ e.toNat % (2 * d)
  let u := if d < u then 2 * d - u else u
  if 2 * u = d then (0, 0)
  else
    let neg := d < 2 * u
    let u := if neg then d - u else u
    if u = 0 then roundCore 0 0 0 true neg 1 0 true
    else sinPiCore neg (d - 2 * u) (2 * d)

/-- tanh a, a finite and not 0. -/
def tanhCore (neg : Bool) (m : Nat) (e : Int) : Nat × FlagSet :=
  let lg : Int := (Nat.log2 m : Int) + e
  if 4 < lg then roundCore 0 0 0 true neg (2 ^ 64 - 1) (-64) false
  else if lg < -40 then roundCore 0 0 0 true neg (m * 2 ^ 64 - 1) (e - 64) false
  else roundIrr 0 neg 0 (fun P =>
    let Q := P + 64
    let R := Q + 128
    let y := (shiftFloor m (e + 1 + R - 7)).1
    let T := squareFix R 7 (expFix R y)
    (T - 2 ^ R) * 2 ^ Q / (T + 2 ^ R)) irrFuel 96

/-- The FP32 functions of R112, by name. -/
inductive Fn | rcp | sqrt | rsqrt | exp2 | log2 | sin | cos | tanh
  deriving DecidableEq, Repr

/-- R112: the result and flags of a function on an FP32 code. -/
def fnCode (f : Fn) (mode c : Nat) : Nat × FlagSet :=
  let qnan := nanCode 0
  let inf (neg : Bool) := infMag 0 + signBit 0 neg
  let one (neg : Bool) := 0x3F800000 + signBit 0 neg
  match decodeFloat 0 c with
  | .nan s => (qnan, flagIf s fInvalid)
  | .inf neg =>
    match f with
    | .rcp => (signBit 0 neg, 0)
    | .sqrt => if neg then (qnan, fInvalid) else (inf false, 0)
    | .rsqrt => if neg then (qnan, fInvalid) else (0, 0)
    | .exp2 => if neg then (0, 0) else (inf false, 0)
    | .log2 => if neg then (qnan, fInvalid) else (inf false, 0)
    | .sin => (qnan, fInvalid)
    | .cos => (qnan, fInvalid)
    | .tanh => (one neg, 0)
  | .fin neg m e =>
    if m = 0 then
      match f with
      | .rcp => (inf neg, fDivzero)
      | .sqrt => (signBit 0 neg, 0)
      | .rsqrt => (inf neg, fDivzero)
      | .exp2 => (one false, 0)
      | .log2 => (inf true, fDivzero)
      | .sin => (signBit 0 neg, 0)
      | .cos => (one false, 0)
      | .tanh => (signBit 0 neg, 0)
    else
      match f with
      | .rcp => rcpCore mode neg m e
      | .sqrt => if neg then (qnan, fInvalid) else sqrtCore mode m e
      | .rsqrt => if neg then (qnan, fInvalid) else rsqrtCore m e
      | .exp2 => exp2Core neg m e
      | .log2 => if neg then (qnan, fInvalid) else log2Core m e
      | .sin => sinCore neg m e
      | .cos => cosCore m e
      | .tanh => tanhCore neg m e

end Sys2Proof.Machine
end

