-- ==== Sys2Proof/Machine/Ops.lean ====
section
/-!
DEFINITION. The named operations over the device's state: access to cores, teams and trains; the
physical map and the home slices; translation; the device's own reads and writes of memory; fault
records and notifications; taking a trap and returning from one.
-/
namespace Sys2Proof.Machine

/-! ## Cores, teams, trains -/

/-- A core after reset: split 4, nothing resident, nothing cached, grant 0 (R135, R383). -/
def coreInit : Core where
  split := 4
  draining := none
  l1 := []
  tlb := []
  pipes := []
  forming := []
  departed := []
  merge := none
  halted := false
  vacating := []
  grant := 0

def coreOf (s : State) (n : Nat) : Core := (mapGet s.cores n).getD coreInit

def setCore (s : State) (n : Nat) (c : Core) : State := { s with cores := mapPut s.cores n c }

def modCore (s : State) (n : Nat) (f : Core → Core) : State := setCore s n (f (coreOf s n))

def pipeOf (c : Core) (n : Nat) : Pipe := (mapGet c.pipes n).getD ⟨none, 0, 0, 0⟩

def setPipe (s : State) (core pipe : Nat) (p : Pipe) : State :=
  modCore s core fun c => { c with pipes := mapPut c.pipes pipe p }

/-- R6: the cluster and the die of a core. -/
def clusterOf (core : Nat) : Nat := core / 4
def dieOf (core : Nat) : Nat := core / 64

def teamOf (s : State) (uid : Nat) : Option Team := mapGet s.teams uid

def setTeam (s : State) (uid : Nat) (t : Team) : State := { s with teams := mapPut s.teams uid t }

def modTeam (s : State) (uid : Nat) (f : Team → Team) : State :=
  { s with teams := mapMod s.teams uid f }

def trainOf (s : State) (uid tn : Nat) : Option Train :=
  (teamOf s uid).bind fun t => mapGet t.trains tn

def modTrain (s : State) (uid tn : Nat) (f : Train → Train) : State :=
  modTeam s uid fun t => { t with trains := mapMod t.trains tn f }

/-- A context that has never been written: not created, every register 0 (R377). -/
def ctxInit : Ctx where
  created := false
  ptroot := 0
  fqbase := 0
  fqsize := 0
  fqctl := 0
  vector := 0
  trapmask := 0
  scopechk := false
  save := 0
  saveslots := 0
  tasktable := 0
  memctl := 0
  partition := 0
  devmap := 0
  peerok := false
  lq := [⟨0, 0, 0⟩, ⟨0, 0, 0⟩, ⟨0, 0, 0⟩, ⟨0, 0, 0⟩]
  nvec := 0
  cause := 0
  cmdStatus := 0
  command := 0
  args := [0, 0, 0, 0, 0, 0, 0, 0]
  outcome := 0
  codebook := []
  loading := []
  ranges := []
  fqWait := []
  noteTill := 0
  noteDue := false
  bells := []
  quiesced := false
  unloaded := []
  slots := []

def ctxOf (s : State) (n : Nat) : Ctx := (mapGet s.ctxs n).getD ctxInit

def modCtx (s : State) (n : Nat) (f : Ctx → Ctx) : State :=
  { s with ctxs := mapPut s.ctxs n (f (ctxOf s n)) }

/-- The tables that a decode issued now may see (R120). -/
def ctxBook (s : State) (ctx : Nat) : Codebooks :=
  ⟨(ctxOf s ctx).codebook :: (ctxOf s ctx).loading.map Prod.snd, s.nextId⟩

/-- A decode while a table is being loaded has drawn. -/
def drawBook (s : State) (ctx : Nat) : State :=
  if (ctxOf s ctx).loading.isEmpty then s else { s with nextId := s.nextId + 1 }

/-- A partition after reset (R218, R382); its cluster mask has no reset value (log entry 3). -/
def partInit : Partition := ⟨0x0101FFFF, 0, 1, []⟩

def partOf (s : State) (n : Nat) : Partition := (mapGet s.parts n).getD partInit

def dieInit : Die := ⟨[], [], [], [], [], false, [], 0, 0, [], []⟩

def dieAt (s : State) (n : Nat) : Die := (mapGet s.dies n).getD dieInit

def modDie (s : State) (n : Nat) (f : Die → Die) : State :=
  { s with dies := mapPut s.dies n (f (dieAt s n)) }

def sliceOf (s : State) (n : Nat) : Slice := (mapGet s.slices n).getD ⟨[], []⟩

def modSlice (s : State) (n : Nat) (f : Slice → Slice) : State :=
  { s with slices := mapPut s.slices n (f (sliceOf s n)) }

/-- The core a team is on. -/
def coreOfTeam (t : Team) : Nat :=
  match t.loc with
  | .core n => n
  | .retired n => n
  | .saved .. => 0xFFFF

def isResident (t : Team) : Bool :=
  match t.loc with
  | .core _ => true
  | _ => false

/-! ## The physical map (R216, R217, R363, R380) -/

/-- The regions of R216. -/
inductive Region | hbm | cxl | host | mgmt | nothing
  deriving DecidableEq, Repr

def regionOf (pa : Nat) : Region :=
  if pa < 0x8000000000 then .hbm
  else if 0x10000000000000 ≤ pa && pa < 0x10100000000000 then .cxl
  else if 0x20000000000000 ≤ pa && pa < 0x20100000000000 then .host
  else if 0xFF000000000000 ≤ pa && pa < 0x100000000000000 then .mgmt
  else .nothing

/-- The device has a minimal-mode device's resources: in minimal mode, and from a start that leads to it
(R379, R380). -/
def minimal (b : Boot) : Bool := b.mode == 2 || (b.mode == 0 && b.fails == 3)

/-- Whether memory is present at a physical address: in minimal mode only stack 0 and host memory
(R380); a pooled window only behind a port that is up (R363, R381). -/
def present (s : State) (pa : Nat) : Bool :=
  match regionOf pa with
  | .hbm => !minimal s.boot || pa < 0x1000000000
  | .cxl => !minimal s.boot &&
      match mapGet s.windows ((pa - 0x10000000000000) / 2 ^ 36) with
      | some p => 1 ≤ p && p ≤ 3 && s.boot.cxlUp.getLsbD p
      | none => false
  | .host => true
  | _ => false

/-- Home die of R216. -/
def homeDie (pa : Nat) : Nat :=
  match regionOf pa with
  | .hbm => bitsOf pa 37 2
  | .cxl => bitsOf pa 18 2
  | _ => 0

/-- Home(a) of R217: slice number 64 · die + slice. -/
def homeSlice (pa : Nat) : Nat :=
  homeDie pa * 64 +
    (bitsOf pa 7 6 ^^^ bitsOf pa 13 6 ^^^ bitsOf pa 19 6 ^^^ bitsOf pa 25 6
      ^^^ bitsOf pa 31 6 ^^^ bitsOf pa 37 6 ^^^ bitsOf pa 43 6 ^^^ bitsOf pa 49 6)

/-- The near slice of a core (R217). -/
def nearSlice (core : Nat) : Nat := dieOf core * 64 + core % 64

/-- The core whose L1 may hold the line of `pa` for `core`: its own, or in a fused cluster the one
R220 names. -/
def l1Holder (s : State) (core pa : Nat) : Nat :=
  if s.fused.contains (clusterOf core) then
    clusterOf core * 4 + (bitsOf pa 7 2 ^^^ bitsOf pa 11 2)
  else core

/-! ## Memory at its home -/

/-- The byte at its home: the slice's copy, or memory where the slice holds no line. -/
def homeByte (s : State) (pa : Nat) : Byte :=
  match mapGet s.l2 (pa / 128) with
  | some l => lineByte l.data (pa % 128)
  | none => memGet s.mem pa

/-- The line at its home. -/
def homeLine (s : State) (ln : Nat) : Line :=
  match mapGet s.l2 ln with
  | some l => l.data
  | none => lineOf ((List.range 128).map fun i => memGet s.mem (128 * ln + i))

/-- Write one byte at its home. -/
def homePut (s : State) (pa : Nat) (b : Byte) : State :=
  match mapGet s.l2 (pa / 128) with
  | some l =>
    let l' : L2Line := { l with data := lineSet l.data (pa % 128) b, modified := true }
    { s with l2 := mapPut s.l2 (pa / 128) l' }
  | none => { s with mem := memPut s.mem pa b }

/-- Write bytes at their homes. -/
def homePuts (s : State) : List (Nat × Byte) → State
  | [] => s
  | (a, b) :: t => homePuts (homePut s a b) t

/-- The errors of a line that has been brought into L2 from memory: its bad granules stay bad there. -/
def allocErrs (errs : List ErrPlace) (ln : Nat) : List ErrPlace :=
  errs ++ (errs.filterMap fun e => match e with
    | .hbm a => if a / 128 = ln then some (.l2 a) else none
    | .cxl a => if a / 128 = ln then some (.l2 a) else none
    | _ => none).filter fun e => !errs.contains e

/-- Bring a line into a way of its home slice (R218, R224, R344). -/
def homeAlloc (s : State) (ln : Nat) (first : Bool) (way : Nat) : State :=
  match mapGet s.l2 ln with
  | some _ => s
  | none =>
    { s with
      l2 := mapPut s.l2 ln ⟨homeLine s ln, false, [], [], none, first, way, s.now⟩
      errs := if s.errs.isEmpty then s.errs else allocErrs s.errs ln }

/-- Set a line's scope record, where the slice holds the line (R229). -/
def setScopeRec (s : State) (ln : Nat) (r : Option ScopeRec) : State :=
  { s with l2 := mapMod s.l2 ln fun l => { l with scope := r } }

/-- The physical addresses' lines, rising. -/
def linesOf : List Nat → List Nat
  | [] => []
  | a :: t => setAdd (linesOf t) (a / 128)

/-- The bytes of a list that fall in a line, as offsets. -/
def inLine (ln : Nat) (ws : List (Nat × Byte)) : List (Nat × Byte) :=
  (ws.filter fun w => w.1 / 128 == ln).map fun w => (w.1 % 128, w.2)

/-- Offsets written into a line's data. -/
def lineSets (x : Line) : List (Nat × Byte) → Line
  | [] => x
  | (i, b) :: t => lineSets (lineSet x i b) t

/-- The 8-byte granule at `g` is wholly among the given addresses (R344). -/
def wholeIn (as : List Nat) (g : Nat) : Bool := (List.range 8).all fun i => as.contains (g + i)

/-- A core's L1 copy loses the errors of granules that are wholly rewritten (R344). -/
def clearL1 (s : State) (core : Nat) (as : List Nat) : State :=
  { s with errs := s.errs.filter fun e => match e with
      | .l1 c a => !(c == core && wholeIn as a)
      | _ => true }

/-- Apply an update to a core's L1 copy of a line, where it holds one (R221): all bytes at once, and
the record the update carries (R229). -/
def l1Apply (s : State) (core ln : Nat) (ws : List (Nat × Byte)) (r : Option ScopeRec) : State :=
  match mapGet (coreOf s core).l1 ln with
  | none => s
  | some l =>
    clearL1 (modCore s core fun c =>
      { c with l1 := mapPut c.l1 ln { l with data := lineSets l.data ws, scope := r } }) core
      (ws.map fun w => 128 * ln + w.1)

/-- The L1 errors of lines that the predicate names go with their copies (R344). -/
def scrubL1 (s : State) (core : Nat) (gone : Nat → Bool) : State :=
  { s with errs := s.errs.filter fun e => match e with
      | .l1 c a => !(c == core && gone (a / 128))
      | _ => true }

/-- Remove a line from a core's L1. -/
def l1Drop (s : State) (core ln : Nat) : State :=
  scrubL1 (modCore s core fun c => { c with l1 := mapDel c.l1 ln }) core (· == ln)

def l1DropAll (s : State) : List Nat → Nat → State
  | [], _ => s
  | c :: t, ln => l1DropAll (l1Drop s c ln) t ln

/-- Drop the given replicas of a line: invalidate the L1 copies they supplied (R225). -/
def dropReplicaList (s : State) (ln : Nat) : List Replica → State
  | [] => s
  | r :: t =>
    let s := { s with l2 := mapMod s.l2 ln fun l =>
      { l with replicas := l.replicas.filter (· != r) } }
    dropReplicaList (l1DropAll s r.supplied ln) ln t

/-- Drop every replica of a line. -/
def dropReplicas (s : State) (ln : Nat) : State :=
  match mapGet s.l2 ln with
  | none => s
  | some l => dropReplicaList s ln l.replicas

/-- An update reaches a sharer (R221, R222): it applies it, or has no copy and leaves the sharers. -/
def updateSharer (s : State) (ln : Nat) (ws : List (Nat × Byte)) (r : Option ScopeRec) (core : Nat) :
    State :=
  match mapGet (coreOf s core).l1 ln with
  | some _ => l1Apply s core ln ws r
  | none => { s with l2 := mapMod s.l2 ln fun l => { l with sharers := setDel l.sharers core } }

/-- An update reaches each of a list of sharers. -/
def pushUpdates (s : State) (ln : Nat) (ws : List (Nat × Byte)) (r : Option ScopeRec) :
    List Nat → State
  | [] => s
  | c :: t => pushUpdates (updateSharer s ln ws r c) ln ws r t

/-- A request's update reaches the sharers that have still to apply it. -/
def settleReq (s : State) (id : Nat) (r : Req) : State :=
  match r.stage with
  | .updating left =>
    let s := pushUpdates s r.line r.wrote r.mark left
    { s with net := mapPut s.net id { r with stage := .updating [] } }
  | _ => s

def settleReqs (s : State) (ln : Nat) : List (Nat × Req) → State
  | [] => s
  | e :: t =>
    settleReqs (if e.2.place == .glob && e.2.line == ln then settleReq s e.1 e.2 else s) ln t

/-- The home performs the accesses of a line one at a time (R221): before the device's own access, the
sharers apply the update that is on its way. -/
def settleLine (s : State) (ln : Nat) : State := settleReqs s ln s.net

def settleLines (s : State) : List Nat → State
  | [] => s
  | ln :: t => settleLines (settleLine s ln) t

def sharersOf (s : State) (ln : Nat) : List Nat :=
  match mapGet s.l2 ln with
  | some l => l.sharers
  | none => []

/-- A write of no train, performed at the home in one event: the bytes, every sharer's copy, no
replica left, the scope record none (R221, R225, R228, R229, R364). -/
def coherentLines (s : State) (ws : List (Nat × Byte)) : List Nat → State
  | [] => s
  | ln :: t =>
    let w := inLine ln ws
    let s := dropReplicas (settleLine s ln) ln
    let s := homePuts s (w.map fun p => (128 * ln + p.1, p.2))
    let s := setScopeRec s ln none
    coherentLines (pushUpdates s ln w none (sharersOf s ln)) ws t

/-! ### Invariant loads (R243) -/

/-- The kernel of a team: its launch, or the task team itself. -/
def kernelOf (uid : Nat) (t : Team) : Nat := t.launch.getD uid

def isRetired (t : Team) : Bool :=
  match t.loc with
  | .retired _ => true
  | _ => false

/-- The kernels that live. -/
def liveKernels (s : State) : List Nat :=
  s.teams.foldl (fun l t => if isRetired t.2 then l else setAdd l (kernelOf t.1 t.2)) []

/-- The 8-byte granule `g` as a function of bytes gives it. -/
def granule (base : Nat → Byte) (g : Nat) : DWord :=
  BitVec.ofNat 64 (leNat ((List.range 8).map fun i => base (8 * g + i)))

/-- A value that a write has replaced while the given kernels lived. -/
def InvCell.replaced (c : InvCell) (old : DWord) (live : List Nat) : InvCell :=
  match c.olds.findIdx? (·.1 == old) with
  | some n =>
    { c with olds := listMod c.olds n fun e => (e.1, live.foldl setAdd e.2) }
  | none => { c with olds := c.olds ++ [(old, live)] }

/-- Writes between two moments, of the granules given: what they replaced is kept for invariant loads. -/
def noteGranules (old new : Nat → Byte) (live : List Nat) : List Nat → AMap InvCell → AMap InvCell
  | [], m => m
  | g :: rest, m =>
    noteGranules old new live rest
      (if granule old g == granule new g then m
      else mapPut m g ((defGet ⟨[], []⟩ m g).replaced (granule old g) live))

/-- The write that led from one state to another has replaced what stood at some addresses. -/
def noteWrite (before after : State) (pas : List Nat) : State :=
  match liveKernels before with
  | [] => after
  | live =>
    { after with
      inv := noteGranules (homeByte before) (homeByte after) live
        (pas.foldl (fun l a => setAdd l (a / 8)) []) after.inv }

/-- The device's own write of bytes at physical addresses. -/
def coherentStore (s : State) (ws : List (Nat × Byte)) : State :=
  noteWrite s (coherentLines s ws (linesOf (ws.map Prod.fst))) (ws.map Prod.fst)

/-- Consecutive addresses paired with bytes. -/
def bytesAt (a : Nat) : List Byte → List (Nat × Byte)
  | [] => []
  | b :: t => (a, b) :: bytesAt (a + 1) t

/-! ## Commutative partials (R227, R228) -/

/-- The bytes of a range operation's word. -/
def foldBytes (op : BitVec 2) : Nat := if op = 2 then 8 else 4

/-- The new value of a word: its home value and the values folded in (R228). -/
def foldWord (op : BitVec 2) (old : Nat) (vals : List DWord) : Nat :=
  match op.toNat with
  | 0 =>
    let xs := decodeFloat 0 old :: vals.map fun v => decodeFloat 0 (v.toNat % 2 ^ 32)
    (fsum xs xs).1
  | 1 => (old + (vals.map BitVec.toNat).sum) % 2 ^ 32
  | 2 => (old + (vals.map BitVec.toNat).sum) % 2 ^ 64
  | _ => vals.foldl (fun o v => (minMaxCode 0 true o (v.toNat % 2 ^ 32)).1) old

/-- The words of a line for which a partial is held, rising. -/
def partialWords (s : State) (ln : Nat) : List Nat :=
  s.partials.foldr (fun p l => if p.pa / 128 = ln then setAdd l p.pa else l) []

/-- Values folded into a word, by ascending core. -/
def partialVals (s : State) (pa : Nat) : List DWord :=
  (List.range 256).flatMap fun c =>
    (s.partials.filter fun p => p.pa == pa && p.core == c).flatMap (·.vals)

/-- The operation under which a word's partials combine. The spec does not say how values that two ranges of
different operations have folded into one physical word combine: all do under the first one's (R228; log entry
140). -/
def partialOp (s : State) (pa : Nat) : BitVec 2 :=
  match s.partials.find? (·.pa == pa) with
  | some p => p.op
  | none => 0

def combineWords (s : State) : List Nat → State
  | [] => s
  | pa :: t =>
    let op := partialOp s pa
    let n := foldBytes op
    let old := leNat ((List.range n).map fun i => homeByte s (pa + i))
    let new := foldWord op old (partialVals s pa)
    let s := { s with partials := s.partials.filter (·.pa != pa) }
    combineWords (coherentStore s (bytesAt pa (natLe n new))) t

/-- The combination of a line's partials (R228). -/
def combineLine (s : State) (ln : Nat) : State := combineWords s (partialWords s ln)

def combineLines (s : State) : List Nat → State
  | [] => s
  | ln :: t => combineLines (combineLine s ln) t

/-- The byte an access that reaches the home now would read: with its word's partials combined. -/
def viewByte (s : State) (pa : Nat) : Byte :=
  match s.partials.find? (fun p => p.pa ≤ pa && pa < p.pa + foldBytes p.op) with
  | none => homeByte s pa
  | some p =>
    let n := foldBytes p.op
    let old := leNat ((List.range n).map fun i => homeByte s (p.pa + i))
    BitVec.ofNat 8 (foldWord p.op old (partialVals s p.pa) / 2 ^ (8 * (pa - p.pa)))

/-! ## Uncorrectable errors (R344) -/

/-- The 8-byte check granule of a physical address holds an error at its home, in the slice's copy or,
where the slice holds no line, in memory: its reason code (R338), 0 for none. -/
def errAt (s : State) (pa : Nat) : Nat :=
  if s.errs.isEmpty then 0
  else if (mapGet s.l2 (pa / 128)).isSome then
    if s.errs.contains (.l2 (pa / 8 * 8)) then 2 else 0
  else if s.errs.contains (.hbm (pa / 8 * 8)) then 1
  else if s.errs.contains (.cxl (pa / 8 * 8)) then 6
  else 0

/-- The granule holds an error in a core's L1 copy. -/
def errL1 (s : State) (core pa : Nat) : Nat :=
  if s.errs.contains (.l1 core (pa / 8 * 8)) then 3 else 0

/-- A store over a whole granule clears its error at the home. -/
def clearErrs (s : State) (pas : List Nat) : State :=
  if s.errs.isEmpty then s
  else
    { s with errs := s.errs.filter fun e =>
        match e with
        | .hbm a => !wholeIn pas a
        | .l2 a => !wholeIn pas a
        | .cxl a => !wholeIn pas a
        | _ => true }

/-! ## Lines that are not free (R221, R245) -/

/-- A chunk of a copy that is not done has a byte in the line at a virtual address of its global
side (R312, R315). -/
def copyHolds (c : Copy) (va : Nat) : Bool :=
  (List.range c.rows).any fun (r : Nat) =>
    let d := (va + 2 ^ 80 - (c.g.toNat + r * c.stride) % 2 ^ 80) % 2 ^ 80
    (d < c.len || 2 ^ 80 < d + 128) && (List.range 128).any fun (i : Nat) =>
      let o := (d + i) % 2 ^ 80
      o < c.len && c.left.contains ((r * c.len + o) / 512)

/-- A copy in flight owns the line as a global destination (R245). -/
def copyOwns (s : State) (ln : Nat) : Bool :=
  s.teams.any fun t => t.2.copies.any fun c =>
    c.2.dir == 1 && c.2.pages.any fun p =>
      p.2 ≤ 128 * ln && 128 * ln < p.2 + 2 ^ 18 &&
        copyHolds c.2 (p.1 * 2 ^ 18 + (128 * ln - p.2))

/-- A request of the line is being updated at its sharers (R221). -/
def lineUpdating (s : State) (ln : Nat) : Bool :=
  s.net.any fun r => r.2.place == .glob && r.2.line == ln &&
    match r.2.stage with
    | .updating _ => true
    | _ => false

/-- The home of a line cannot take another access now (R221, R245). -/
def lineBusy (s : State) (ln : Nat) : Bool := lineUpdating s ln || copyOwns s ln

/-! ## Translation (R340 to R343) -/

/-- What an access needs of its page (R341). -/
inductive Access
  | read
  | write
  | both
  /-- a `cas` or `casl`, which writes only where its comparison holds -/
  | test
  | fetch
  deriving DecidableEq, Repr

/-- A trap code with its reason: 5 PAGE_FAULT, 6 PROTECTION, 7 SCRATCH_RANGE and so on (R330). -/
abbrev TrapCause := Nat × Nat

/-- R340: the levels, by number, low bit of the index, and index width. -/
def walkLevels : List (Nat × Nat × Nat) :=
  [(0, 78, 2), (1, 63, 15), (2, 48, 15), (3, 33, 15), (4, 18, 15)]

/-- The 8-byte entry of a table. -/
def entryAt (s : State) (a : Nat) : Nat := leNat ((List.range 8).map fun i => viewByte s (a + i))

/-- Reserved bits of an entry of level `L` (R341). -/
def entryReserved (L e : Nat) : Bool :=
  bitsOf e 58 6 != 0 || bitsOf e 7 13 != 0 || bitOf e 2 ||
    (bitOf e 6 && !(L == 4 && bitOf e 1))

/-- Walk of R340 from table `t`: a leaf translation, or the trap it raises. -/
def walkFrom (s : State) (ctx va t : Nat) : List (Nat × Nat × Nat) → Except TrapCause TlbEntry
  | [] => .error (6, 2)
  | (L, lo, w) :: rest =>
    if regionOf t = .mgmt || !present s t then .error (6, 3)
    else
      let e := entryAt s (t + 8 * bitsOf va lo w)
      let pa := bitsOf e 20 38
      if !bitOf e 0 then .error (5, L)
      else if entryReserved L e then .error (6, 2)
      else if bitOf e 1 then
        if L = 4 && bitOf e 6 then
          .ok ⟨ctx, 25, va / 2 ^ 25, pa / 128 * 2 ^ 25, bitOf e 3, bitOf e 4, bitOf e 5⟩
        else if L = 4 then
          .ok ⟨ctx, 18, va / 2 ^ 18, pa * 2 ^ 18, bitOf e 3, bitOf e 4, bitOf e 5⟩
        else if L = 3 && bitsOf pa 0 15 = 0 then
          .ok ⟨ctx, 33, va / 2 ^ 33, pa * 2 ^ 18, bitOf e 3, bitOf e 4, bitOf e 5⟩
        else .error (6, 2)
      else walkFrom s ctx va (pa * 2 ^ 18) rest

/-- The walk of a context's virtual address. -/
def walk (s : State) (ctx va : Nat) : Except TrapCause TlbEntry :=
  walkFrom s ctx va (ctxOf s ctx).ptroot.toNat walkLevels

/-- A leaf gives the access its permission, and its page lies in present memory that is not the
management region (R340, R341, R376). -/
def useLeaf (s : State) (acc : Access) (va : Nat) (e : TlbEntry) : Except TrapCause Nat :=
  let pa := e.pbase + va % 2 ^ e.bits
  let perm := match acc with
    | .read => e.r
    | .write => e.w
    | .both => e.r && e.w
    | .test => e.r
    | .fetch => e.x
  if regionOf pa = .mgmt then .error (6, 1)
  else if !present s pa then .error (6, 3)
  else if !perm then .error (6, 1)
  else .ok pa

/-- The entry of a TLB that translates an address. -/
def tlbFind (tlb : List TlbEntry) (ctx va : Nat) : Option TlbEntry :=
  tlb.find? fun e => e.ctx == ctx && e.vpage == va / 2 ^ e.bits

/-- What a die's shared TLB holds of an address (R343). -/
def dieEntry (s : State) (ctx va : Nat) : Option TlbEntry :=
  (s.dies.find? fun d => (tlbFind d.2.tlb ctx va).isSome).bind fun d => tlbFind d.2.tlb ctx va

/-- The leaf that an access of no core's TLB uses: a die's entry, until it leaves or an invalidation completes,
or else a walk (R343). -/
def leafOf (s : State) (ctx va : Nat) : Except TrapCause TlbEntry :=
  match dieEntry s ctx va with
  | some e => .ok e
  | none => walk s ctx va

/-- Translate as the device does for itself. -/
def devXlate (s : State) (ctx : Nat) (acc : Access) (va : Nat) : Except TrapCause Nat :=
  match leafOf s ctx va with
  | .error e => .error e
  | .ok e => useLeaf s acc va e

/-- Translate `n` bytes from `va` on, page by page: physical addresses, or the trap and the first
failing address. `last` is the page in hand. -/
def devXlates (s : State) (ctx : Nat) (acc : Access) :
    Nat → Nat → Option (Nat × Nat) → Except (TrapCause × Addr) (List Nat)
  | 0, _, _ => .ok []
  | n + 1, va, last =>
    let va := va % 2 ^ 80
    let hit := match last with
      | some (vp, pb) => if vp = va / 2 ^ 18 then some (pb + va % 2 ^ 18) else none
      | none => none
    let here := match hit with
      | some pa => Except.ok pa
      | none => devXlate s ctx acc va
    match here with
    | .error e => .error (e, BitVec.ofNat 80 va)
    | .ok pa =>
      match devXlates s ctx acc n (va + 1) (some (va / 2 ^ 18, pa - va % 2 ^ 18)) with
      | .error e => .error e
      | .ok l => .ok (pa :: l)

/-- The lines of the table entries that a walk from table `t` reads. -/
def walkReads (s : State) (va t : Nat) : List (Nat × Nat × Nat) → List Nat
  | [] => []
  | (_, lo, w) :: rest =>
    if regionOf t = .mgmt || !present s t then []
    else
      let a := t + 8 * bitsOf va lo w
      let e := entryAt s a
      a / 128 :: (if bitOf e 0 && !bitOf e 1 then walkReads s va (bitsOf e 20 38 * 2 ^ 18) rest else [])

/-- What the home does before it performs an access that is no train's: the update on its way reaches
the sharers, and the line's partials are combined (R221, R228). -/
def touchLines (s : State) (lns : List Nat) : State := combineLines (settleLines s lns) lns

/-- The reads of a walk are accesses of their lines. -/
def touchWalk (s : State) (ctx va : Nat) : State :=
  touchLines s (walkReads s va (ctxOf s ctx).ptroot.toNat walkLevels)

/-- The same for an access that walks only where no die's TLB holds the page. -/
def touchLeaf (s : State) (ctx va : Nat) : State :=
  if (dieEntry s ctx va).isSome then s else touchWalk s ctx va

/-- The virtual pages of a range. -/
def pagesOf (lo len : Nat) : List Nat :=
  (List.range (ceilDiv (lo % 2 ^ 18 + len) (2 ^ 18))).map (lo / 2 ^ 18 + ·)

def touchPages (s : State) (ctx : Nat) : List Nat → State
  | [] => s
  | p :: t => touchPages (touchLeaf s ctx (p * 2 ^ 18 % 2 ^ 80)) ctx t

/-- The lines of a device's own access, as far as its pages are translated. -/
def devLines (s : State) (ctx : Nat) (acc : Access) (va n : Nat) : List Nat :=
  match devXlates s ctx acc n va none with
  | .error _ => []
  | .ok pas => linesOf pas

/-- What the homes do before the device's own access of `n` bytes: of the walks' entries, and of the
bytes. -/
def touch (s : State) (ctx : Nat) (acc : Access) (va n : Nat) : State :=
  if s.partials.isEmpty && s.net.isEmpty then s
  else
    let s := touchPages s ctx (pagesOf va n)
    touchLines s (devLines s ctx acc va n)

/-- The device's own access must wait for a copy that owns one of its lines (R245). -/
def devHeld (s : State) (ctx : Nat) (acc : Access) (va n : Nat) : Bool :=
  (s.teams.any fun t => t.2.copies.any fun c => c.2.dir == 1) &&
    (devLines s ctx acc va n).any (copyOwns s)

/-- The device's own load of `n` bytes at a virtual address; an uncorrectable error ends it (R344). What
the homes do for it is `touch`. -/
def devLoad (s : State) (ctx : Nat) (va n : Nat) : Except (TrapCause × Addr) (List Byte) :=
  match devXlates s ctx .read n va none with
  | .error e => .error e
  | .ok pas =>
    match pas.findIdx? fun pa => errAt s pa != 0 with
    | some i => .error ((15, errAt s ((pas[i]?).getD 0)), BitVec.ofNat 80 (va + i))
    | none => .ok (pas.map (viewByte s))

/-- The device's own load, with what the homes do for it. -/
def devRead (s : State) (ctx va n : Nat) : State × Except (TrapCause × Addr) (List Byte) :=
  let s := touch s ctx .read va n
  (s, devLoad s ctx va n)

/-- What the homes do for the walks of a range (R228). -/
def walkTouch (s : State) (ctx va n : Nat) : State :=
  if s.partials.isEmpty && s.net.isEmpty then s else touchPages s ctx (pagesOf va n)

/-- The device's own store of bytes at a virtual address. -/
def devStore (s : State) (ctx : Nat) (va : Nat) (bs : List Byte) :
    Except (TrapCause × Addr) State :=
  let s := walkTouch s ctx va bs.length
  match devXlates s ctx .write bs.length va none with
  | .error e => .error e
  | .ok pas =>
    let s := combineLines s (linesOf pas)
    .ok (clearErrs (coherentStore s (pas.zip bs)) pas)

/-! ## Notifications (R368) -/

/-- Send the message of an event of a context; the cause is read from its status (R377). -/
def notify (s : State) (ctx event : Nat) : State :=
  let s := modCtx s ctx fun c => { c with cause := Config.causeCode event }
  { s with msix := ((ctxOf s ctx).nvec.toNat, Config.causeCode event) :: s.msix }

/-- The message for an advance of `produced`: at most one in a microsecond, 600 cycles. -/
def notifyQueue (s : State) (ctx : Nat) : State :=
  if s.now < (ctxOf s ctx).noteTill then modCtx s ctx fun c => { c with noteDue := true }
  else notify (modCtx s ctx fun c => { c with noteTill := s.now + 600, noteDue := false }) ctx 1

/-- A message that goes on every context's vector. -/
def notifyAll (s : State) (event : Nat) : State :=
  (mapKeys (s.ctxs.filter fun c => c.2.created)).foldl (fun s c => notify s c event) s

/-! ## What leaves for peers (R361, R381) -/

def portUp (s : State) (n : Nat) : Bool := n < 16 && s.boot.milern.getLsbD n

/-- The Milern port to which the routes send what goes to a device. -/
def routeTo (s : State) (dev : Nat) : Nat := (Config.routePort (defGet 0 s.routes dev)).toNat

/-- A request or an answer leaves for a peer; a route through a port that is down carries nothing. -/
def sendTo (s : State) (dev : Nat) (item : FlitItem) : State :=
  if portUp s (routeTo s dev) then { s with outbox := s.outbox ++ [(dev, item)] } else s

/-! ## Runs, and the Siding -/

/-- End the run of a pipe; its train competes anew from now (R46, R137). -/
def endRun (s : State) (core pipe : Nat) : State :=
  let p := pipeOf (coreOf s core) pipe
  let s := setPipe s core pipe { p with run := none }
  match p.run with
  | none => s
  | some r => modTrain s r.uid r.train fun t => { t with since := s.now, passed := 0 }

/-- End the run of a train, if one is in progress on its pipe. -/
def endRunOf (s : State) (uid tn : Nat) : State :=
  match teamOf s uid, trainOf s uid tn with
  | some t, some tr =>
    match (pipeOf (coreOf s (coreOfTeam t)) tr.pipe).run with
    | some r => if r.uid = uid && r.train = tn then endRun s (coreOfTeam t) tr.pipe else s
    | none => s
  | _, _ => s

/-- The splits a handler does not hold. -/
def ownSplits (l : List Split) : List Split := l.filter (!·.held)

/-- The union of the lanes of splits. -/
def lanesUnion : List Split → LaneMask
  | [] => 0
  | p :: t => p.mask ||| lanesUnion t

/-! ## Fault records (R335 to R339) -/

/-- The access body of R337. -/
def accessBody (addr : Addr) (length : Nat) (lanes done : LaneMask) : BitVec 256 :=
  addr.setWidth 256 ||| (BitVec.ofNat 256 (length % 2 ^ 32) <<< 96)
    ||| (lanes.setWidth 256 <<< 128) ||| (done.setWidth 256 <<< 192)

/-- The 64 bytes of a record (R336). -/
def recBytes (r : Rec) (last : Bool) (seq : Nat) : List Byte :=
  let b0 := (flagIf last 1).toNat * 2 ^ 27 + (flagIf r.fetch 1).toNat * 2 ^ 26
    + (flagIf r.atomic 1).toNat * 2 ^ 25 + (flagIf r.write 1).toNat * 2 ^ 24
    + r.reason.toNat * 2 ^ 16 + r.source.toNat * 2 ^ 8 + r.code.toNat
  natLe 4 b0 ++ natLe 4 (r.core.toNat * 2 ^ 16 + r.ctx.toNat) ++ natLe 4 r.team.toNat
    ++ natLe 4 r.detail.toNat ++ natLe 10 r.resume.toNat ++ natLe 1 r.train.toNat
    ++ natLe 1 r.unit.toNat ++ natLe 4 (seq % 2 ^ 32) ++ natLe 32 r.body.toNat

/-- What came of a claim of fault-queue slots (R335, R328): the state after it, in which the lines that it
read are combined (R228). -/
inductive Claimed
  /-- published: with the address of the first record -/
  | ok (s : State) (addr : Addr)
  | noRoom (s : State)
  | fault (s : State) (code reason : Nat)

/-- The address of the slot numbered `seq` (R335). -/
def slotAddr (c : Ctx) (seq : Nat) : Nat := c.fqbase.toNat + 64 * (seq % 2 ^ c.fqsize.toNat)

/-- Write records, each with its `last` bit, in the slots from number `seq` on; or the fault that ended it,
with the state it left. -/
def putRecs (s : State) (ctx : Nat) (seq : Nat) :
    List (Rec × Bool) → Except (State × TrapCause) State
  | [] => .ok s
  | (r, last) :: t =>
    let c := ctxOf s ctx
    match devStore s ctx (slotAddr c seq) (recBytes r last seq) with
    | .error (e, _) => .error (walkTouch s ctx (slotAddr c seq) 64, e)
    | .ok s => putRecs s ctx (seq + 1) t

/-- The records of one trap, the last marked so. -/
def markLast : List Rec → List (Rec × Bool)
  | [] => []
  | r :: t => (r, t.isEmpty) :: markLast t

/-- Claim consecutive slots, write the records, publish them (R335), and send the notification. A copy
that owns one of the lines holds the writer as a full queue does (R245). -/
def writeRecs (s : State) (ctx : Nat) (recs : List Rec) : Claimed :=
  let c := ctxOf s ctx
  let s := touch s ctx .read c.fqctl.toNat 16
  match devLoad s ctx c.fqctl.toNat 16 with
  | .error (e, _) => .fault s e.1 e.2
  | .ok ctl =>
    let produced := leNat (ctl.take 8)
    let consumed := leNat (ctl.drop 8)
    let k := recs.length
    if 2 ^ c.fqsize.toNat < (produced + k + 2 ^ 64 - consumed) % 2 ^ 64 ||
        devHeld s ctx .write c.fqctl.toNat 16 ||
        (List.range k).any fun i => devHeld s ctx .write (slotAddr c (produced + i)) 64
    then .noRoom s
    else
      match putRecs s ctx produced (markLast recs) with
      | .error (s, e) => .fault s e.1 e.2
      | .ok s =>
        match devStore s ctx c.fqctl.toNat (natLe 8 ((produced + k) % 2 ^ 64)) with
        | .error (e, _) => .fault (walkTouch s ctx c.fqctl.toNat 8) e.1 e.2
        | .ok s =>
          .ok (notifyQueue s ctx)
            (BitVec.ofNat 80 (slotAddr c produced))

/-- Halt a train in the trapped state (R332). -/
def haltTrain (s : State) (uid tn : Nat) : State :=
  let s := endRunOf s uid tn
  let s := modTrain s uid tn fun t => { t with trapped := true }
  match teamOf s uid with
  | some t => notify s t.ctx 0
  | none => s

/-- The trains of a context, by team and number. -/
def trainsOfCtx (s : State) (ctx : Nat) : List (Nat × Nat) :=
  s.teams.flatMap fun (uid, t) =>
    if t.ctx = ctx then (t.trains.filter fun x => !x.2.ended).map fun x => (uid, x.1) else []

def haltTrains (s : State) : List (Nat × Nat) → State
  | [] => s
  | (u, t) :: l => haltTrains (haltTrain s u t) l

/-- A fault on the fault queue, its control block or the save area (R328): every train of the
context halts, and system software is notified. -/
def fqFault (s : State) (ctx : Nat) : State := notify (haltTrains s (trainsOfCtx s ctx)) ctx 2

/-- A writer joins those that wait for fault-queue room, at the end (R335). -/
def queueWriter (s : State) (ctx : Nat) (w : FqWriter) : State :=
  modCtx s ctx fun c => { c with fqWait := c.fqWait ++ [w] }

/-- Records of one claim: published at once where no earlier claim waits and there is room; else they
wait as `w`. A fault on the queue has the effects of R328, and they are dropped. The address is the
first record's. -/
def claimRecs (s : State) (ctx : Nat) (recs : List Rec) (w : FqWriter) : State × Option Addr :=
  if !(ctxOf s ctx).fqWait.isEmpty then (queueWriter s ctx w, none)
  else match writeRecs s ctx recs with
    | .ok s a => (s, some a)
    | .noRoom s => (queueWriter s ctx w, none)
    | .fault s _ _ => (fqFault s ctx, some 0)

/-- A record that traps no train, and the name under which it waits where it cannot be published yet. -/
def claimRec (s : State) (ctx : Nat) (r : Rec) : State × Option Nat :=
  match claimRecs { s with nextId := s.nextId + 1 } ctx [r] (.rec_ s.nextId r) with
  | (t, some _) => (t, none)
  | (t, none) => (t, some s.nextId)

/-- A record still waits under a name. -/
def recWaits (s : State) (ctx : Nat) : Option Nat → Bool
  | none => false
  | some k => (ctxOf s ctx).fqWait.any fun w => match w with
      | .rec_ n _ => n == k
      | _ => false

/-- A record of a writer that holds nothing else meanwhile. -/
def reportHeld (s : State) (ctx : Nat) (r : Rec) : State := (claimRec s ctx r).1

/-- The record of a suspended stream is written (R320). -/
def toldStream (s : State) (uid tn q : Nat) (a : Addr) : State :=
  modTrain s uid tn fun t =>
    { t with streams := mapMod t.streams q fun k => { k with recAt := a, told := true } }

/-- The writer at the head of the queue of those that wait is served, where it is no train's and there
is room (R335). -/
def pumpHead (s : State) (ctx : Nat) : State :=
  let served (s : State) (rest : List FqWriter) : State := modCtx s ctx fun c => { c with fqWait := rest }
  match (ctxOf s ctx).fqWait with
  | .rec_ _ r :: rest =>
    match writeRecs s ctx [r] with
    | .ok s _ => served s rest
    | .noRoom s => s
    | .fault s _ _ => served (fqFault s ctx) rest
  | .stream u t q r :: rest =>
    match writeRecs s ctx [r] with
    | .ok s a => served (toldStream s u t q a) rest
    | .noRoom s => s
    | .fault s _ _ => served (toldStream (fqFault s ctx) u t q 0) rest
  | _ => s

/-- The writers that trap no train are served in their order, as far as there is room. -/
def pumpQueue (ctx : Nat) : Nat → State → State
  | 0, s => s
  | n + 1, s => pumpQueue ctx n (pumpHead s ctx)

/-! ## What a slice holds, and its evictions (R218, R222, R224) -/

/-- The context that a record of no context goes to: the lowest that is created (log entry 23). -/
def anyCtx (s : State) : Option Nat := (s.ctxs.find? fun c => c.2.created).map Prod.fst

/-- The record of a writeback that met an error (R344). -/
def writebackRec (ctx : Nat) : Rec where
  fetch := false
  atomic := false
  write := true
  reason := 2
  source := 7
  code := 15
  core := 0xFFFF
  ctx := BitVec.ofNat 12 ctx
  team := 0
  detail := 0
  resume := 0
  train := 0
  unit := 0
  body := accessBody 0 0 0 0

/-- A line's L2 copy holds an uncorrectable error (R344). -/
def lineErr (s : State) (ln : Nat) : Bool :=
  s.errs.any fun e => match e with
    | .l2 pa => pa / 128 == ln
    | _ => false

/-- The errors of a line when its L2 copy goes: a modified copy is written back whole, a bad granule with
a check code that no data matches (R344). -/
def evictErrs (errs : List ErrPlace) (ln : Nat) (back : Bool) : List ErrPlace :=
  errs.filterMap fun e => match e with
    | .l2 a =>
      if a / 128 ≠ ln then some e
      else if !back then none
      else if regionOf a = .hbm then some (.hbm a) else some (.cxl a)
    | .hbm a => if a / 128 = ln && back then none else some e
    | .cxl a => if a / 128 = ln && back then none else some e
    | e => some e

/-- Remove a line from its home slice: from every sharer and replica first, then back to memory (R222, R344);
a copy that is not modified is what memory holds, and changes nothing there. -/
def evictLine (s : State) (ln : Nat) : State :=
  let s := combineLine s ln
  match mapGet s.l2 ln with
  | none => s
  | some l =>
    let bad := l.modified && lineErr s ln
    let s := l1DropAll (dropReplicas s ln) l.sharers ln
    let s : State :=
      { s with
        mem := memPutBytes s.mem (128 * ln) ((List.range 128).map (lineByte l.data))
        l2 := mapDel s.l2 ln
        errs := if s.errs.isEmpty then s.errs else evictErrs s.errs ln l.modified }
    match if bad then anyCtx s else none with
    | some c => reportHeld s c (writebackRec c)
    | none => s

/-- What stands in a way of a slice: a line there at its home, or a replica. -/
structure Occupant where
  line    : Nat
  replica : Bool
  way     : Nat
  used    : Nat
  first   : Bool
  deriving DecidableEq, Repr

/-- Two lines fall into one set. -/
def sameSet (a b : Nat) : Bool := a == b || Config.l2Set a % 2048 == Config.l2Set b % 2048

/-- What a slice holds in the set of a line. -/
def occupants (s : State) (slice ln : Nat) : List Occupant :=
  s.l2.flatMap fun e =>
    (if homeSlice (128 * e.1) == slice && sameSet e.1 ln then
      [⟨e.1, false, e.2.way, e.2.used, e.2.first⟩] else []) ++
    (e.2.replicas.filter fun r => r.slice == slice && sameSet e.1 ln).map fun r =>
      ⟨e.1, true, r.way, r.used, false⟩

/-- The occupant to be replaced: one placed first for replacement, else the least recently used. -/
def oldest : List Occupant → Option Occupant
  | [] => none
  | o :: rest =>
    match oldest rest with
    | none => some o
    | some p =>
      if (p.first && !o.first) || (p.first == o.first && p.used < o.used) then some p else some o

/-- The ways that a context's accesses may allocate in (R218). -/
def wayMask (s : State) (ctx : Nat) : Nat :=
  bitsOf (partOf s (ctxOf s ctx).partition.toNat).share.toNat 0 16

/-- A way of a slice for a line, of those a mask allows: a free one, or that of the least recently used
line there, which leaves; none where every such line is being updated (R218, R221, R222). -/
def makeRoom (s : State) (slice ln mask : Nat) : State × Option Nat :=
  let occ := occupants s slice ln
  match (List.range 16).find? fun w => bitOf mask w && !occ.any (·.way == w) with
  | some w => (s, some w)
  | none =>
    match oldest (occ.filter fun o => bitOf mask o.way && (o.replica || !lineUpdating s o.line)) with
    | none => (s, none)
    | some o =>
      let s := if o.replica then
          match mapGet s.l2 o.line with
          | some l => dropReplicaList s o.line (l.replicas.filter (·.slice == slice))
          | none => s
        else evictLine s o.line
      (s, some o.way)

/-- A core's partials of a line, or of every line, go to their homes (R227). -/
def sendPartials (s : State) (core : Nat) (ln : Option Nat) : State :=
  { s with partials := s.partials.map fun p =>
      if p.core = core && (ln == none || ln == some (p.pa / 128)) then { p with atHome := true }
      else p }

/-- Remove one line from an L1. -/
def invalLine (s : State) (core ln : Nat) : State := l1Drop (sendPartials s core (some ln)) core ln

/-! ## Taking a trap (R331, R332) -/

/-- The last steps of TrapEntry: `%trap` and `%fault`; then the handler, with every other split
held, or the trapped state. -/
def enterTrap (s : State) (uid tn idx code : Nat) (addr : Addr) : State :=
  match teamOf s uid, trainOf s uid tn with
  | some team, some t =>
    let c := ctxOf s team.ctx
    let s := modTrain s uid tn fun t =>
      { t with trap := BitVec.ofNat 32 code, fault := addr, pend := none, trapIdx := idx }
    if t.handler.isSome || !c.trapmask.getLsbD (code - 1) || c.vector = 0 then haltTrain s uid tn
    else
      let here := (t.siding[idx]?).getD ⟨0, 0, .ready, false, .none, false⟩
      modTrain s uid tn fun t =>
        { t with
          handler := some ⟨here.pc, here.resume⟩
          siding := listMod (t.siding.map fun p => { p with held := true }) idx fun p =>
            { p with pc := c.vector, st := .ready, replay := false, resume := .none, held := false } }
  | _, _ => s

/-- TrapEntry of R331: the run ends, slots are claimed and the records published, and the trap is
entered; while the queue lacks room, or an earlier claim waits, the entry is pending. -/
def takeTrap (s : State) (uid tn idx code : Nat) (recs : List Rec) : State :=
  match teamOf s uid with
  | none => s
  | some team =>
    let s := endRunOf s uid tn
    let wait (s : State) :=
      queueWriter (modTrain s uid tn fun t => { t with pend := some ⟨idx, code, recs⟩ }) team.ctx
        (.train uid tn)
    if !(ctxOf s team.ctx).fqWait.isEmpty then wait s
    else match writeRecs s team.ctx recs with
      | .ok s a => enterTrap s uid tn idx code a
      | .noRoom s => wait s
      | .fault s _ _ => fqFault s team.ctx

/-- A pending entry continues when the queue has room and its turn has come (R331, R335); one of a
train that is halted by a pre-emption, or vacated, after its restoration (R345). -/
def continueTrap (s : State) (uid tn : Nat) : State :=
  match teamOf s uid, trainOf s uid tn with
  | some team, some t =>
    match t.pend, (ctxOf s team.ctx).fqWait with
    | some p, w :: rest =>
      if w = .train uid tn && isResident team && !(coreOf s (coreOfTeam team)).halted then
        let s1 := modCtx s team.ctx fun c => { c with fqWait := rest }
        match writeRecs s1 team.ctx p.recs with
        | .ok s a => enterTrap s uid tn p.idx p.code a
        | .noRoom s1 => modCtx s1 team.ctx fun c => { c with fqWait := w :: rest }
        | .fault s1 _ _ => fqFault (modTrain s1 uid tn fun t => { t with pend := none }) team.ctx
      else s
    | _, _ => s
  | _, _ => s

/-! ## Leaving a handler (R334) -/

/-- The Siding after a return: the handler's lanes form one split, in the trapping split's place. -/
def sidingAfter (l : List Split) (pc : Addr) (replay : Bool) (resume : Resume) : List Split :=
  let before := l.takeWhile (·.held)
  let after := (l.dropWhile (·.held)).filter (·.held)
  let free (p : Split) : Split := { p with held := false }
  before.map free ++ [⟨pc, lanesUnion (ownSplits l), .ready, replay, resume, false⟩]
    ++ after.map free

/-- The effect of `rte` on the train, once the resume address `A`, the done mask `D` and the length
of the unit at `A` are known. -/
def returnFrom (s : State) (uid tn : Nat) (A : Addr) (D : LaneMask) (next : Bool) (len : Nat) :
    State :=
  modTrain s uid tn fun t =>
    match t.handler with
    | none => t
    | some h =>
      { t with
        handler := none
        done := if next then 0 else D
        siding := sidingAfter t.siding (if next then A + BitVec.ofNat 80 len else A) (!next)
          (if !next && h.pc = A then h.resume else .none) }

/-- The word at a virtual address as an instruction fetch reads it; an uncorrectable error ends it
(R344). -/
def unitWord (s : State) (ctx : Nat) (a : Nat) : Except (TrapCause × Addr) Nat :=
  match devXlates s ctx .fetch 4 a none with
  | .error e => .error e
  | .ok pas =>
    match pas.findIdx? fun pa => errAt s pa != 0 with
    | some i => .error ((15, errAt s ((pas[i]?).getD 0)), BitVec.ofNat 80 (a + i))
    | none => .ok (leNat (pas.map (viewByte s)))

/-- The length of the unit at a virtual address, from its first words (R30, R43). -/
def unitLength (s : State) (ctx : Nat) (a : Nat) : Except (TrapCause × Addr) Nat :=
  let form (b : Nat) := match b % 4 with
    | 0 => 8
    | 1 => 12
    | 2 => 16
    | _ => 8
  match unitWord s ctx a with
  | .error e => .error e
  | .ok w =>
    if w % 4 = 3 then
      match unitWord s ctx (a + 8) with
      | .error e => .error e
      | .ok v => .ok (8 + form v)
    else .ok (form w)

/-- A fault that ends a return: its cause, the address, and whether it met the unit at the resume address,
an instruction fetch, or the record. -/
structure RteFault where
  cause : TrapCause
  addr  : Addr
  fetch : Bool
  deriving DecidableEq, Repr

/-- `rte` from the record at `%fault`: reads it, then returns. The fault of a read is a trap in a
handler; with it comes the state in which what was read is combined (R228). -/
def rteFrom (s : State) (uid tn : Nat) (next : Bool) : Except (State × RteFault) State :=
  match teamOf s uid, trainOf s uid tn with
  | some team, some t =>
    let s := touch s team.ctx .read t.fault.toNat 64
    match devLoad s team.ctx t.fault.toNat 64 with
    | .error (e, a) => .error (s, ⟨e, a, false⟩)
    | .ok rec_ =>
      let A := BitVec.ofNat 80 (leNat ((rec_.drop 16).take 10) / 4 * 4)
      let D : LaneMask :=
        if leNat (rec_.take 1) = 14 then 0 else BitVec.ofNat 64 (leNat (rec_.drop 56))
      if next then
        let s := touch s team.ctx .fetch A.toNat 12
        match unitLength s team.ctx A.toNat with
        | .error (e, a) => .error (s, ⟨e, a, true⟩)
        | .ok n => .ok (returnFrom s uid tn A D true n)
      else .ok (returnFrom s uid tn A D false 0)
  | _, _ => .ok s

end Sys2Proof.Machine
end

