-- ==== Sys2Proof/Machine/Operands.lean ====
section
/-!
DEFINITION. Operands as an instruction reads and writes them: registers and predicates (R12 to R15),
the Turntable (R39), immediates (R56, R103), effective addresses (R23).
-/
namespace Sys2Proof.Machine

/-! ## Registers -/

/-- One 32-bit v register of a lane. -/
def vGet (t : Train) (r l : Nat) : Word := defGet 0 t.v (64 * r + l)

def vPut (t : Train) (r l : Nat) (x : Word) : Train := { t with v := defPut 0 t.v (64 * r + l) x }

def kGet (t : Train) (r : Nat) : Word := defGet 0 t.k r

def kPut (t : Train) (r : Nat) (x : Word) : Train := { t with k := defPut 0 t.k r x }

def bGet (t : Train) (r : Nat) : Addr := defGet 0 t.b r

def bPut (t : Train) (r : Nat) (x : Addr) : Train := { t with b := defPut 0 t.b r x }

/-- P(l, i) of R57: p7 reads true. -/
def pGet (t : Train) (i l : Nat) : Bool := i == 7 || (defGet 0 t.p i).getLsbD l

/-- Write pi of a lane; a write to p7 is discarded (R12). -/
def pPut (t : Train) (i l : Nat) (x : Bool) : Train :=
  if i = 7 then t
  else
    let bit : LaneMask := BitVec.ofNat 64 (2 ^ l)
    let m : LaneMask := defGet 0 t.p i
    { t with p := defPut 0 t.p i (if x then m ||| bit else m &&& ~~~bit) }

def jGet (t : Train) (n : Nat) : LaneMask := defGet 0 t.j n

def jPut (t : Train) (n : Nat) (x : LaneMask) : Train := { t with j := defPut 0 t.j n x }

/-- The number held by `n` registers from v register `r` on, the lowest first (R14, R272). -/
def vGroup (t : Train) (r l : Nat) : Nat → Nat
  | 0 => 0
  | n + 1 => (vGet t r l).toNat + 2 ^ 32 * vGroup t (r + 1) l n

def kGroup (t : Train) (r : Nat) : Nat → Nat
  | 0 => 0
  | n + 1 => (kGet t r).toNat + 2 ^ 32 * kGroup t (r + 1) n

/-- Write the low 32·n bits of a number to `n` v registers of a lane. -/
def vGroupPut (t : Train) (r l : Nat) : Nat → Nat → Train
  | 0, _ => t
  | n + 1, x => vGroupPut (vPut t r l (BitVec.ofNat 32 x)) (r + 1) l n (x / 2 ^ 32)

def kGroupPut (t : Train) (r : Nat) : Nat → Nat → Train
  | 0, _ => t
  | n + 1, x => kGroupPut (kPut t r (BitVec.ofNat 32 x)) (r + 1) n (x / 2 ^ 32)

/-- Write a value to a lane of the passed list. -/
def vLanesPut (t : Train) (r n : Nat) : List (Nat × Nat) → Train
  | [] => t
  | (l, x) :: rest => vLanesPut (vGroupPut t r l n x) r n rest

/-- Write per-lane values to a destination (R15): each lane of a v register; a k register once,
from the lowest lane; a base register likewise. -/
def dstPut (t : Train) (d : Opnd) (n : Nat) (vals : List (Nat × Nat)) : Train :=
  match d with
  | .v r _ _ => vLanesPut t r.toNat n vals
  | .k r =>
    match vals with
    | [] => t
    | (_, x) :: _ => kGroupPut t r.toNat n x
  | .b r =>
    match vals with
    | [] => t
    | (_, x) :: _ => bPut t r.toNat (BitVec.ofNat 80 x)
  | _ => t

/-- Write a predicate in the lanes of a list. -/
def predPut (t : Train) (i : Nat) : List (Nat × Bool) → Train
  | [] => t
  | (l, x) :: rest => predPut (pPut t i l x) i rest

/-- OR flags into `%flags` (R18). -/
def orFlags (t : Train) (f : FlagSet) : Train := { t with flags := t.flags ||| f }

/-! ## Sources -/

/-- The lane that lane `l` of a train of width `w` reads under a Turntable specification, or none
for the value 0 (R39). -/
def turnLane (w : Nat) (t : Turn) (l : Nat) : Option Nat :=
  let k := t.k.toNat
  match t.pat.toNat with
  | 0 => some l
  | 1 => some ((l + k) % w)
  | 2 => some (k % w)
  | 3 => some (l ^^^ (k % w))
  | 4 => some (w - 1 - l)
  | _ => if l + k % w < w then some (l + k % w) else none

/-- A source of `n` registers as lane `l` reads it: after the Turntable; an immediate cut to the
operand's width (R15, R39, R56). -/
def srcNat (t : Train) (o : Opnd) (n l : Nat) : Nat :=
  match o with
  | .v r _ tt =>
    match turnLane t.width tt l with
    | some L => vGroup t r.toNat L n
    | none => 0
  | .k r => kGroup t r.toNat n
  | .b r => (bGet t r.toNat).toNat
  | .imm x => x.toNat % 2 ^ (32 * n)
  | _ => 0

/-- A float source (R103): in F64 an immediate is an integer converted exactly to format `f`, in
every element of a packed operand; in F96 the word is raw bits. The manual leaves open an integer that `f`
does not hold, which is rounded to nearest even without a flag (DESIGN CHOICE, log entry 127), and a 6-bit
immediate of an F96 word, which is read as in F64 (DESIGN CHOICE, log entry 125). -/
def srcFloat (t : Train) (form : Form) (o : Opnd) (f l : Nat) : Nat :=
  match o with
  | .imm x =>
    if form = .f96i then x.toNat % 2 ^ 32
    else
      let c := (toFloat f 0 0 true (numOfInt x.toInt)).1
      match elemBits f with
      | 32 => c
      | 16 => c * 0x00010001
      | 8 => c * 0x01010101
      | _ => c * 0x11111111
  | o => srcNat t o 1 l

/-- EA of R23. -/
def effAddr (base : Addr) (off : Nat) (wide : Bool) (scale : Nat) : Addr :=
  if wide then base + (BitVec.ofNat 64 off).signExtend 80
  else base + (BitVec.ofNat 32 off).signExtend 80 * BitVec.ofNat 80 (2 ^ scale)

/-! ## Which registers an instruction names (R13, R14, R29) -/

/-- The v sources of an instruction in the order of the source check: source number, first register,
number of registers, empty behaviour. The payload of `casl` is source 4 (R269, R278). Source 2 of an
F128 `cx` whose format word generates B is a dash (R190). -/
def vSources (t : Train) (i : Instr) (a : Args) : List (Nat × Nat × Nat × Bool) :=
  let g := sigOf i
  let one (n : Nat) (o : Opnd) (w : Nat) : List (Nat × Nat × Nat × Bool) :=
    match o with
    | .v r e _ => [(n, r.toNat, w, e)]
    | _ => []
  let gen : Bool := match i with
    | .cx .. => a.form == .f128 && bitsOf (srcNat t a.s3 1 0) 16 2 != 0
    | _ => false
  one 1 a.s1 g.s1.n ++ (if gen then [] else one 2 a.s2 g.s2.n) ++ one 3 a.s3 g.s3.n ++
    match i with
    | .casl _ m => one 4 m.pay 2
    | _ => []

/-- The v destination: first register and number. -/
def vDest (i : Instr) (a : Args) : Option (Nat × Nat) :=
  match a.dst with
  | .v r _ _ => some (r.toNat, (sigOf i).dst.n)
  | _ => none

/-- Some register of a group is empty (R14, R24). -/
def groupEmpty (t : Train) (r n : Nat) : Bool := (List.range n).any fun j => t.empty.contains (r + j)

/-- Every v register the instruction names lies below the train's budget (R13). -/
def inBudget (t : Train) (i : Instr) (a : Args) : Bool :=
  (vSources t i a).all (fun (_, r, n, _) => r + n ≤ t.budget) &&
    match vDest i a with
    | some (r, n) => r + n ≤ t.budget
    | none => true

end Sys2Proof.Machine
end

