-- ==== Sys2Proof/Machine/Issue.lean ====
section
/-!
DEFINITION. What every instruction does before and after its own effect: the checks of R32 and R29
in their order, the enabled lanes (R11), the run (R45, R46), waits, and the traps an instruction
raises.
-/
namespace Sys2Proof.Machine

/-- Where an instruction issues: the pipe, the train and its split, the unit's address and length,
and the enabled lanes in ascending order (R11). -/
structure Site where
  core  : Nat
  pipe  : Nat
  uid   : Nat
  tn    : Nat
  idx   : Nat
  pc    : Addr
  len   : Nat
  stop  : Bool
  team  : Team
  train : Train
  split : Split
  lanes : List Nat
  deriving DecidableEq, Repr

/-- The instructions that complete lane by lane and replay the rest (R270, R312, R321). -/
def replays : Instr → Bool
  | .ld .. => true
  | .st .. => true
  | .stCr .. => true
  | .atom .. => true
  | .cas .. => true
  | .casl .. => true
  | .bcopy .. => true
  | .movStream .. => true
  | _ => false

/-- The lanes of a split that a guard enables (R11, R35), less those that a replay leaves out
(R270). -/
def enabledLanes (t : Train) (p : Split) (i : Instr) (guard : BitVec 3) (gneg : Bool) : List Nat :=
  (lanesOf p.mask).filter fun l =>
    pGet t guard.toNat l != gneg && !(p.replay && replays i && t.done.getLsbD l)

/-- The issuing place that `turn` and its pipe's run name. -/
def siteOf (s : State) (i : Instr) (a : Args) : Option Site :=
  let core := s.turn.1
  let pipe := s.turn.2
  match (pipeOf (coreOf s core) pipe).run with
  | none => none
  | some r =>
    match teamOf s r.uid, trainOf s r.uid r.train with
    | some team, some t =>
      match t.siding[r.idx]? with
      | none => none
      | some p =>
        some ⟨core, pipe, r.uid, r.train, r.idx, p.pc, unitBytes a, a.stop, team, t, p,
          enabledLanes t p i a.guard a.gneg⟩
    | _, _ => none

/-- What the checks before an instruction's own effect come to. -/
inductive Front
  | noTrain
  | misaligned (x : Site)
  | illegal (x : Site)
  | skip (x : Site)
  | queueFull (x : Site)
  | emptyRead (x : Site) (src reg : Nat)
  | badReg (x : Site)
  | wait (x : Site) (regs : List Nat)
  /-- its data are on their way, and it stands (R27, R344) -/
  | held (x : Site) (id : Nat) (fails : List Failure)
  /-- its data have come, lost or not: it only ends -/
  | ending (x : Site) (passed : LaneMask) (fails : List Failure)
  | go (x : Site)
  deriving DecidableEq, Repr

/-- The registers of its destination that an instruction reads as its comparand (R277, R280). -/
def comparand (i : Instr) (a : Args) : Option (Nat × Nat) :=
  match i with
  | .cas .. => vDest i a
  | .casl .. => (vDest i a).map fun d => (d.1, d.2 / 2)
  | _ => none

/-- A register that the instruction reads holds an uncorrectable error (R344). -/
def regError (s : State) (x : Site) (i : Instr) (a : Args) : Bool :=
  let bad (r n : Nat) : Bool := (List.range n).any fun j => s.errs.contains (.vreg x.uid x.tn (r + j))
  ((vSources x.train i a).any fun (_, r, n, _) => bad r n) ||
    match comparand i a with
    | some (r, n) => bad r n
    | none => false

/-- The source check of R29, for an instruction with an enabled lane. An uncorrectable error of a register is
met when the register is read, after the check (R344). -/
def sourceCheck (s : State) (x : Site) (i : Instr) (a : Args) : Front :=
  let srcs := vSources x.train i a
  match srcs.find? fun (_, r, n, _) => groupEmpty x.train r n with
  | some (k, r, n, e) => if e then .emptyRead x k r else .wait x ((List.range n).map (r + ·))
  | none =>
    let here : Front := if regError s x i a then .badReg x else .go x
    match vDest i a with
    | some (r, n) =>
      if groupEmpty x.train r n && x.split.resume != .popping then .wait x ((List.range n).map (r + ·)) else here
    | none => here

/-- Instructions that take an entry of the store queue (R234). -/
def takesEntry : Instr → Bool
  | .st .. => true
  | .stCr .. => true
  | .atom .. => true
  | .cas .. => true
  | .casl .. => true
  | _ => false

/-- R32: placement, encoding and budget; then, with no enabled lane, no effect (R11); then the room
of R234; then R29. -/
def front (i : Instr) (a : Args) (s : State) : Front :=
  match siteOf s i a with
  | none => .noTrain
  | some x =>
    match x.split.resume with
    | .data id fs => .held x id fs
    | .dataDone ok fs => .ending x ok fs
    | _ =>
    if 32 < x.pc.toNat % 32 + x.len then .misaligned x
    else if !wellFormed i || !inBudget x.train i a then .illegal x
    else if x.lanes.isEmpty then .skip x
    else if takesEntry i && 16 ≤ x.train.sq.length then .queueFull x
    else sourceCheck s x i a

/-! ## The run -/

/-- Count the gang passes an instruction begins in the current 64-cycle window (R124, R383). -/
def countPasses (s : State) (core pipe width : Nat) : State :=
  let p := pipeOf (coreOf s core) pipe
  let n := if 32 < width then 2 else 1
  let p := if p.window = s.now / 64 then { p with passes := p.passes + n }
    else { p with window := s.now / 64, passes := n }
  setPipe s core pipe p

/-- Count an instruction of the run; the run ends after a stop bit or the 24th (R45). -/
def countIssue (x : Site) (s : State) : State :=
  let s := countPasses s x.core x.pipe x.train.width
  let p := pipeOf (coreOf s x.core) x.pipe
  match p.run with
  | none => s
  | some r =>
    if x.stop || 24 ≤ r.count + 1 then endRun s x.core x.pipe
    else setPipe s x.core x.pipe { p with run := some { r with count := r.count + 1 } }

/-- Change the issuing split. -/
def modSplit (x : Site) (s : State) (f : Split → Split) : State :=
  modTrain s x.uid x.tn fun t => { t with siding := listMod t.siding x.idx f }

/-- The issuing train takes the effect `f`. -/
def modIssuer (x : Site) (s : State) (f : Train → Train) : State := modTrain s x.uid x.tn f

/-- The instruction has issued: its split continues at `pc`. -/
def advanceTo (x : Site) (pc : Addr) (s : State) : State :=
  let s := modTrain s x.uid x.tn fun t =>
    { t with
      seq := t.seq + 1
      siding := listMod t.siding x.idx fun p =>
        { p with pc := pc, st := .ready, replay := false, resume := .none } }
  countIssue x s

/-- The address after the instruction. -/
def nextPc (x : Site) : Addr := x.pc + BitVec.ofNat 80 x.len

/-- The instruction has issued and its split goes on after it. -/
def advance (x : Site) (s : State) : State := advanceTo x (nextPc x) s

/-- The instruction has issued, and its run ends (R46). -/
def advanceEnd (x : Site) (s : State) : State := endRun (advance x s) x.core x.pipe

/-- The instruction waits (R46): its run ends, and it begins the train's next run. -/
def waitFor (x : Site) (w : Wait) (s : State) : State :=
  endRun (modSplit x s fun p => { p with st := .waiting w }) x.core x.pipe

/-- As `waitFor`, keeping what the instruction has already done. -/
def waitWith (x : Site) (w : Wait) (r : Resume) (s : State) : State :=
  endRun (modSplit x s fun p => { p with st := .waiting w, resume := r }) x.core x.pipe

/-- The data of the producer `id` may be lost, or its destination is a k register: the instruction
stands until they have come, and begins the next run (R27, R46, R344). -/
def holdData (x : Site) (id : Nat) (fails : List Failure) (s : State) : State :=
  waitWith x (.data id) (.data id fails) (modIssuer x s fun t => { t with seq := t.seq + 1 })

/-- An instruction whose entry makes it a wait ends the run and begins the next (R46). -/
def holdOnce (x : Site) (go : State → State) (s : State) : State :=
  if x.split.resume = .none then
    endRun (modSplit x s fun p => { p with resume := .begun }) x.core x.pipe
  else go s

/-! ## Traps of an instruction -/

/-- A record of the issuing train (R336, R337). -/
def siteRec (x : Site) (code reason : Nat) (detail : Word) (addr : Addr) (length : Nat)
    (lanes done : LaneMask) (atomic write fetch : Bool) (unit : Nat) : Rec where
  fetch := fetch
  atomic := atomic
  write := write
  reason := BitVec.ofNat 8 reason
  source := 0
  code := BitVec.ofNat 8 code
  core := BitVec.ofNat 16 x.core
  ctx := BitVec.ofNat 12 x.team.ctx
  team := x.team.team
  detail := detail
  resume := x.pc
  train := BitVec.ofNat 6 x.tn
  unit := BitVec.ofNat 5 unit
  body := accessBody addr length lanes done

/-- The issuing split takes a trap at its instruction, which is then replayed from its beginning (R270,
R334). -/
def trapHere (x : Site) (code : Nat) (recs : List Rec) (s : State) : State :=
  takeTrap (modSplit x s fun p => { p with resume := .none }) x.uid x.tn x.idx code recs

/-- A trap of the whole instruction (R339): one record, of the split's lanes. -/
def trapAt (x : Site) (code reason : Nat) (detail : Word) (s : State) : State :=
  trapHere x code [siteRec x code reason detail 0 0 x.split.mask x.train.done false false false 0] s

/-- As `trapAt`, with the address and length of what failed. -/
def trapAddr (x : Site) (code reason : Nat) (addr : Addr) (length : Nat) (write : Bool)
    (s : State) : State :=
  trapHere x code [siteRec x code reason 0 addr length x.split.mask x.train.done false write false 0] s

/-- The trap codes of R330 that instructions raise whole. -/
def trapIllegal (x : Site) (s : State) : State := trapAt x 1 0 0 s
def trapMisaligned (x : Site) (s : State) : State :=
  trapHere x 2 [siteRec x 2 0 0 x.pc 8 x.split.mask x.train.done false false true 0] s
def trapEmptyRead (x : Site) (src reg : Nat) (s : State) : State :=
  trapAt x 3 src (BitVec.ofNat 32 reg) s
def trapDet (x : Site) (s : State) : State := trapAt x 10 0 0 s

/-- The records of the failures of an access of `n` bytes, grouped, in ascending order of their lowest
lane (R339). -/
def failRecs (x : Site) (n : Nat) (atomic write : Bool) (done : LaneMask) (seen : List (Nat × Nat)) :
    List Failure → List Rec
  | [] => []
  | f :: rest =>
    if seen.contains (f.code, f.page) then failRecs x n atomic write done seen rest
    else
      let same := f :: rest.filter fun g => g.code == f.code && g.page == f.page
      let low := same.foldl (fun (m : Nat) g => min m g.addr.toNat) f.addr.toNat
      siteRec x f.code f.reason 0 (BitVec.ofNat 80 low) n (maskOf (same.map (·.lane))) done atomic
          write false 0
        :: failRecs x n atomic write done ((f.code, f.page) :: seen) rest

/-- The end of an instruction of R270: with no failed lane it is complete, and goes on as `go` says;
else the train stops at it. -/
def lanesEnd (x : Site) (n : Nat) (atomic write : Bool) (passed : LaneMask) (fails : List Failure)
    (go : State → State) (s : State) : State :=
  match fails with
  | [] => go (modIssuer x s fun t => { t with done := 0, walked := [], asked := [] })
  | f :: _ =>
    let done := x.train.done ||| passed
    let s := modIssuer x s fun t => { t with done := done, walked := [], asked := [], seq := t.seq + 1 }
    trapHere x f.code (failRecs x n atomic write done [] fails) s

/-- Bytes per lane of a size code (R272). -/
def sizeBytes (size : BitVec 3) : Nat := 2 ^ size.toNat

/-- The bytes per lane of an instruction that completes lane by lane, and whether it is an atomic. -/
def accessOf : Instr → Option (Nat × Bool)
  | .ld _ size _ _ => some (sizeBytes size, false)
  | .atom _ _ _ d => some (if d then 8 else 4, true)
  | .cas _ _ _ d => some (if d then 8 else 4, true)
  | .casl _ m => some (if m.d then 8 else 4, true)
  | _ => none

/-- The end of an instruction whose data have come. -/
def endData (i : Instr) (x : Site) (passed : LaneMask) (fails : List Failure) (s : State) : State :=
  match accessOf i with
  | some (n, rmw) => lanesEnd x n rmw rmw passed fails (advance x) s
  | none => advance x s

/-- An instruction has issued without a trap. -/
def hasIssued (x : Site) (t : Train) : Bool :=
  t.seq == x.train.seq + 1 && t.pend.isNone && t.trapped == x.train.trapped &&
    t.handler == x.train.handler

/-- A v destination that is rewritten in every lane loses its uncorrectable errors (R344). -/
def clearRegs (i : Instr) (a : Args) (x : Site) (s : State) : State :=
  if s.errs.isEmpty then s
  else match vDest i a, trainOf s x.uid x.tn with
    | some (r, n), some t =>
      if hasIssued x t && x.lanes.length == x.train.width then
        { s with errs := s.errs.filter fun e =>
            !(List.range n).any fun j => e == .vreg x.uid x.tn (r + j) }
      else s
    | _, _ => s

/-- Every instruction's frame: the checks, then its own effect where they pass. -/
def issue (i : Instr) (a : Args) (s : State) (body : Site → State → State) :
    Host.Outcome State Fault Refusal :=
  match front i a s with
  | .noTrain => .fault .noTrain
  | .misaligned x => .next (trapMisaligned x s)
  | .illegal x => .next (trapIllegal x s)
  | .skip x => .next (advance x s)
  | .queueFull x => .next (waitFor x .sqRoom s)
  | .emptyRead x src reg => .next (trapEmptyRead x src reg s)
  | .badReg x => .next (trapAt x 15 4 0 s)
  | .wait x regs => .next (waitFor x (.full regs) s)
  | .held x id fs => .next (waitWith x (.data id) (.data id fs) s)
  | .ending x ok fs => .next (endData i x ok fs s)
  | .go x => .next (clearRegs i a x (body x s))

/-! ## Shapes of effects -/

/-- The lanes whose results are written: all, or the lowest for a k or base destination (R15). -/
def writtenLanes (x : Site) (d : Opnd) : List Nat :=
  if d.isV then x.lanes else x.lanes.take 1

/-- Compute a value and flags in each written lane from the three sources, write the destination
and OR the flags once (R58, R100). -/
def aluWrite (i : Instr) (a : Args) (f : Nat → Nat → Nat → Nat → Nat × FlagSet) (x : Site)
    (s : State) : State :=
  let g := sigOf i
  let t := x.train
  let rs := (writtenLanes x a.dst).map fun l =>
    (l, f l (srcNat t a.s1 g.s1.n l) (srcNat t a.s2 g.s2.n l) (srcNat t a.s3 g.s3.n l))
  let fl := rs.foldr (fun r acc => r.2.2 ||| acc) (0 : FlagSet)
  advance x (modIssuer x s fun t =>
    orFlags (dstPut t a.dst g.dst.n (rs.map fun r => (r.1, r.2.1))) fl)

/-- Mark a register group empty (R24). -/
def markEmpty (t : Train) (r : Nat) : Nat → Train
  | 0 => t
  | n + 1 => markEmpty { t with empty := setAdd t.empty (r + n) } r n

/-- A destination as a producer names it. -/
def dstOf (d : Opnd) (n : Nat) : Dst :=
  match d with
  | .v r _ _ => .v r.toNat n
  | .k r => .k r.toNat n
  | _ => .k 0 0

/-- Add a producer to the issuing train under the next name, with its v destination marked empty
(R24). -/
def addProducer (x : Site) (p : Producer) (s : State) : State :=
  modIssuer x { s with nextId := s.nextId + 1 } fun t =>
    let t := { t with prods := mapPut t.prods s.nextId p }
    match p.dst with
    | .v r n => markEmpty t r n
    | .k _ _ => t

/-- An instruction with the producer `id` has issued; with a k destination its train holds until the
fill (R24, R27). -/
def advanceProducer (x : Site) (d : Dst) (id : Nat) (s : State) : State :=
  match d with
  | .v _ _ => advance x s
  | .k _ _ => holdData x id [] s

/-- Add a producer; the instruction has issued. -/
def issueProducer (x : Site) (p : Producer) (s : State) : State :=
  advanceProducer x p.dst s.nextId (addProducer x p s)

/-- A producer whose values are known at issue. -/
def aluProducer (x : Site) (d : Dst) (lanes : List Nat) (vals : AMap QWord) (fl : FlagSet)
    (due : Nat) : Producer where
  seq := x.train.seq
  pc := x.pc
  kind := .alu
  dst := d
  lanes := maskOf lanes
  order := 1
  scope := 1
  policy := 1
  nochk := false
  parts := []
  vals := vals
  oks := 0
  flags := fl
  bad := []
  held := false
  due := due

/-- As `aluWrite`, by a long-latency producer that fills later (R24, R61, R104). -/
def aluLater (i : Instr) (a : Args) (lat : Nat) (f : Nat → Nat → Nat → Nat → Nat × FlagSet)
    (x : Site) (s : State) : State :=
  let g := sigOf i
  let t := x.train
  let ls := writtenLanes x a.dst
  let rs := ls.map fun l =>
    (l, f l (srcNat t a.s1 g.s1.n l) (srcNat t a.s2 g.s2.n l) (srcNat t a.s3 g.s3.n l))
  let fl := rs.foldr (fun r acc => r.2.2 ||| acc) (0 : FlagSet)
  issueProducer x (aluProducer x (dstOf a.dst g.dst.n) ls
    (rs.map fun r => (r.1, BitVec.ofNat 128 r.2.1)) fl (s.now + lat)) s

/-- Write a predicate in each enabled lane (R62, R70, R110). -/
def predWrite (pd : Nat) (f : Nat → Bool) (x : Site) (s : State) : State :=
  advance x (modIssuer x s fun t => predPut t pd (x.lanes.map fun l => (l, f l)))

/-- Write the same value in every enabled lane, or once (R15). -/
def uniformWrite (i : Instr) (a : Args) (v : Nat) (x : Site) (s : State) : State :=
  advance x (modIssuer x s fun t =>
    dstPut t a.dst (sigOf i).dst.n (x.lanes.map fun l => (l, v)))

end Sys2Proof.Machine
end

