-- ==== Sys2Proof/Machine/Float.lean ====
section
/-!
DEFINITION. FP32 arithmetic, functions, dot products, packed 16-bit arithmetic, conversions, the
codebook decode and the generator (R102 to R118, R121 to R123): opcodes 0x40 to 0x5F.
-/
namespace Sys2Proof.Machine

/-- Element `i` of a packed word in a format (R91). -/
def elemOf (x i f : Nat) : Nat := bitsOf x (elemBits f * i) (elemBits f)

/-- The random bits of a lane: src3 with two value sources, src2 with one (R105). -/
def randBits (t : Train) (o : Opnd) (rm : BitVec 3) (l : Nat) : Nat :=
  if rm = 4 then srcNat t o 1 l else 0

/-- Per-lane float work: the written lanes' results and flags (R104). -/
def floatWrite (i : Instr) (a : Args) (f : Train → Nat → Nat × FlagSet) (s : State) :
    Host.Outcome State Fault Refusal :=
  issue i a s fun x => aluWrite i a (fun l _ _ _ => f x.train l) x

/-- FP32 operand of a lane. -/
def fp32 (t : Train) (a : Args) (o : Opnd) (l : Nat) : Num :=
  decodeFloat 0 (srcFloat t a.form o 0 l)

/-- R106, R107. -/
def execFadd (a : Args) (m : Mods) (s : State) :=
  floatWrite (.fadd a m) a (fun t l =>
    let xs := [fp32 t a a.s1 l, fp32 t a a.s2 l]
    sumRound 0 m.py.toNat (randBits t a.s3 m.py l) true xs xs) s

/-- R106, R107: a difference adds the negated operand. -/
def execFsub (a : Args) (m : Mods) (s : State) :=
  floatWrite (.fsub a m) a (fun t l =>
    let x := fp32 t a a.s1 l
    let y := fp32 t a a.s2 l
    sumRound 0 m.py.toNat (randBits t a.s3 m.py l) true [x, y] [x, negNum y]) s

/-- R106, R107. -/
def execFmul (a : Args) (m : Mods) (s : State) :=
  floatWrite (.fmul a m) a (fun t l =>
    mulRound 0 m.py.toNat (randBits t a.s3 m.py l) true (fp32 t a a.s1 l) (fp32 t a a.s2 l)) s

/-- R106, R107: rounded once. -/
def execFfma (a : Args) (m : Mods) (s : State) :=
  floatWrite (.ffma a m) a (fun t l =>
    let x := fp32 t a a.s1 l
    let y := fp32 t a a.s2 l
    let z := fp32 t a a.s3 l
    sumRound 0 m.py.toNat 0 true [x, y, z] [mulNum x y, z]) s

/-- R108. -/
def execFmin (a : Args) (m : Mods) (s : State) :=
  floatWrite (.fmin a m) a (fun t l =>
    minMaxCode 0 false (srcFloat t a.form a.s1 0 l) (srcFloat t a.form a.s2 0 l)) s
/-- R108. -/
def execFmax (a : Args) (m : Mods) (s : State) :=
  floatWrite (.fmax a m) a (fun t l =>
    minMaxCode 0 true (srcFloat t a.form a.s1 0 l) (srcFloat t a.form a.s2 0 l)) s

/-- R108: a sign bit cleared or inverted; a NaN gives the canonical NaN. -/
def signOp (neg : Bool) (c : Nat) : Nat × FlagSet :=
  let x := decodeFloat 0 c
  if isNan x then (nanCode 0, flagIf (isSnan x) fInvalid)
  else (if neg then c ^^^ 2 ^ 31 else c % 2 ^ 31, 0)

/-- R108. -/
def execFabs (a : Args) (m : Mods) (s : State) :=
  floatWrite (.fabs a m) a (fun t l => signOp false (srcFloat t a.form a.s1 0 l)) s
/-- R108. -/
def execFneg (a : Args) (m : Mods) (s : State) :=
  floatWrite (.fneg a m) a (fun t l => signOp true (srcFloat t a.form a.s1 0 l)) s

/-- R109. -/
def execFclass (a : Args) (m : Mods) (s : State) :=
  floatWrite (.fclass a m) a (fun t l => (fclassOf (srcNat t a.s1 1 l), 0)) s

/-- R110: a signalling NaN in an enabled lane sets invalid, also where the result goes to p7 and is
discarded (DESIGN CHOICE, log entry 124). -/
def execFcmp (a : Args) (m : Mods) (s : State) : Host.Outcome State Fault Refusal :=
  issue (.fcmp a m) a s fun x s =>
    let t := x.train
    let fl := flagIf (x.lanes.any fun l => isSnan (fp32 t a a.s1 l) || isSnan (fp32 t a a.s2 l))
      fInvalid
    predWrite m.px.toNat (fun l =>
      fcmpHolds m.py.toNat (fp32 t a a.s1 l) (fp32 t a a.s2 l)) x (modIssuer x s (orFlags · fl))

/-- R111: a × 2^b. -/
def fscaleOf (mode r : Nat) (x : Num) (b : Int) : Nat × FlagSet :=
  match x with
  | .nan s => (nanCode 0, flagIf s fInvalid)
  | .inf s => (infMag 0 + signBit 0 s, 0)
  | .fin s m e =>
    if m = 0 then (signBit 0 s, 0)
    else
      let e' := max (-2000) (min 2000 (e + b))
      roundCore 0 mode r true s m e' true

/-- R111: the exponent of a finite nonzero a plus b, held to −2000 … 2000, beyond which every result
overflows or underflows alike. -/
def execFscale (a : Args) (m : Mods) (s : State) :=
  floatWrite (.fscale a m) a (fun t l =>
    fscaleOf m.py.toNat (randBits t a.s3 m.py l) (fp32 t a a.s1 l)
      (sext 32 (srcNat t a.s2 1 l))) s

/-- R111: to an integral FP32 value, which is exact. -/
def froundOf (mode r : Nat) (x : Num) : Nat × FlagSet :=
  match x with
  | .nan s => (nanCode 0, flagIf s fInvalid)
  | .inf s => (infMag 0 + signBit 0 s, 0)
  | .fin s m e =>
    if m = 0 then (signBit 0 s, 0)
    else
      let (y, changed) := roundToInt mode r s m e
      let c := if y = 0 then signBit 0 s else (toFloat 0 0 0 true (numOfInt y)).1
      (c, flagIf changed fInexact)

/-- R111. -/
def execFround (a : Args) (m : Mods) (s : State) :=
  floatWrite (.fround a m) a (fun t l =>
    froundOf m.py.toNat (randBits t a.s2 m.py l) (fp32 t a a.s1 l)) s

/-- R112: a function, by a long-latency producer. -/
def fnLater (i : Instr) (a : Args) (m : Mods) (f : Fn) (s : State) :
    Host.Outcome State Fault Refusal :=
  issue i a s (aluLater i a Config.latFunc fun _ x _ _ => fnCode f m.py.toNat x)

/-- R112. -/
def execFrcp (a : Args) (m : Mods) (s : State) := fnLater (.frcp a m) a m .rcp s
/-- R112. -/
def execFsqrt (a : Args) (m : Mods) (s : State) := fnLater (.fsqrt a m) a m .sqrt s
/-- R112. -/
def execFrsqrt (a : Args) (m : Mods) (s : State) := fnLater (.frsqrt a m) a m .rsqrt s
/-- R112. -/
def execFexp2 (a : Args) (m : Mods) (s : State) := fnLater (.fexp2 a m) a m .exp2 s
/-- R112. -/
def execFlog2 (a : Args) (m : Mods) (s : State) := fnLater (.flog2 a m) a m .log2 s
/-- R112. -/
def execFsin (a : Args) (m : Mods) (s : State) := fnLater (.fsin a m) a m .sin s
/-- R112. -/
def execFcos (a : Args) (m : Mods) (s : State) := fnLater (.fcos a m) a m .cos s
/-- R112. -/
def execFtanh (a : Args) (m : Mods) (s : State) := fnLater (.ftanh a m) a m .tanh s

/-- R113: an exact dot product of packed elements plus an FP32 value, rounded once. -/
def dotOf (n fa fb mode : Nat) (x y c : Nat) : Nat × FlagSet :=
  let as := (List.range n).map fun i => decodeFloat fa (elemOf x i fa)
  let bs := (List.range n).map fun i => decodeFloat fb (elemOf y i fb)
  let z := decodeFloat 0 c
  sumRound 0 mode 0 true (as ++ bs ++ [z]) (List.zipWith mulNum as bs ++ [z])

/-- R113. -/
def execFdp2 (a : Args) (m : Mods) (s : State) :=
  floatWrite (.fdp2 a m) a (fun t l =>
    let f := if m.u then 2 else 1
    dotOf 2 f f m.py.toNat (srcFloat t a.form a.s1 f l) (srcFloat t a.form a.s2 f l)
      (srcFloat t a.form a.s3 0 l)) s

/-- R113. -/
def execFdp4 (a : Args) (m : Mods) (s : State) :=
  floatWrite (.fdp4 a m) a (fun t l =>
    let fa := if m.u then 4 else 3
    let fb := if m.d then 4 else 3
    dotOf 4 fa fb m.py.toNat (srcFloat t a.form a.s1 fa l) (srcFloat t a.form a.s2 fb l)
      (srcFloat t a.form a.s3 0 l)) s

/-- The exact dot product of four 8-bit integers (R114). -/
def idotOf (ua ub : Bool) (x y : Nat) : Int :=
  ((List.range 4).map fun i =>
    decodeInt (if ua then 7 else 6) (elemOf x i 6) 0
      * decodeInt (if ub then 7 else 6) (elemOf y i 6) 0).sum

/-- R114: an I operand is read as an integer of the register's width. -/
def execIdp4 (a : Args) (m : Mods) (s : State) :=
  floatWrite (.idp4 a m) a (fun t l =>
    let v := idotOf m.u m.d (srcNat t a.s1 1 l) (srcNat t a.s2 1 l) + sext 32 (srcNat t a.s3 1 l)
    if m.s then
      let (y, f) := satInt 32 false v
      ((y % 2 ^ 32).toNat, f)
    else ((v % 2 ^ 32).toNat, 0)) s

/-- Two 16-bit results and their flags as one word (R115). -/
def pairUp (lo hi : Nat × FlagSet) : Nat × FlagSet := (lo.1 + 2 ^ 16 * hi.1, lo.2 ||| hi.2)

/-- Rotl32 of R122. -/
def rotl32 (x n : Nat) : Nat := x * 2 ^ n % 2 ^ 32 + x % 2 ^ 32 / 2 ^ (32 - n)

/-- The two elements of a packed 16-bit operation (R115): element 0 with r, element 1 with
Rotl32(r, 16). -/
def packed2 (i : Instr) (a : Args) (m : Mods)
    (f : Nat → Nat → Num → Num → Num → Nat × FlagSet) (s : State) :
    Host.Outcome State Fault Refusal :=
  floatWrite i a (fun t l =>
    let F := if m.u then 2 else 1
    let r := randBits t a.s3 m.py l
    let e (o : Opnd) (i : Nat) := decodeFloat F (elemOf (srcFloat t a.form o F l) i F)
    pairUp (f F r (e a.s1 0) (e a.s2 0) (e a.s3 0))
      (f F (rotl32 r 16) (e a.s1 1) (e a.s2 1) (e a.s3 1))) s

/-- R115. -/
def execHadd2 (a : Args) (m : Mods) (s : State) :=
  packed2 (.hadd2 a m) a m (fun F r x y _ => sumRound F m.py.toNat r m.s [x, y] [x, y]) s
/-- R115. -/
def execHmul2 (a : Args) (m : Mods) (s : State) :=
  packed2 (.hmul2 a m) a m (fun F r x y _ => mulRound F m.py.toNat r m.s x y) s
/-- R115. -/
def execHfma2 (a : Args) (m : Mods) (s : State) :=
  packed2 (.hfma2 a m) a m
    (fun F _ x y z => sumRound F m.py.toNat 0 m.s [x, y, z] [mulNum x y, z]) s

/-- R115: as `fmax`, on codes. -/
def execHmax2 (a : Args) (m : Mods) (s : State) :=
  floatWrite (.hmax2 a m) a (fun t l =>
    let F := if m.u then 2 else 1
    let x := srcFloat t a.form a.s1 F l
    let y := srcFloat t a.form a.s2 F l
    pairUp (minMaxCode F true (elemOf x 0 F) (elemOf y 0 F))
      (minMaxCode F true (elemOf x 1 F) (elemOf y 1 F))) s

/-- The range of an integer type of R116. -/
def cvtRange (ty : Nat) : Int × Int :=
  match ty with
  | 1 => (-2 ^ 31, 2 ^ 31 - 1)
  | 2 => (0, 2 ^ 32 - 1)
  | 3 => (-2 ^ 63, 2 ^ 63 - 1)
  | _ => (0, 2 ^ 64 - 1)

/-- The width of a type of R116. -/
def cvtBits (ty : Nat) : Nat := if 3 ≤ ty then 64 else 32

/-- The integer a type of R116 reads. -/
def cvtInt (ty x : Nat) : Int :=
  if ty = 1 ∨ ty = 3 then sext (cvtBits ty) x else (x % 2 ^ cvtBits ty : Nat)

/-- R116. -/
def cvtOf (dt st mode r : Nat) (x : Nat) : Nat × FlagSet :=
  if dt = 0 then toFloat 0 mode r true (numOfInt (cvtInt st x))
  else
    let (lo, hi) := cvtRange dt
    let (y, f) := if st = 0 then toInt lo hi mode r (decodeFloat 0 x)
      else clampSat lo hi (cvtInt st x)
    ((y % 2 ^ cvtBits dt).toNat, f)

/-- R116: a 32-bit float source reads its immediate by R103; integer sources by R56. -/
def execCvt (a : Args) (rm dt st : BitVec 3) (s : State) :=
  floatWrite (.cvt a rm dt st) a (fun t l =>
    let n := if 3 ≤ st.toNat then 2 else 1
    let x := if st = 0 then srcFloat t a.form a.s1 0 l else srcNat t a.s1 n l
    cvtOf dt.toNat st.toNat rm.toNat (randBits t a.s2 rm l) x) s

/-- The zero point of a control word (R117). -/
def zeroPoint (f x : Nat) : Nat := if f = 8 then bitsOf x 8 8 else if f = 9 then bitsOf x 8 4 else 0

/-- R117: the code of one element. -/
def packCode (f mode r : Nat) (ov int : Bool) (a z : Nat) : Nat × FlagSet :=
  let v : Num := if int then numOfInt (sext 32 a) else decodeFloat 0 a
  if isFloatFmt f then toFloat f mode r ov v
  else
    let (lo, hi) := intRange f
    let z : Int := z
    let (y, g) := if int then clampSat lo hi (sext 32 a + z)
      else
        match v with
        | .fin n m e =>
          -- the zero point is added exactly before the rounding
          let e0 := min e 0
          let s := sumAt e0 [.fin n m e, numOfInt z]
          toInt lo hi mode r (.fin (s < 0) s.natAbs e0)
        | w => toInt lo hi mode r w
    ((y % 2 ^ elemBits f).toNat, g)

/-- Element `i` of a word replaced (R117). -/
def setElem (w i f c : Nat) : Nat :=
  let lo := elemBits f * i
  w - elemOf w i f * 2 ^ lo + c * 2 ^ lo

/-- R117. -/
def execPack (a : Args) (rm : BitVec 3) (ov : Bool) (f : BitVec 4) (int : Bool) (s : State) :=
  floatWrite (.pack a rm ov f int) a (fun t l =>
    let F := f.toNat
    let ctl := srcNat t a.s2 1 l
    let i := bitsOf ctl 0 3 % (32 / elemBits F)
    let x := if int then srcNat t a.s1 1 l else srcFloat t a.form a.s1 0 l
    let (c, g) := packCode F rm.toNat (randBits t a.s3 rm l) ov int x (zeroPoint F ctl)
    (setElem (srcNat t a.dst 1 l) i F c, g)) s

/-- R118. -/
def unpackOf (f : Nat) (int : Bool) (c z : Nat) : Nat × FlagSet :=
  if isFloatFmt f then
    let x := decodeFloat f c
    ((toFloat 0 0 0 true x).1, flagIf (isSnan x) fInvalid)
  else
    let v := decodeInt f c z
    if int then ((v % 2 ^ 32).toNat, 0) else ((toFloat 0 0 0 true (numOfInt v)).1, 0)

/-- R118. -/
def execUnpack (a : Args) (f : BitVec 4) (int : Bool) (s : State) :=
  floatWrite (.unpack a f int) a (fun t l =>
    let F := f.toNat
    let ctl := srcNat t a.s2 1 l
    let i := bitsOf ctl 0 3 % (32 / elemBits F)
    unpackOf F int (elemOf (srcNat t a.s1 1 l) i F) (zeroPoint F ctl)) s

/-- R121: the eight bytes of a decoded group. -/
def cbdecBytes (entry x : Nat) (e4m3 : Bool) : Nat → Nat
  | 0 => 0
  | n + 1 =>
    let t := cb2Twice entry x n
    let b := if e4m3 then
        if t = 0 then 0 else (toFloat 3 0 0 false (.fin (t < 0) t.natAbs (-1))).1
      else (t % 256).toNat
    b * 2 ^ (8 * n) + cbdecBytes entry x e4m3 n

/-- R120, R121: the table is the context's at issue. -/
def execCbdec (a : Args) (hi e4m3 : Bool) (s : State) : Host.Outcome State Fault Refusal :=
  issue (.cbdec a hi e4m3) a s fun x s =>
    aluWrite (.cbdec a hi e4m3) a (fun l _ _ _ =>
      let w := srcNat x.train a.s1 1 l
      let g := if hi then w / 2 ^ 16 else w % 2 ^ 16
      let entry := codeEntry (ctxBook s x.team.ctx) l (g / 256)
      (cbdecBytes entry.toNat g e4m3 8, 0)) x (drawBook s x.team.ctx)

/-- The rotations of R122. -/
def rndRot : List Nat := [7, 9, 13, 18, 5, 11, 16, 21]

/-- RndBits of R122, round by round. -/
def rndRounds (key x0 x1 i : Nat) : List Nat → Nat
  | [] => x0 ^^^ x1
  | rot :: rest =>
    let ki := if i % 2 = 0 then key % 2 ^ 32 else key / 2 ^ 32
    let y0 := rotl32 ((x0 + (x1 ^^^ ki)) % 2 ^ 32) rot
    let y1 := ((x1 ^^^ y0) + (i + 1) * 0x9E3779B9) % 2 ^ 32
    rndRounds key y0 y1 (i + 1) rest

/-- RndBits of R122. -/
def rndBits (key ctr : Nat) : Nat := rndRounds key (ctr % 2 ^ 32) (ctr / 2 ^ 32) 0 rndRot

/-- R122: under `.f` the FP32 code of (y >> 8) × 2^-24. -/
def execRnd (a : Args) (f : Bool) (s : State) :=
  floatWrite (.rnd a f) a (fun t l =>
    let y := rndBits (srcNat t a.s2 2 l) (srcNat t a.s1 2 l)
    (if f then (toFloat 0 0 0 true (.fin false (y / 256) (-24))).1 else y, 0)) s

end Sys2Proof.Machine
end

