-- ==== Sys2Proof/Machine/Integer.lean ====
section
/-!
DEFINITION. Integer arithmetic, comparisons, logic, shifts and bit fields (R58 to R66): opcodes 0x20
to 0x3F.
-/
namespace Sys2Proof.Machine

/-- The width of an operand (R58). -/
def opWidth (d : Bool) : Nat := if d then 64 else 32

/-- The exact integer of an operand (R58). -/
def opInt (w : Nat) (u : Bool) (x : Nat) : Int := if u then (x % 2 ^ w : Nat) else sext w x

/-- The result of R58: clamped under `.sat`, else the low bits. -/
def intResult (w : Nat) (m : Mods) (x : Int) : Nat × FlagSet :=
  if m.s then
    let (y, f) := satInt w m.u x
    ((y % 2 ^ w).toNat, f)
  else ((x % 2 ^ w).toNat, 0)

/-- Arithmetic by an exact integer function of the operands (R58, R59). -/
def intAlu (i : Instr) (a : Args) (m : Mods) (w : Nat) (f : Int → Int → Int → Int) (s : State) :
    Host.Outcome State Fault Refusal :=
  issue i a s (aluWrite i a fun _ x y z =>
    intResult w m (f (opInt w m.u x) (opInt w m.u y) (opInt w m.u z)))

/-- Logic by a function on bits (R63). -/
def bitAlu (i : Instr) (a : Args) (d : Bool) (f : Nat → Nat → Nat → Nat → Nat) (s : State) :
    Host.Outcome State Fault Refusal :=
  issue i a s (aluWrite i a fun _ x y z => (f (opWidth d) x y z % 2 ^ opWidth d, 0))

/-- R59: a + b. -/
def execIadd (a : Args) (m : Mods) (s : State) := intAlu (.iadd a m) a m (opWidth m.d) (fun x y _ => x + y) s
/-- R59: a − b. -/
def execIsub (a : Args) (m : Mods) (s : State) := intAlu (.isub a m) a m (opWidth m.d) (fun x y _ => x - y) s
/-- R59: a × b. -/
def execImul (a : Args) (m : Mods) (s : State) := intAlu (.imul a m) a m (opWidth m.d) (fun x y _ => x * y) s
/-- R59: the upper half of the product. -/
def execImulh (a : Args) (m : Mods) (s : State) :=
  intAlu (.imulh a m) a m (opWidth m.d) (fun x y _ => x * y / 2 ^ opWidth m.d) s
/-- R59: a × b + c. -/
def execImad (a : Args) (m : Mods) (s : State) :=
  intAlu (.imad a m) a m (opWidth m.d) (fun x y z => x * y + z) s
/-- R59: −a. -/
def execIneg (a : Args) (m : Mods) (s : State) := intAlu (.ineg a m) a m (opWidth m.d) (fun x _ _ => -x) s
/-- R59: |a|. -/
def execIabs (a : Args) (m : Mods) (s : State) :=
  intAlu (.iabs a m) a m (opWidth m.d) (fun x _ _ => x.natAbs) s
/-- R59: the smaller. -/
def execImin (a : Args) (m : Mods) (s : State) := intAlu (.imin a m) a m (opWidth m.d) (fun x y _ => min x y) s
/-- R59: the larger. -/
def execImax (a : Args) (m : Mods) (s : State) := intAlu (.imax a m) a m (opWidth m.d) (fun x y _ => max x y) s

/-- R59: the whole product of 32-bit operands, as a pair. -/
def execImulw (a : Args) (m : Mods) (s : State) : Host.Outcome State Fault Refusal :=
  issue (.imulw a m) a s (aluWrite (.imulw a m) a fun _ x y _ =>
    ((opInt 32 m.u x * opInt 32 m.u y % 2 ^ 64).toNat, 0))

/-- R59: |a − b| + c. -/
def execIsad (a : Args) (m : Mods) (s : State) : Host.Outcome State Fault Refusal :=
  issue (.isad a m) a s (aluWrite (.isad a m) a fun _ x y z =>
    ((((opInt 32 m.u x - opInt 32 m.u y).natAbs + opInt 32 m.u z) % 2 ^ 32).toNat, 0))

/-- Result and carry of `iaddx` and `isubx` (R60). -/
def carryOf (w : Nat) (sub : Bool) (x y cin : Nat) : Nat × Bool :=
  if sub then ((x + 2 ^ w - y + 2 ^ w - cin) % 2 ^ w, x < y + cin)
  else ((x + y + cin) % 2 ^ w, 2 ^ w ≤ x + y + cin)

/-- R60: sum or difference in the destination, carry or borrow in pOut. The carries in are read
before any write. -/
def carryBody (i : Instr) (a : Args) (m : Mods) (sub : Bool) (x : Site) (s : State) : State :=
  let t := x.train
  let g := sigOf i
  let r (l : Nat) := carryOf (opWidth m.d) sub (srcNat t a.s1 g.s1.n l) (srcNat t a.s2 g.s2.n l)
    (if m.s && pGet t m.py.toNat l then 1 else 0)
  advance x (modIssuer x s fun t =>
    predPut (dstPut t a.dst g.dst.n (x.lanes.map fun l => (l, (r l).1))) m.px.toNat
      (x.lanes.map fun l => (l, (r l).2)))

/-- R60. -/
def execIaddx (a : Args) (m : Mods) (s : State) : Host.Outcome State Fault Refusal :=
  issue (.iaddx a m) a s (carryBody (.iaddx a m) a m false)
/-- R60. -/
def execIsubx (a : Args) (m : Mods) (s : State) : Host.Outcome State Fault Refusal :=
  issue (.isubx a m) a s (carryBody (.isubx a m) a m true)

/-- R61: quotient and remainder, with the flag. -/
def divRem (w : Nat) (rem : Bool) (x y : Int) : Nat × FlagSet :=
  let enc (z : Int) : Nat := (z % 2 ^ w).toNat
  if y = 0 then (if rem then enc x else 2 ^ w - 1, flagIf (x != 0) fDivzero)
  else (enc (if rem then x.tmod y else x.tdiv y), 0)

/-- R61. -/
def execDiv (a : Args) (m : Mods) (s : State) : Host.Outcome State Fault Refusal :=
  issue (.div a m) a s (aluLater (.div a m) a (Config.latDiv m.d) fun _ x y _ =>
    divRem (opWidth m.d) false (opInt (opWidth m.d) m.u x) (opInt (opWidth m.d) m.u y))
/-- R61. -/
def execRem (a : Args) (m : Mods) (s : State) : Host.Outcome State Fault Refusal :=
  issue (.rem a m) a s (aluLater (.rem a m) a (Config.latDiv m.d) fun _ x y _ =>
    divRem (opWidth m.d) true (opInt (opWidth m.d) m.u x) (opInt (opWidth m.d) m.u y))

/-- The conditions of R62 on exact integers. -/
def condHolds (c : Nat) (x y : Int) : Bool :=
  match c with
  | 0 => x == y
  | 1 => x != y
  | 2 => x < y
  | 3 => x ≤ y
  | 4 => y < x
  | _ => y ≤ x

/-- R62. -/
def execIcmp (a : Args) (m : Mods) (s : State) : Host.Outcome State Fault Refusal :=
  issue (.icmp a m) a s fun x =>
    let n := wide m.d
    predWrite m.px.toNat (fun l =>
      condHolds m.py.toNat (opInt (opWidth m.d) m.u (srcNat x.train a.s1 n l))
        (opInt (opWidth m.d) m.u (srcNat x.train a.s2 n l))) x

/-- All ones in `w` bits, less the bits of `x`. -/
def notBits (w x : Nat) : Nat := 2 ^ w - 1 - x % 2 ^ w

/-- R63. -/
def execAnd (a : Args) (m : Mods) (s : State) := bitAlu (.and a m) a m.d (fun _ x y _ => x &&& y) s
/-- R63. -/
def execOr (a : Args) (m : Mods) (s : State) := bitAlu (.or a m) a m.d (fun _ x y _ => x ||| y) s
/-- R63. -/
def execXor (a : Args) (m : Mods) (s : State) := bitAlu (.xor a m) a m.d (fun _ x y _ => x ^^^ y) s
/-- R63. -/
def execNot (a : Args) (m : Mods) (s : State) := bitAlu (.not a m) a m.d (fun w x _ _ => notBits w x) s
/-- R63. -/
def execAndn (a : Args) (m : Mods) (s : State) :=
  bitAlu (.andn a m) a m.d (fun w x y _ => x &&& notBits w y) s

/-- Number of 1 bits among the low `n` (R63). -/
def countOnes (x : Nat) : Nat → Nat
  | 0 => 0
  | n + 1 => (if bitOf x n then 1 else 0) + countOnes x n

/-- Zero bits from bit n − 1 down (R63). -/
def countLead (x : Nat) : Nat → Nat
  | 0 => 0
  | n + 1 => if bitOf x n then 0 else 1 + countLead x n

/-- The low `n` bits reversed (R63). -/
def revBits (x : Nat) : Nat → Nat
  | 0 => 0
  | n + 1 => (if bitOf x n then 1 else 0) + 2 * revBits x n

/-- R63: the number of 1 bits. -/
def execPopc (a : Args) (m : Mods) (s : State) :=
  bitAlu (.popc a m) a m.d (fun w x _ _ => countOnes x w) s
/-- R63: leading zeros. -/
def execClz (a : Args) (m : Mods) (s : State) :=
  bitAlu (.clz a m) a m.d (fun w x _ _ => countLead x w) s
/-- R63: trailing zeros, the leading zeros of the reversed word. -/
def execCtz (a : Args) (m : Mods) (s : State) :=
  bitAlu (.ctz a m) a m.d (fun w x _ _ => countLead (revBits x w) w) s
/-- R63: bit i to bit W − 1 − i. -/
def execBrev (a : Args) (m : Mods) (s : State) :=
  bitAlu (.brev a m) a m.d (fun w x _ _ => revBits x w) s

/-- R64: the count is B[7:0]. -/
def execShl (a : Args) (m : Mods) (s : State) :=
  bitAlu (.shl a m) a m.d (fun _ x y _ => x * 2 ^ (y % 256)) s
/-- R64. -/
def execShr (a : Args) (m : Mods) (s : State) :=
  bitAlu (.shr a m) a m.d (fun _ x y _ => x / 2 ^ (y % 256)) s
/-- R64. -/
def execSar (a : Args) (m : Mods) (s : State) :=
  bitAlu (.sar a m) a m.d (fun w x y _ => (sext w x / 2 ^ (y % 256) % 2 ^ w).toNat) s
/-- R64. -/
def execRotl (a : Args) (m : Mods) (s : State) :=
  bitAlu (.rotl a m) a m.d
    (fun w x y _ => x * 2 ^ (y % 256 % w) + x / 2 ^ (w - y % 256 % w)) s

/-- R65: the field extracted. -/
def bfxOf (w : Nat) (u : Bool) (x f : Nat) : Nat :=
  let L := min (f / 256 % 256) w
  let y := x / 2 ^ (f % 256) % 2 ^ L
  if u || L == 0 then y else (sext L y % 2 ^ w).toNat

/-- R65: the field inserted, bit by bit from bit n − 1 down. -/
def bfiOf (x b f : Nat) : Nat → Nat
  | 0 => 0
  | n + 1 =>
    let pos := f % 256
    let v := if pos ≤ n && n < pos + f / 256 % 256 then bitOf b (n - pos) else bitOf x n
    (if v then 2 ^ n else 0) + bfiOf x b f n

/-- R65. -/
def execBfx (a : Args) (m : Mods) (s : State) :=
  bitAlu (.bfx a m) a m.d (fun w x y _ => bfxOf w m.u x y) s
/-- R65. -/
def execBfi (a : Args) (m : Mods) (s : State) :=
  bitAlu (.bfi a m) a m.d (fun w x y z => bfiOf x y z w) s

/-- R66: any function of three bits, bit by bit. -/
def lop3Of (table x y z : Nat) : Nat → Nat
  | 0 => 0
  | n + 1 =>
    let k := bitsOf x n 1 * 4 + bitsOf y n 1 * 2 + bitsOf z n 1
    (if bitOf table k then 2 ^ n else 0) + lop3Of table x y z n

/-- R66. -/
def execLop3 (a : Args) (table : BitVec 8) (d : Bool) (s : State) :=
  bitAlu (.lop3 a table d) a d (fun w x y z => lop3Of table.toNat x y z w) s

end Sys2Proof.Machine
end

