-- ==== Sys2Proof/Machine/Siding.lean ====
section
/-!
DEFINITION. The Siding (R140 to R145): division of a split, joins, lanes that leave, and the
deadlock of joins.
-/
namespace Sys2Proof.Machine

/-- Entries of the Siding that are free (R140). -/
def freeEntries (t : Train) : Nat := 16 - t.siding.length

/-- Every lane of `a` is in `b`. -/
def within (a b : LaneMask) : Bool := a &&& ~~~b == 0

/-- A split waits at a join on jN. -/
def atJoinOn (n : BitVec 3) (p : Split) : Bool := p.st == .atJoin n

/-- The lanes that have arrived at joins on jN. -/
def arrivedAt (t : Train) (n : BitVec 3) : LaneMask := lanesUnion (t.siding.filter (atJoinOn n))

/-- The join on jN is complete: some lanes wait, and every lane of jN has arrived, has exited or is
inactive from launch (R143). -/
def joinComplete (t : Train) (n : BitVec 3) : Bool :=
  t.siding.any (atJoinOn n) && within (jGet t n.toNat &&& t.active) (arrivedAt t n)

/-- Merge the splits waiting on jN, each group of one address into one split at the place of its
earliest, ready after the `join` (R143). A `join` is 8 bytes long (R162). Where a handler's split merges with splits
that its handler holds, the spec does not say which the merged one is: it is as its earliest (log entry 137). -/
def mergeJoin (n : BitVec 3) : List Addr → List Split → List Split
  | _, [] => []
  | seen, p :: rest =>
    if atJoinOn n p then
      if seen.contains p.pc then mergeJoin n seen rest
      else
        let same := rest.filter fun q => atJoinOn n q && q.pc == p.pc
        { p with
          pc := p.pc + 8
          mask := p.mask ||| lanesUnion same
          st := .ready
          replay := false
          resume := .none } :: mergeJoin n (p.pc :: seen) rest
    else p :: mergeJoin n seen rest

/-- Complete the join on jN where it is complete. -/
def tryJoin (t : Train) (n : BitVec 3) : Train :=
  if joinComplete t n then { t with siding := mergeJoin n [] t.siding } else t

/-- Complete every join that is complete. -/
def tryJoins (t : Train) : Train := (List.range 8).foldl (fun t n => tryJoin t (BitVec.ofNat 3 n)) t

/-- Eight masks by their numbers. -/
def eightMasks (f : Nat → LaneMask) : AMap LaneMask :=
  (List.range 8).foldl (fun m i => defPut 0 m i (f i)) []

/-- Lanes leave their train for good (R79, R144): removed from the active lanes, every join mask and
their splits; joins that this completes complete. -/
def exitLanes (t : Train) (m : LaneMask) : Train :=
  let t := { t with
    active := t.active &&& ~~~m
    j := eightMasks fun n => jGet t n &&& ~~~m
    siding := (t.siding.map fun p => { p with mask := p.mask &&& ~~~m }).filter fun p => p.mask != 0 }
  tryJoins t

/-- Every split waits at a join or for Siding entries that are not there (R145). -/
def joinDeadlock (t : Train) : Bool :=
  !t.siding.isEmpty && t.siding.all fun p =>
    match p.st with
    | .atJoin _ => true
    | .waiting (.siding n) => freeEntries t < n
    | _ => false

/-- A record of a train that is not issuing (R336): `pc` is its resume address. -/
def trainRec (s : State) (uid tn code reason source : Nat) (detail : Word) (pc addr : Addr)
    (length : Nat) (lanes done : LaneMask) (atomic write : Bool) (unit : Nat) : Rec :=
  match teamOf s uid with
  | none => ⟨false, false, false, 0, 0, 0, 0, 0, 0, 0, 0, 0, 0, 0⟩
  | some team =>
    { fetch := false
      atomic := atomic
      write := write
      reason := BitVec.ofNat 8 reason
      source := BitVec.ofNat 4 source
      code := BitVec.ofNat 8 code
      core := BitVec.ofNat 16 (coreOfTeam team)
      ctx := BitVec.ofNat 12 team.ctx
      team := team.team
      detail := detail
      resume := pc
      train := BitVec.ofNat 6 tn
      unit := BitVec.ofNat 5 unit
      body := accessBody addr length lanes done }

/-- JOIN_DEADLOCK, taken once for the train, by the first split of its Siding (R145, R330). -/
def checkDeadlock (uid tn : Nat) (s : State) : State :=
  match trainOf s uid tn with
  | none => s
  | some t =>
    match t.siding with
    | [] => s
    | p :: _ =>
      if joinDeadlock t && t.pend.isNone && !t.trapped then
        takeTrap s uid tn 0 11 [trainRec s uid tn 11 0 0 0 p.pc 0 0 p.mask t.done false false 0]
      else s

/-- The issuing split replaced by splits, in order; the instruction has issued. -/
def replaceSplit (x : Site) (ps : List Split) (s : State) : State :=
  let s := modTrain s x.uid x.tn fun t =>
    { t with seq := t.seq + 1, siding := listReplace t.siding x.idx ps }
  countIssue x s

/-- A ready split. -/
def readySplit (pc : Addr) (m : LaneMask) : Split := ⟨pc, m, .ready, false, .none, false⟩

/-- Divide the issuing split into the given groups, in order (R141); wait while the Siding lacks
entries (R142). The run ends (R46). -/
def divide (x : Site) (groups : List (Addr × LaneMask)) (s : State) : State :=
  let need := groups.length - 1
  if freeEntries x.train < need then
    checkDeadlock x.uid x.tn (waitFor x (.siding need) s)
  else
    endRun (replaceSplit x (groups.map fun g => readySplit g.1 g.2) s) x.core x.pipe

/-- Lanes enabled and not enabled of the issuing split. -/
def enabledMask (x : Site) : LaneMask := maskOf x.lanes
def restMask (x : Site) : LaneMask := x.split.mask &&& ~~~enabledMask x

/-- As `divide`, with an effect on the train that takes place when the division does (R77, R78). -/
def divideWith (x : Site) (groups : List (Addr × LaneMask)) (f : Train → Train) (s : State) : State :=
  if freeEntries x.train < groups.length - 1 then divide x groups s
  else divide x groups (modIssuer x s f)

/-- A branch of two ways (R141): the enabled lanes go to `target`, the others on; with `h` the
target side goes first. It divides only when both have lanes. `f` is what the branch writes for the
train. -/
def branchTo (x : Site) (target : Addr) (h : Bool) (f : Train → Train) (s : State) : State :=
  if restMask x = 0 then advanceTo x target (modIssuer x s f)
  else
    let taken := (target, enabledMask x)
    let fall := (nextPc x, restMask x)
    divideWith x (if h then [taken, fall] else [fall, taken]) f s

end Sys2Proof.Machine
end

