-- ==== Sys2Proof/Machine/Rows.lean ====
section
/-!
DEFINITION. Scratchpad and accumulator bytes, the format word and the tile word (R185, R186), the rows
of a contraction and their checks (R187 to R190), and the sum (R181, R182, R188, R189).
-/
namespace Sys2Proof.Machine

/-! ## Scratchpad and accumulator bytes (R198, R199, R215) -/

def scrGet (t : Team) (o : Nat) : Byte := defGet 0 t.scr o

def scrPut (t : Team) (o : Nat) (b : Byte) : Team := { t with scr := defPut 0 t.scr o b }

def scrPuts (t : Team) : List (Nat × Byte) → Team
  | [] => t
  | (o, b) :: r => scrPuts (scrPut t o b) r

/-- `n` scratchpad bytes from offset `o`, as a number. -/
def scrRead (t : Team) (o n : Nat) : Nat := leNat ((List.range n).map fun i => scrGet t (o + i))

/-- Word `w` of the accumulator window. -/
def accWord (t : Team) (w : Nat) : Word := defGet 0 t.acc w

def accWordPut (t : Team) (w : Nat) (x : Word) : Team := { t with acc := defPut 0 t.acc w x }

def accGet (t : Team) (o : Nat) : Byte := (accWord t (o / 4)).extractLsb' (8 * (o % 4)) 8

def accPut (t : Team) (o : Nat) (b : Byte) : Team :=
  let k := 8 * (o % 4)
  accWordPut t (o / 4)
    ((accWord t (o / 4) &&& ~~~((0xFF#32) <<< k)) ||| (b.setWidth 32 <<< k))

def accPuts (t : Team) : List (Nat × Byte) → Team
  | [] => t
  | (o, b) :: r => accPuts (accPut t o b) r

/-- Some granule of scratchpad bytes holds an error (R344). -/
def scrErr (s : State) (uid o n : Nat) : Bool :=
  !s.errs.isEmpty && (List.range n).any fun i => s.errs.contains (.scratch uid ((o + i) / 8 * 8))

def accErr (s : State) (uid o n : Nat) : Bool :=
  !s.errs.isEmpty && (List.range n).any fun i => s.errs.contains (.acc uid ((o + i) / 8 * 8))

/-- The range that begins lowest. -/
def lowSpan : List (Nat × Nat) → Option (Nat × Nat)
  | [] => none
  | p :: rest =>
    match lowSpan rest with
    | none => some p
    | some q => if q.1 < p.1 then some q else some p

/-- The lowest failing byte of some ranges, and the length of its range (R337). -/
def firstBad (bad : Nat → Bool) (spans : List (Nat × Nat)) : Option (Nat × Nat) :=
  lowSpan (spans.filterMap fun p =>
    ((List.range p.2).find? fun i => bad (p.1 + i)).map fun i => (p.1 + i, p.2))

/-- The lowest byte of scratchpad ranges that holds an error (R344). -/
def scrBad (s : State) (uid : Nat) (spans : List (Nat × Nat)) : Option (Nat × Nat) :=
  if s.errs.isEmpty then none else firstBad (fun o => scrErr s uid o 1) spans

def accBad (s : State) (uid : Nat) (spans : List (Nat × Nat)) : Option (Nat × Nat) :=
  if s.errs.isEmpty then none else firstBad (fun o => accErr s uid o 1) spans

/-- A write over a whole granule of a team's own store clears its error (R344). -/
def clearLocal (s : State) (uid : Nat) (acc : Bool) (os : List Nat) : State :=
  if s.errs.isEmpty then s
  else
    let whole := os.filter fun o => o % 8 == 0 && (List.range 8).all fun i => os.contains (o + i)
    { s with errs := s.errs.filter fun e =>
        match e with
        | .scratch u o => !(u == uid && !acc && whole.contains o)
        | .acc u o => !(u == uid && acc && whole.contains o)
        | _ => true }

/-! ## The format word (R185) -/

structure CxFmt where
  fa  : Nat
  fb  : Nat
  blk : Nat
  asc : Bool
  bsc : Bool
  az  : Bool
  bz  : Bool
  int : Bool
  gen : Nat
  sp  : Bool
  deriving DecidableEq, Repr

def cxFmtOf (w : Word) : CxFmt :=
  let n := w.toNat
  ⟨bitsOf n 0 4, bitsOf n 4 4, bitsOf n 8 2, bitOf n 10, bitOf n 11, bitOf n 12, bitOf n 13,
   bitsOf n 14 2 == 1, bitsOf n 16 2, bitOf n 18⟩

/-- An integer or offset format (R83). -/
def isIntFmt (f : Nat) : Bool := f == 6 || f == 7 || f == 8 || f == 9 || f == 11

/-- An offset-binary format. -/
def isObFmt (f : Nat) : Bool := f == 8 || f == 9

/-- The checks of R185. The accumulate format is not among the bits that the F64 form must leave 0:
R192's worked word sets it (log entry 20). -/
def fmtOk (f64 : Bool) (w : Word) : Bool :=
  let f := cxFmtOf w
  bitsOf w.toNat 19 13 == 0 && bitsOf w.toNat 14 2 ≤ 1 && f.blk ≤ 2 && f.fa ≤ 11 && f.fb ≤ 11 &&
  (!f.az || isObFmt f.fa) && (!f.bz || isObFmt f.fb) &&
  (!f.int || (isIntFmt f.fa && (f.gen != 0 || isIntFmt f.fb))) &&
  (f.gen == 0 || (f.fb == 0 && !f.bsc && !f.bz)) &&
  (!f64 || !(f.asc || f.bsc || f.az || f.bz || f.gen != 0 || f.sp))

/-! ## The tile word (R186, R199) -/

def tileM (w : Word) : Nat := bitsOf w.toNat 14 8 + 1
def tileN (w : Word) : Nat := bitsOf w.toNat 22 8 + 1
def tileOff (w : Word) : Nat := 256 * bitsOf w.toNat 0 14

/-- R199: the pitch of a row of `n` words. -/
def pitch (n : Nat) : Nat := roundUp (4 * n) 32

/-- A tile word whose reserved bits are 0 and whose shape is at most 192 × 192. -/
def tileOk (w : Word) : Bool := bitsOf w.toNat 30 2 == 0 && tileM w ≤ 192 && tileN w ≤ 192

/-- Bytes of a tile from its offset on. -/
def tileBytes (w : Word) : Nat := tileM w * pitch (tileN w)

/-- The accumulator word of C[i][j]. -/
def tileWord (off n i j : Nat) : Nat := (off + i * pitch n) / 4 + j

/-- R186: the most elements per operand. -/
def elemLimit (cx : Bool) (f : Nat) : Nat :=
  if f = 10 then (if cx then 16 else 192)
  else (if cx then 32 else 768) / elemBits f

/-- The shape against the limits of R186. -/
def shapeOk (cx : Bool) (f : CxFmt) (tile : Word) : Bool :=
  tileOk tile && tileM tile ≤ elemLimit cx f.fa &&
    (f.gen != 0 || tileN tile ≤ elemLimit cx f.fb)

/-- Bytes of a row of `m` elements (R186). -/
def rowBytes (f m : Nat) : Nat := if f = 10 then 2 * ceilDiv m 8 else ceilDiv (m * elemBits f) 8

/-- R181: the block length of a row of `m` elements. -/
def blockLen (blk m : Nat) : Nat := if blk = 0 then m else 16 * blk

/-- R187: side bytes before a bitmap. -/
def sideBytes (sc zp : Bool) (blk m : Nat) : Nat :=
  ((if sc then 1 else 0) + if zp then 1 else 0) * ceilDiv m (blockLen blk m)

/-- R190: which extension fields are used, and the others 0. -/
def cxExtOk (rows : Bool) (f : CxFmt) (x : CxExt) : Bool :=
  let sideA := f.asc || f.az || f.sp
  let sideB := f.bsc || f.bz || f.gen == 2
  (rows || (x.a == 0 && x.as_ == 0)) &&
  ((rows && f.gen == 0) || (x.b == 0 && x.bs == 0)) &&
  (sideA || (x.sa == 0 && x.sas == 0)) && (sideB || (x.sb == 0 && x.sbs == 0)) &&
  (f.gen == 1 || x.goff == 0)

/-! ## Rows (R187) -/

/-- A base register as a scratchpad offset with bits [1:0] read as 0. -/
def rowBase (t : Train) (r : BitVec 4) : Nat := (bGet t r.toNat).toNat / 4 * 4

/-- The descriptor that a train's registers give (R193). -/
def descOf (t : Train) (fmt tile : Word) (x : CxExt) : CxDesc :=
  ⟨fmt, tile, x, rowBase t x.a, rowBase t x.b, rowBase t x.sa, rowBase t x.sb⟩

/-- Offset and length of each row that participant `t` reads from scratchpad: A, B, A side, B side;
length 0 where there is none. -/
def rowSpans (rows : Bool) (d : CxDesc) (t : Nat) : List (Nat × Nat) :=
  let f := cxFmtOf d.fmt
  let m := tileM d.tile
  let n := tileN d.tile
  let sa := sideBytes f.asc f.az f.blk m
  [ (d.a + t * 4 * d.ext.as_.toNat, if rows then rowBytes f.fa m else 0),
    (d.b + t * 4 * d.ext.bs.toNat, if rows && f.gen == 0 then rowBytes f.fb n else 0),
    (d.sa + t * 4 * d.ext.sas.toNat, if f.sp then roundUp sa 4 + 4 else sa),
    (d.sb + t * 4 * d.ext.sbs.toNat,
      if f.gen == 2 then 2 else sideBytes f.bsc f.bz f.blk n) ]

/-- The lowest offset at or beyond `size` that some span reads, with the span's length. -/
def spanFail (size : Nat) : List (Nat × Nat) → Option (Nat × Nat)
  | [] => none
  | (o, n) :: r =>
    let rest := spanFail size r
    if n = 0 || o + n ≤ size then rest
    else match rest with
      | some (o', n') => if o' < max o size then some (o', n') else some (max o size, n)
      | none => some (max o size, n)

/-- R187 and R198: the lowest offset that the participants' rows, or else the tile, put out of
range. -/
def rangeFail (team : Team) (rows : Bool) (d : CxDesc) (ts : List Nat) : Option (Nat × Nat) :=
  match spanFail team.scrSize (ts.flatMap (rowSpans rows d)) with
  | some e => some e
  | none => spanFail team.accSize [(tileOff d.tile, tileBytes d.tile)]

/-- Participant `t`'s rows as they stand, its A and B rows from registers for `cx`. -/
def fetchRow (s : State) (uid : Nat) (team : Team) (regs : Option (Nat × Nat)) (d : CxDesc)
    (t : Nat) : CxRow :=
  let sp := rowSpans regs.isNone d t
  let rd (k : Nat) : Nat :=
    match sp[k]? with
    | some (o, n) => scrRead team o n
    | none => 0
  { t := t
    a := match regs with
      | some (x, _) => x
      | none => rd 0
    b := match regs with
      | some (_, y) => y
      | none => rd 1
    sa := rd 2
    sb := rd 3
    bad := scrBad s uid sp }

/-! ## The sum -/

/-- Val of R181 for element `k` of a row of `m` elements, with the flag of a NaN scale. -/
def rowVal (f blk : Nat) (sc zp int : Bool) (book : Codebooks) (base row side m k : Nat) :
    Num × FlagSet :=
  let L := blockLen blk m
  let q := k / L
  let nsc := if sc then ceilDiv m L else 0
  let w := elemBits f
  let v : Num :=
    if f = 10 then cb2Num book base row k
    else if isFloatFmt f then decodeFloat f (bitsOf row (w * k) w)
    else numOfInt (decodeInt f (bitsOf row (w * k) w)
      (if zp then bitsOf side (8 * (nsc + q)) 8 else 0))
  if sc then
    let c := bitsOf side (8 * q) 8
    if c = 255 then (if int then .fin false 0 0 else .nan false, fInvalid)
    else (scaleNum v ((c : Int) - 127), 0)
  else (v, 0)

/-- The number of the first group of a participant's A or B row, beyond those of any lane (R120). -/
def groupBase (t side : Nat) : Nat := 64 + 64 * (2 * t + side)

/-- The A factor of element `i`, absent where the bitmap skips it (R189). -/
def factorA (f : CxFmt) (book : Codebooks) (m : Nat) (r : CxRow) (i : Nat) :
    Option (Num × FlagSet) :=
  let at_ := roundUp (sideBytes f.asc f.az f.blk m) 4
  if f.sp && !bitOf r.sa (8 * at_ + i / 8) then none
  else some (rowVal f.fa f.blk f.asc f.az f.int book (groupBase r.t 0) r.a r.sa m i)

/-- The B factor of element `j`, generated by R188 where the format says so. -/
def factorB (f : CxFmt) (goff : BitVec 8) (book : Codebooks) (n : Nat) (r : CxRow) (j : Nat) :
    Option (Num × FlagSet) :=
  let one : Num × FlagSet := (.fin false 1 0, 0)
  match f.gen with
  | 0 => some (rowVal f.fb f.blk f.bsc f.bz f.int book (groupBase r.t 1) r.b r.sb n j)
  | 1 => if (j : Int) = (r.t : Int) + goff.toInt then some one else none
  | 2 => if j = r.sb % 2 ^ 16 then some one else none
  | _ => some one

/-- The terms of one element in a block: the two factors and their flags. -/
def blockTerms (f : CxFmt) (goff : BitVec 8) (book : Codebooks) (m n i j : Nat) (rows : List CxRow) :
    List (Num × Num × FlagSet) :=
  rows.filterMap fun r =>
    match factorA f book m r i, factorB f goff book n r j with
    | some (x, fx), some (y, fy) => some (x, y, fx ||| fy)
    | _, _ => none

/-- One element after a block (R182). -/
def accumulate (int : Bool) (c : Word) (ts : List (Num × Num × FlagSet)) : Word × FlagSet :=
  if ts.isEmpty then (c, 0)
  else
    let fl := ts.foldr (fun t acc => t.2.2 ||| acc) (0 : FlagSet)
    let terms := ts.map fun t => mulNum t.1 t.2.1
    if int then
      let e := minExp terms
      let S := sumAt e terms
      let (y, changed) := roundToInt 0 0 (S < 0) S.natAbs e
      let (z, g) := satInt 32 false (c.toInt + y)
      (BitVec.ofInt 32 z, fl ||| flagIf changed fInexact ||| g)
    else
      let (b, g) := fsum (ts.flatMap fun t => [t.1, t.2.1]) terms
      let xs := [decodeFloat 0 c.toNat, decodeFloat 0 b]
      let (z, h) := fsum xs xs
      (BitVec.ofNat 32 z, fl ||| g ||| h)

/-- One output row of a block. -/
def contractRow (f : CxFmt) (goff : BitVec 8) (book : Codebooks) (off m n i : Nat)
    (rows : List CxRow) : Nat → Team × FlagSet → Team × FlagSet
  | 0, st => st
  | j + 1, st =>
    let (team, fl) := contractRow f goff book off m n i rows j st
    let w := tileWord off n i j
    let (c, g) := accumulate f.int (accWord team w) (blockTerms f goff book m n i j rows)
    (accWordPut team w c, fl ||| g)

/-- The blocks that have a participant, rising. -/
def blocksOf (rows : List CxRow) : List Nat := rows.foldr (fun r l => setAdd l (r.t / 8)) []

/-- The rows of a block. -/
def rowsOf (rows : List CxRow) (q : Nat) : List CxRow := rows.filter fun r => r.t / 8 == q

/-- The steps of a contraction from its cursor on: block and output row (R197). -/
def stepsFrom (rows : List CxRow) (m block row : Nat) : List (Nat × Nat) :=
  ((blocksOf rows).flatMap fun q => (List.range m).map fun i => (q, i)).filter fun (q, i) =>
    block < q || (block == q && row ≤ i)

/-- What stops a contraction at a step: an error in a row of its block, or in the tile's row, with
the reason code of R338. -/
def stepError (s : State) (uid off n : Nat) (rows : List CxRow) (q i : Nat) :
    Option (Nat × Nat × Nat) :=
  match lowSpan ((rowsOf rows q).filterMap (·.bad)) with
  | some (o, len) => some (4, o, len)
  | none => (accBad s uid [(off + i * pitch n, 4 * n)]).map fun p => (5, p.1, p.2)

/-- Steps of a contraction, until they are done or one meets an error: the team, the flags, and the
error with the cursor at it. -/
def runSteps (s : State) (uid : Nat) (f : CxFmt) (goff : BitVec 8) (book : Codebooks) (off m n : Nat)
    (rows : List CxRow) : List (Nat × Nat) → Team × FlagSet →
    (Team × FlagSet) × Option (Nat × Nat × Nat)
  | [], st => (st, none)
  | (q, i) :: rest, st =>
    match stepError s uid off n rows q i with
    | some e => (st, some e)
    | none =>
      runSteps s uid f goff book off m n rows rest
        (contractRow f goff book off m n i (rowsOf rows q) n st)

/-- R196: MACs per core cycle of a format. -/
def cxRate (f : Nat) : Nat :=
  if f = 0 then 2048 else if f = 1 || f = 2 then 8192
  else if f = 5 || f = 9 || f = 11 then 65536 else 32768

/-- R196: the duration that the default schedule uses. -/
def cxCycles (f : CxFmt) (m n : Nat) (rows : List CxRow) : Nat :=
  let rate := if f.gen = 0 then min (cxRate f.fa) (cxRate f.fb) else cxRate f.fa
  let at_ := roundUp (sideBytes f.asc f.az f.blk m) 4
  2 + ((blocksOf rows).map fun q =>
    let m' := if f.sp then
        ((List.range m).filter fun i =>
          (rowsOf rows q).any fun r => bitOf r.sa (8 * at_ + i / 8)).length
      else m
    max 1 (ceilDiv (8 * m' * n) rate)).sum

end Sys2Proof.Machine
end

