-- ==== Sys2Proof/Machine/Rendezvous.lean ====
section
/-!
DEFINITION. Rendezvous points (R152 to R154, R175, R193, R195): arrivals, completion, the firing of a
team contraction; register claims (R150, R151); deferred traps (R333); the end of a train.
-/
namespace Sys2Proof.Machine

/-! ## Points -/

def rvInit : Rv := ⟨0, 0, 0, 0, 0, 0, none, [], none, []⟩

def rvOf (t : Team) (n : Nat) : Rv := (mapGet t.rvs n).getD rvInit

def modRv (s : State) (uid n : Nat) (f : Rv → Rv) : State :=
  modTeam s uid fun t => { t with rvs := mapPut t.rvs n (f (rvOf t n)) }

/-- The bit of a train number. -/
def trainBit (t : Nat) : LaneMask := BitVec.ofNat 64 (2 ^ t % 2 ^ 64)

def popCount (m : LaneMask) : Nat := (lanesOf m).length

/-- A phase completes (R153): counts clear, a new phase begins, members that ended after arriving
leave (R154). -/
def completePhase (r : Rv) : Rv :=
  { r with
    expected := r.expected - popCount r.leaving
    members := r.members &&& ~~~r.leaving
    leaving := 0
    arrivals := 0
    arrived := 0
    phase := r.phase + 1
    desc := none
    part := []
    firing := none }

/-! ## Jobs -/

/-- A job of so many cycles that has changed nothing yet. -/
def newJob (train rv : Option Nat) (kind : JobKind) (now cycles : Nat) : Job :=
  ⟨train, rv, kind, 0, 0, 0, now, cycles⟩

/-- Give a team's unit a job. -/
def addJob (s : State) (uid : Nat) (j : Job) : State :=
  modTeam { s with nextId := s.nextId + 1 } uid fun t => { t with jobs := mapPut t.jobs s.nextId j }

/-- The contraction of participants `ts` (R182), with its rows as they stand and the tables it may see. -/
def contractJob (s : State) (uid : Nat) (train rv : Option Nat) (d : CxDesc) (rows : List CxRow) :
    State :=
  match teamOf s uid with
  | none => s
  | some team =>
    let f := cxFmtOf d.fmt
    addJob s uid (newJob train rv
      (.contract d.fmt d.tile d.ext.goff (ctxBook s team.ctx) rows)
      s.now (cxCycles f (tileM d.tile) (tileN d.tile) rows))

/-- The phase fires (R193). -/
def fire (s : State) (uid n : Nat) (d : CxDesc) : State :=
  match teamOf s uid with
  | none => s
  | some team =>
    let rows := (rvOf team n).part.map (fetchRow s uid team none d)
    modRv (contractJob s uid none (some n) d rows) uid n fun r => { r with firing := some s.nextId }

/-- The phase completes or fires when the count is reached (R153, R193). -/
def checkPhase (s : State) (uid n : Nat) : State :=
  match teamOf s uid with
  | none => s
  | some team =>
    let r := rvOf team n
    if r.firing.isSome || r.arrivals != r.expected then s
    else match r.desc with
      | some d => fire s uid n d
      | none => modRv s uid n completePhase

/-- One arrival at a point that is not firing: of a train, or of a copy (R153). -/
def arriveNow (s : State) (uid n : Nat) (who : Option Nat) : State :=
  match teamOf s uid with
  | none => s
  | some team =>
    if (rvOf team n).expected = 0 then s
    else
      let s := modRv s uid n fun r =>
        { r with
          arrivals := r.arrivals + 1
          arrived := match who with
            | some t => r.arrived ||| (trainBit t &&& r.members)
            | none => r.arrived }
      checkPhase s uid n

/-- Insert the members of a list. -/
def setUnion (l : List Nat) : List Nat → List Nat
  | [] => l
  | x :: t => setUnion (setAdd l x) t

/-- A `cxt` arrival at a point that is not firing (R193), or what its range check finds. -/
def cxtNow (s : State) (uid n train : Nat) (lanes : List Nat) (d : CxDesc) :
    Except (Nat × Nat) State :=
  match teamOf s uid with
  | none => .ok s
  | some team =>
    let r := rvOf team n
    let d := if r.expected = 0 then d else r.desc.getD d
    match rangeFail team true d lanes with
    | some e => .error e
    | none =>
      if r.expected = 0 then
        .ok (contractJob s uid none none d (lanes.map (fetchRow s uid team none d)))
      else
        .ok (arriveNow (modRv s uid n fun r =>
          { r with desc := some d, part := setUnion r.part lanes }) uid n (some train))

/-! ## Deferred traps (R333) -/

/-- The trains of a team that have not ended. -/
def liveTrains (t : Team) : List (Nat × Train) := t.trains.filter fun x => !x.2.ended

/-- The record of a deferred trap, for a train and the resume address of the split that takes it, whose
lanes it names where the access has none of its own. -/
def deferredRec (s : State) (uid tn : Nat) (d : Deferred) (pc : Addr) (lanes done : LaneMask) : Rec :=
  trainRec s uid tn d.code d.reason d.source d.detail pc d.addr d.length
    (if d.lanes = 0 then lanes else d.lanes) done d.atomic d.write d.unit

/-- A deferred trap arrives for a train: it waits for its boundary; when the train has ended it goes
to the lowest-numbered train of the team, and when the team has ended only the record is written. -/
def addDeferred (s : State) (uid tn : Nat) (d : Deferred) : State :=
  match teamOf s uid with
  | none => s
  | some team =>
    let live := liveTrains team
    let goal := if live.any (·.1 == tn) then some tn else (live.head?).map (·.1)
    match goal with
    | some t => modTrain s uid t fun x => { x with defer := x.defer ++ [d] }
    | none => reportHeld s team.ctx (deferredRec s uid tn d 0 0 0)

def addDeferredAll (s : State) (uid : Nat) (d : Deferred) : List Nat → State
  | [] => s
  | t :: r => addDeferredAll (addDeferred s uid t d) uid d r

/-- A deferred trap of an engine or the array, with the offset or address and length it names. -/
def mkDeferred (code reason source : Nat) (addr : Addr) (length unit : Nat) : Deferred where
  code := code
  reason := reason
  detail := 0
  source := source
  atomic := false
  write := false
  addr := addr
  length := length
  lanes := 0
  unit := unit

/-! ## Names of waits -/

/-- What becomes of an instruction that waits under the name `k`: what it has done, and its wait. -/
def settle (t : Train) (k : Nat) (r : Resume) (w : Option Wait) : Train :=
  { t with
    siding := t.siding.map fun p =>
      if p.resume = .tok k then
        { p with
          resume := r
          st := match w, p.st with
            | some w, .waiting _ => .waiting w
            | _, st => st }
      else p
    handler := t.handler.map fun h => if h.resume = .tok k then { h with resume := r } else h }

/-! ## Held arrivals -/

/-- A held operation is the given train's. -/
def heldOf (tn : Nat) : Held → Bool
  | .arrive t => t == tn
  | .arrwait t _ => t == tn
  | .cxt t _ _ => t == tn
  | .ends t => t == tn
  | .copy _ => false

/-- The points at which operations of a train are held. -/
def heldPoints (t : Team) (tn : Nat) : List Nat :=
  mapKeys (t.rvs.filter fun r => r.2.held.any (heldOf tn))

/-- Keep an arrival at a firing point (R193). -/
def holdAt (s : State) (uid n : Nat) (h : Held) : State :=
  modRv s uid n fun r => { r with held := r.held ++ [h] }

/-- A member train ends, as one point takes it (R154). The spec does not say what an expected count of 0 falls to:
it stays 0 (log entry 133). -/
def memberEnds (s : State) (uid tn n : Nat) : State :=
  match teamOf s uid with
  | none => s
  | some team =>
    let r := rvOf team n
    if r.members &&& trainBit tn = 0 then s
    else if r.arrived &&& trainBit tn = 0 then
      checkPhase (modRv s uid n fun r =>
        { r with
          expected := r.expected - 1
          members := r.members &&& ~~~trainBit tn }) uid n
    else modRv s uid n fun r => { r with leaving := r.leaving ||| trainBit tn }

/-- An arrival reaches its point in its turn: held while the point fires. -/
def arriveTurn (s : State) (uid n : Nat) (h : Held) : State :=
  match teamOf s uid with
  | none => s
  | some team =>
    if (rvOf team n).firing.isSome then holdAt s uid n h
    else match h with
      | .arrive t => arriveNow s uid n (some t)
      | .arrwait t k =>
        let ph := (rvOf team n).phase
        let s := modTrain s uid t fun x => settle x k (.phase n ph) (some (.phase n ph))
        arriveNow s uid n (some t)
      | .copy c =>
        arriveNow (modTeam s uid fun t => { t with copies := mapDel t.copies c }) uid n none
      | .cxt t lanes d =>
        match cxtNow s uid n t lanes d with
        | .ok s => s
        | .error (o, len) =>
          addDeferred s uid t (mkDeferred 7 0 0 (BitVec.ofNat 80 o) len 0)
      | .ends t => memberEnds s uid t n

def arriveTurns (s : State) (uid n : Nat) : List Held → State
  | [] => s
  | h :: t => arriveTurns (arriveTurn s uid n h) uid n t

/-- The firing phase completes, and the held arrivals are performed in their order (R193). -/
def fireDone (s : State) (uid n : Nat) : State :=
  match teamOf s uid with
  | none => s
  | some team =>
    let held := (rvOf team n).held
    arriveTurns (modRv s uid n fun r => { completePhase r with held := [] }) uid n held

/-- A train ends at each of its team's points, after its own held arrivals there (R154, R175). -/
def leavePoints (s : State) (uid tn : Nat) : List Nat → State
  | [] => s
  | n :: rest =>
    let late := match teamOf s uid with
      | some team => (heldPoints team tn).contains n
      | none => false
    leavePoints (if late then holdAt s uid n (.ends tn) else memberEnds s uid tn n) uid tn rest

/-! ## Register claims (R150, R151) -/

/-- Grant waiting claims in arrival order, skipping those larger than the pool. The spec does not say what becomes
of the claim of an `rtake` that is not executed again: it stays, and is granted to its train (log entry 136). -/
def grantClaims (t : Team) : List Claim → Team
  | [] => { t with claims := [] }
  | c :: rest =>
    if c.blocks ≤ t.pool then
      grantClaims
        { t with
          pool := t.pool - c.blocks
          trains := mapMod t.trains c.train fun x =>
            settle { x with budget := x.budget + c.add, role := c.role.getD x.role } c.tok .granted
              none } rest
    else
      let t := grantClaims t rest
      { t with claims := c :: t.claims }

/-- The pool has grown, or a claim has arrived. -/
def claimsTurn (s : State) (uid : Nat) : State := modTeam s uid fun t => grantClaims t t.claims

/-- A split waits in `rtake`: its claim has not been granted. -/
def inClaim (p : Split) : Bool :=
  p.st == .waiting .claim && match p.resume with
    | .tok _ => true
    | _ => false

/-- TAKE_DEADLOCK (R151): every train that has not ended waits in `rtake`, and no claim fits. A train waits in
`rtake` where each of its splits does that no handler holds (DESIGN CHOICE, log entry 42). -/
def takeDeadlock (t : Team) : Bool :=
  !t.claims.isEmpty && (t.claims.all fun c => t.pool < c.blocks) &&
  (liveTrains t).all fun x =>
    !x.2.trapped && x.2.pend.isNone && !(ownSplits x.2.siding).isEmpty &&
      (ownSplits x.2.siding).all inClaim

/-- Each claimant traps, once, at the first of its splits that waits in `rtake`. -/
def trapClaimants (s : State) (uid : Nat) : List (Nat × Train) → State
  | [] => s
  | (tn, t) :: rest =>
    let idx := (t.siding.findIdx? fun p => !p.held && inClaim p).getD 0
    let p := (t.siding[idx]?).getD (readySplit 0 0)
    let s := takeTrap s uid tn idx 12
      [trainRec s uid tn 12 0 0 0 p.pc 0 0 p.mask t.done false false 0]
    trapClaimants s uid rest

/-- Check for TAKE_DEADLOCK. The claims are dropped; their instructions claim anew when they are
executed again. -/
def checkTake (s : State) (uid : Nat) : State :=
  match teamOf s uid with
  | none => s
  | some t =>
    if takeDeadlock t then
      let live := liveTrains t
      let s := modTeam s uid fun t =>
        { t with
          claims := []
          trains := t.claims.foldl (fun ts c => mapMod ts c.train fun x => settle x c.tok .none none)
            t.trains }
      trapClaimants s uid live
    else s

/-! ## Streams and the merge tree at the end of a train (R307, R319, R326) -/

/-- Write a stream's save word. A fault there after `sdef` leaves it unwritten (log entry 21). -/
def saveWord (s : State) (ctx : Nat) (q : Stream) (state : Nat) : State :=
  match devStore s ctx q.save.toNat (natLe 8 (state * 2 ^ 32 + q.fetched % 2 ^ 32)) with
  | .ok s => s
  | .error _ => walkTouch s ctx q.save.toNat 8

/-- The save word of a stream lies in a line that a copy owns: its write waits (R245). -/
def saveHeld (s : State) (ctx : Nat) (q : Stream) : Bool := devHeld s ctx .write q.save.toNat 8

/-- `sfree` of stream `n` of a train (R322). -/
def freeStream (s : State) (uid tn n : Nat) : State :=
  match teamOf s uid, trainOf s uid tn with
  | some team, some t =>
    match mapGet t.streams n with
    | none => s
    | some q =>
      let s := saveWord s team.ctx q 4
      modTrain s uid tn fun t => { t with streams := mapDel t.streams n }
  | _, _ => s

def freeStreams (s : State) (uid tn : Nat) : List Nat → State
  | [] => s
  | n :: rest => freeStreams (freeStream s uid tn n) uid tn rest

/-- The merge tree's state where the train owns it: on its core, or kept by a vacated train. -/
def mergeOf (s : State) (uid tn : Nat) : Option Merge :=
  match teamOf s uid with
  | none => none
  | some team =>
    match team.loc with
    | .core c =>
      match (coreOf s c).merge with
      | some m => if m.uid = uid && m.train = tn then some m else none
      | none => none
    | _ => (mapGet team.trains tn).bind (·.merge)

/-- `mfree` (R326): release the tree where this train owns it. -/
def freeMerge (s : State) (uid tn : Nat) : State :=
  match mergeOf s uid tn, teamOf s uid with
  | some _, some team =>
    match team.loc with
    | .core c => modCore s c fun c => { c with merge := none }
    | _ => modTrain s uid tn fun t => { t with merge := none }
  | _, _ => s

/-! ## The end of a train (R79, R125, R127, R144, R151, R154, R307) -/

/-- A train that waits at a `fuse` for one that has ended completes with PARTNER_ABSENT (R146). -/
def partnerAbsent (t : Train) : Train :=
  { t with siding := t.siding.map fun p =>
      if p.st == .waiting .partner then { p with st := .ready, resume := .unitDone 6 } else p }

/-- A train ends: its run, its streams and merge, its memberships. It leaves its pipe. -/
def endTrain (s : State) (uid tn : Nat) : State :=
  match teamOf s uid, trainOf s uid tn with
  | some team, some t =>
    let s := endRunOf s uid tn
    let s := freeMerge (freeStreams s uid tn (mapKeys t.streams)) uid tn
    let s := modTrain s uid tn fun t => { t with ended := true, siding := [], defer := [] }
    let s := match t.defer with
      | [] => s
      | ds => ds.foldl (fun s d => addDeferred s uid tn d) s
    let s := modTrain s uid (tn ^^^ 1) partnerAbsent
    checkTake (leavePoints s uid tn (mapKeys team.rvs)) uid
  | _, _ => s

/-- The lanes of a handler have all exited: the train leaves it, and its held splits go on (R79, R331; log
entry 41). -/
def leaveHandler (t : Train) : Train :=
  if t.handler.isSome && (ownSplits t.siding).isEmpty then
    { t with handler := none, siding := t.siding.map fun p => { p with held := false } }
  else t

/-- The lanes of a mask exit (R79); a train whose active lanes have all exited ends. The splits that are
left may all wait (R145, R151). -/
def lanesExit (s : State) (uid tn : Nat) (m : LaneMask) : State :=
  let s := modTrain s uid tn fun t => leaveHandler (exitLanes t m)
  match trainOf s uid tn with
  | none => s
  | some t =>
    if t.active = 0 then endTrain s uid tn else checkTake (checkDeadlock uid tn s) uid

/-! ## Waits of accumulator-class work (R201, R183) -/

/-- Bytes that a job still reads or writes: whether in the accumulator, lowest offset, length. -/
def footprint (k : JobKind) : List (Bool × Nat × Nat) :=
  let tile (w : Word) (off : Nat) : List (Bool × Nat × Nat) :=
    (List.range (tileM w)).map fun i => (true, off + i * pitch (tileN w), 4 * tileN w)
  let rows (c t : Word) (x : PkExt) (sd dt : Nat) : List (Bool × Nat × Nat) :=
    let n := tileN t
    (List.range (tileM t)).flatMap fun i =>
      [(false, dt + i * 4 * x.ds.toNat, rowBytes (bitsOf c.toNat 0 4) n),
       (false, sd + i * 4 * x.ss.toNat,
        sideBytes (bitOf c.toNat 8) (bitOf c.toNat 7) (bitsOf c.toNat 4 2) n)]
  match k with
  | .contract _ t _ _ _ => tile t (tileOff t)
  | .write ws => ws.map fun w => (true, w.1, 1)
  | .store ws => ws.map fun w => (true, w.1, 1)
  | .clear t => tile t (tileOff t)
  | .move t o => tile t (tileOff t) ++ tile t o
  | .pack c t x sd dt => tile t (tileOff t) ++ rows c t x sd dt
  | .unpack c t x sd dt => tile t (tileOff t) ++ rows c t x sd dt

/-- Two byte ranges of one store meet. -/
def spansMeet (x y : Bool × Nat × Nat) : Bool :=
  x.1 == y.1 && 0 < x.2.2 && 0 < y.2.2 && x.2.1 < y.2.1 + y.2.2 && y.2.1 < x.2.1 + x.2.2

def anyMeet (a b : List (Bool × Nat × Nat)) : Bool := a.any fun x => b.any (spansMeet x)

/-- A job of the train uses one of the bytes (R201). -/
def jobBlocks (team : Team) (tn : Nat) (spans : List (Bool × Nat × Nat)) : Bool :=
  team.jobs.any fun j => j.2.train == some tn && anyMeet (footprint j.2.kind) spans

/-- A store of the train to one of the bytes of its own team has not passed the port: what it does to them
comes first (R22, R200). -/
def storesMeet (uid : Nat) (t : Train) (spans : List (Bool × Nat × Nat)) : Bool :=
  t.sq.any fun e => e.ops.any fun o => match o.place with
    | .acc _ => anyMeet [(true, headLane o.addrs, o.addrs.length)] spans
    | .scr u => u == uid && anyMeet [(false, headLane o.addrs, o.addrs.length)] spans
    | _ => false

/-- A store of the train to its team's own scratchpad has not passed the port. -/
def scrStores (uid : Nat) (t : Train) : Bool :=
  t.sq.any fun e => e.ops.any fun o => o.place == .scr uid

/-- The wait of `arrive`, `arrwait`, `cxt` and `exit` (R201): the train's scratchpad stores, and its
jobs. A store to a sibling's scratchpad counts too. -/
def arrivalReady (s : State) (uid tn : Nat) (team : Team) (t : Train) : Bool :=
  (t.sq.all fun e => e.ops.all fun o => match o.place with
    | .scr _ => false
    | _ => true) &&
  (s.net.all fun r => !(r.2.uid == uid && r.2.trains.contains tn &&
    match r.2.place with
    | .scr _ => true
    | _ => false)) &&
  team.jobs.all fun j => j.2.train != some tn

/-- Team lane numbers of a train meet a list. -/
def holdsLane (t : Train) (ls : List Nat) : Bool := t.lanes.any ls.contains

/-- Whether a job's flags go to the train (R183). -/
def flagsTo (t : Train) (tn : Nat) (j : Job) : Bool :=
  match j.train with
  | some k => k == tn
  | none =>
    match j.kind with
    | .contract _ _ _ _ rows => holdsLane t (rows.map (·.t))
    | _ => false

/-- `rds` and `wrs` of `%flags` need not wait (R19, R183): no producer of the train is outstanding, no
job of it, and no contraction that it has joined. -/
def flagsReady (team : Team) (tn : Nat) (t : Train) : Bool :=
  t.prods.isEmpty && (team.jobs.all fun j => !flagsTo t tn j.2) &&
  team.rvs.all fun r => !holdsLane t r.2.part &&
    r.2.held.all fun h => match h with
      | .cxt k _ _ => k != tn
      | _ => true

end Sys2Proof.Machine
end

