-- ==== Sys2Proof/Machine/Control.lean ====
section
/-!
DEFINITION. Control instructions (R48, R73 to R82, R334): opcodes 0x00 to 0x0D.
-/
namespace Sys2Proof.Machine

/-- R48. -/
def execNop (a : Args) (s : State) : Host.Outcome State Fault Refusal :=
  issue (.nop a) a s advance

/-- R80: SYS, with the code in the record's detail. -/
def execTrap (a : Args) (code : Word) (s : State) : Host.Outcome State Fault Refusal :=
  issue (.trap a code) a s fun x => trapAt x 16 0 code

/-- R79 and R201: the waits, then each enabled lane exits. -/
def execExit (a : Args) (s : State) : Host.Outcome State Fault Refusal :=
  issue (.exit a) a s fun x s =>
    if !x.train.prods.isEmpty then waitFor x .drain s
    else if !arrivalReady s x.uid x.tn x.team x.train then waitFor x .arrival s
    else lanesExit (advanceEnd x s) x.uid x.tn (enabledMask x)

/-- R75: PC + 4 × offset. -/
def targetOf (x : Site) (off : Word) : Addr := x.pc + off.signExtend 80 * 4

/-- An address with bits [1:0] as 0. -/
def align4 (a : Addr) : Addr := a &&& ~~~3

/-- R76. -/
def execBr (a : Args) (h : Bool) (off : Word) (s : State) : Host.Outcome State Fault Refusal :=
  issue (.br a h off) a s fun x => branchTo x (targetOf x off) h id

/-- The lanes of a list by the address each goes to, in the order of their lowest lanes. -/
def targetGroups : List (Nat × Addr) → List (Addr × LaneMask)
  | [] => []
  | (l, t) :: rest =>
    let gs := targetGroups rest
    let mine := (gs.filter fun g => g.1 == t).foldr (fun g m => g.2 ||| m) (maskOf [l])
    (t, mine) :: gs.filter fun g => g.1 != t

/-- R76 and R141: one split per target. -/
def execBri (a : Args) (h : Bool) (s : State) : Host.Outcome State Fault Refusal :=
  issue (.bri a h) a s fun x s =>
    let t := x.train
    let base := BitVec.ofNat 80 (srcNat t a.s1 1 0)
    let groups := targetGroups (x.lanes.map fun l =>
      (l, align4 (effAddr base (srcNat t a.s2 1 l) false 0)))
    let rest := restMask x
    match groups, rest == 0 with
    | [g], true => advanceTo x g.1 s
    | gs, true => divide x gs s
    | gs, false =>
      if h then divide x (gs ++ [(nextPc x, rest)]) s else divide x ((nextPc x, rest) :: gs) s

/-- The base register that an operand names. -/
def baseNum : Opnd → Nat
  | .b r => r.toNat
  | _ => 0

/-- R77: the link is written once for the train. -/
def execCall (a : Args) (off : Word) (s : State) : Host.Outcome State Fault Refusal :=
  issue (.call a off) a s fun x =>
    branchTo x (targetOf x off) false fun t => bPut t (baseNum a.dst) (nextPc x)

/-- R77: Bt is read before Bl is written. -/
def execCalli (a : Args) (s : State) : Host.Outcome State Fault Refusal :=
  issue (.calli a) a s fun x =>
    branchTo x (align4 (bGet x.train (baseNum a.s1))) false fun t =>
      bPut t (baseNum a.dst) (nextPc x)

/-- R77. -/
def execRet (a : Args) (s : State) : Host.Outcome State Fault Refusal :=
  issue (.ret a) a s fun x => branchTo x (align4 (bGet x.train (baseNum a.s1))) false id

/-- R78: the counter is written once for the train; with a counter of 0 every lane goes on after it, and
the split does not divide even where some of its lanes are not enabled (DESIGN CHOICE, log entry 30). -/
def execLoop (a : Args) (h : Bool) (off : Word) (s : State) : Host.Outcome State Fault Refusal :=
  issue (.loop a h off) a s fun x s =>
    let r := match a.dst with
      | .k r => r.toNat
      | _ => 0
    let k := kGet x.train r - 1
    let f (t : Train) : Train := kPut t r k
    if k = 0 then advance x (modIssuer x s f) else branchTo x (targetOf x off) h f s

/-! ## Special registers (R17, R73, R74) -/

/-- The cycles since a core left reset (R4, R17, R21, R139). -/
def cyclesOf (s : State) (core : Nat) : Nat :=
  Config.resetLead s.boot.from_ core + (s.now - s.boot.from_)

/-- The value of a special register in a lane. -/
def sregVal (s : State) (x : Site) (i l : Nat) : Nat :=
  let t := x.train
  match i with
  | 0 => l
  | 1 => (t.home[l]?).getD 0
  | 2 => t.width
  | 3 => x.tn
  | 4 => x.team.team.toNat
  | 5 => clusterOf x.core
  | 6 => x.team.grid.toNat
  | 7 => x.team.lanes
  | 8 => t.role
  | 9 => t.done.toNat
  | 10 => t.flags.toNat
  | 11 => t.memctl.toNat
  | 12 => x.team.stash.toNat
  | 13 => cyclesOf s x.core % 2 ^ 64
  | 14 => x.team.ctx
  | 15 => t.trap.toNat
  | 16 => t.fault.toNat
  | 17 => x.team.arg.toNat
  | _ => 0

/-- The index of a special register operand. -/
def sregNum : Opnd → Nat
  | .sreg i => i.toNat
  | _ => 63

/-- R73, R74; `%flags` waits by R19. -/
def execRds (a : Args) (d : Bool) (s : State) : Host.Outcome State Fault Refusal :=
  issue (.rds a d) a s fun x s =>
    let i := sregNum a.s1
    if i = 10 && !flagsReady x.team x.tn x.train then waitFor x .flags s
    else aluWrite (.rds a d) a (fun l _ _ _ => (sregVal s x i l, 0)) x s

/-- R20, R42: no field of the word holds a reserved code. -/
def memctlOk (v : Nat) : Bool :=
  bitsOf v 0 3 ≤ 5 && bitsOf v 3 3 ≤ 6 && bitsOf v 6 3 ≤ 5 && bitsOf v 9 4 ≤ 6

/-- Write a train's own special register. -/
def sregPut (i v : Nat) (t : Train) : Train :=
  match i with
  | 9 => { t with done := BitVec.ofNat 64 v }
  | 10 => { t with flags := BitVec.ofNat 6 v }
  | 11 => { t with memctl := BitVec.ofNat 13 v }
  | 15 => { t with trap := BitVec.ofNat 32 v }
  | 16 => { t with fault := BitVec.ofNat 80 v }
  | _ => t

/-- R73, R74; a reserved code of `%memctl` raises ILLEGAL_INSTRUCTION (R20); `%stash` is the team's. -/
def execWrs (a : Args) (d : Bool) (s : State) : Host.Outcome State Fault Refusal :=
  issue (.wrs a d) a s fun x s =>
    let i := sregNum a.dst
    let v := srcNat x.train a.s1 (if d then 2 else 1) (headLane x.lanes)
    if i = 10 && !flagsReady x.team x.tn x.train then waitFor x .flags s
    else if i = 11 && !memctlOk v then trapIllegal x s
    else if i = 12 then
      advance x (modTeam s x.uid fun t => { t with stash := BitVec.ofNat 80 v })
    else advance x (modIssuer x s (sregPut i v))

/-- R81: the train counts as ready from the next cycle. -/
def execYield (a : Args) (s : State) : Host.Outcome State Fault Refusal :=
  issue (.yield a) a s fun x s =>
    modTrain (advanceEnd x s) x.uid x.tn fun t => { t with since := s.now + 1 }

/-- R82. -/
def execSleep (a : Args) (s : State) : Host.Outcome State Fault Refusal :=
  issue (.sleep a) a s fun x s =>
    if x.split.resume = .slept then advance x s
    else waitFor x (.sleep (s.now + srcNat x.train a.s1 1 0)) s

/-! ## Leaving a handler (R334) -/

/-- Stores, atomics and requests of a train that have not been performed. -/
def ownStores (s : State) (uid tn : Nat) (t : Train) : Bool :=
  !t.sq.isEmpty || s.net.any fun r => r.2.uid == uid && r.2.trains.contains tn

/-- The number of instructions that the run of the issuing pipe has issued. -/
def runCount (s : State) (x : Site) : Nat :=
  match (pipeOf (coreOf s x.core) x.pipe).run with
  | some r => r.count
  | none => 0

/-- The run goes on in the split at place `n` of the Siding. -/
def runAt (s : State) (x : Site) (n : Nat) : State :=
  let p := pipeOf (coreOf s x.core) x.pipe
  setPipe s x.core x.pipe { p with run := p.run.map fun r => { r with idx := n } }

/-- `rte` always begins a run; it waits for the train's producers and stores; a fault on what it
reads is a trap in a handler. -/
def rteBody (next : Bool) (x : Site) (s : State) : State :=
  if x.train.handler.isNone then trapIllegal x s
  else if !x.train.prods.isEmpty then waitFor x .drain s
  else if ownStores s x.uid x.tn x.train || runCount s x ≠ 0 then
    waitFor x (.fence false true true true []) s
  else match rteFrom s x.uid x.tn next with
    | .error (s, e) =>
      trapHere x e.cause.1
        [siteRec x e.cause.1 e.cause.2 0 e.addr (if e.fetch then 8 else 64) x.split.mask x.train.done
          false false e.fetch 0] s
    | .ok s => countIssue x (runAt s x (x.train.siding.takeWhile (·.held)).length)

/-- R334. -/
def execRte (a : Args) (s : State) : Host.Outcome State Fault Refusal :=
  issue (.rte a) a s (rteBody false)

/-- R334. -/
def execRteNext (a : Args) (s : State) : Host.Outcome State Fault Refusal :=
  issue (.rteNext a) a s (rteBody true)

end Sys2Proof.Machine
end

