-- ==== Sys2Proof/Machine/Parallel.lean ====
section
/-!
DEFINITION. Parallel instructions (R159 to R178): opcodes 0x60 to 0x74, but for `glaunch` and
`tlaunch`.
-/
namespace Sys2Proof.Machine

/-! ## Join masks (R162 to R165) -/

/-- The run goes on in the split of the given lanes, wherever the Siding now holds it. -/
def runInSplit (s : State) (x : Site) (m : LaneMask) : State :=
  match trainOf s x.uid x.tn with
  | none => s
  | some t =>
    match t.siding.findIdx? fun p => p.mask == m with
    | some n => runAt s x n
    | none => s

/-- R164, R143: the arriving lanes wait at the `join`, the others continue. A `join` that would divide with a
full Siding waits even where its arrival would complete the join (DESIGN CHOICE, log entry 128). -/
def execJoin (a : Args) (n : BitVec 3) (s : State) : Host.Outcome State Fault Refusal :=
  issue (.join a n) a s fun x s =>
    let arr := enabledMask x &&& jGet x.train n.toNat
    let cont := x.split.mask &&& ~~~arr
    let here : Split := ⟨x.pc, arr, .atJoin n, false, .none, false⟩
    if arr = 0 then advance x s
    else if cont ≠ 0 && freeEntries x.train = 0 then
      checkDeadlock x.uid x.tn (waitFor x (.siding 1) s)
    else
      let ps := if cont = 0 then [here] else [here, readySplit (nextPc x) cont]
      let s := endRun (replaceSplit x ps s) x.core x.pipe
      checkDeadlock x.uid x.tn (modIssuer x s fun t => tryJoin t n)

/-- The addresses of joins on jN at which a lane outside `v` waits. -/
def leavingAt (n : BitVec 3) (v : LaneMask) : List Split → List Addr
  | [] => []
  | p :: rest =>
    let l := leavingAt n v rest
    if atJoinOn n p && !within p.mask v && !l.contains p.pc then p.pc :: l else l

/-- Waiting lanes outside `v` leave the joins on jN: the lanes that leave one `join` form one split
after the first of its splits that they leave (R163), held where that one is (R331). -/
def leaveJoins (n : BitVec 3) (v : LaneMask) : List Addr → List Split → List Split
  | _, [] => []
  | seen, p :: rest =>
    if atJoinOn n p && !within p.mask v then
      let keep : List Split := if p.mask &&& v = 0 then [] else [{ p with mask := p.mask &&& v }]
      if seen.contains p.pc then keep ++ leaveJoins n v seen rest
      else
        let same := rest.filter fun q => atJoinOn n q && q.pc == p.pc
        let out := (p.mask ||| lanesUnion same) &&& ~~~v
        keep ++ [{ readySplit (p.pc + 8) out with held := p.held }] ++ leaveJoins n v (p.pc :: seen) rest
    else p :: leaveJoins n v seen rest

/-- The new value of jN (R163). -/
def jsetValue (x : Site) (a : Args) (op n p : BitVec 3) : LaneMask :=
  let t := x.train
  let X : LaneMask := BitVec.ofNat 64 (srcNat t a.s1 2 0)
  let j := jGet t n.toNat
  let v : LaneMask := match op.toNat with
    | 0 => X
    | 1 => j ||| X
    | 2 => j &&& ~~~X
    | 3 => x.split.mask
    | 4 => maskOf (x.lanes.filter fun l => pGet t p.toNat l)
    | _ => maskOf (x.lanes.filter fun l => !pGet t p.toNat l)
  v &&& lowMask t.width &&& t.active

/-- R163. -/
def execJset (a : Args) (op n p : BitVec 3) (s : State) : Host.Outcome State Fault Refusal :=
  issue (.jset a op n p) a s fun x s =>
    let v := jsetValue x a op n p
    let need := (leavingAt n v x.train.siding).length
    if freeEntries x.train < need then checkDeadlock x.uid x.tn (waitFor x (.siding need) s)
    else
      let s := modIssuer x (advance x s) fun t =>
        let t := jPut t n.toNat v
        tryJoin { t with siding := leaveJoins n v [] t.siding } n
      runInSplit s x x.split.mask

/-- R165. -/
def execJget (a : Args) (n : BitVec 3) (s : State) : Host.Outcome State Fault Refusal :=
  issue (.jget a n) a s fun x => uniformWrite (.jget a n) a (jGet x.train n.toNat).toNat x

/-- R165. -/
def execActv (a : Args) (which : BitVec 2) (s : State) : Host.Outcome State Fault Refusal :=
  issue (.actv a which) a s fun x =>
    let m := match which.toNat with
      | 0 => enabledMask x
      | 1 => x.split.mask
      | _ => x.train.active
    uniformWrite (.actv a which) a m.toNat x

/-! ## Split and fuse (R146 to R148, R154, R166) -/

/-- R125: the pipe of the core with fewest live trains bound to it, the lowest on a tie. -/
def pickPipe (s : State) (core : Nat) : Nat :=
  let on (p : Nat) : Nat := (s.teams.map fun e =>
    if e.2.loc == .core core then
      ((liveTrains e.2).filter fun x => x.2.pipe == p).length else 0).sum
  let n0 := on 0
  let n1 := on 1
  let n2 := on 2
  let n3 := on 3
  let m := min (min n0 n1) (min n2 n3)
  if n0 = m then 0 else if n1 = m then 1 else if n2 = m then 2 else 3

/-- Live trains resident on a core. -/
def coreTrains (s : State) (core : Nat) : Nat :=
  (s.teams.map fun e => if e.2.loc == .core core then (liveTrains e.2).length else 0).sum

/-- A train number is in use (R127). -/
def numberUsed (t : Team) (n : Nat) : Bool :=
  (match mapGet t.trains n with
   | some x => !x.ended
   | none => false) || t.rvs.any fun r => r.2.members &&& trainBit n != 0

/-- The unused train numbers, rising. -/
def freeNumbers (t : Team) : List Nat := (List.range 64).filter fun n => !numberUsed t n

/-- Lanes lo to lo + n - 1 of a map keyed 64·register + lane, as lanes 0 to n - 1. -/
def sliceLanes (v : AMap Word) (lo n : Nat) : AMap Word :=
  (v.filter fun e => lo ≤ e.1 % 64 && e.1 % 64 < lo + n).map fun e => (e.1 - lo, e.2)

/-- Bits lo to lo + n - 1 of each of eight masks. -/
def sliceMasks (m : AMap LaneMask) (lo n : Nat) : AMap LaneMask :=
  eightMasks fun i => (defGet 0 m i >>> lo) &&& lowMask n

/-- The train that lanes lo to lo + n - 1 of T become (R147), every v register full, at address `pc`. -/
def splitPart (t : Train) (lo n : Nat) (pc : Addr) : Train :=
  let act : LaneMask := (t.active >>> lo) &&& lowMask n
  { t with
    width := n
    v := sliceLanes t.v lo n
    empty := []
    p := sliceMasks t.p lo n
    j := sliceMasks t.j lo n
    home := (t.home.drop lo).take n
    lanes := (t.lanes.drop lo).take n
    active := act
    done := (t.done >>> lo) &&& lowMask n
    siding := if act = 0 then [] else [readySplit pc act] }

/-- A new train of a split: what belongs to T alone it starts without. -/
def splitNew (t : Train) (pipe bound now : Nat) : Train :=
  { t with
    pipe := pipe
    bound := bound
    since := now
    passed := 0
    sq := []
    prods := []
    handler := none
    pend := none
    defer := []
    walked := []
    asked := []
    streams := []
    merge := none }

/-- An ended train whose number is taken anew keeps its stores and copies under a name beyond the
numbers, which is its number modulo 64. -/
def retireNumber (s : State) (uid tn : Nat) : State :=
  match trainOf s uid tn with
  | none => s
  | some t =>
    let k := 64 * (s.nextId + 1) + tn
    let s := modTeam { s with nextId := s.nextId + 1 } uid fun m =>
      { m with
        trains := mapPut m.trains k t
        copies := m.copies.map fun c =>
          if c.2.train = tn then (c.1, { c.2 with train := k }) else c }
    { s with net := s.net.map fun r =>
        if r.2.uid = uid then
          (r.1, { r.2 with trains := r.2.trains.map fun x => if x = tn then k else x })
        else r }

/-- Place the new trains of a split, with their numbers, from part `j` on. -/
def placeParts (s : State) (x : Site) (t : Train) (n : Nat) (pc : Addr) : Nat → List Nat → State
  | _, [] => s
  | j, k :: rest =>
    let s := retireNumber s x.uid k
    let part := splitNew (splitPart t (j * n) n pc) (pickPipe s x.core) s.nextId s.now
    let s := modTeam { s with nextId := s.nextId + 1 } x.uid fun m =>
      { m with trains := mapPut m.trains k part }
    placeParts s x t n pc (j + 1) rest

/-- Membership after a split into numbers `tn` and `new` (R154). The spec does not say what a split does that would
take the expected count above R152's 4095: the count goes on (log entry 133). -/
def rvSplit (tn : Nat) (new : List Nat) (r : Rv) : Rv :=
  if r.members &&& trainBit tn = 0 then r
  else
    let arrived := r.arrived &&& trainBit tn != 0
    { r with
      expected := r.expected + new.length
      members := r.members ||| maskOf new
      arrivals := if arrived then r.arrivals + new.length else r.arrivals
      arrived := if arrived then r.arrived ||| maskOf new else r.arrived }

/-- Trains with no active lane end at once (R147). -/
def endEmpty (s : State) (uid : Nat) : List Nat → State
  | [] => s
  | tn :: rest =>
    match trainOf s uid tn with
    | none => endEmpty s uid rest
    | some t => endEmpty (if t.active = 0 then endTrain s uid tn else s) uid rest

/-- The status of a split (R146). -/
def splitStatus (s : State) (x : Site) (n : Nat) : Nat :=
  let m := x.train.width / n
  if x.train.siding.length ≠ 1 then 2
  else if x.train.width ≤ n || 64 < (liveTrains x.team).length - 1 + m
    || 128 < coreTrains s x.core - 1 + m || (freeNumbers x.team).length < m - 1 then 3
  else 0

/-- The effect of a split into numbers `tn` and `new`. -/
def splitInto (s : State) (x : Site) (t : Train) (n : Nat) (new : List Nat) : State :=
  let pc := nextPc x
  let s := placeParts s x t n pc 1 new
  let s := modTrain s x.uid x.tn fun t => splitPart t 0 n pc
  let s := modTeam s x.uid fun m => { m with rvs := m.rvs.map fun r => (r.1, rvSplit x.tn new r.2) }
  let s := { s with net := s.net.map fun r =>
    if r.2.uid = x.uid && r.2.trains.contains x.tn then
      (r.1, { r.2 with trains := r.2.trains ++ new }) else r }
  endEmpty s x.uid (x.tn :: new)

/-- The status of a train that was split is written in each part that continues (R147). -/
def splitStatuses (uid : Nat) (d : Opnd) (tns : List Nat) (s : State) : State :=
  tns.foldl (fun s tn => modTrain s uid tn fun t =>
    if t.ended then t else dstPut t d 1 [(0, 0)]) s

/-- Neither producers nor store-queue entries. -/
def quietTrain (t : Train) : Bool := t.prods.isEmpty && t.sq.isEmpty

/-- R147; the split reaches the points after the train's own held arrivals (R175). -/
def execSplit (a : Args) (w : BitVec 3) (s : State) : Host.Outcome State Fault Refusal :=
  issue (.split a w) a s fun x s =>
    let n := 4 * 2 ^ w.toNat
    if !quietTrain x.train then waitFor x .quiet s
    else if !(heldPoints x.team x.tn).isEmpty then waitFor x (.turn (heldPoints x.team x.tn)) s
    else
      let st := splitStatus s x n
      if st ≠ 0 then advance x (modIssuer x s fun t => dstPut t a.dst 1 [(0, st)])
      else
        let s := endRun (advance x s) x.core x.pipe
        match trainOf s x.uid x.tn with
        | none => s
        | some t =>
          let new := (freeNumbers x.team).take (x.train.width / n - 1)
          splitStatuses x.uid a.dst (x.tn :: new) (splitInto s x t n new)

/-- The split of a train that waits for its partner at a `fuse`. -/
def fuseSplit (t : Train) : Option Split :=
  t.siding.find? fun p => !p.held && p.st == .waiting .partner

/-- Two numbers differ on whether they have arrived at a point of which both are members (R148). -/
def rvDiffer (t : Team) (a b : Nat) : Bool :=
  t.rvs.any fun r =>
    r.2.members &&& trainBit a != 0 && r.2.members &&& trainBit b != 0 &&
      ((r.2.arrived &&& trainBit a == 0) != (r.2.arrived &&& trainBit b == 0))

/-- The status of a fuse whose partner is at a `fuse` too (R146): the lowest code that applies. -/
def fuseStatus (team : Team) (tn pn : Nat) (t p : Train) (pc ppc : Addr) : Nat :=
  if t.width ≠ p.width then 1
  else if ppc ≠ pc || t.siding.length ≠ 1 || p.siding.length ≠ 1 || rvDiffer team tn pn then 2
  else if t.width = 64 then 3
  else if t.role ≠ p.role then 4
  else if t.budget ≠ p.budget then 5
  else 0

/-- Masks of the lower train and, moved up by its width `w`, of the partner. -/
def joinMasks (lo hi : AMap LaneMask) (w : Nat) : AMap LaneMask :=
  eightMasks fun i => (defGet 0 lo i &&& lowMask w) ||| (defGet 0 hi i <<< w)

/-- The v registers of the lower train's lanes and, after them, of the partner's. -/
def joinLanes (lo hi : AMap Word) (w : Nat) : AMap Word :=
  (hi.filter fun e => e.1 % 64 < w).foldr (fun e m => mapPut m (e.1 + w) e.2)
    (lo.filter fun e => e.1 % 64 < w)

/-- The fused train (R148), every v register full, ready at `pc`. Whether it is in a handler is the lower
train's (log entry 44). -/
def fuseTrains (lo hi : Train) (pc : Addr) : Train :=
  let w := lo.width
  let act : LaneMask := lo.active ||| (hi.active <<< w)
  { lo with
    width := 2 * w
    v := joinLanes lo.v hi.v w
    empty := []
    p := joinMasks lo.p hi.p w
    j := joinMasks lo.j hi.j w
    home := lo.home ++ hi.home
    lanes := lo.lanes ++ hi.lanes
    active := act
    done := lo.done ||| (hi.done <<< w)
    flags := lo.flags ||| hi.flags
    seq := max lo.seq hi.seq
    defer := lo.defer ++ hi.defer
    siding := if act = 0 then [] else [readySplit pc act] }

/-- Membership after a fuse (R148, R154). -/
def rvFuse (lo hi : Nat) (r : Rv) : Rv :=
  let a := r.members &&& trainBit lo != 0
  let b := r.members &&& trainBit hi != 0
  let aa := r.arrived &&& trainBit lo != 0
  let ba := r.arrived &&& trainBit hi != 0
  { r with
    expected := if a && b then r.expected - 1 else r.expected
    arrivals := if a && b && aa && ba then r.arrivals - 1 else r.arrivals
    members := if a || b then (r.members &&& ~~~trainBit hi) ||| trainBit lo else r.members
    arrived := if (a && aa) || (b && ba) then (r.arrived &&& ~~~trainBit hi) ||| trainBit lo
      else r.arrived }

/-- The points of which both numbers are members. -/
def sharedPoints (t : Team) (lo hi : Nat) : List Nat :=
  mapKeys (t.rvs.filter fun r =>
    r.2.members &&& trainBit lo != 0 && r.2.members &&& trainBit hi != 0)

/-- A fuse may bring points to their lowered count (R153, R154). -/
def checkPhases (s : State) (uid : Nat) : List Nat → State
  | [] => s
  | n :: rest => checkPhases (checkPhase s uid n) uid rest

/-- The two trains fuse; what named the partner names the fused train. -/
def fusePair (s : State) (x : Site) (lo hi : Nat) (tl th : Train) : State :=
  let s := freeMerge (freeStreams s x.uid hi (mapKeys th.streams)) x.uid hi
  let ft := fuseTrains tl th (nextPc x)
  let points := match teamOf s x.uid with
    | some m => sharedPoints m lo hi
    | none => []
  let swap (n : Nat) : Nat := if n = hi then lo else n
  let s := modTeam s x.uid fun m =>
    { m with
      trains := mapPut (mapDel m.trains hi) lo ft
      rvs := m.rvs.map fun r => (r.1, rvFuse lo hi r.2)
      jobs := m.jobs.map fun j => (j.1, { j.2 with train := j.2.train.map swap })
      copies := m.copies.map fun c => (c.1, { c.2 with train := swap c.2.train }) }
  let s : State := { s with net := s.net.map fun r =>
      if r.2.uid = x.uid then (r.1, { r.2 with trains := r.2.trains.map swap }) else r }
  checkPhases s x.uid points

/-- R148. The train that finds its partner at a `fuse` decides for both; the partner's own `fuse`
then writes the status it was given. -/
def execFuse (a : Args) (s : State) : Host.Outcome State Fault Refusal :=
  issue (.fuse a) a s fun x s =>
    let pn := x.tn ^^^ 1
    let done (st : Nat) (s : State) : State :=
      advance x (modIssuer x s fun t => dstPut t a.dst 1 [(0, st)])
    match x.split.resume with
    | .unitDone st => done st.toNat s
    | _ =>
      match mapGet x.team.trains pn with
      | none => done 6 s
      | some p =>
        if p.ended then done 6 s
        else match fuseSplit p with
          | none => waitFor x .partner s
          | some q =>
            let held := heldPoints x.team x.tn ++ heldPoints x.team pn
            if !(quietTrain x.train && quietTrain p && held.isEmpty) then waitFor x .partner s
            else
              let st := fuseStatus x.team x.tn pn x.train p x.pc q.pc
              if st = 0 then
                let s := endRun (advance x (modIssuer x s fun t => dstPut t a.dst 1 [(0, 0)]))
                  x.core x.pipe
                match trainOf s x.uid x.tn with
                | none => s
                | some t =>
                  if x.tn < pn then fusePair s x x.tn pn t p
                  else fusePair s x pn x.tn (dstPut p a.dst 1 [(0, 0)]) t
              else
                let s := modTrain s x.uid pn fun p =>
                  { p with siding := p.siding.map fun q =>
                      if !q.held && q.st == .waiting .partner then
                        { q with st := .ready, resume := .unitDone (BitVec.ofNat 32 st) } else q }
                done st s

/-! ## Selecting, comparing and moving lanes (R167 to R170) -/

/-- R167. -/
def execElect (a : Args) (pd : BitVec 3) (wr : Bool) (s : State) :
    Host.Outcome State Fault Refusal :=
  issue (.elect a pd wr) a s fun x s =>
    let c := headLane x.lanes
    let s := modIssuer x s fun t =>
      let t := predPut t pd.toNat (x.lanes.map fun l => (l, l == c))
      if wr then dstPut t a.dst 1 [(c, c)] else t
    advance x s

/-- R168. -/
def execVote (a : Args) (inv : Bool) (pd op p : BitVec 3) (s : State) :
    Host.Outcome State Fault Refusal :=
  issue (.vote a inv pd op p) a s fun x =>
    let q (l : Nat) : Bool := pGet x.train p.toNat l != inv
    let any := x.lanes.any q
    let all := x.lanes.all q
    match op.toNat with
    | 0 => predWrite pd.toNat (fun _ => any) x
    | 1 => predWrite pd.toNat (fun _ => all) x
    | 2 => predWrite pd.toNat (fun _ => all || !any) x
    | _ => uniformWrite (.vote a inv pd op p) a (maskOf (x.lanes.filter q)).toNat x

/-- R169. -/
def execMatch (a : Args) (d : Bool) (s : State) : Host.Outcome State Fault Refusal :=
  issue (.matchLanes a d) a s fun x =>
    let n := if d then 2 else 1
    aluWrite (.matchLanes a d) a (fun l _ _ _ =>
      ((maskOf (x.lanes.filter fun m =>
        srcNat x.train a.s1 n m == srcNat x.train a.s1 n l)).toNat, 0)) x

/-- R170: the source lane is read as it stands before any write. -/
def execPerm (a : Args) (z d : Bool) (s : State) : Host.Outcome State Fault Refusal :=
  issue (.perm a z d) a s fun x =>
    let t := x.train
    aluWrite (.perm a z d) a (fun _ _ u _ =>
      if z && t.width ≤ u then (0, 0)
      else (srcNat t a.s1 (if d then 2 else 1) (u % t.width), 0)) x

/-! ## Reductions and scans (R171 to R173) -/

/-- The value of a set of lanes' words, in ascending lane order, with the flags of the written
result; the identity of the empty set. -/
def reduceOf (m : RedMods) (xs : List Nat) : Nat × FlagSet :=
  let w := if m.d then 64 else 32
  let top : Nat := 2 ^ w
  let val (x : Nat) : Int := if m.u then (x : Int) else sext w x
  let back (i : Int) : Nat := (i % (top : Int)).toNat
  match m.op.toNat with
  | 0 =>
    let S := (xs.map val).foldl (· + ·) 0
    if m.s then
      let (y, f) := satInt w m.u S
      (back y, f)
    else (back S, 0)
  | 1 =>
    let hi : Int := if m.u then (top : Int) - 1 else (top : Int) / 2 - 1
    (back ((xs.map val).foldl min hi), 0)
  | 2 =>
    let lo : Int := if m.u then 0 else -((top : Int) / 2)
    (back ((xs.map val).foldl max lo), 0)
  | 3 => (xs.foldl (· &&& ·) (top - 1), 0)
  | 4 => (xs.foldl (· ||| ·) 0, 0)
  | 5 => (xs.foldl (· ^^^ ·) 0, 0)
  | 6 =>
    if xs.isEmpty then (0x80000000, 0)
    else
      let ns := xs.map (decodeFloat 0)
      fsum ns ns
  | k =>
    if xs.isEmpty then (if k = 7 then 0x7F800000 else 0xFF800000, 0)
    else match xs.filter fun x => !isNan (decodeFloat 0 x) with
      | [] => (nanCode 0, 0)
      | y :: ys => (ys.foldl (fun b c => (minMaxCode 0 (k == 8) b c).1) y, 0)

/-- R173: a signalling NaN among the enabled lanes' values. -/
def reduceSnan (m : RedMods) (xs : List Nat) : FlagSet :=
  flagIf (6 ≤ m.op.toNat && xs.any fun x => isSnan (decodeFloat 0 x)) fInvalid

/-- R172: one result for every enabled lane. -/
def execRedx (a : Args) (m : RedMods) (s : State) : Host.Outcome State Fault Refusal :=
  issue (.redx a m) a s fun x =>
    let xs := x.lanes.map fun l => srcNat x.train a.s1 (if m.d then 2 else 1) l
    let r := reduceOf m xs
    aluWrite (.redx a m) a (fun _ _ _ _ => (r.1, r.2 ||| reduceSnan m xs)) x

/-- R172: lane l's result is of the enabled lanes at or below it, or below it under `.excl`. -/
def execScan (a : Args) (m : RedMods) (s : State) : Host.Outcome State Fault Refusal :=
  issue (.scan a m) a s fun x =>
    let rd (l : Nat) : Nat := srcNat x.train a.s1 (if m.d then 2 else 1) l
    let sn := reduceSnan m (x.lanes.map rd)
    aluWrite (.scan a m) a (fun l _ _ _ =>
      let r := reduceOf m ((x.lanes.filter fun k => k < l || (k == l && !m.excl)).map rd)
      (r.1, r.2 ||| sn)) x

/-! ## Rendezvous instructions (R174 to R176) -/

/-- What a waiting instruction has done makes it a waiter for the current phase of a point (R153). -/
def awaits (t : Team) (n : Nat) (r : Resume) : Bool := r == .phase n (rvOf t n).phase

/-- A split of some train waits for the current phase of a point; a handler's train too, where the trap met
its split there. -/
def rvWaiters (t : Team) (n : Nat) : Bool :=
  (liveTrains t).any fun x =>
    (x.2.siding.any fun p => awaits t n p.resume || match p.st with
      | .waiting (.held k _) => k == n
      | _ => false) ||
    match x.2.handler with
    | some h => awaits t n h.resume
    | none => false

/-- `rvinit` finds the point busy (R152, R193). -/
def rvBusy (t : Team) (n : Nat) : Bool :=
  rvWaiters t n || (t.copies.any fun c => c.2.rv == some n) || (rvOf t n).firing.isSome ||
    (rvOf t n).desc.isSome

/-- R174, R176. A train that has ended and whose number is still in use stays a member where the mask names
it (DESIGN CHOICE, log entry 126). -/
def execRvinit (a : Args) (n : BitVec 5) (s : State) : Host.Outcome State Fault Refusal :=
  issue (.rvinit a n) a s fun x s =>
    let count := srcNat x.train a.s1 1 0
    let members : LaneMask := BitVec.ofNat 64 (srcNat x.train a.s2 2 0) &&&
      maskOf ((List.range 64).filter (numberUsed x.team))
    if 4095 < count then trapIllegal x s
    else if rvBusy x.team n.toNat then
      trapHere x 13 [siteRec x 13 0 0 0 0 x.split.mask x.train.done false false false n.toNat] s
    else
      advance x (modRv s x.uid n.toNat fun r =>
        { r with expected := count, members := members, arrivals := 0, arrived := 0, leaving := 0 })

/-- R176, R201. On a point of expected count 0 the wait of R201 comes before R153's having no effect: the spec gives
no order (log entry 139). -/
def execArrive (a : Args) (n : BitVec 5) (s : State) : Host.Outcome State Fault Refusal :=
  issue (.arrive a n) a s fun x s =>
    if !arrivalReady s x.uid x.tn x.team x.train then waitFor x .arrival s
    else arriveTurn (advance x s) x.uid n.toNat (.arrive x.tn)

/-- Whether a phase that a train waits for has completed. -/
def phaseOver (t : Team) (n ph : Nat) : Bool :=
  (rvOf t n).phase != ph || (rvOf t n).expected == 0

/-- R153, R175, R176: the train's own held arrivals reach the point first. -/
def execAwait (a : Args) (n : BitVec 5) (s : State) : Host.Outcome State Fault Refusal :=
  issue (.await a n) a s fun x s =>
    let r := rvOf x.team n.toNat
    let ph := match x.split.resume with
      | .phase _ ph => ph
      | _ => r.phase
    let late := (heldPoints x.team x.tn).contains n.toNat && x.split.resume = .none
    if late then waitFor x (.turn [n.toNat]) s
    else if phaseOver x.team n.toNat ph then advance x s
    else waitWith x (.phase n.toNat ph) (.phase n.toNat ph) s

/-- R176: an arrival and the start of an `await` as one operation; at a firing point both are held
(R193). -/
def execArrwait (a : Args) (n : BitVec 5) (s : State) : Host.Outcome State Fault Refusal :=
  issue (.arrwait a n) a s fun x s =>
    let r := rvOf x.team n.toNat
    match x.split.resume with
    | .phase _ ph =>
      if phaseOver x.team n.toNat ph then advance x s
      else waitWith x (.phase n.toNat ph) (.phase n.toNat ph) s
    | .tok k => waitWith x (.held n.toNat k) (.tok k) s
    | _ =>
      if !arrivalReady s x.uid x.tn x.team x.train then waitFor x .arrival s
      else if r.firing.isSome then
        let k := s.nextId
        let s := holdAt { s with nextId := k + 1 } x.uid n.toNat (.arrwait x.tn k)
        waitWith x (.held n.toNat k) (.tok k) s
      else
        let s := arriveNow s x.uid n.toNat (some x.tn)
        match teamOf s x.uid with
        | none => s
        | some team =>
          if phaseOver team n.toNat r.phase then advance x s
          else waitWith x (.phase n.toNat r.phase) (.phase n.toNat r.phase) s

/-- R174, R175. -/
def execRvget (a : Args) (f : BitVec 2) (n : BitVec 5) (s : State) :
    Host.Outcome State Fault Refusal :=
  issue (.rvget a f n) a s fun x s =>
    let r := rvOf x.team n.toNat
    let v := match f.toNat with
      | 0 => r.expected
      | 1 => r.arrivals
      | 2 => r.members.toNat
      | _ => r.arrived.toNat
    if (heldPoints x.team x.tn).contains n.toNat then waitFor x (.turn [n.toNat]) s
    else uniformWrite (.rvget a f n) a v x s

/-! ## Register budgets (R150, R151, R177, R178) -/

/-- Lower a train's budget to `n`: the registers' contents are lost. -/
def lowerBudget (t : Train) (n : Nat) : Train :=
  { t with budget := n, v := t.v.filter fun e => e.1 / 64 < n }

/-- Surrender registers down to a budget, and take a role (R178). -/
def surrender (x : Site) (to_ : Nat) (role : Nat) (s : State) : State :=
  if x.train.empty.any (to_ ≤ ·) then waitFor x (.regs to_) s
  else
    let s := modIssuer x s fun t => { lowerBudget t to_ with role := role }
    let s := modTeam s x.uid fun t =>
      { t with pool := t.pool + (x.train.budget - to_) / 8 * x.train.width }
    advance x (claimsTurn s x.uid)

/-- Claim `add` registers per lane (R151). -/
def claim (x : Site) (add : Nat) (role : Option Nat) (s : State) : State :=
  match x.split.resume with
  | .granted => advance x s
  | .tok k => checkTake (waitWith x .claim (.tok k) s) x.uid
  | _ =>
    let k := s.nextId
    let s := modTeam { s with nextId := k + 1 } x.uid fun t =>
      { t with claims := t.claims ++ [⟨k, x.tn, add / 8 * x.train.width, add, role⟩] }
    let s := claimsTurn s x.uid
    match teamOf s x.uid with
    | none => s
    | some team =>
      if team.claims.any (·.tok == k) then checkTake (waitWith x .claim (.tok k) s) x.uid
      else advance x s

/-- R178. -/
def execRgive (a : Args) (n : BitVec 5) (s : State) : Host.Outcome State Fault Refusal :=
  issue (.rgive a n) a s fun x s =>
    if x.train.budget < 8 * n.toNat + 8 then trapIllegal x s
    else surrender x (x.train.budget - 8 * n.toNat) x.train.role s

/-- R178. A claim that has been granted raised the budget already. -/
def execRtake (a : Args) (n : BitVec 5) (s : State) : Host.Outcome State Fault Refusal :=
  issue (.rtake a n) a s fun x s =>
    if x.split.resume != .granted && x.team.regs < x.train.budget + 8 * n.toNat then trapIllegal x s
    else claim x (8 * n.toNat) none s

/-- R178. The spec does not say whether a role above the header's traps with no lane enabled: the instruction is
then skipped as any other (R11; log entry 135). -/
def execRtakeRole (a : Args) (r : BitVec 4) (s : State) : Host.Outcome State Fault Refusal :=
  issue (.rtakeRole a r) a s fun x s =>
    match x.split.resume, x.team.roles[r.toNat]? with
    | .granted, _ => advance x s
    | .tok k, _ => checkTake (waitWith x .claim (.tok k) s) x.uid
    | _, none => trapIllegal x s
    | _, some b =>
      if b < x.train.budget then surrender x b r.toNat s
      else if b = x.train.budget then
        advance x (modIssuer x s fun t => { t with role := r.toNat })
      else if x.team.regs < b then trapIllegal x s
      else claim x (b - x.train.budget) (some r.toNat) s

end Sys2Proof.Machine
end

