-- ==== Sys2Proof/Machine/Contraction.lean ====
section
/-!
DEFINITION. The contraction and accumulator instructions (R180 to R205), opcodes 0x90 to 0x98, and the
completion of the work they give the array and the accumulator unit.
-/
namespace Sys2Proof.Machine

/-! ## Issue -/

/-- SCRATCH_RANGE of a whole instruction, naming the lowest failing offset (R187, R198, R330). -/
def trapRange (x : Site) (e : Nat × Nat) (s : State) : State :=
  trapAddr x 7 0 (BitVec.ofNat 80 e.1) e.2 false s

/-- The even and the odd register of src3's pair. -/
def cxWords (x : Site) (a : Args) : Word × Word :=
  let v := srcNat x.train a.s3 2 0
  (BitVec.ofNat 32 v, BitVec.ofNat 32 (v / 2 ^ 32))

/-- The tile's rows and the scratchpad rows of some participants, as byte ranges (R201). -/
def cxSpans (rows : Bool) (d : CxDesc) (ts : List Nat) : List (Bool × Nat × Nat) :=
  footprint (.contract d.fmt d.tile 0 ⟨[], 0⟩ []) ++
    (ts.flatMap (rowSpans rows d)).map fun p => (false, p.1, p.2)

/-- Work on bytes of the train's team waits for its stores to them, and for its earlier work there (R22,
R200, R201). -/
def workTurn (x : Site) (spans : List (Bool × Nat × Nat)) (go : State → State) (s : State) : State :=
  if storesMeet x.uid x.train spans then waitFor x (.fence false true false false []) s
  else if jobBlocks x.team x.tn spans then waitFor x (.jobs s.nextId) s
  else go s

/-- What `cx` and `cxs` share after their checks (R191, R192): range, waits, and the job. `regs` gives
a participant's register rows. -/
def cxIssue (x : Site) (rows : Bool) (d : CxDesc) (regs : Nat → Option (Nat × Nat)) (s : State) :
    State :=
  match rangeFail x.team rows d x.lanes with
  | some e => trapRange x e s
  | none =>
    workTurn x (cxSpans rows d x.lanes) (fun s =>
      advance x (contractJob s x.uid (some x.tn) none d
        (x.lanes.map fun l => fetchRow s x.uid x.team (regs l) d l))) s

/-- Source 2 of `cx` against the format word (R190): a dash with generated B. -/
def cxSrc2Ok (a : Args) (f : CxFmt) : Bool :=
  a.form != .f128 || f.gen == 0 || a.s2 == .v 0 false Turn.id

/-- R190, R191. -/
def execCx (a : Args) (e : CxExt) (s : State) : Host.Outcome State Fault Refusal :=
  issue (.cx a e) a s fun x s =>
    let (fmt, tile) := cxWords x a
    let f := cxFmtOf fmt
    if !(fmtOk (a.form == .f64) fmt && shapeOk true f tile && cxExtOk false f e && cxSrc2Ok a f) then
      trapIllegal x s
    else
      cxIssue x false (descOf x.train fmt tile e) (fun l =>
        some (srcNat x.train a.s1 1 l, if f.gen = 0 then srcNat x.train a.s2 1 l else 0)) s

/-- R190, R192. -/
def execCxs (a : Args) (e : CxExt) (s : State) : Host.Outcome State Fault Refusal :=
  issue (.cxs a e) a s fun x s =>
    let (fmt, tile) := cxWords x a
    let f := cxFmtOf fmt
    if !(fmtOk false fmt && shapeOk false f tile && cxExtOk true f e) then trapIllegal x s
    else cxIssue x true (descOf x.train fmt tile e) (fun _ => none) s

/-- The team lane numbers of the enabled lanes. -/
def teamLanes (x : Site) : List Nat := x.lanes.map fun l => (x.train.lanes[l]?).getD 0

/-- R193, R201. -/
def execCxt (a : Args) (n : BitVec 5) (e : CxExt) (s : State) : Host.Outcome State Fault Refusal :=
  issue (.cxt a n e) a s fun x s =>
    let (fmt, tile) := cxWords x a
    let f := cxFmtOf fmt
    if !(fmtOk false fmt && shapeOk false f tile && cxExtOk true f e) then trapIllegal x s
    else if !arrivalReady s x.uid x.tn x.team x.train then waitFor x .arrival s
    else
      let d := descOf x.train fmt tile e
      let ls := teamLanes x
      if (rvOf x.team n.toNat).firing.isSome then
        advance x (holdAt s x.uid n.toNat (.cxt x.tn ls d))
      else match cxtNow s x.uid n.toNat x.tn ls d with
        | .error e => trapRange x e s
        | .ok s => advance x s

/-- R202: the address of a lane, its low bits read as 0. -/
def accAddr (x : Site) (a : Args) (n l : Nat) : Nat :=
  (srcNat x.train a.s1 1 l + srcNat x.train a.s2 1 l) % 2 ^ 32 / n * n

/-- The checks of accumulator bytes that an instruction touches (R198, R344, R201), then its effect. -/
def accAccess (x : Site) (spans : List (Nat × Nat)) (reads : Bool) (go : State → State) (s : State) :
    State :=
  match spanFail x.team.accSize spans with
  | some e => trapRange x e s
  | none =>
    match if reads then accBad s x.uid spans else none with
    | some p => trapAddr x 15 5 (BitVec.ofNat 80 p.1) p.2 false s
    | none => workTurn x (spans.map fun p => (true, p.1, p.2)) go s

/-- The reading of `n` accumulator bytes per lane, filled 12 cycles later (R202). -/
def accLoad (x : Site) (d : Dst) (n : Nat) (at_ : List (Nat × Nat)) (s : State) : State :=
  issueProducer x
    { aluProducer x d (at_.map Prod.fst) [] 0 (s.now + 12) with
      kind := .acc n
      parts := at_.map fun p =>
        ⟨p.1, 0, BitVec.ofNat 80 p.2, .acc x.uid, (List.range n).map (p.2 + ·), true, none, 0⟩ } s

/-- R202. -/
def execAccrd (a : Args) (d : Bool) (s : State) : Host.Outcome State Fault Refusal :=
  issue (.accrd a d) a s fun x =>
    let n := if d then 8 else 4
    let at_ := x.lanes.map fun l => (l, accAddr x a n l)
    accAccess x (at_.map fun p => (p.2, n)) true (accLoad x (dstOf a.dst (n / 4)) n at_)

/-- A store of bytes to the accumulator, in the order given (R200). -/
def accStore (x : Site) (ws : List (Nat × Byte)) (s : State) : State :=
  addJob s x.uid (newJob (some x.tn) none (.write ws) s.now 1)

/-- R202: lanes in ascending order. -/
def execAccwr (a : Args) (d : Bool) (s : State) : Host.Outcome State Fault Refusal :=
  issue (.accwr a d) a s fun x =>
    let n := if d then 8 else 4
    let at_ := x.lanes.map fun l => (l, accAddr x a n l)
    accAccess x (at_.map fun p => (p.2, n)) false fun s =>
      advance x (accStore x (at_.flatMap fun p =>
        bytesAt p.2 (natLe n (srcNat x.train a.s3 (n / 4) p.1))) s)

/-- R203: the cycles of an instruction over a whole tile. -/
def tileCycles (tile : Word) : Nat := 2 + ceilDiv (tileM tile * tileN tile) 64

/-- The rows of a tile at an offset, as offset and length. -/
def tileSpans (tile : Word) (off : Nat) : List (Nat × Nat) :=
  (List.range (tileM tile)).map fun i => (off + i * pitch (tileN tile), 4 * tileN tile)

/-- R203. -/
def execAccclr (a : Args) (s : State) : Host.Outcome State Fault Refusal :=
  issue (.accclr a) a s fun x s =>
    let tile := BitVec.ofNat 32 (srcNat x.train a.s1 1 0)
    if !tileOk tile then trapIllegal x s
    else accAccess x [(tileOff tile, tileBytes tile)] false (fun s =>
      advance x (addJob s x.uid
        (newJob (some x.tn) none (.clear tile) s.now (tileCycles tile)))) s

/-- R203. -/
def execAccmv (a : Args) (s : State) : Host.Outcome State Fault Refusal :=
  issue (.accmv a) a s fun x s =>
    let tile := BitVec.ofNat 32 (srcNat x.train a.s1 1 0)
    let o := srcNat x.train a.s2 1 0
    if !tileOk tile || 2 ^ 14 ≤ o then trapIllegal x s
    else accAccess x [(tileOff tile, tileBytes tile), (256 * o, tileBytes tile)] false (fun s =>
      match accBad s x.uid (tileSpans tile (256 * o)) with
      | some p => trapAddr x 15 5 (BitVec.ofNat 80 p.1) p.2 false s
      | none =>
        advance x (addJob s x.uid
          (newJob (some x.tn) none (.move tile (256 * o)) s.now (tileCycles tile)))) s

/-- The conversion word's fields (R204). -/
structure ConvFmt where
  f   : Nat
  blk : Nat
  zp  : Bool
  sc  : Bool
  rm  : Nat
  ov  : Bool
  int : Bool
  deriving DecidableEq, Repr

def convOf (c : Word) : ConvFmt :=
  let n := c.toNat
  ⟨bitsOf n 0 4, bitsOf n 4 2, bitOf n 7, bitOf n 8, bitsOf n 9 3, bitOf n 12, bitOf n 13⟩

/-- The checks of R204 on the conversion word, the tile word and the extension. -/
def convOk (up : Bool) (c tile : Word) (x : PkExt) : Bool :=
  let f := convOf c
  bitsOf c.toNat 14 18 == 0 && !bitOf c.toNat 6 && f.blk ≤ 2 && f.rm ≤ 3 && tileOk tile &&
  (if up then (1 ≤ f.f && f.f ≤ 9) || f.f == 11 else (1 ≤ f.f && f.f ≤ 7) || f.f == 11) &&
  !(up && f.int && isFloatFmt f.f) && (!f.zp || (up && isObFmt f.f)) && !(up && f.ov) &&
  (f.sc || f.zp || (x.s == 0 && x.ss == 0))

/-- Scratchpad rows of `accpk` and `accup`, data then side (R204). -/
def convSpans (c tile : Word) (x : PkExt) (sd dt : Nat) : List (Nat × Nat) :=
  let f := convOf c
  let n := tileN tile
  (List.range (tileM tile)).flatMap fun i =>
    [(dt + i * 4 * x.ds.toNat, rowBytes f.f n),
     (sd + i * 4 * x.ss.toNat, sideBytes f.sc f.zp f.blk n)]

/-- What `accpk` and `accup` share (R204): checks, ranges, errors in what they read, waits, the job. -/
def convIssue (x : Site) (up : Bool) (a : Args) (e : PkExt) (s : State) : State :=
  let (c, tile) := cxWords x a
  if !convOk up c tile e then trapIllegal x s
  else
    let sd := rowBase x.train e.s
    let dt := rowBase x.train e.d
    let rows := convSpans c tile e sd dt
    match spanFail x.team.scrSize rows with
    | some e => trapRange x e s
    | none =>
      match if up then scrBad s x.uid rows else none with
      | some p => trapAddr x 15 4 (BitVec.ofNat 80 p.1) p.2 false s
      | none =>
        let kind : JobKind := if up then .unpack c tile e sd dt else .pack c tile e sd dt
        accAccess x [(tileOff tile, tileBytes tile)] false (fun s =>
          match accBad s x.uid (tileSpans tile (tileOff tile)) with
          | some p => trapAddr x 15 5 (BitVec.ofNat 80 p.1) p.2 false s
          | none =>
            workTurn x (footprint kind) (fun s =>
              advance x (addJob s x.uid
                (newJob (some x.tn) none kind s.now (tileCycles tile)))) s) s

/-- R204, R205. -/
def execAccpk (a : Args) (e : PkExt) (s : State) : Host.Outcome State Fault Refusal :=
  issue (.accpk a e) a s fun x => convIssue x false a e

/-- R204, R205. -/
def execAccup (a : Args) (e : PkExt) (s : State) : Host.Outcome State Fault Refusal :=
  issue (.accup a e) a s fun x => convIssue x true a e

/-! ## Completion -/

/-- MaxVal of R205. -/
def maxVal (f : Nat) : Num :=
  if isFloatFmt f then decodeFloat f (maxMag f)
  else .fin false (intRange f).2.natAbs 0

/-- An accumulator word as a number. -/
def accNum (int : Bool) (w : Word) : Num :=
  if int then numOfInt w.toInt else decodeFloat 0 w.toNat

/-- A number's magnitude. -/
def absNum : Num → Num
  | .fin _ m e => .fin false m e
  | .inf _ => .inf false
  | x => x

/-- The smallest scale of R205 for the words of a block. -/
def packScale (f : Nat) (xs : List Num) : Nat :=
  ((List.range 255).find? fun (c : Nat) =>
    xs.all fun x => !numLt (maxVal f) (absNum (scaleNum x (127 - (Int.ofNat c))))).getD 254

/-- One element's code (R205). A scaled INT32 word that is no integer is rounded by rm before it is
clamped (log entry 22). -/
def accCode (f : ConvFmt) (c : Nat) (x : Num) : Nat × FlagSet :=
  let y := scaleNum x (127 - (c : Int))
  let w := 2 ^ elemBits f.f
  if isFloatFmt f.f then toFloat f.f f.rm 0 f.ov y
  else
    let (lo, hi) := intRange f.f
    if f.int then
      match y with
      | .fin neg m e =>
        let (i, changed) := roundToInt f.rm 0 neg m e
        let (z, g) := clampSat lo hi i
        ((z % (w : Int)).toNat, flagIf changed fInexact ||| g)
      | _ => (0, 0)
    else
      let (z, g) := toInt lo hi f.rm 0 y
      ((z % (w : Int)).toNat, g)

/-- One block of a row: codes from column `j0` on, packed, its scale byte and flags. -/
def packBlock (f : ConvFmt) (xs : List Num) : List Nat × Nat × FlagSet :=
  if xs.any fun x => isNan x || isInf x then (xs.map fun _ => 0, 255, fInvalid)
  else
    let c := if f.sc then packScale f.f xs else 127
    let rs := xs.map (accCode f c)
    (rs.map Prod.fst, c, rs.foldr (fun r g => r.2 ||| g) 0)

/-- Codes of `w` bits packed, the first lowest (R91). -/
def packBits (w : Nat) : List Nat → Nat
  | [] => 0
  | c :: t => c + 2 ^ w * packBits w t

/-- A row cut into blocks of `L`, with fuel for each. -/
def chunksOf {α : Type} (L : Nat) : Nat → List α → List (List α)
  | 0, _ => []
  | n + 1, xs => if xs.isEmpty then [] else xs.take L :: chunksOf L n (xs.drop L)

/-- Row `i` of `accpk`: its data bytes and its scale bytes, with flags. -/
def packRow (team : Team) (f : ConvFmt) (tile : Word) (i : Nat) : List Byte × List Byte × FlagSet :=
  let n := tileN tile
  let xs := (List.range n).map fun j => accNum f.int (accWord team (tileWord (tileOff tile) n i j))
  let bs := (chunksOf (blockLen f.blk n) n xs).map (packBlock f)
  (natLe (rowBytes f.f n) (packBits (elemBits f.f) (bs.flatMap (·.1))),
   if f.sc then bs.map fun b => BitVec.ofNat 8 b.2.1 else [],
   bs.foldr (fun b g => b.2.2 ||| g) 0)

/-- All rows of `accpk`: scratchpad bytes written, with flags. -/
def packRows (team : Team) (c tile : Word) (x : PkExt) (sd dt : Nat) :
    List (Nat × Byte) × FlagSet :=
  let rs := (List.range (tileM tile)).map fun i =>
    let (d, sc, g) := packRow team (convOf c) tile i
    (bytesAt (dt + i * 4 * x.ds.toNat) d ++ bytesAt (sd + i * 4 * x.ss.toNat) sc, g)
  (rs.flatMap Prod.fst, rs.foldr (fun r g => r.2 ||| g) 0)

/-- One element of `accup` (R205). -/
def upElem (f : ConvFmt) (w : Word) (v : Num × FlagSet) : Word × FlagSet :=
  if f.int then
    match v.1 with
    | .fin neg m e =>
      let (i, changed) := roundToInt f.rm 0 neg m e
      let (z, g) := satInt 32 false (w.toInt + i)
      (BitVec.ofInt 32 z, v.2 ||| flagIf changed fInexact ||| g)
    | _ => (w, v.2)
  else
    let xs := [decodeFloat 0 w.toNat, v.1]
    let (z, g) := sumRound 0 f.rm 0 true xs xs
    (BitVec.ofNat 32 z, v.2 ||| g)

/-- Columns of a row of `accup`, below `j`. -/
def upRow (f : ConvFmt) (tile : Word) (i row side : Nat) : Nat → Team × FlagSet → Team × FlagSet
  | 0, st => st
  | j + 1, st =>
    let (team, fl) := upRow f tile i row side j st
    let n := tileN tile
    let k := tileWord (tileOff tile) n i j
    let (c, g) := upElem f (accWord team k)
      (rowVal f.f f.blk f.sc f.zp f.int ⟨[], 0⟩ 0 row side n j)
    (accWordPut team k c, fl ||| g)

/-- Rows of `accup`. -/
def upRows (f : ConvFmt) (tile : Word) (x : PkExt) (sd dt : Nat) :
    List Nat → Team × FlagSet → Team × FlagSet
  | [], st => st
  | i :: rest, st =>
    let n := tileN tile
    let row := scrRead st.1 (dt + i * 4 * x.ds.toNat) (rowBytes f.f n)
    let side := scrRead st.1 (sd + i * 4 * x.ss.toNat) (sideBytes f.sc f.zp f.blk n)
    upRows f tile x sd dt rest (upRow f tile i row side n st)

/-- A job before it in its unit's order uses bytes of the job, or a read of an earlier name does
(R200). -/
def jobHeld (team : Team) (id : Nat) (j : Job) : Bool :=
  let f := footprint j.kind
  (team.jobs.any fun k => k.1 < id && anyMeet (footprint k.2.kind) f) ||
  (team.trains.any fun t => t.2.prods.any fun p => p.1 < id &&
    p.2.parts.any fun q =>
      match q.place with
      | .acc _ => q.got.isNone && anyMeet (q.addrs.map fun o => (true, o, 1)) f
      | _ => false)

def isContract : JobKind → Bool
  | .contract .. => true
  | _ => false

/-- An earlier contraction is in the array of the team's core (R196). -/
def arrayHeld (s : State) (team : Team) (id : Nat) : Bool :=
  s.teams.any fun t => t.2.loc == team.loc &&
    t.2.jobs.any fun k => k.1 < id && isContract k.2.kind

/-- The trains that take a job's flags (R183). -/
def flagTrains (team : Team) (j : Job) : List Nat :=
  ((liveTrains team).filter fun t => flagsTo t.2 t.1 j).map Prod.fst

def orFlagsAll (s : State) (uid : Nat) (f : FlagSet) : List Nat → State
  | [] => s
  | t :: r => orFlagsAll (modTrain s uid t fun x => orFlags x f) uid f r

/-- The steps that a core's array takes from a cycle to another: at most `g` in each window of 64 cycles, the first
of them (R383). -/
def arraySteps (g since now : Nat) : Nat :=
  let upTo (t : Nat) : Nat := t / 64 * g + min (t % 64) g
  upTo now - upTo since

/-- The cycles that a contraction has still to take. -/
def arrayLeft (s : State) (team : Team) (j : Job) : Nat :=
  j.left - arraySteps (coreOf s (coreOfTeam team)).grant j.since s.now

/-- A job has taken its cycles: of the array as the grant lets it step, on the team's core (R383). -/
def jobTimed (s : State) (team : Team) (j : Job) : Bool :=
  if isContract j.kind then !isResident team || arrayLeft s team j == 0
  else decide (j.since + j.left ≤ s.now)

/-- The cycles of a contraction count from now on. -/
def countJob (s : State) (team : Team) (j : Job) : Job :=
  if isContract j.kind then { j with left := arrayLeft s team j, since := s.now } else j

/-- A job is done: it leaves the unit, with its flags. -/
def jobDone (s : State) (uid id : Nat) (j : Job) (team : Team) (f : FlagSet) : State :=
  orFlagsAll (setTeam s uid { team with jobs := mapDel team.jobs id }) uid f (flagTrains team j)

/-- The steps that are left of a contraction, run to their end or to an error. -/
def contractRun (s : State) (uid : Nat) (team : Team) (j : Job) (fmt tile : Word) (goff : BitVec 8)
    (book : Codebooks) (rows : List CxRow) (steps : List (Nat × Nat)) :
    (Team × FlagSet) × Option (Nat × Nat × Nat) :=
  runSteps s uid (cxFmtOf fmt) goff book (tileOff tile) (tileM tile) (tileN tile) rows steps
    (team, j.flags)

/-- The trains that hold a participant of a job, ended ones too: the trap of an ended one goes to another
(R333, R344). -/
def holdTrains (team : Team) (j : Job) : List Nat :=
  (team.trains.filter fun t => flagsTo t.2 t.1 j).map Prod.fst

/-- The work of a team goes on: on its core, or, for a team that has been ended, wherever it is (R197, R201;
log entry 130). -/
def runsJobs (team : Team) : Bool := isResident team || team.aborted

/-- CONTRACTION_COMPLETE (R182, R183, R193, R344): the tile takes the rest of the sum, the flags are
ORed once, and a firing phase completes. -/
def execContractionComplete (uid job : Nat) (s : State) : Host.Outcome State Fault Refusal :=
  .next <|
    match teamOf s uid with
    | none => s
    | some team =>
      match mapGet team.jobs job with
      | none => s
      | some j =>
        match j.kind with
        | .contract fmt tile goff book rows =>
          if !runsJobs team || (coreOf s (coreOfTeam team)).halted || jobHeld team job j ||
              arrayHeld s team job || !jobTimed s team j then s
          else
            let ((team', fl), err) := contractRun s uid team j fmt tile goff book rows
              (stepsFrom rows (tileM tile) j.block j.row)
            let s := jobDone s uid job j team' fl
            let s := match err with
              | none => s
              | some (reason, o, len) =>
                addDeferredAll s uid (mkDeferred 15 reason 0 (BitVec.ofNat 80 o) len 0)
                  (holdTrains team j)
            match j.rv with
            | some n => fireDone s uid n
            | none => s
        | _ => s

/-- R197: a pre-emption stops a contraction at a step boundary; the part of its steps that the
elapsed part of its cycles stands for has been done. -/
def pauseJob (s : State) (uid id : Nat) (j : Job) : State :=
  match teamOf s uid, j.kind with
  | some team, .contract fmt tile goff book rows =>
    if jobHeld team id j || arrayHeld s team id then s
    else
      let steps := stepsFrom rows (tileM tile) j.block j.row
      let j := countJob s team j
      let all := (stepsFrom rows (tileM tile) 0 0).length
      let total := cxCycles (cxFmtOf fmt) (tileM tile) (tileN tile) rows
      let n := steps.length - min steps.length (ceilDiv (all * j.left) total)
      let ((team', fl), err) := contractRun s uid team j fmt tile goff book rows (steps.take n)
      match err, steps[n]? with
      | none, some (q, i) =>
        setTeam s uid { team' with
          jobs := mapPut team'.jobs id { j with block := q, row := i, flags := fl } }
      | _, _ => s
  | _, _ => s

/-- The words of a tile at an offset. -/
def tileRead (team : Team) (tile : Word) (off : Nat) : List (Nat × Nat × Word) :=
  (List.range (tileM tile)).flatMap fun i => (List.range (tileN tile)).map fun j =>
    (i, j, accWord team (tileWord off (tileN tile) i j))

/-- Write words of a tile. -/
def tilePut (team : Team) (tile : Word) : List (Nat × Nat × Word) → Team
  | [] => team
  | (i, j, w) :: r => tilePut (accWordPut team (tileWord (tileOff tile) (tileN tile) i j) w) tile r

/-- What a job other than a contraction does to its team, the flags, and the bytes it writes:
scratchpad, accumulator. -/
def accEffect (team : Team) : JobKind → Team × FlagSet × List Nat × List Nat
  | .write ws => (accPuts team ws, 0, [], ws.map Prod.fst)
  | .store ws => (accPuts team ws, 0, [], ws.map Prod.fst)
  | .clear tile =>
    (tilePut team tile ((tileRead team tile 0).map fun e => (e.1, e.2.1, 0)), 0, [],
      (tileSpans tile (tileOff tile)).flatMap fun p => (List.range p.2).map (p.1 + ·))
  | .move tile off =>
    (tilePut team tile (tileRead team tile off), 0, [],
      (tileSpans tile (tileOff tile)).flatMap fun p => (List.range p.2).map (p.1 + ·))
  | .pack c tile x sd dt =>
    let (ws, fl) := packRows team c tile x sd dt
    (scrPuts team ws, fl, ws.map Prod.fst, [])
  | .unpack c tile x sd dt =>
    let (team, fl) := upRows (convOf c) tile x sd dt (List.range (tileM tile)) (team, 0)
    (team, fl, [], [])
  | .contract .. => (team, 0, [], [])

/-- ACCUMULATOR_INSTRUCTION_COMPLETE (R200, R203, R205). -/
def execAccumulatorInstructionComplete (uid job : Nat) (s : State) :
    Host.Outcome State Fault Refusal :=
  .next <|
    match teamOf s uid with
    | none => s
    | some team =>
      match mapGet team.jobs job with
      | none => s
      | some j =>
        if isContract j.kind || !runsJobs team || jobHeld team job j then s
        else
          let (team', fl, so, ao) := accEffect team j.kind
          let s := jobDone s uid job j team' fl
          clearLocal (clearLocal s uid false so) uid true ao

end Sys2Proof.Machine
end

