-- ==== Sys2Proof/Machine/Access.lean ====
section
/-!
DEFINITION. What memory instructions share: order, scope, space and policy (R20, R42, R44, R271), the
checks on each lane (R213, R269), partial completion and its records (R270, R339), the values that
stores on their way give to loads (R233, R235), and the order of a train's accesses (R233, R238).
-/
namespace Sys2Proof.Machine

/-! ## Order, scope, space, policy -/

/-- The modifiers of an access, as codes of R42. -/
structure Mem where
  order  : Nat
  scope  : Nat
  space  : Nat
  policy : Nat
  nochk  : Bool
  deriving DecidableEq, Repr

/-- A prefix code, or where it is 0 the code of `%memctl` (`d` where that is 0) as the instruction
reads it. -/
def pickCode (p m d : Nat) (fix : Nat → Nat) : Nat := if p ≠ 0 then p else fix (if m = 0 then d else m)

/-- The modifiers of an access; the functions say how the instruction reads codes of `%memctl`. -/
def memMods (t : Train) (p : Option Prefix) (fo fs fp : Nat → Nat) : Mem :=
  let m := t.memctl.toNat
  let q := p.getD ⟨false, false, 0, 0, 0, 0⟩
  ⟨pickCode q.order.toNat (bitsOf m 0 3) 5 fo, pickCode q.scope.toNat (bitsOf m 3 3) 5 id,
   pickCode q.space.toNat (bitsOf m 6 3) 1 fs, pickCode q.policy.toNat (bitsOf m 9 4) 1 fp, q.nochk⟩

/-- An order with the effects of an acquire. -/
def isAcquire (o : Nat) : Bool := o == 2 || o == 4 || o == 5

/-- An order with the effects of a release. -/
def isRelease (o : Nat) : Bool := o == 3 || o == 4 || o == 5

/-- R271: how `ld`, `st`, commutative stores, `atom` and `cas` read `%memctl`. -/
def ldMods (t : Train) (a : Args) : Mem :=
  memMods t a.pre (fun o => if o = 3 || o = 4 then 5 else o) id id
def stMods (t : Train) (a : Args) : Mem :=
  memMods t a.pre (fun o => if o = 2 || o = 4 then 5 else o) id (fun p => if p = 4 then 1 else p)
def crMods (t : Train) (a : Args) : Mem :=
  memMods t a.pre (fun o => if o = 1 then 1 else 3) (fun _ => 1) (fun p => if p = 4 then 1 else p)
def atMods (t : Train) (a : Args) : Mem :=
  memMods t a.pre id (fun x => if x = 3 then 1 else x) (fun p => if p = 4 || p = 5 then 1 else p)
def caslMods (t : Train) (a : Args) : Mem :=
  memMods t a.pre id (fun _ => 1) (fun p => if p = 4 || p = 5 then 1 else p)

/-! ## The checks on each lane (R213, R269) -/

/-- The separate accesses of `n` bytes at `ea`: first byte of the value, address, length; split at
8-byte boundaries (R242). -/
def chunksAt : Nat → Nat → Nat → Nat → List (Nat × Nat × Nat)
  | 0, _, _, _ => []
  | f + 1, ea, sh, left =>
    if left = 0 then []
    else
      let k := min left (8 - ea % 8)
      (sh, ea % 2 ^ 80, k) :: chunksAt f (ea + k) (sh + k) (left - k)

/-- What the check of one access finds. -/
inductive ChunkCheck
  | pass (place : Place) (addrs : List Nat) (mayWrite : Bool)
  | need (page : Nat)
  /-- the peer device has to be asked -/
  | ask
  | fail (code reason page : Nat) (addr : Nat)
  deriving DecidableEq, Repr

/-- The key under which the failures of a range check are grouped (R339). -/
def noPage : Nat := 2 ^ 80

/-- The instruction waits for walks, or has waited: it may take what they have found. -/
def hasWalked : Resume → Bool
  | .walked => true
  | .table _ => true
  | _ => false

/-- Bytes of a global access: the core TLB's translation, or the fault that a walk found; else the
page is awaited (R269, R341). -/
def globCheck (s : State) (x : Site) (acc : Access) (va k : Nat) : ChunkCheck :=
  let page := va / 2 ^ 18
  match tlbFind (coreOf s x.core).tlb x.team.ctx va with
  | some e =>
    match useLeaf s acc va e with
    | .ok pa => .pass .glob ((List.range k).map (pa + ·)) e.w
    | .error e => .fail e.1 e.2 page va
  | none =>
    match if hasWalked x.split.resume then mapGet x.train.walked page else none with
    | some e => .fail e.1 e.2 page va
    | none => .need page

/-- Bytes of a team's scratchpad. -/
def scrCheck (uid size off k : Nat) : ChunkCheck :=
  if size < off + k then .fail 7 0 noPage (max off size)
  else .pass (.scr uid) ((List.range k).map (off + ·)) true

/-- The team of a sibling index, in the accessing team's group (R129, R214). -/
def siblingOf (s : State) (uid : Nat) (team : Team) (m : Nat) : Option (Nat × Team) :=
  if m = team.sib then some (uid, team)
  else s.teams.find? fun e =>
    e.2.launch.isSome && e.2.launch == team.launch && e.2.group == team.group && e.2.sib == m

/-- Bytes of a sibling's scratchpad; the record gives the byte offset in its allocation. -/
def sibCheck (s : State) (x : Site) (ea k : Nat) : ChunkCheck :=
  let m := bitsOf ea 32 2
  let off := ea % 2 ^ 32
  if 2 ^ 34 ≤ ea || x.team.csize ≤ m then .fail 7 0 noPage off
  else match siblingOf s x.uid x.team m with
    | none => .fail 7 0 noPage off
    | some (u, t) => scrCheck u t.scrSize off k

/-- Whether the context's device map allows a device (R356, R357). -/
def mapAllows (s : State) (ctx dev : Nat) : Bool :=
  match devLoad s ctx ((ctxOf s ctx).devmap.toNat + dev / 8) 1 with
  | .ok [b] => b.getLsbD (dev % 8)
  | _ => false

/-- Bytes in the peer-device space (R355, R357). The target checks a load as it serves it; of any other
access it is asked first, and its answer may be a pass of a page that cannot be written (R341). -/
def peerCheck (s : State) (x : Site) (acc : Access) (ea k : Nat) : ChunkCheck :=
  let dev := bitsOf ea 64 13
  let va := ea % 2 ^ 64
  let pass (w : Bool) : ChunkCheck := .pass (.peer dev) ((List.range k).map (va + ·)) w
  if 2 ^ 77 ≤ ea || !mapAllows s x.team.ctx dev then .fail 6 6 (ea / 2 ^ 18) ea
  else if dev = s.device then globCheck s x acc va k
  else if acc = .read then pass true
  else match if hasWalked x.split.resume then mapGet x.train.asked ea else none with
    | none => .ask
    | some (0, r) => pass (r == 0)
    | some (c, r) => .fail c r (ea / 2 ^ 18) ea

/-- One access in its space. -/
def chunkCheck (s : State) (x : Site) (space : Nat) (acc : Access) (ea k : Nat) : ChunkCheck :=
  match space with
  | 2 => scrCheck x.uid x.team.scrSize ea k
  | 3 =>
    if x.team.accSize < ea + k then .fail 7 0 noPage (max ea x.team.accSize)
    else .pass (.acc x.uid) ((List.range k).map (ea + ·)) true
  | 4 => sibCheck s x ea k
  | 5 => peerCheck s x acc ea k
  | _ => globCheck s x acc ea k

/-- A lane that passed: its address, and its separate accesses. -/
structure LanePass where
  lane  : Nat
  va    : Addr
  parts : List Part
  deriving DecidableEq, Repr

/-- What the checks of all lanes find. -/
structure Checked where
  pages  : List Nat
  /-- accesses of which a peer has to be asked: address in the peer space, bytes -/
  asks   : List (Nat × Nat)
  passed : List LanePass
  fails  : List Failure
  deriving DecidableEq, Repr

/-- The failures of a lane's accesses, one for each code and page. -/
def laneFails (l : Nat) : List (Nat × Nat × Nat × ChunkCheck) → List Failure
  | [] => []
  | (_, _, _, .fail c r p a) :: rest =>
    ⟨l, c, r, p, BitVec.ofNat 80 a⟩ ::
      (laneFails l rest).filter fun f => !(f.code == c && f.page == p)
  | _ :: rest => laneFails l rest

def lanePages : List (Nat × Nat × Nat × ChunkCheck) → List Nat
  | [] => []
  | (_, _, _, .need p) :: rest => p :: lanePages rest
  | _ :: rest => lanePages rest

def laneAsks : List (Nat × Nat × Nat × ChunkCheck) → List (Nat × Nat)
  | [] => []
  | (_, va, k, .ask) :: rest => (va, k) :: laneAsks rest
  | _ :: rest => laneAsks rest

/-- The separate accesses of a lane. One through the peer space to the device's own memory is a global
access to the address there (R357). -/
def laneParts (space l : Nat) : List (Nat × Nat × Nat × ChunkCheck) → List Part
  | [] => []
  | (sh, va, _, .pass p as w) :: rest =>
    let va := if space = 5 && p == .glob then va % 2 ^ 64 else va
    ⟨l, sh, BitVec.ofNat 80 va, p, as, w, none, 0⟩ :: laneParts space l rest
  | _ :: rest => laneParts space l rest

/-- Check one lane's access of `n` bytes at `ea`. -/
def checkLane (s : State) (x : Site) (space : Nat) (acc : Access) (n l : Nat) (ea : Addr)
    (c : Checked) : Checked :=
  let cs := if space = 3 then [(0, ea.toNat / n * n, n)] else chunksAt 3 ea.toNat 0 n
  let rs := cs.map fun k => (k.1, k.2.1, k.2.2, chunkCheck s x space acc k.2.1 k.2.2)
  let pages := lanePages rs
  let asks := laneAsks rs
  let fails := laneFails l rs
  if !pages.isEmpty then { c with pages := setUnion c.pages pages }
  else if !asks.isEmpty then { c with asks := asks ++ c.asks }
  else if !fails.isEmpty then { c with fails := fails ++ c.fails }
  else { c with passed := ⟨l, ea, laneParts space l rs⟩ :: c.passed }

/-- The checks of step 4 of R269 on each lane and its address. -/
def checkLanes (s : State) (x : Site) (space : Nat) (acc : Access) (n : Nat) :
    List (Nat × Addr) → Checked
  | [] => ⟨[], [], [], []⟩
  | (l, ea) :: rest => checkLane s x space acc n l ea (checkLanes s x space acc n rest)

/-- The address of each lane by R23 and R268. -/
def laneAddrs (x : Site) (a : Args) (m : AddrMods) (ls : List Nat) : List (Nat × Addr) :=
  ls.map fun l => (l, effAddr (BitVec.ofNat 80 (srcNat x.train a.s1 1 l))
    (srcNat x.train a.s2 (if m.o64 then 2 else 1) l) m.o64 m.scale.toNat)

/-- Core-store or accumulator bytes that an instruction reads hold an error (R344): the lowest failing
byte's offset and the reason. -/
def partsErr (s : State) (ps : List Part) : Option (Addr × Nat) :=
  if s.errs.isEmpty then none
  else (lowSpan (ps.filterMap fun p => match p.place with
    | .scr u => (scrBad s u [(headLane p.addrs, p.addrs.length)]).map fun q => (q.1, 4)
    | .acc u => (accBad s u [(headLane p.addrs, p.addrs.length)]).map fun q => (q.1, 5)
    | _ => none)).map fun q => (BitVec.ofNat 80 q.1, q.2)

/-! ## Partial completion (R270, R339) -/

/-- The end of an instruction of R270 by what its checks have found. -/
def memEnd (x : Site) (n : Nat) (atomic write : Bool) (c : Checked) (go : State → State)
    (s : State) : State :=
  lanesEnd x n atomic write (maskOf (c.passed.map (·.lane))) c.fails go s

/-- An uncorrectable error in a line, in any copy of it (R344). -/
def lineBad (s : State) (ln : Nat) : Bool :=
  s.errs.any fun e => match e with
    | .hbm a => a / 128 == ln
    | .l2 a => a / 128 == ln
    | .l1 _ a => a / 128 == ln
    | .cxl a => a / 128 == ln
    | _ => false

/-- The data of an access that passed may still be lost: to an uncorrectable error (R344); to a
comparison that holds on a page that cannot be written (R341); of a load, to a peer (R357, R362). -/
def mayLose (s : State) (load : Bool) (q : Part) : Bool :=
  !q.mayWrite && !load || match q.place with
    | .glob => lineBad s (headLane q.addrs / 128)
    | .peer _ => load
    | _ => false

/-- The end of an instruction with a producer: where its data may be lost it stands until they have
come, with the lanes that failed already; else R270 and R27. -/
def dataEnd (x : Site) (d : Dst) (id n : Nat) (atomic held : Bool) (c : Checked) (s : State) : State :=
  if held then holdData x id c.fails (modIssuer x s fun t => { t with walked := [], asked := [] })
  else memEnd x n atomic atomic c (advanceProducer x d id) s

/-- The cycles of 10 ms (R362). -/
def peerWait : Nat := 6000000

/-- The code of what an access needs, as a question to a peer carries it. -/
def accessCode : Access → BitVec 4
  | .read => 0
  | .write => 1
  | .both => 2
  | .test => 3
  | .fetch => 4

/-- Ask peers of accesses, of each that has not been asked (R357). -/
def sendProbes (x : Site) (acc : Access) : List (Nat × Nat) → State → State
  | [], s => s
  | (ea, k) :: rest, s =>
    if s.probes.any fun p => p.2.uid == x.uid && p.2.train == x.tn && p.2.ea == ea then
      sendProbes x acc rest s
    else
      let tag := s.nextId
      let dev := bitsOf ea 64 13
      let s := { s with
        nextId := tag + 1
        probes := mapPut s.probes tag ⟨x.uid, x.tn, ea, dev, s.now + peerWait⟩ }
      sendProbes x acc rest (sendTo s dev (.request
        ⟨s.device, x.team.ctx, BitVec.ofNat 64 ea, 4, accessCode acc, k, [], 0, 0, tag⟩))

/-- Translate and check the lanes, wait for walks and for what peers say, then act on those that
passed. -/
def memLanes (x : Site) (m : Mem) (acc : Access) (n : Nat) (eas : List (Nat × Addr))
    (act : Checked → State → State) (s : State) : State :=
  let s := if m.space = 5 then eas.foldl (fun s e => touch s x.team.ctx .read
      ((ctxOf s x.team.ctx).devmap.toNat + bitsOf e.2.toNat 64 13 / 8) 1) s
    else s
  let c := checkLanes s x m.space acc n eas
  if !c.pages.isEmpty then waitWith x (.walk c.pages) .walked s
  else if !c.asks.isEmpty then
    waitWith x (.probe (c.asks.map Prod.fst)) .walked (sendProbes x acc c.asks s)
  else act c s

/-! ## Stores on their way (R233, R235) -/

/-- What a pending operation gives for one byte. -/
inductive Fwd
  | none
  | value (b : Byte)
  /-- the value is not known before the operation is performed -/
  | blocked
  deriving DecidableEq, Repr

/-- A later operation's answer over an earlier one's. -/
def Fwd.over (late early : Fwd) : Fwd :=
  match late with
  | .none => early
  | x => x

/-- One lane's operation. -/
def opByte (o : LaneOp) (p : Place) (a : Nat) : Fwd :=
  if o.place != p then .none
  else match o.addrs.findIdx? (· == a) with
    | none => .none
    | some i =>
      match o.op with
      | .store => .value (o.data.extractLsb' (8 * i) 8)
      | _ => .blocked

/-- The lanes of one instruction: the highest wins (R274). -/
def opsByte (p : Place) (a : Nat) : List LaneOp → Fwd
  | [] => .none
  | o :: rest => (opsByte p a rest).over (opByte o p a)

/-- The train's own queue: its youngest entry before the instruction numbered `seq`. -/
def sqByte (seq : Nat) (p : Place) (a : Nat) : List SqEntry → Fwd
  | [] => .none
  | e :: rest =>
    (sqByte seq p a rest).over (if e.seq < seq then opsByte p a e.ops else .none)

/-- A request gives a load its bytes until its home has performed it: a global one until its
acknowledgement, one of a sibling's scratchpad until the sibling's core has written it (R235, R236). -/
def reqByte (r : Req) (p : Place) (a : Nat) : Fwd :=
  let live := match r.place, r.stage with
    | .scr _, .updating _ => false
    | _, _ => true
  (opsByte p a r.rest).over (if live then opsByte p a r.ops else .none)

/-- Requests beyond the port of the core, or those that a team still follows from before it was vacated
(R248); the youngest first asked. -/
def netByte (core : Nat) (owed : List Nat) (p : Place) (a : Nat) : AMap Req → Fwd
  | [] => .none
  | (k, r) :: rest =>
    (netByte core owed p a rest).over
      (if r.core = core || owed.contains k then reqByte r p a else .none)

/-- R233, then R235. -/
def fwdByte (s : State) (core : Nat) (owed : List Nat) (t : Train) (seq : Nat) (p : Place) (a : Nat) :
    Fwd :=
  (sqByte seq p a t.sq).over (netByte core owed p a s.net)

/-- The bytes of an access, each from a store on its way or else from `base`; none while a byte must
wait for an operation. -/
def accessBytes (s : State) (core : Nat) (owed : List Nat) (t : Train) (seq : Nat) (p : Place)
    (base : Nat → Byte) : List Nat → Option (List Byte)
  | [] => some []
  | a :: rest =>
    match fwdByte s core owed t seq p a, accessBytes s core owed t seq p base rest with
    | .blocked, _ => none
    | _, none => none
    | .value b, some l => some (b :: l)
    | .none, some l => some (base a :: l)

/-! ## What an access finds at its line -/

/-- A virtual address lies in a commutative range of the context (R226): its operation. -/
def rangeOp (c : Ctx) (va : Nat) : Option (BitVec 2) :=
  (c.ranges.find? fun r => r.start.toNat ≤ va && va < r.start.toNat + r.len).map (·.op)

/-- A core holds a partial of a line (R227). -/
def holdsPartial (s : State) (core ln : Nat) : Bool :=
  s.partials.any fun p => p.core == core && !p.atHome && p.pa / 128 == ln

/-! ## The order of a train's accesses -/

/-- Every separate access of a load has been performed. -/
def loadDone (p : Producer) : Bool := p.parts.all fun q => q.got.isSome || q.bad != 0

/-- Every lane of an atomic has been performed. -/
def lanesBack (p : Producer) : Bool :=
  (lanesOf p.lanes).all fun l => (mapGet p.vals l).isSome || (mapGet p.bad l).isSome

/-- A producer is no bar to later accesses of its train: a load that is performed (R233); an atomic
that has taken its values, where its order is an acquire (R238). -/
def prodPassed (p : Producer) : Bool :=
  match p.kind with
  | .alu => true
  | .acc _ => true
  | .load _ _ => loadDone p
  | _ => !isAcquire p.order.toNat || lanesBack p

/-- Every earlier producer of the train lets an access numbered `seq` be performed. -/
def earlierPassed (t : Train) (seq : Nat) : Bool :=
  t.prods.all fun p => seq ≤ p.2.seq || prodPassed p.2

/-- An earlier seq_cst store or atomic of the train has not been performed at its home (R238). -/
def scPending (s : State) (uid tn : Nat) (t : Train) (seq : Nat) : Bool :=
  (t.sq.any fun e => e.seq < seq && e.order == 5) ||
  s.net.any fun r => r.2.uid == uid && r.2.trains.contains tn && r.2.order == 5 && r.2.seq < seq

/-- A load numbered `seq` may be performed now. -/
def loadTurn (s : State) (uid tn : Nat) (t : Train) (seq : Nat) : Bool :=
  earlierPassed t seq && !scPending s uid tn t seq

/-- The cores of one L1: a core, or the four of a fused cluster (R220). -/
def l1Cores (s : State) (core : Nat) : List Nat :=
  if s.fused.contains (clusterOf core) then (List.range 4).map (clusterOf core * 4 + ·) else [core]

/-- The invalidation of an acquire at device or system scope (R223, R238): every line homed on
another die leaves the core's L1. -/
def dropForeign (s : State) (core : Nat) : State :=
  (l1Cores s core).foldl (fun s n => scrubL1 (modCore s n fun c =>
    { c with l1 := c.l1.filter fun l => homeDie (128 * l.1) == dieOf n }) n
      fun ln => homeDie (128 * ln) != dieOf n) s

/-- What an access that acquires does once it has taken its value. -/
def acquired (order scope core : Nat) (s : State) : State :=
  if isAcquire order && 5 ≤ scope && core < 256 then dropForeign s core else s

/-- A recorded release includes the reader (R229). -/
def scopeIncludes (r : ScopeRec) (ctx core uid tn : Nat) : Bool :=
  match r.scope.toNat with
  | 1 => r.ctx == ctx && r.core == core && r.uid == uid && r.train == tn
  | 2 => r.core == core && r.uid == uid
  | 3 => clusterOf r.core == clusterOf core
  | 4 => dieOf r.core == dieOf core
  | _ => true

/-- SCOPE_MISMATCH of an acquire that reads a line with a record (R229, R333, R338). -/
def scopeCheck (s : State) (uid tn : Nat) (order : Nat) (nochk atomic : Bool) (r : Option ScopeRec)
    (va : Addr) (n : Nat) : State :=
  match r, teamOf s uid with
  | some r, some team =>
    if isAcquire order && !nochk && (ctxOf s team.ctx).scopechk &&
        !scopeIncludes r team.ctx (coreOfTeam team) uid tn then
      addDeferred s uid tn
        { mkDeferred 9 0 0 va n 0 with
          detail := BitVec.ofNat 32 (r.core % 2 ^ 16 * 2 ^ 10 + r.train % 64 * 16 + r.scope.toNat)
          atomic := atomic
          write := atomic }
    else s
  | _, _ => s

/-- The elements of a list at the given places, and the others. -/
def pickOut {α : Type} (picks : List Nat) : Nat → List α → List α × List α
  | _, [] => ([], [])
  | i, o :: rest =>
    let (a, b) := pickOut picks (i + 1) rest
    if picks.contains i then (o :: a, b) else (a, o :: b)

/-- Those of a list that the next step takes: the ones it picks, or all (log entry 16). -/
def pickFrom {α : Type} (s : State) (l : List α) : List α :=
  match (pickOut s.pick 0 l).1 with
  | [] => l
  | qs => qs

/-- The cycles the default schedule gives an access of a core to a physical address (R9, R220). -/
def latOf (s : State) (core pa : Nat) : Nat :=
  let h := homeSlice pa
  let far := if h = nearSlice core then Config.latNear
    else if h / 64 = dieOf core then Config.latFar else Config.latDie
  match mapGet (coreOf s (l1Holder s core pa)).l1 (pa / 128), mapGet s.l2 (pa / 128) with
  | some _, _ => if l1Holder s core pa = core then Config.latL1 else 24
  | none, some _ => far
  | none, none => if regionOf pa = .hbm then Config.latHbm else Config.latCxl

/-- The same for an access in any space. -/
def placeLat (s : State) (uid core : Nat) (p : Part) : Nat :=
  match p.place with
  | .glob => latOf s core (headLane p.addrs)
  | .peer _ => 1200
  | .scr u => if u = uid then Config.latScratch else 24
  | .acc _ => Config.latScratch

end Sys2Proof.Machine
end

