-- ==== Sys2Proof/Machine/Caches.lean ====
section
/-!
DEFINITION. The L1s and the L2 slices (R218 to R225, R244): where a load finds its bytes, the reading of
a line at its home, replicas; and the performing of a load's accesses.
-/
namespace Sys2Proof.Machine

/-- A line may be allocated in L2 for a context under a policy (R218, R224). -/
def mayAlloc (s : State) (ctx policy : Nat) : Bool := policy != 6 && wayMask s ctx != 0

/-- A line that an access of a context brings into L2, or uses there (R218, R224). -/
def homeBring (s : State) (ctx ln policy : Nat) : State :=
  match mapGet s.l2 ln with
  | some _ => { s with l2 := mapMod s.l2 ln fun l => { l with used := s.now } }
  | none =>
    if !mayAlloc s ctx policy then s
    else match makeRoom s (homeSlice (128 * ln)) ln (wayMask s ctx) with
      | (s, some w) => homeAlloc s ln (policy == 2) w
      | (s, none) => s

/-- The 32-byte sectors of a line that hold the given addresses (R219). -/
def sectorsOf : List Nat → BitVec 4
  | [] => 0
  | a :: t => BitVec.ofNat 4 (2 ^ (a % 128 / 32)) ||| sectorsOf t

/-- The bits of a line in the given sectors. -/
def sectorBits (k : BitVec 4) : Line :=
  let one (i : Nat) : Line :=
    if k.getLsbD i then BitVec.shiftLeft (BitVec.ofNat 1024 (2 ^ 256 - 1)) (256 * i) else 0
  one 0 ||| one 1 ||| one 2 ||| one 3

/-- The sectors of a line without an error at its home: no other enters an L1 (R344). -/
def soundSectors (s : State) (ln : Nat) (k : BitVec 4) : BitVec 4 :=
  if s.errs.isEmpty then k
  else k &&& ~~~sectorsOf ((List.range 16).filterMap fun i =>
    if errAt s (128 * ln + 8 * i) != 0 then some (8 * i) else none)

/-- The lines that a core's L1 can hold: 512 KiB (R8). -/
def l1Lines : Nat := 4096

/-- The line that leaves a full L1 when `ln` enters: one placed first for replacement (R224), else the
lowest. -/
def l1Victim (l1 : AMap L1Line) (ln : Nat) : Option Nat :=
  if l1.length < l1Lines || (mapGet l1 ln).isSome then none
  else match l1.find? fun e => e.2.first with
    | some e => some e.1
    | none => (l1.head?).map Prod.fst

/-- Sectors of a line enter an L1 from the home's copy, with its scope record (R219, R229). Sectors that
it held before, where a write has come between, make the copy a mixed one (R223, R242). -/
def fillL1 (s : State) (holder ln : Nat) (k : BitVec 4) (via : Option Nat) (first : Bool) : State :=
  match mapGet s.l2 ln with
  | none => s
  | some h =>
    let k := soundSectors s ln k
    let s := match l1Victim (coreOf s holder).l1 ln with
      | some v => invalLine s holder v
      | none => s
    let old := (mapGet (coreOf s holder).l1 ln).getD ⟨0, 0, none, none, first, false⟩
    let rest := old.sectors &&& ~~~k
    let l : L1Line :=
      { data := (old.data &&& ~~~sectorBits k) ||| (h.data &&& sectorBits k)
        sectors := old.sectors ||| k
        scope := h.scope
        via := via
        first := first
        mixed := rest != 0 && (old.mixed || old.data &&& sectorBits rest != h.data &&& sectorBits rest) }
    if old.sectors ||| k = 0 then s
    else modCore s holder fun c => { c with l1 := mapPut c.l1 ln l }

/-- The home records a sharer, a core of its own die (R221, R223). -/
def addSharer (s : State) (ln core : Nat) : State :=
  if homeDie (128 * ln) = dieOf core then
    { s with l2 := mapMod s.l2 ln fun l => { l with sharers := setAdd l.sharers core } }
  else s

/-- A replica slice supplies an L1, where there is one, for a launch; the replica is made where there is
none (R225). -/
def addReplica (s : State) (ln slice way : Nat) (core launch : Option Nat) : State :=
  let also (l : List Nat) : Option Nat → List Nat
    | some n => setAdd l n
    | none => l
  { s with l2 := mapMod s.l2 ln fun l =>
      let old := (l.replicas.find? (·.slice == slice)).getD ⟨slice, [], [], way, 0⟩
      let new : Replica :=
        { old with
          supplied := also old.supplied core
          launches := also old.launches launch
          used := s.now }
      { l with replicas := l.replicas.filter (·.slice != slice) ++ [new] } }

def replicaSlices (s : State) (ln : Nat) : List Nat :=
  match mapGet s.l2 ln with
  | some l => l.replicas.map (·.slice)
  | none => []

/-- What a read at the home brings along: into the core's L1, and, under the replicate policy, into its
near slice. -/
structure Bring where
  toL1 : Bool
  near : Bool
  deriving DecidableEq, Repr

/-- A replica of a line is made or used in the near slice of a core: where, and in which way; none for a
context that may allocate in no way (R218, R225). -/
def nearReplica (s : State) (core ctx ln : Nat) : State × Option (Nat × Nat) :=
  let N := nearSlice core
  let rs := replicaSlices s ln
  if N = homeSlice (128 * ln) then (s, none)
  else if wayMask s ctx = 0 then (s, none)
  else if rs.contains N then (s, some (N, 0))
  else if 4 ≤ rs.length then (s, none)
  else match makeRoom s N ln (wayMask s ctx) with
    | (s, some w) => (s, some (N, w))
    | (s, none) => (s, none)

/-- A line is read at its home for a core (R219, R221, R224, R225, R228, R365): partials are combined, the
line may enter L2, the core's L1, and the near slice. -/
def homeFetch (s : State) (core ctx ln policy : Nat) (b : Bring) (k : BitVec 4) (launch : Option Nat) :
    State :=
  let s := homeBring (combineLine s ln) ctx ln policy
  if (mapGet s.l2 ln).isNone || 256 ≤ core || regionOf (128 * ln) = .host then s
  else
    let h := l1Holder s core (128 * ln)
    let (s, rep) := if policy == 4 && b.near then nearReplica s core ctx ln else (s, none)
    let goal := if b.toL1 && policy != 3 then some h else none
    match rep, goal with
    | some (N, w), goal =>
      let s := addReplica s ln N w goal launch
      if goal.isSome then fillL1 s h ln k (some N) false else s
    | none, some h => fillL1 (addSharer s ln h) h ln k none (policy == 2)
    | none, none => s

/-! ## Where a load finds its bytes -/

/-- A load of the line goes to the home whatever the L1 holds (R224, R227, R238, R244, R365). -/
def forcedHome (s : State) (core ctx : Nat) (p : Producer) (q : Part) (ln : Nat) : Bool :=
  p.order == 5 || p.policy == 3 || 256 ≤ core || regionOf (128 * ln) = .host ||
    (rangeOp (ctxOf s ctx) q.va.toNat).isSome ||
    holdsPartial s (l1Holder s core (128 * ln)) ln

/-- The line that an access beyond the core asks for, or none for one that is local: global lines by
number, lines of peers beyond them (R357). -/
def partLine (q : Part) : Option Nat :=
  match q.place with
  | .glob => some (headLane q.addrs / 128)
  | .peer d => some (2 ^ 60 * (d + 1) + headLane q.addrs / 128)
  | _ => none

/-- A load's accesses exactly cover one line, each of 4 or 8 aligned bytes: they read one copy at one
moment (R242). -/
def wholeLine (p : Producer) (line : Nat) : Bool :=
  (p.parts.all fun q => partLine q == some line &&
    (q.addrs.length == 4 || q.addrs.length == 8) && headLane q.addrs % q.addrs.length == 0) &&
  (List.range 128).all fun i => p.parts.any fun q => q.addrs.any fun a => a % 128 == i

/-- The L1 copy from which an access would be served. -/
def l1Copy (s : State) (core ctx : Nat) (p : Producer) (q : Part) : Option L1Line :=
  let a := headLane q.addrs
  if q.place != .glob || forcedHome s core ctx p q (a / 128) then none
  else
    match mapGet (coreOf s (l1Holder s core a)).l1 (a / 128) with
    | none => none
    | some l =>
      if sectorsOf q.addrs &&& ~~~l.sectors = 0 && !(l.mixed && wholeLine p (a / 128)) then some l
      else none

/-- An access has not been performed. -/
def partOpen (q : Part) : Bool := q.got.isNone && q.bad == 0

/-! ## Invariant loads (R243) -/

/-- The values that broken promises let an invariant load of a kernel find beside the current one. -/
def InvCell.free (c : InvCell) (kernel : Nat) : List DWord :=
  (c.olds.filter fun e => e.2.any fun k => k == kernel || c.promised.contains k).map Prod.fst

/-- What an invariant load of a kernel finds in a granule. -/
def invGranule (s : State) (kernel : Nat) (base : Nat → Byte) (g : Nat) : DWord :=
  let cur := granule base g
  match ((defGet ⟨[], []⟩ s.inv g).free kernel).filter (· != cur) with
  | [] => cur
  | olds => ((cur :: olds)[Config.invariantPick s.drawn g % (olds.length + 1)]?).getD cur

/-- The bytes of global memory as a load of a kernel under a policy finds them. -/
def policyBase (s : State) (kernel : Nat) (policy : BitVec 4) (base : Nat → Byte) : Nat → Byte :=
  if policy == 5 then fun a => (invGranule s kernel base (a / 8)).extractLsb' (8 * (a % 8)) 8 else base

/-- A kernel has promised that some granules are not written. -/
def keepPromise (kernel : Nat) : List Nat → AMap InvCell → AMap InvCell
  | [], m => m
  | g :: rest, m =>
    let c := defGet ⟨[], []⟩ m g
    keepPromise kernel rest (mapPut m g { c with promised := setAdd c.promised kernel })

/-- An invariant load of granules makes its promise, and the free value is drawn. -/
def keepInv (s : State) (kernel : Nat) (policy : BitVec 4) (gs : List Nat) : State :=
  if policy != 5 then s
  else { s with drawn := s.drawn + 1, inv := keepPromise kernel gs s.inv }

/-- The granules of global accesses. -/
def partGranules (qs : List Part) : List Nat :=
  (qs.filter (·.place == .glob)).map fun q => headLane q.addrs / 8

/-! ## Performing a load's accesses -/

/-- Perform one access with its bytes from `base`; none while a byte waits. `err` is the reason code
of an uncorrectable error at a byte (R344). -/
def readPart (s : State) (core : Nat) (owed : List Nat) (t : Train) (seq : Nat) (base : Nat → Byte)
    (err : Nat → Nat) (q : Part) : Option Part :=
  match accessBytes s core owed t seq q.place base q.addrs with
  | none => none
  | some bs =>
    match q.addrs.find? fun a => err a != 0 && fwdByte s core owed t seq q.place a == .none with
    | some a => some { q with bad := BitVec.ofNat 8 (err a) }
    | none => some { q with got := some (BitVec.ofNat 64 (leNat bs)) }

/-- Perform those of a load's open accesses that `f` answers for: a function gives the reading of
each, or none for one that is left. -/
def readParts (f : Part → Option (Option Part)) : List Part → Option (List Part)
  | [] => some []
  | q :: rest =>
    match readParts f rest with
    | none => none
    | some l =>
      if !partOpen q then some (q :: l)
      else match f q with
        | none => some (q :: l)
        | some none => none
        | some (some q') => some (q' :: l)

/-- Keep what a load has read; the invalidation of an acquire follows its last access (R238). -/
def storeParts (s : State) (uid tn prod core : Nat) (p : Producer) (parts : List Part) : State :=
  let p' := { p with parts := parts }
  let s := modTrain s uid tn fun t => { t with prods := mapPut t.prods prod p' }
  if !loadDone p && loadDone p' then acquired p.order.toNat p.scope.toNat core s else s

/-- Perform accesses of a unit's load, all in one line: from the core's L1 where it holds them, else at the
home (R219, R225, R237). The state, the accesses, and the record of the copy that was read (R229); none while a
byte waits. -/
def readLine (s : State) (uid core : Nat) (team : Team) (t : Train) (p : Producer) (ln : Nat)
    (qs : List Part) : Option (State × List Part × Option ScopeRec) :=
  let done (s : State) (base : Nat → Byte) (err : Nat → Nat) (r : Option ScopeRec) :
      Option (State × List Part × Option ScopeRec) :=
    let base := policyBase s (kernelOf uid team) p.policy base
    (readParts (fun q => some (readPart s core team.owed t p.seq base err q)) qs).map fun ps =>
      (keepInv s (kernelOf uid team) p.policy (partGranules qs), ps, r)
  match qs.findSome? (l1Copy s core team.ctx p), qs.all fun q => (l1Copy s core team.ctx p q).isSome with
  | some l, true =>
    done s (fun a => lineByte l.data (a % 128)) (errL1 s (l1Holder s core (128 * ln))) l.scope
  | _, _ =>
    let free := !(qs.any fun q => forcedHome s core team.ctx p q ln)
    let s := homeFetch s core team.ctx ln p.policy.toNat ⟨free, free⟩ (sectorsOf (qs.flatMap (·.addrs)))
      team.launch
    done s (homeByte s) (errAt s) ((mapGet s.l2 ln).bind (·.scope))

/-- The lowest address of a load's accesses. -/
def lowVa (qs : List Part) : Addr :=
  match qs with
  | [] => 0
  | q :: rest => rest.foldl (fun (m : Addr) p => if p.va.toNat < m.toNat then p.va else m) q.va

/-- Perform accesses of a unit's load of `n` bytes, line by line, with the scope checks of what it acquires
(R229). -/
def readLines (s : State) (uid tn core : Nat) (team : Team) (t : Train) (p : Producer) (n : Nat)
    (qs : List Part) : List Nat → Option (State × List Part)
  | [] => some (s, [])
  | ln :: rest =>
    match readLine s uid core team t p ln (qs.filter fun q => partLine q == some ln) with
    | none => none
    | some (s, ps, r) =>
      let s := scopeCheck s uid tn p.order.toNat p.nochk false r (lowVa ps) n
      (readLines s uid tn core team t p n qs rest).map fun e => (e.1, ps ++ e.2)

/-- The access of a load that failed with the lowest address. -/
def lowBad (qs : List Part) : Option Part :=
  match qs.filter fun q => q.bad != 0 with
  | [] => none
  | q :: rest => some (rest.foldl (fun m p => if p.va.toNat < m.va.toNat then p else m) q)

end Sys2Proof.Machine
end

