-- ==== Sys2Proof/Machine/Memory.lean ====
section
/-!
DEFINITION. Memory instructions (R206, R207, R268 to R286, R119): opcodes 0x80 to 0x8D.
-/
namespace Sys2Proof.Machine

/-! ## Loads and stores -/

/-- Core-store and accumulator bytes of accesses, as the work of the accumulator unit names them. -/
def workSpans (x : Site) (ps : List Part) : List (Bool × Nat × Nat) :=
  ps.filterMap fun q => match q.place with
    | .acc _ => some (true, headLane q.addrs, q.addrs.length)
    | .scr u => if u = x.uid then some (false, headLane q.addrs, q.addrs.length) else none
    | _ => none

/-- Earlier work of the train still uses bytes of the accesses (R201). -/
def workBlocked (x : Site) (ps : List Part) : Bool := jobBlocks x.team x.tn (workSpans x ps)

/-- MEM_UNCORRECTABLE before any effect (R344). -/
def trapErr (x : Site) (reason : Nat) (addr : Addr) (n : Nat) (atomic write : Bool) (s : State) :
    State :=
  trapHere x 15 [siteRec x 15 reason 0 addr n x.split.mask x.train.done atomic write false 0] s

/-- What the step before the checks on lanes may find (R157, R213, R215, R269). -/
def spaceTrap (x : Site) (m : Mem) (n : Nat) (go : State → State) (s : State) : State :=
  if m.space = 3 && n ≠ 4 && n ≠ 8 then trapIllegal x s
  else if m.space = 4 && x.team.determ then trapDet x s
  else go s

/-- The producer of a load. -/
def loadProducer (s : State) (x : Site) (d : Dst) (n : Nat) (sx : Bool) (m : Mem) (lanes : List Nat)
    (parts : List Part) : Producer where
  seq := x.train.seq
  pc := x.pc
  kind := .load n sx
  dst := d
  lanes := maskOf lanes
  order := BitVec.ofNat 3 m.order
  scope := BitVec.ofNat 3 m.scope
  policy := BitVec.ofNat 4 m.policy
  nochk := m.nochk
  parts := parts
  vals := []
  oks := 0
  flags := 0
  bad := []
  held := false
  due := s.now + parts.foldl (fun (k : Nat) q => max k (placeLat s x.uid x.core q)) 0

/-- The effect of `ld` for the lanes that passed (R273). -/
def ldAct (x : Site) (d : Dst) (n : Nat) (sx : Bool) (m : Mem) (c : Checked) (s : State) : State :=
  let parts := c.passed.flatMap (·.parts)
  match partsErr s parts with
  | some (va, r) => trapErr x r va n false false s
  | none =>
    if workBlocked x parts then waitFor x (.jobs s.nextId) s
    else
      let id := s.nextId
      let held := parts.any (mayLose s true)
      dataEnd x d id n false held c
        (if c.passed.isEmpty then s
        else addProducer x
          { loadProducer s x d n sx m (c.passed.map (·.lane)) parts with held := held } s)

/-- R272, R273. -/
def execLd (a : Args) (size : BitVec 3) (sx : Bool) (m : AddrMods) (s : State) :
    Host.Outcome State Fault Refusal :=
  issue (.ld a size sx m) a s fun x =>
    let n := sizeBytes size
    let k := ldMods x.train a
    spaceTrap x k n fun s =>
      memLanes x k .read n (laneAddrs x a m (writtenLanes x a.dst))
        (ldAct x (dstOf a.dst (sigOf (.ld a size sx m)).dst.n) n sx k) s

/-- One lane's operations, one for each separate access. -/
def laneOps (op : MemOp) (data : Nat) (cmp : DWord) (p : LanePass) : List LaneOp :=
  p.parts.map fun q =>
    ⟨q.lane, q.va, q.place, q.addrs, op, BitVec.ofNat 128 (data / 2 ^ (8 * q.shift)), cmp, q.mayWrite⟩

/-- Put operations into the train's store queue (R234). -/
def enqueue (x : Site) (m : Mem) (ops : List LaneOp) (prod : Option Nat) (s : State) : State :=
  if ops.isEmpty then s
  else modIssuer x s fun t =>
    { t with sq := t.sq ++ [⟨x.train.seq, x.pc, BitVec.ofNat 3 m.order, BitVec.ofNat 3 m.scope,
        BitVec.ofNat 4 m.policy, ops, prod⟩] }

/-- The effect of `st` for the lanes that passed (R273, R215). -/
def stAct (x : Site) (n : Nat) (m : Mem) (data : Nat → Nat) (c : Checked) (s : State) : State :=
  let ops := c.passed.flatMap fun p => laneOps .store (data p.lane) 0 p
  if workBlocked x (c.passed.flatMap (·.parts)) then waitFor x (.jobs s.nextId) s
  else
    memEnd x n false true c (advance x) (enqueue x m ops none s)

/-- R272, R273. -/
def execSt (a : Args) (size : BitVec 3) (m : AddrMods) (s : State) :
    Host.Outcome State Fault Refusal :=
  issue (.st a size m) a s fun x =>
    let n := sizeBytes size
    let k := stMods x.train a
    spaceTrap x k n fun s =>
      memLanes x k .write n (laneAddrs x a m x.lanes)
        (stAct x n k fun l => srcNat x.train a.s3 (sigOf (.st a size m)).s3.n l) s

/-- MISALIGNED_ATOMIC of the whole instruction (R269); its record gives the lowest address at fault. -/
def alignTrap (x : Site) (n : Nat) (atomic : Bool) (eas : List (Nat × Addr)) (go : State → State)
    (s : State) : State :=
  match eas.filter fun e => e.2.toNat % n != 0 with
  | [] => go s
  | e :: rest =>
    let low := rest.foldl (fun (m : Nat) f => min m f.2.toNat) e.2.toNat
    trapHere x 4 [siteRec x 4 0 0 (BitVec.ofNat 80 low) n x.split.mask x.train.done atomic true false 0] s

/-- A commutative store's lanes against the ranges of the context (R227, R275): a lane outside every
range of its size fails. -/
def rangeLanes (s : State) (x : Site) (n : Nat) : List LanePass → List LanePass × List Failure
  | [] => ([], [])
  | p :: rest =>
    let (ok, bad) := rangeLanes s x n rest
    match rangeOp (ctxOf s x.team.ctx) p.va.toNat with
    | some op =>
      if foldBytes op = n then (p :: ok, bad)
      else (ok, ⟨p.lane, 6, 4, p.va.toNat / 2 ^ 18, p.va⟩ :: bad)
    | none => (ok, ⟨p.lane, 6, 4, p.va.toNat / 2 ^ 18, p.va⟩ :: bad)

/-- Insert a failure by its lane. -/
def failInsert (f : Failure) : List Failure → List Failure
  | [] => [f]
  | g :: rest => if g.lane < f.lane then g :: failInsert f rest else f :: g :: rest

/-- The effect of a commutative store (R227, R275). -/
def crAct (x : Site) (n : Nat) (m : Mem) (data : Nat → Nat) (c : Checked) (s : State) : State :=
  let (ok, bad) := rangeLanes s x n c.passed
  let c : Checked := ⟨[], [], ok, bad.foldr failInsert c.fails⟩
  let ops := ok.flatMap fun p =>
    laneOps (.fold ((rangeOp (ctxOf s x.team.ctx) p.va.toNat).getD 0)) (data p.lane) 0 p
  memEnd x n false true c (advance x) (enqueue x m ops none s)

/-- R275. -/
def execStCr (a : Args) (size : BitVec 3) (m : AddrMods) (s : State) :
    Host.Outcome State Fault Refusal :=
  issue (.stCr a size m) a s fun x =>
    let n := sizeBytes size
    let k := crMods x.train a
    let eas := laneAddrs x a m x.lanes
    alignTrap x n false eas fun s =>
      memLanes x k .write n eas
        (crAct x n k fun l => srcNat x.train a.s3 (sigOf (.stCr a size m)).s3.n l) s

/-! ## Atomics (R276 to R281) -/

/-- The producer of an atomic: its old values come back with the acknowledgements; its accesses only
name the addresses. -/
def atomProducer (s : State) (x : Site) (d : Dst) (kind : ProdKind) (m : Mem) (c : Checked) :
    Producer :=
  { loadProducer s x d 0 false m (c.passed.map (·.lane)) (c.passed.flatMap (·.parts)) with
    kind := kind }

/-- The effect of an atomic for the lanes that passed (R277, R280). -/
def atomAct (x : Site) (d : Dst) (n : Nat) (kind : ProdKind) (m : Mem) (op : Nat → MemOp)
    (data cmp : Nat → Nat) (c : Checked) (s : State) : State :=
  let parts := c.passed.flatMap (·.parts)
  match partsErr s parts with
  | some (va, r) => trapErr x r va n true true s
  | none =>
    if workBlocked x parts then waitFor x (.jobs s.nextId) s
    else
    let id := s.nextId
    let held := parts.any (mayLose s false)
    let ops := c.passed.flatMap fun p =>
      laneOps (op p.lane) (data p.lane) (BitVec.ofNat 64 (cmp p.lane)) p
    dataEnd x d id n true held c
      (if c.passed.isEmpty then s
      else enqueue x m ops (some id)
        (addProducer x { atomProducer s x d kind m c with held := held } s))

/-- DET_VIOLATION of an atomic (R157). -/
def atomDet (x : Site) (m : Mem) : Bool :=
  x.team.determ && (m.space == 1 || m.space == 5 || m.space == 4)

/-- R276, R277. -/
def execAtom (a : Args) (op : BitVec 4) (m : AddrMods) (d : Bool) (s : State) :
    Host.Outcome State Fault Refusal :=
  issue (.atom a op m d) a s fun x s =>
    let n := if d then 8 else 4
    let k := atMods x.train a
    if atomDet x k then trapDet x s
    else alignTrap x n true (laneAddrs x a m x.lanes) (fun s =>
      memLanes x k .both n (laneAddrs x a m (writtenLanes x a.dst))
        (atomAct x (dstOf a.dst (n / 4)) n (.atom n) k (fun _ => .atom op)
          (fun l => srcNat x.train a.s3 (n / 4) l) (fun _ => 0)) s) s

/-- R276, R277. The comparand is the destination as it stands at issue. -/
def execCas (a : Args) (pS : BitVec 3) (m : AddrMods) (d : Bool) (s : State) :
    Host.Outcome State Fault Refusal :=
  issue (.cas a pS m d) a s fun x s =>
    let n := if d then 8 else 4
    let k := atMods x.train a
    if atomDet x k then trapDet x s
    else alignTrap x n true (laneAddrs x a m x.lanes) (fun s =>
      memLanes x k .test n (laneAddrs x a m (writtenLanes x a.dst))
        (atomAct x (dstOf a.dst (n / 4)) n (.cas n pS) k (fun _ => .cas)
          (fun l => srcNat x.train a.s3 (n / 4) l)
          (fun l => srcNat x.train a.dst (n / 4) l)) s) s

/-- R278 to R280. -/
def execCasl (a : Args) (m : CaslMods) (s : State) : Host.Outcome State Fault Refusal :=
  issue (.casl a m) a s fun x s =>
    let n := if m.d then 8 else 4
    let k := caslMods x.train a
    let am : AddrMods := ⟨m.scale, m.o64⟩
    if x.team.determ then trapDet x s
    else alignTrap x n true (laneAddrs x a am x.lanes) (fun s =>
      memLanes x k .test n (laneAddrs x a am (writtenLanes x a.dst))
        (atomAct x (dstOf a.dst (if m.d then 4 else 2)) n (.casl n) k
          (fun l => .casl m.task (BitVec.ofNat 64 (srcNat x.train m.pay 2 l)))
          (fun l => srcNat x.train a.s3 (n / 4) l)
          (fun l => srcNat x.train a.dst (n / 4) l)) s) s

/-! ## Fences (R241, R282) -/

/-- A request counts for a scope (R239, R359): a peer's only at system scope. -/
def reqCounts (sys : Bool) (r : Req) : Bool :=
  match r.place with
  | .peer _ => sys
  | _ => true

/-- The requests beyond a core's port that a release of a team waits for (R238, R239): the core's, and those
that the team follows from before it was vacated (R248). -/
def coreReqs (s : State) (core : Nat) (owed : List Nat) (sys : Bool) : List Nat :=
  mapKeys (s.net.filter fun r => (r.2.core == core || owed.contains r.1) && reqCounts sys r.2)

/-- The conditions of a fence hold. -/
def fenceOver (s : State) (uid tn : Nat) (t : Train) (acq rel wide sys : Bool) (reqs : List Nat) :
    Bool :=
  (!acq || t.prods.all fun p => match p.2.kind with
    | .load _ _ => loadDone p.2
    | _ => true) &&
  (!rel || (t.sq.isEmpty && (!wide || s.net.all fun r =>
    !(reqs.contains r.1 || (r.2.uid == uid && r.2.trains.contains tn && reqCounts sys r.2)))))

/-- Hold until the conditions of a fence or a release hold; `loads` where the train's earlier loads are
among them. They are performed first: what has passed the core's port by then is what the release covers, so
that it covers every store that a load of the train may have read (R238). -/
def holdFor (x : Site) (loads rel wide sys : Bool) (go : State → State) (s : State) : State :=
  let hold (reqs : List Nat) : State :=
    if fenceOver s x.uid x.tn x.train loads rel wide sys reqs then go s
    else waitWith x (.fence loads rel wide sys reqs) (.fence reqs) s
  match x.split.resume with
  | .fence reqs => hold reqs
  | _ =>
    if !fenceOver s x.uid x.tn x.train loads false false sys [] then
      waitWith x (.fence loads false false sys []) .begun s
    else hold (if rel && wide then coreReqs s x.core x.team.owed sys else [])

/-- Hold at a fence, or go on (R241). -/
def fenceAt (x : Site) (order scope : Nat) (go : State → State) (s : State) : State :=
  holdFor x (isAcquire order) (isRelease order) (3 ≤ scope) (scope == 6)
    (fun s => go (acquired order scope x.core s)) s

/-- Hold until the conditions of a release at a scope hold for the train's earlier accesses (R179, R238). -/
def releaseAt (x : Site) (scope : Nat) (go : State → State) (s : State) : State :=
  holdFor x true true (3 ≤ scope) (scope == 6) go s

/-- R282. -/
def execFence (a : Args) (scope order : BitVec 3) (s : State) : Host.Outcome State Fault Refusal :=
  issue (.fence a scope order) a s fun x s =>
    let m := x.train.memctl.toNat
    fenceAt x (pickCode order.toNat (bitsOf m 0 3) 5 id) (pickCode scope.toNat (bitsOf m 3 3) 5 id)
      (advance x) s

/-! ## Prefetch and invalidate (R284) -/

/-- The physical address of a lane as the core's TLB or a walk gives it. -/
def peekXlate (s : State) (x : Site) (acc : Option Access) (va : Nat) : Option Nat :=
  let e := match tlbFind (coreOf s x.core).tlb x.team.ctx va with
    | some e => some e
    | none => (leafOf s x.team.ctx va).toOption
  match e, acc with
  | none, _ => none
  | some e, some acc => (useLeaf s acc va e).toOption
  | some e, none => some (e.pbase + va % 2 ^ e.bits)

/-- What the homes do for that translation. -/
def peekTouch (s : State) (x : Site) (va : Nat) : State :=
  if (tlbFind (coreOf s x.core).tlb x.team.ctx va).isSome then s else touchLeaf s x.team.ctx va

/-- One lane of `pref`: dropped where it fails a check or the line is not free. Under the replicate policy
a line that the core's L1 holds is not asked for (R225). -/
def prefLane (x : Site) (l2 : Bool) (policy : Nat) (s : State) (ea : Addr) : State :=
  let s := peekTouch s x ea.toNat
  match peekXlate s x (some .read) ea.toNat with
  | none => s
  | some pa =>
    let ln := pa / 128
    let held := match mapGet (coreOf s (l1Holder s x.core pa)).l1 ln with
      | some l => l.sectors == 15
      | none => false
    if lineBusy s ln || (policy == 4 && held) then s
    else
      let free := (rangeOp (ctxOf s x.team.ctx) ea.toNat).isNone &&
        !holdsPartial s (l1Holder s x.core pa) ln
      homeFetch s x.core x.team.ctx ln policy ⟨!l2 && free, free⟩ 15 x.team.launch

/-- R284. -/
def execPref (a : Args) (l2 : Bool) (m : AddrMods) (s : State) : Host.Outcome State Fault Refusal :=
  issue (.pref a l2 m) a s fun x s =>
    let k := memMods x.train a.pre id (fun _ => 1) (fun p => if p = 5 || p = 6 then 1 else p)
    advance x (((laneAddrs x a m x.lanes).map Prod.snd).foldl (prefLane x l2 k.policy) s)

/-- R284. -/
def execInval (a : Args) (s : State) : Host.Outcome State Fault Refusal :=
  issue (.inval a) a s fun x s =>
    advance x ((laneAddrs x a ⟨0, false⟩ x.lanes).foldl (fun s e =>
      let s := peekTouch s x e.2.toNat
      match peekXlate s x none e.2.toNat with
      | none => s
      | some pa => invalLine s (l1Holder s x.core pa) (pa / 128)) s)

/-- R284. -/
def execInvalAll (a : Args) (s : State) : Host.Outcome State Fault Refusal :=
  issue (.invalAll a) a s fun x s =>
    advance x ((l1Cores s x.core).foldl (fun s n =>
      scrubL1 (modCore (sendPartials s n none) n fun c => { c with l1 := [] }) n fun _ => true) s)

/-! ## Commutative ranges (R285, R286) -/

/-- Write a status to the k destination of an instruction that held, and go on. -/
def statusEnd (x : Site) (a : Args) (st : Word) (s : State) : State :=
  advance x (modIssuer x s fun t => dstPut t a.dst 1 [(0, st.toNat)])

/-- An instruction whose unit works for it: it waits, and when it issues again it writes its
status. -/
def unitWork (x : Site) (a : Args) (work : Resume) (s : State) : State :=
  match x.split.resume with
  | .unitDone st => statusEnd x a st s
  | .crWork .. => waitWith x .unit x.split.resume s
  | _ => waitWith x .unit work s

/-- R285, R286. -/
def execCrdecl (a : Args) (op : BitVec 2) (d : Bool) (s : State) : Host.Outcome State Fault Refusal :=
  issue (.crdecl a op d) a s fun x =>
    unitWork x a (.crWork false op (bGet x.train (baseNum a.s1))
      (srcNat x.train a.s2 (if d then 2 else 1) (headLane x.lanes)))

/-- R285, R286. -/
def execCrdrop (a : Args) (s : State) : Host.Outcome State Fault Refusal :=
  issue (.crdrop a) a s fun x => unitWork x a (.crWork true 0 (bGet x.train (baseNum a.s1)) 0)

/-- The work that an instruction of a train has under way: of one of its splits, or of the split
whose handler runs. -/
def workOf (t : Train) (f : Resume → Bool) : Option Resume :=
  match t.siding.find? fun p => f p.resume with
  | some p => some p.resume
  | none => match t.handler with
    | some h => if f h.resume then some h.resume else none
    | none => none

/-- What becomes of the first work `w` of a train. -/
def settleWork (t : Train) (w r : Resume) : Train :=
  match t.siding.findIdx? fun p => p.resume == w with
  | some n => { t with siding := listMod t.siding n fun p => { p with resume := r } }
  | none =>
    { t with handler := t.handler.map fun h => if h.resume = w then { h with resume := r } else h }

/-- The status of `crdecl` by the context's ranges (R285). -/
def crStatus (c : Ctx) (start len : Nat) : Nat :=
  if start % 128 ≠ 0 || len % 128 ≠ 0 || len = 0 || 2 ^ 80 < start + len then 3
  else if 16 ≤ c.ranges.length then 1
  else if c.ranges.any fun r => r.start.toNat < start + len && start < r.start.toNat + r.len then 2
  else 0

/-- Those of some physical lines that a virtual span of a context maps, as its tables stand. -/
def spanLines (s : State) (ctx start len : Nat) (lines : List Nat) : List Nat :=
  let pages := (List.range (ceilDiv (start % 2 ^ 18 + len) (2 ^ 18))).filterMap fun (i : Nat) =>
    let vp := start / 2 ^ 18 + i
    match walk s ctx (vp * 2 ^ 18) with
    | .ok e => some (vp * 2 ^ 18, e.pbase + vp * 2 ^ 18 % 2 ^ e.bits)
    | .error _ => none
  lines.filter fun ln => pages.any fun p =>
    p.2 ≤ 128 * ln && 128 * ln < p.2 + 2 ^ 18 &&
      start ≤ p.1 + (128 * ln - p.2) && p.1 + (128 * ln - p.2) < start + len

/-- Every line that some L1 holds, or that has a replica. -/
def heldLines (s : State) : List Nat :=
  setUnion (s.cores.foldl (fun l c => setUnion l (mapKeys c.2.l1)) [])
    ((s.l2.filter fun l => !l.2.replicas.isEmpty).map Prod.fst)

/-- A line leaves every L1 and every replica of the device. -/
def purgeLine (s : State) (ln : Nat) : State :=
  let s := dropReplicas s ln
  (mapKeys s.cores).foldl (fun s n => invalLine s n ln) s

/-- CRDECL_CRDROP_DONE (R286): the range comes into force after its lines have left every L1 and
replica; or its partials are combined and it ends. A failing instruction changes nothing but its
status. -/
def crDone (s : State) (ctx : Nat) (drop : Bool) (op : BitVec 2) (start : Addr) (len : Nat) :
    State × Nat :=
  let c := ctxOf s ctx
  if drop then
    match c.ranges.find? (·.start == start) with
    | none => (s, 4)
    | some r =>
      let held := s.partials.foldl (fun l p => setAdd l (p.pa / 128)) []
      let s := combineLines s (spanLines s ctx start.toNat r.len held)
      (modCtx s ctx fun c => { c with ranges := c.ranges.filter (·.start != start) }, 0)
  else
    let st := crStatus c start.toNat len
    if st ≠ 0 then (s, st)
    else
      let s := (spanLines s ctx start.toNat len (heldLines s)).foldl purgeLine s
      (modCtx s ctx fun c => { c with ranges := c.ranges ++ [⟨start, len, op⟩] }, 0)

/-- A commutative store of a context into a range still waits in a store queue (R286). -/
def foldsPending (s : State) (ctx : Nat) (start : Addr) : Bool :=
  match (ctxOf s ctx).ranges.find? (·.start == start) with
  | none => false
  | some r => s.teams.any fun t => t.2.ctx == ctx && t.2.trains.any fun x => x.2.sq.any fun e =>
      e.ops.any fun o => match o.op with
        | .fold _ => start.toNat ≤ o.va.toNat && o.va.toNat < start.toNat + r.len
        | _ => false

def isCrWork : Resume → Bool
  | .crWork .. => true
  | _ => false

def execCrdeclCrdropDone (uid train : Nat) (s : State) : Host.Outcome State Fault Refusal :=
  .next <|
    match teamOf s uid, trainOf s uid train with
    | some team, some t =>
      match workOf t isCrWork with
      | some (.crWork drop op start len) =>
        if drop && foldsPending s team.ctx start then s
        else
        let (s, st) := crDone s team.ctx drop op start len
        modTrain s uid train fun t =>
          settleWork t (.crWork drop op start len) (.unitDone (BitVec.ofNat 32 st))
      | _ => s
    | _, _ => s

/-! ## Waiting on a scratchpad word (R283) -/

/-- A word of a scratchpad as a load of the train numbered `seq` reads it now; none while the load must
wait. -/
def wordNow (s : State) (uid tn : Nat) (t : Train) (u off : Nat) : Option Nat :=
  match teamOf s uid, teamOf s u with
  | some team, some v =>
    if loadTurn s uid tn t t.seq then
      (accessBytes s (coreOfTeam team) team.owed t t.seq (.scr u) (scrGet v)
        ((List.range 4).map (off + ·))).map leNat
    else none
  | _, _ => none

/-- The condition of `waitm` holds at a read made now. -/
def wordReady (s : State) (uid tn : Nat) (t : Train) (u off : Nat) (mask : Word) : Bool :=
  mask == 0 || match wordNow s uid tn t u off with
    | some w => BitVec.ofNat 32 w &&& mask == mask
    | none => false

/-- R283. Its order is acquire unless the prefix names relaxed. -/
def execWaitm (a : Args) (s : State) : Host.Outcome State Fault Refusal :=
  issue (.waitm a) a s fun x s =>
    let k := memMods x.train a.pre (fun _ => 2) (fun p => if p = 4 then 4 else 2) (fun _ => 1)
    let X := srcNat x.train a.s1 1 0 / 4 * 4
    let M := BitVec.ofNat 32 (srcNat x.train a.s2 1 0)
    if k.space = 4 && x.team.determ then trapDet x s
    else
      let at_ := if k.space = 4 then sibCheck s x (bitsOf X 30 2 * 2 ^ 32 + X % 2 ^ 30) 4
        else scrCheck x.uid x.team.scrSize X 4
      match at_ with
      | .pass (.scr u) as _ =>
        let off := headLane as
        if M = 0 then advance x s
        else if x.split.resume = .seen then advance x (acquired k.order k.scope x.core s)
        else if scrErr s u off 4 then trapErr x 4 (BitVec.ofNat 80 off) 4 false false s
        else if jobBlocks x.team x.tn (if u = x.uid then [(false, off, 4)] else []) then
          waitFor x (.jobs s.nextId) s
        else if wordReady s x.uid x.tn x.train u off M then
          advance x (acquired k.order k.scope x.core s)
        else waitFor x (.word u off M) s
      | .fail c r _ addr => trapAddr x c r (BitVec.ofNat 80 addr) 4 false s
      | _ => s

/-! ## The codebook table (R90, R119, R120) -/

/-- The table of 256 words from its image; words of 0 are not listed. -/
def tableOf (bs : List Byte) : AMap Word :=
  (List.range 256).filterMap fun (i : Nat) =>
    let w := BitVec.ofNat 32 (leNat ((bs.drop (4 * i)).take 4))
    if w = 0 then none else some (i, w)

/-- A contraction under way may see a new table too (R120). -/
def seeTable (table : AMap Word) (j : Job) : Job :=
  match j.kind with
  | .contract fmt tile goff book rows =>
    { j with kind := .contract fmt tile goff { book with tables := book.tables ++ [table] } rows }
  | _ => j

/-- The contractions of a context may see a new table. -/
def seeTables (s : State) (ctx : Nat) (table : AMap Word) : State :=
  { s with teams := s.teams.map fun u => (u.1,
      if u.2.ctx = ctx then
        { u.2 with jobs := u.2.jobs.map fun j => (j.1, seeTable table j.2) }
      else u.2) }

/-- The table has been read: it stands under a name until it is put in force, and decodes may see it
(R119, R120). -/
def tableRead (x : Site) (bs : List Byte) (s : State) : State :=
  let k := s.nextId
  let s := modCtx { s with nextId := k + 1 } x.team.ctx fun c =>
    { c with loading := mapPut c.loading k (tableOf bs) }
  let s := seeTables s x.team.ctx (tableOf bs)
  endRun (modSplit x (modIssuer x s fun t => { t with walked := [] }) fun p =>
    { p with resume := .loaded k }) x.core x.pipe

/-- A trap of an instruction that is then re-executed whole: what its walks have found is forgotten. -/
def trapAgain (x : Site) (trap : State → State) (s : State) : State :=
  trap (modIssuer x s fun t => { t with walked := [], asked := [] })

/-- Put an access among others by the place of its bytes. -/
def partInsert (q : Part) : List Part → List Part
  | [] => [q]
  | p :: rest => if p.shift < q.shift then p :: partInsert q rest else q :: p :: rest

/-- The bytes of accesses in their order. -/
def partBytes (qs : List Part) : List Byte :=
  qs.flatMap fun q => natLe q.addrs.length (q.got.getD 0).toNat

/-- The load of a unit, without its accesses. -/
def unitLoad (s : State) (x : Site) (m : Mem) : Producer := loadProducer s x (.k 0 0) 0 false m [] []

/-- The reads of `cbld`, of which `got` have been performed (R119, R242): those that the step picks of the
others, once their pages are translated and their lines free, in the train's order of loads. -/
def cbldRead (x : Site) (a : Args) (d : Bool) (got : List Part) (s : State) : State :=
  let k := memMods x.train a.pre (fun o => if o = 1 then 1 else 2) (fun _ => 1) id
  let ea := effAddr (bGet x.train (baseNum a.s1)) (srcNat x.train a.s2 (if d then 2 else 1) 0) d 0
  let cs := ((chunksAt 130 ea.toNat 0 1024).filter fun c => !got.any (·.shift == c.1)).map fun c =>
    (c.1, c.2.1, c.2.2, globCheck s x .read c.2.1 c.2.2)
  let hold (w : Wait) (s : State) : State := waitWith x w (.table got) s
  match lanePages cs, laneFails 0 cs with
  | p :: ps, _ => hold (.walk (setUnion [] (p :: ps))) s
  | [], f :: _ => trapAgain x (trapAddr x f.code f.reason f.addr 1024 false) s
  | [], [] =>
    let all := laneParts 1 0 cs
    let qs := pickFrom s all
    let lines := linesOf (qs.map fun q => headLane q.addrs)
    if lines.any (lineBusy s) then hold (.lines lines) s
    else if !loadTurn s x.uid x.tn x.train x.train.seq then hold (.fence true true true true []) s
    else match readLines s x.uid x.tn x.core x.team x.train (unitLoad s x k) 1024 qs lines with
      | none => hold (.fence true true true true []) s
      | some (s, ps) =>
        match lowBad ps with
        | some q => trapAgain x (trapErr x q.bad.toNat q.va 1024 false false) s
        | none =>
          let got := ps.foldr partInsert got
          if qs.length = all.length then tableRead x (partBytes got) (acquired k.order k.scope x.core s)
          else endRun (modSplit x s fun p => { p with resume := .table got }) x.core x.pipe

/-- R119. The table is read by separate accesses, and putting it in force is a step of its own. -/
def execCbld (a : Args) (d : Bool) (s : State) : Host.Outcome State Fault Refusal :=
  issue (.cbld a d) a s fun x => holdOnce x fun s =>
    match x.split.resume with
    | .loaded k =>
      advance x (modCtx s x.team.ctx fun c =>
        { c with codebook := (mapGet c.loading k).getD c.codebook, loading := mapDel c.loading k })
    | .table got => cbldRead x a d got s
    | _ => cbldRead x a d [] s

/-! ## The stash (R206, R207) -/

/-- The physical pages of a memory range of a context, or the trap and address of its first failing
byte. -/
def rangePages (s : State) (ctx : Nat) (acc : Access) (lo len : Nat) :
    List Nat → Except (TrapCause × Addr) (AMap Nat)
  | [] => .ok []
  | vp :: rest =>
    match devXlate s ctx acc (vp * 2 ^ 18 % 2 ^ 80) with
    | .error e => .error (e, BitVec.ofNat 80 (max lo (vp * 2 ^ 18)))
    | .ok pa =>
      match rangePages s ctx acc lo len rest with
      | .error e => .error e
      | .ok l => .ok ((vp % 2 ^ 62, pa) :: l)

/-- The physical address of a virtual one by translated pages. -/
def pageAddr (pages : AMap Nat) (va : Nat) : Nat :=
  ((mapGet pages (va / 2 ^ 18)).getD 0) + va % 2 ^ 18

/-- The pieces of 128 bytes of a transfer, by number. -/
def stashPieces (n : Nat) : List Nat := List.range (n / 128)

/-- The policy of `stash` and `unstash` (R206). -/
def stashPolicy (x : Site) (a : Args) : BitVec 4 :=
  BitVec.ofNat 4 (memMods x.train a.pre (fun _ => 1) (fun _ => 1)
    (fun p => if p = 4 || p = 5 then 1 else p)).policy

/-- What `stash` and `unstash` share: the checks of R206, the claim, and the wait for the transfer. -/
def stashIssue (x : Site) (a : Args) (out : Bool) (s : State) : State :=
  let X := srcNat x.train a.s1 1 0
  let n := srcNat x.train a.s2 1 0
  match x.split.resume with
  | .unitDone _ => advance x s
  | .unitFault c r va len => trapAddr x c r va len false s
  | .stashWork .. => waitWith x .unit x.split.resume s
  | _ =>
    if X % 16 ≠ 0 || n % 256 ≠ 0 then trapIllegal x s
    else if n = 0 then advance x s
    else if x.team.scrSize < X + n then
      trapAddr x 7 0 (BitVec.ofNat 80 (max X x.team.scrSize)) n (!out) s
    else if jobBlocks x.team x.tn [(false, X, n)] then waitFor x (.jobs s.nextId) s
    else
      let p := x.team.stash.toNat
      if out then
        if x.team.stHi < p + n then
          trapAddr x 8 0 (BitVec.ofNat 80 (max p x.team.stHi)) n true s
        else
        let s := touchPages s x.team.ctx (pagesOf p n)
        match rangePages s x.team.ctx .write p n (pagesOf p n) with
          | .error (e, va) => trapAddr x e.1 e.2 va n true s
          | .ok pages =>
            match scrBad s x.uid [(X, n)] with
            | some q => trapErr x 4 (BitVec.ofNat 80 q.1) n false false s
            | none =>
              waitWith x .unit (.stashWork true x.team.stash X n pages (stashPolicy x a) (stashPieces n))
                (modTeam s x.uid fun t => { t with stash := t.stash + BitVec.ofNat 80 n })
      else if p < x.team.stLo.toNat + n then
        trapAddr x 8 0 (BitVec.ofNat 80 (p + 2 ^ 80 - n)) n false s
      else
        let lo := x.team.stash - BitVec.ofNat 80 n
        waitWith x .unit (.stashWork false lo X n [] (stashPolicy x a) (stashPieces n))
          (modTeam s x.uid fun t => { t with stash := lo })

/-- R206, R207. -/
def execStash (a : Args) (s : State) : Host.Outcome State Fault Refusal :=
  issue (.stash a) a s fun x => stashIssue x a true

/-- R206, R207. -/
def execUnstash (a : Args) (s : State) : Host.Outcome State Fault Refusal :=
  issue (.unstash a) a s fun x => stashIssue x a false

def isStashWork : Resume → Bool
  | .stashWork .. => true
  | _ => false

/-- A `stash` of the team that has scratchpad bytes still to read meets a memory range. -/
def stashPending (team : Team) (lo len : Nat) : Bool :=
  team.trains.any fun t =>
    let meets (r : Resume) : Bool := match r with
      | .stashWork true b _ n _ _ _ => lo < b.toNat + n && b.toNat < lo + len
      | _ => false
    (t.2.siding.any fun p => meets p.resume) || match t.2.handler with
      | some h => meets h.resume
      | none => false

/-- A `stash` of the team that claimed bytes of a memory range has not written them (R207). -/
def stashUnwritten (s : State) (uid : Nat) (team : Team) (lo len : Nat) : Bool :=
  stashPending team lo len || s.net.any fun r => r.2.uid == uid && r.2.stash &&
    (r.2.ops ++ r.2.rest).any fun o => lo < o.va.toNat + o.addrs.length && o.va.toNat < lo + len

/-- The stores of a piece of a `stash`, from the scratchpad bytes at `off` to the memory at `va`. -/
def stashOps (team : Team) (pages : AMap Nat) (va off : Nat) : List LaneOp :=
  (chunksAt 18 va 0 128).map fun c =>
    ⟨0, BitVec.ofNat 80 c.2.1, .glob, (List.range c.2.2).map (pageAddr pages c.2.1 + ·), .store,
      BitVec.ofNat 128 (leNat ((List.range c.2.2).map fun i => scrGet team (off + c.1 + i))), 0, true⟩

/-- The accesses of a piece of an `unstash`, translated; or the trap and the first failing byte. -/
def unstashParts (s : State) (ctx : Nat) : List (Nat × Nat × Nat) → Except (TrapCause × Nat) (List Part)
  | [] => .ok []
  | (sh, va, n) :: rest =>
    match devXlate s ctx .read va with
    | .error e => .error (e, va)
    | .ok pa =>
      match unstashParts s ctx rest with
      | .error e => .error e
      | .ok l => .ok (⟨0, sh, BitVec.ofNat 80 va, .glob, (List.range n).map (pa + ·), true, none, 0⟩ :: l)

/-- The load that an `unstash` of a train makes. -/
def unstashLoad (t : Train) (policy : BitVec 4) : Producer where
  seq := t.seq
  pc := 0
  kind := .load 0 false
  dst := .k 0 0
  lanes := 0
  order := 1
  scope := 1
  policy := policy
  nochk := false
  parts := []
  vals := []
  oks := 0
  flags := 0
  bad := []
  held := false
  due := 0

/-- What a step does with the pieces of an `unstash`: the state after those that were moved, their numbers, and
the fault that ended it: code, reason, address. -/
structure Unstashed where
  s     : State
  moved : List Nat
  fault : Option (Nat × Nat × Nat)

/-- Move pieces of an `unstash` in their order, but for those whose lines are not free (R207). -/
def unstashRun (uid tn core : Nat) (team : Team) (t : Train) (policy : BitVec 4) (lo off : Nat) :
    List Nat → State → Unstashed
  | [], s => ⟨s, [], none⟩
  | i :: rest, s =>
    let va := lo + 128 * i
    let s := walkTouch s team.ctx va 128
    let later := unstashRun uid tn core team t policy lo off rest
    match unstashParts s team.ctx (chunksAt 18 va 0 128) with
    | .error (e, a) => ⟨s, [], some (e.1, e.2, a)⟩
    | .ok qs =>
      let lines := linesOf (qs.map fun q => headLane q.addrs)
      if lines.any (lineBusy s) then later s
      else match readLines s uid tn core team t (unstashLoad t policy) 128 qs lines with
        | none => later s
        | some (s, ps) =>
          match lowBad ps with
          | some q => ⟨s, [], some (15, q.bad.toNat, q.va.toNat)⟩
          | none =>
            let ws := bytesAt (off + 128 * i) (partBytes (ps.foldr partInsert []))
            let r := later (clearLocal (modTeam s uid fun t => scrPuts t ws) uid false (ws.map Prod.fst))
            { r with moved := i :: r.moved }

/-- The pieces that the next step moves: those it picks, or all (log entry 16). -/
def stashTakes (s : State) (left : List Nat) : List Nat :=
  match left.filter s.pick.contains with
  | [] => left
  | l => l

/-- Earlier accesses let a unit move bytes for a train (R22, R233): its queue has emptied where `stores`, its
scratchpad stores have passed, its loads have been performed. -/
def stashTurn (s : State) (uid tn : Nat) (t : Train) (stores : Bool) : Bool :=
  if stores then t.sq.isEmpty && earlierPassed t t.seq else !scrStores uid t && loadTurn s uid tn t t.seq

/-- What is left of a transfer after a step. -/
def stashRest (out : Bool) (lo : Addr) (off n : Nat) (pages : AMap Nat) (policy : BitVec 4)
    (left : List Nat) : Resume :=
  if left.isEmpty then .unitDone 0 else .stashWork out lo off n pages policy left

end Sys2Proof.Machine
end

