-- ==== Sys2Proof/Machine/MemSys.lean ====
section
/-!
DEFINITION. The steps of the memory system: the core store port, the homes, the L1s, the TLBs (R217 to
R249, R340 to R344), and the fills of long-latency producers (R24).
-/
namespace Sys2Proof.Machine

/-! ## Read-modify-write (R276, R277) -/

/-- The new value of an atomic on `n` bytes, with its flags. -/
def atomValue (op : BitVec 4) (n old v : Nat) : Nat × FlagSet :=
  let W := 8 * n
  let top : Nat := 2 ^ W
  let v := v % top
  match op.toNat with
  | 0 => ((old + v) % top, 0)
  | 1 => (if sext W old ≤ sext W v then old else v, 0)
  | 2 => (if sext W v ≤ sext W old then old else v, 0)
  | 3 => (min old v, 0)
  | 4 => (max old v, 0)
  | 5 => (old &&& v, 0)
  | 6 => (old ||| v, 0)
  | 7 => (old ^^^ v, 0)
  | 8 => (v, 0)
  | 9 => fsum [decodeFloat 0 old, decodeFloat 0 v] [decodeFloat 0 old, decodeFloat 0 v]
  | _ => minMaxCode 0 true old v

/-- What one lane's operation does to its bytes: the new value where it writes, and its flags. -/
def opEffect (o : LaneOp) (old : Nat) : Option Nat × FlagSet :=
  let n := o.addrs.length
  match o.op with
  | .store => (some o.data.toNat, 0)
  | .atom op =>
    let (x, f) := atomValue op n old o.data.toNat
    (some x, f)
  | .cas => (if old = o.cmp.toNat % 2 ^ (8 * n) then some o.data.toNat else none, 0)
  | .casl _ _ => (if old = o.cmp.toNat % 2 ^ (8 * n) then some o.data.toNat else none, 0)
  | .fold _ => (none, 0)

/-- What the operations of a request have come to: old values, lanes that wrote, flags, lanes whose data
were lost. -/
structure Done where
  olds  : AMap QWord
  wrote : LaneMask
  flags : FlagSet
  bad   : AMap (BitVec 8)
  deriving DecidableEq, Repr

def Done.init : Done := ⟨[], 0, 0, []⟩

def isStore (o : LaneOp) : Bool :=
  match o.op with
  | .store => true
  | _ => false

/-- PROTECTION of a lane whose comparison holds on a page that cannot be written (R341), as `Part.bad`
names it. -/
def noWrite : Nat := 0x61

/-- Perform one operation where `rd` reads a byte and `wr` writes bytes; `err` is the reason of an
uncorrectable error at a byte (R344). -/
def performOp (rd : State → Nat → Byte) (wr : State → List (Nat × Byte) → State)
    (err : State → Nat → Nat) (o : LaneOp) (st : State × Done) : State × Done :=
  let (s, d) := st
  let n := o.addrs.length
  let lost := if isStore o || s.errs.isEmpty then 0
    else match o.addrs.find? fun a => err s a != 0 with
      | some a => err s a
      | none => 0
  if lost ≠ 0 then (s, { d with bad := mapPut d.bad o.lane (BitVec.ofNat 8 lost) })
  else
    let old := leNat (o.addrs.map (rd s))
    let (new, f) := opEffect o old
    if new.isSome && !o.mayWrite then
      (s, { d with bad := mapPut d.bad o.lane (BitVec.ofNat 8 noWrite) })
    else
    let s := match new with
      | some x => wr s (o.addrs.zip (natLe n x))
      | none => s
    (s, { d with
      olds := if isStore o then d.olds else mapPut d.olds o.lane (BitVec.ofNat 128 old)
      wrote := if new.isSome then d.wrote ||| maskOf [o.lane] else d.wrote
      flags := d.flags ||| f })

def performOps (rd : State → Nat → Byte) (wr : State → List (Nat × Byte) → State)
    (err : State → Nat → Nat) : List LaneOp → State × Done → State × Done
  | [], st => st
  | o :: rest, st => performOps rd wr err rest (performOp rd wr err o st)

/-- The bytes that the stores among operations write: a granule that they write whole loses its error
(R344). -/
def storedBytes (ops : List LaneOp) : List Nat := (ops.filter isStore).flatMap (·.addrs)

/-- Operations on a team's scratchpad, by the core that holds it (R214). -/
def performScr (u : Nat) (ops : List LaneOp) (s : State) : State × Done :=
  let (t, d) := performOps
    (fun s a => match teamOf s u with
      | some t => scrGet t a
      | none => 0)
    (fun s ws => modTeam s u fun t => scrPuts t ws)
    (fun s a => if scrErr s u a 1 then 4 else 0) ops (s, Done.init)
  (clearLocal t u false (storedBytes ops), d)

/-- Stores of a team's accumulator bytes (R200). -/
def performAcc (uid : Nat) (ops : List LaneOp) (s : State) : State :=
  let ws := ops.flatMap fun o => o.addrs.zip (natLe o.addrs.length o.data.toNat)
  clearLocal (modTeam s uid fun t => accPuts t ws) uid true (ws.map Prod.fst)

/-- Operations on bytes at their homes. -/
def performGlob (ops : List LaneOp) (s : State) : State × Done :=
  let (t, d) := performOps homeByte homePuts errAt ops (s, Done.init)
  (noteWrite s (clearErrs t (storedBytes ops)) (ops.flatMap (·.addrs)), d)

/-! ## Values that come back to a producer -/

/-- Merge lists of lane values. -/
def laneMerge {α : Type} (m : AMap α) : AMap α → AMap α
  | [] => m
  | (k, x) :: rest => laneMerge (mapPut m k x) rest

/-- The core on which a team is now. -/
def coreNow (s : State) (uid : Nat) : Nat :=
  match teamOf s uid with
  | some t => coreOfTeam t
  | none => 0xFFFF

/-- Old values reach their producer; the invalidation of an acquire follows the last, on the core of the train
(R238, R248). -/
def deliver (s : State) (uid : Nat) (prod : Option (Nat × Nat)) (olds : AMap QWord)
    (oks : LaneMask) (flags : FlagSet) (bad : AMap (BitVec 8)) : State :=
  match prod with
  | none => s
  | some (tn, id) =>
    match (trainOf s uid tn).bind fun t => mapGet t.prods id with
    | none => s
    | some p =>
      let p' : Producer :=
        { p with
          vals := laneMerge p.vals olds
          oks := p.oks ||| oks
          flags := p.flags ||| flags
          bad := laneMerge p.bad bad }
      let s := modTrain s uid tn fun t => { t with prods := mapPut t.prods id p' }
      if lanesBack p' then acquired p.order.toNat p.scope.toNat (coreNow s uid) s else s

/-! ## The core store port (R233 to R236) -/

/-- An operation performed at the port itself: on the team's own scratchpad or accumulator, or a fold
(R227). -/
def atPort (uid : Nat) (o : LaneOp) : Bool :=
  match o.place, o.op with
  | .scr u, _ => u == uid
  | .acc _, _ => true
  | _, .fold _ => true
  | _, _ => false

/-- The line of an operation, as its place numbers bytes. -/
def opLine (o : LaneOp) : Nat := headLane o.addrs / 128

/-- The requests of an entry: its stores, one for each line; its atomics, one for each lane (R274,
R277). -/
def groupOps : List LaneOp → List (List LaneOp)
  | [] => []
  | o :: rest =>
    let gs := groupOps rest
    if !isStore o then [o] :: gs
    else
      let same (g : List LaneOp) : Bool := match g with
        | p :: _ => isStore p && p.place == o.place && opLine p == opLine o
        | [] => false
      match gs.findIdx? same with
      | some n => (o :: (gs[n]?).getD []) :: listDrop gs n
      | none => [o] :: gs

/-- Fold a value into a core's partial of a word (R227). -/
def addPartial (s : State) (core pa : Nat) (op : BitVec 2) (v : DWord) : State :=
  let mine (p : Partial) : Bool := p.core == core && p.pa == pa && !p.atHome
  if s.partials.any mine then
    { s with partials := s.partials.map fun p => if mine p then { p with vals := p.vals ++ [v] } else p }
  else { s with partials := s.partials ++ [⟨core, false, pa, op, [v]⟩] }

def foldAll (core : Nat) : List LaneOp → State → State
  | [], s => s
  | o :: rest, s =>
    let s := match o.op with
      | .fold op =>
        let pa := headLane o.addrs
        addPartial s (l1Holder s core pa) pa op (o.data.setWidth 64)
      | _ => s
    foldAll core rest s

/-- The accumulator bytes that an entry stores to. -/
def accSpans (e : SqEntry) : List (Bool × Nat × Nat) :=
  e.ops.filterMap fun o => match o.place with
    | .acc _ => some (true, headLane o.addrs, o.addrs.length)
    | _ => none

/-- Work that has reached the accumulator before an entry, or a read that has, still uses bytes that it
stores to (R200). -/
def accBusy (team : Team) (e : SqEntry) : Bool :=
  let f := accSpans e
  !f.isEmpty && ((team.jobs.any fun k => anyMeet (footprint k.2.kind) f) ||
    team.trains.any fun t => t.2.prods.any fun p => match p.2.kind with
      | .acc _ => p.2.parts.any fun q => q.got.isNone && anyMeet (q.addrs.map fun o => (true, o, 1)) f
      | _ => false)

/-- The entry at the head of a train's queue may pass the port (R200, R233, R238, R239). On a halted core
work on the accumulator is paused, and the store passes to wait behind it (log entry 118). -/
def portReady (s : State) (uid core : Nat) (team : Team) (t : Train) (e : SqEntry) : Bool :=
  earlierPassed t e.seq && (!accBusy team e || (coreOf s core).halted) &&
  !(isRelease e.order.toNat && 3 ≤ e.scope.toNat && e.ops.any (atPort uid) &&
    !(coreReqs s core team.owed (e.scope == 6)).isEmpty)

/-- An entry's stores to the accumulator: performed, or behind the work there. -/
def passAcc (s : State) (uid tn : Nat) (team : Team) (e : SqEntry) : State :=
  let ops := e.ops.filter fun o => match o.place with
    | .acc _ => true
    | _ => false
  if ops.isEmpty then s
  else if accBusy team e then
    addJob s uid (newJob (some tn) none
      (.store (ops.flatMap fun o => o.addrs.zip (natLe o.addrs.length o.data.toNat))) s.now 1)
  else performAcc uid ops s

/-- The requests that an entry, or the stores of a `stash`, make beyond the port. -/
def addReqs (uid core tn : Nat) (ctx : Nat) (stash : Bool) (e : SqEntry) (waitFor : List Nat) :
    List (List LaneOp) → State → State
  | [], s => s
  | ops :: rest, s =>
    match ops with
    | [] => addReqs uid core tn ctx stash e waitFor rest s
    | o :: _ =>
      let r : Req :=
        { core := core
          uid := uid
          ctx := ctx
          trains := [tn]
          seq := e.seq
          pc := e.pc
          order := e.order
          scope := e.scope
          policy := e.policy
          place := o.place
          line := opLine o
          ops := ops
          prod := e.prod.map fun p => (tn, p)
          peer := none
          stash := stash
          olds := []
          oks := 0
          flags := 0
          bad := []
          stage := .toHome
          waitFor := waitFor
          rest := []
          wrote := []
          mark := none
          due := s.now + match o.place with
            | .glob => latOf s core (headLane o.addrs)
            | .peer _ => 1
            | _ => 12 }
      addReqs uid core tn ctx stash e waitFor rest
        { s with net := mapPut s.net s.nextId r, nextId := s.nextId + 1 }

/-- STORE_PORT_PASS: the entry at the head of the queue passes. -/
def execStorePortPass (uid train : Nat) (s : State) : Host.Outcome State Fault Refusal :=
  .next <|
    match teamOf s uid, trainOf s uid train with
    | some team, some t =>
      match t.sq with
      | [] => s
      | e :: rest =>
        let core := coreOfTeam team
        if !isResident team || !portReady s uid core team t e then s
        else
          let waitFor := if isRelease e.order.toNat && 3 ≤ e.scope.toNat then
            coreReqs s core team.owed (e.scope == 6) else []
          let s := modTrain s uid train fun t => { t with sq := rest }
          let here := e.ops.filter (atPort uid)
          let s := foldAll core here s
          let own := here.filter fun o => match o.place with
            | .scr _ => true
            | _ => false
          let (s, d) := performScr uid own s
          let s := deliver s uid (e.prod.map fun p => (train, p)) d.olds d.wrote d.flags d.bad
          let s := passAcc s uid train team e
          addReqs uid core train team.ctx false e waitFor
            (groupOps (e.ops.filter fun o => !atPort uid o)) s
    | _, _ => s

/-! ## The homes (R221 to R229, R236, R357) -/

/-- A request is a `casl`. -/
def isCasl (r : Req) : Bool :=
  r.ops.any fun o => match o.op with
    | .casl _ _ => true
    | _ => false

/-- Requests of one core, or of one train wherever it has been (R235, R236, R248). -/
def sameSource (q r : Req) : Bool :=
  q.core == r.core || (q.uid == r.uid && q.trains.any r.trains.contains)

/-- Two lanes' operations of one instruction on different bytes, which nothing orders (R242). -/
def apart (q r : Req) : Bool :=
  q.uid == r.uid && q.trains == r.trains && q.seq == r.seq &&
    !(q.ops ++ q.rest).any fun o => (r.ops ++ r.rest).any fun p => o.addrs.any p.addrs.contains

/-- An earlier `casl` of the train to the same line waits for an entry (R236, R293). -/
def holdBehind (s : State) (id : Nat) (r : Req) : Bool :=
  s.net.any fun q => q.1 < id && sameSource q.2 r && q.2.place == r.place && q.2.line == r.line &&
    match q.2.stage with
    | .holding _ => q.2.uid == r.uid && q.2.trains.any r.trains.contains
    | _ => false

/-- An earlier request of the core, or of the train, to the same line has not been performed (R235, R236).
A `casl` that waits for an entry holds up its own train only, and no other `casl`, which waits behind it
(R293). -/
def reqBehind (s : State) (id : Nat) (r : Req) : Bool :=
  (s.net.any fun q => q.1 < id && sameSource q.2 r && q.2.place == r.place && q.2.line == r.line &&
    (q.2.stage == .toHome || !q.2.rest.isEmpty) && !apart q.2 r) || (!isCasl r && holdBehind s id r)

/-- A request may be performed now: what its release waits for has been performed (R238). -/
def reqReady (s : State) (id : Nat) (r : Req) : Bool :=
  !(r.waitFor.any fun k => (mapGet s.net k).isSome) && !reqBehind s id r

/-- The scope record that a performed write leaves (R229). -/
def writeRecord (r : Req) : Option ScopeRec :=
  if isRelease r.order.toNat then some ⟨r.scope, r.ctx, r.core, r.uid, headLane r.trains % 64⟩ else none

/-- The acquire of an atomic checks the record of the line that it reads (R229). -/
def atomScope (s : State) (r : Req) : State :=
  match r.prod, r.ops with
  | some (tn, id), o :: _ =>
    match (trainOf s r.uid tn).bind fun t => mapGet t.prods id with
    | none => s
    | some p => scopeCheck s r.uid tn r.order.toNat p.nochk true
        ((mapGet s.l2 r.line).bind (·.scope)) o.va o.addrs.length
  | _, _ => s

/-- The operations that exactly cover a line, each of 4 or 8 aligned bytes: one event (R242). -/
def coversLine (ops : List LaneOp) : Bool :=
  (ops.all fun o => isStore o && (o.addrs.length == 4 || o.addrs.length == 8) &&
    headLane o.addrs % o.addrs.length == 0) &&
  (List.range 128).all fun i => ops.any fun o => o.addrs.any fun a => a % 128 == i

/-- What the next step performs of a request: all, or those it picks, where they share no byte with the others,
whose highest lane alone is ever seen (R242, R274; log entry 16). The request, and what it leaves for later. -/
def picked (s : State) (r : Req) : Req :=
  let (a, b) := pickOut s.pick 0 r.ops
  if a.isEmpty || b.isEmpty || coversLine r.ops ||
      b.any fun o => a.any fun p => o.addrs.any p.addrs.contains then r
  else { r with ops := a, rest := b }

/-- The bytes of a list of operations' lanes that wrote, by offset in the line, as they stand at the home. -/
def wroteBytes (s : State) (ops : List LaneOp) (lanes : LaneMask) : List (Nat × Byte) :=
  (ops.filter fun o => lanes.getLsbD o.lane).flatMap fun o =>
    o.addrs.map fun a => (a % 128, homeByte s a)

/-- What operations came to, in the request that they are of. -/
def Req.took (r : Req) (d : Done) (stage : Stage) : Req :=
  { r with
    olds := laneMerge r.olds d.olds
    oks := r.oks ||| d.wrote
    flags := r.flags ||| d.flags
    bad := laneMerge r.bad d.bad
    stage := stage }

/-- Perform the operations of a request at a line's home: partials combined, replicas dropped, the
bytes and the record written; the sharers have still to be updated. -/
def homePerform (s : State) (id : Nat) (r : Req) : State × Done :=
  let s := homeBring (combineLine s r.line) r.ctx r.line r.policy.toNat
  let s := atomScope s r
  let (s, d) := performGlob r.ops s
  let s := if d.wrote = 0 then s else setScopeRec (dropReplicas s r.line) r.line (writeRecord r)
  let r' : Req :=
    { r.took d (.updating (if d.wrote = 0 then [] else sharersOf s r.line)) with
      wrote := wroteBytes s r.ops d.wrote
      mark := writeRecord r }
  ({ s with net := mapPut s.net id r' }, d)

/-- What a request sends to a peer (R357, R358). -/
def peerItem (s : State) (id : Nat) (r : Req) : FlitItem :=
  match r.ops with
  | [] => .request ⟨s.device, r.ctx, 0, 1, 0, 0, [], 0, 0, id⟩
  | o :: _ =>
    let n := o.addrs.length
    match o.op with
    | .atom op => .request
        ⟨s.device, r.ctx, BitVec.ofNat 64 (headLane o.addrs), 2, op, n, [], o.data.setWidth 64, 0, id⟩
    | .cas => .request
        ⟨s.device, r.ctx, BitVec.ofNat 64 (headLane o.addrs), 3, 0, n, [], o.data.setWidth 64, o.cmp, id⟩
    | _ => .request
        ⟨s.device, r.ctx, BitVec.ofNat 64 (128 * r.line), 1, 0,
          if r.ops.all fun p => p.addrs.length == n then n else 1,
          r.ops.flatMap fun o => (o.addrs.zip (natLe o.addrs.length o.data.toNat)).map fun w =>
            (w.1 - 128 * r.line, w.2),
          0, 0, id⟩

/-- HOME_WRITE: a request is performed at its home, at the core of a sibling, or leaves for a peer. The time of
one to a device that does not respond is over (R362). -/
def execHomeWrite (req : Nat) (s : State) : Host.Outcome State Fault Refusal :=
  .next <|
    match mapGet s.net req with
    | none => s
    | some r =>
      if r.stage != .toHome || isCasl r || !reqReady s req r then s
      else match r.place with
        | .glob => if lineBusy s r.line then s else (homePerform s req (picked s r)).1
        | .scr u =>
          let r := picked s r
          let (s, d) := performScr u r.ops s
          { s with net := mapPut s.net req (r.took d (.updating [])) }
        | .peer dev =>
          let wait := if s.silent.contains dev then 0 else peerWait
          let r' : Req := { r with stage := .atPeer (s.now + wait) }
          sendTo { s with net := mapPut s.net req r' } dev (peerItem s req r)
        | .acc _ => s

/-- SHARER_UPDATE (R221, R222): a sharer applies the update, or has no copy and leaves the sharers. -/
def execSharerUpdate (req core : Nat) (s : State) : Host.Outcome State Fault Refusal :=
  .next <|
    match mapGet s.net req with
    | none => s
    | some r =>
      match r.stage with
      | .updating left =>
        if !left.contains core then s
        else
          let s := updateSharer s r.line r.wrote r.mark core
          { s with net := mapPut s.net req { r with stage := .updating (setDel left core) } }
      | _ => s

/-- Code and reason of a lost access (see `Part.bad`). -/
def lostCause (b : BitVec 8) : Nat × Nat :=
  if b.toNat < 16 then (15, b.toNat) else (b.toNat / 16, b.toNat % 16)

/-- A peer's request is answered: the old value, the flags above its 128 bits, or the error that it met
(R344, R357, R358). -/
def answerPeer (s : State) (r : Req) : State :=
  match r.peer with
  | none => s
  | some (dev, tag) =>
    let old : Nat := match r.olds with
      | (_, x) :: _ => x.toNat
      | [] => 0
    let item : FlitItem := match r.bad with
      | (_, b) :: _ => .answer tag (lostCause b).1 (lostCause b).2 0 []
      | [] => .answer tag 0 0 (BitVec.ofNat 1024 (old + r.flags.toNat * 2 ^ 128)) []
    sendTo s dev item

/-- STORE_ACK (R221, R223, R229, R235): the acknowledgement returns; a copy of the core's own of a line homed
elsewhere takes the bytes that were written. A request with more to perform goes back for it. -/
def execStoreAck (req : Nat) (s : State) : Host.Outcome State Fault Refusal :=
  .next <|
    match mapGet s.net req with
    | none => s
    | some r =>
      if r.stage != .updating [] then s
      else
        let s := if !r.wrote.isEmpty && r.core < 256 && homeDie (128 * r.line) != dieOf r.core then
            l1Apply s (l1Holder s r.core (128 * r.line)) r.line r.wrote r.mark
          else s
        if !r.rest.isEmpty then
          let r' : Req := { r with ops := r.rest, rest := [], wrote := [], mark := none, stage := .toHome }
          { s with net := mapPut s.net req r' }
        else
        let s := answerPeer { s with net := mapDel s.net req } r
        deliver s r.uid r.prod r.olds r.oks r.flags r.bad

/-! ## Loads (R219, R225, R233, R235, R237) -/

/-- The bytes per lane that a producer's instruction accesses. -/
def prodBytes : ProdKind → Nat
  | .alu => 0
  | .load n _ => n
  | .acc n => n
  | .atom n => n
  | .cas n _ => n
  | .casl n => n

/-- Ask a peer for bytes of a load (R357). -/
def sendPeerLoad (uid train prod dev ctx addr n : Nat) (s : State) : State :=
  if s.peerLoads.any fun l => l.2.uid == uid && l.2.train == train && l.2.prod == prod &&
      l.2.dev == dev && l.2.addr == addr && l.2.n == n then s
  else
    let tag := s.nextId
    let s := { s with
      nextId := tag + 1
      peerLoads := mapPut s.peerLoads tag ⟨uid, train, prod, dev, addr, n, s.now + peerWait⟩ }
    sendTo s dev (.request ⟨s.device, ctx, BitVec.ofNat 64 addr, 0, 0, n, [], 0, 0, tag⟩)

/-- A load of a peer's line waits for the earlier stores of its train and of its core to the line to leave:
they reach the peer in this order (R233, R235, R361). -/
def peerHeld (s : State) (core : Nat) (owed : List Nat) (t : Train) (seq dev ln : Nat) : Bool :=
  (t.sq.any fun e => e.seq < seq && e.ops.any fun o => o.place == .peer dev && opLine o == ln) ||
  s.net.any fun r => (r.2.core == core || owed.contains r.1) && r.2.place == .peer dev &&
    r.2.line == ln && r.2.stage == .toHome

/-- The requests of a load's accesses in one line of a peer: one for a whole line, else one for each (R242,
R358). -/
def peerAsks (p : Producer) (line : Nat) (qs : List Part) : List (Nat × Nat) :=
  if wholeLine p line then [(128 * (line % 2 ^ 60), 128)]
  else qs.map fun q => (headLane q.addrs, q.addrs.length)

/-- The open accesses of a load in a line that the next step performs: all, or those it picks (R242; log
entry 16). -/
def pickParts (s : State) (p : Producer) (line : Nat) : List Part :=
  let mine := p.parts.filter fun q => partOpen q && partLine q == some line
  match (pickOut s.pick 0 mine).1 with
  | [] => mine
  | qs => if wholeLine p line then mine else qs

/-- HOME_READ: the home serves a load's accesses in one line. -/
def execHomeRead (uid train prod line : Nat) (s : State) : Host.Outcome State Fault Refusal :=
  .next <|
    match teamOf s uid, trainOf s uid train with
    | some team, some t =>
      match mapGet t.prods prod with
      | none => s
      | some p =>
        let core := coreOfTeam team
        let mine := pickParts s p line
        let isLoad := match p.kind with
          | .load _ _ => true
          | _ => false
        if !isLoad || mine.isEmpty || !loadTurn s uid train t p.seq then s
        else if 2 ^ 60 ≤ line then
          let dev := line / 2 ^ 60 - 1
          if peerHeld s core team.owed t p.seq dev (line % 2 ^ 60) then s
          else (peerAsks p line mine).foldl
            (fun s a => sendPeerLoad uid train prod dev team.ctx a.1 a.2 s) s
        else if lineBusy s line || mine.all fun q => (l1Copy s core team.ctx p q).isSome then s
        else
          let free := !(mine.any fun q => forcedHome s core team.ctx p q line)
          let s1 := homeFetch s core team.ctx line p.policy.toNat ⟨free, free⟩
            (sectorsOf (mine.flatMap (·.addrs))) team.launch
          let base := policyBase s1 (kernelOf uid team) p.policy (homeByte s1)
          match readParts (fun q => if mine.contains q then
              some (readPart s1 core team.owed t p.seq base (errAt s1) q) else none) p.parts with
          | none => s
          | some parts =>
            let s := keepInv s1 (kernelOf uid team) p.policy (partGranules mine)
            let s := storeParts s uid train prod core p parts
            scopeCheck s uid train p.order.toNat p.nochk false ((mapGet s1.l2 line).bind (·.scope))
              (lowVa mine) (prodBytes p.kind)
    | _, _ => s

/-- A producer is a load. -/
def loads (p : Producer) : Bool :=
  match p.kind with
  | .load _ _ => true
  | _ => false

/-- The work is an accumulator store that has passed the port: every load of the core comes after it (R235). -/
def isPassed : JobKind → Bool
  | .store _ => true
  | _ => false

/-- What the fill itself reads: L1 copies, scratchpads, the accumulator (R200). Some none: not now. -/
def localPart (s : State) (uid core prod : Nat) (team : Team) (t : Train) (p : Producer) (q : Part) :
    Option (Option Part) :=
  match q.place with
  | .glob =>
    match l1Copy s core team.ctx p q with
    | none => some none
    | some l =>
      some (readPart s core team.owed t p.seq
        (policyBase s (kernelOf uid team) p.policy fun a => lineByte l.data (a % 128))
        (errL1 s (l1Holder s core (headLane q.addrs))) q)
  | .scr u =>
    match teamOf s u with
    | none => some none
    | some v => some (readPart s core team.owed t p.seq (scrGet v) (fun a => if scrErr s u a 1 then 4 else 0) q)
  | .acc _ =>
    if team.jobs.any fun k => (k.1 < prod || (loads p && isPassed k.2.kind)) &&
        anyMeet (footprint k.2.kind) [(true, headLane q.addrs, q.addrs.length)] then some none
    else
      some (readPart s core team.owed t p.seq (accGet team) (fun o => if accErr s uid o 1 then 5 else 0) q)
  | .peer _ => some none

/-- The open accesses of a load that the fill reads: all, or those it picks (R232, R242; log entry 16). Those
of a whole line are read at one moment, and so are those of the accumulator (R200). -/
def localPicks (s : State) (p : Producer) : List Part :=
  let mine := p.parts.filter partOpen
  let whole (q : Part) : Bool := match partLine q, q.place with
    | some ln, _ => wholeLine p ln
    | none, .acc _ => true
    | none, _ => false
  if mine.any whole then mine else pickFrom s mine

/-- The scope checks of lines that a fill reads from L1. -/
def l1Scopes (s : State) (uid train core : Nat) (team : Team) (p : Producer) :
    List Nat → List Part → State
  | _, [] => s
  | seen, q :: rest =>
    let ln := headLane q.addrs / 128
    match if partOpen q && !seen.contains ln then l1Copy s core team.ctx p q else none with
    | none => l1Scopes s uid train core team p seen rest
    | some l =>
      let mine := q :: rest.filter fun k => partOpen k && partLine k == some ln
      l1Scopes (scopeCheck s uid train p.order.toNat p.nochk false l.scope (lowVa mine)
        (prodBytes p.kind)) uid train core team p (ln :: seen) rest

/-! ## Fills (R24, R273, R277, R279) -/

/-- A lane's loaded value, its accesses put together and extended (R272). -/
def loadValue (p : Producer) (n : Nat) (sx : Bool) (l : Nat) : Nat :=
  let v := (p.parts.filter (·.lane == l)).foldl
    (fun (k : Nat) q => k + ((q.got.getD 0).toNat) * 2 ^ (8 * q.shift)) 0
  if sx && bitOf v (8 * n - 1) then v + (2 ^ 32 - 2 ^ (8 * n)) else v

/-- Lanes whose data did not come, with the code. -/
def badLanes (p : Producer) : AMap (BitVec 8) :=
  p.bad ++ (p.parts.filter fun q => q.bad != 0).map fun q => (q.lane, q.bad)

def isLost (p : Producer) (l : Nat) : Bool := (badLanes p).any (·.1 == l)

/-- The values that a fill writes. -/
def fillVals (p : Producer) : List (Nat × Nat) :=
  ((lanesOf p.lanes).filter fun l => !isLost p l).map fun l =>
    (l, match p.kind with
      | .load n sx => loadValue p n sx l
      | .acc n => loadValue p n false l
      | _ => (defGet 0 p.vals l).toNat)

/-- A register group is full again. -/
def markFull (t : Train) (r n : Nat) : Train :=
  { t with empty := t.empty.filter fun k => k < r || r + n ≤ k }

/-- The fill of a producer (R24). -/
def fillTrain (t : Train) (id : Nat) (p : Producer) : Train :=
  let vals := fillVals p
  let t := { t with prods := mapDel t.prods id }
  let t := match p.dst with
    | .v r n => markFull (vLanesPut t r n vals) r n
    | .k r n => match vals with
      | [] => t
      | (_, x) :: _ => kGroupPut t r n x
  let t := match p.kind with
    | .cas _ pS => predPut t pS.toNat (vals.map fun v => (v.1, p.oks.getLsbD v.1))
    | _ => t
  orFlags t p.flags

/-- The failures of lost lanes: each lost access of a load, and each lost lane of an atomic (R339, R344,
R357, R362). -/
def lostFails (p : Producer) : List Failure :=
  let fail (l : Nat) (b : BitVec 8) (va : Addr) : Failure :=
    ⟨l, (lostCause b).1, (lostCause b).2, va.toNat / 2 ^ 18, va⟩
  let vaOf (l : Nat) : Addr := match p.parts.find? (·.lane == l) with
    | some q => q.va
    | none => 0
  ((p.parts.filter fun q => q.bad != 0).map fun q => fail q.lane q.bad q.va) ++
    p.bad.map fun e => fail e.1 e.2 (vaOf e.1)

/-- The instruction that stands until its data have come learns how they came. -/
def settleData (t : Train) (id : Nat) (passed : LaneMask) (lost : List Failure) : Train :=
  let done (r : Resume) : Resume := match r with
    | .data k fs => if k = id then .dataDone passed (lost.foldr failInsert fs) else r
    | _ => r
  { t with
    siding := t.siding.map fun p => { p with resume := done p.resume }
    handler := t.handler.map fun h => { h with resume := done h.resume } }

/-- Failures of lanes whose instruction has gone: deferred traps, one for each code and page (R333, R339). -/
def lateTraps (p : Producer) : List Failure → List Deferred
  | [] => []
  | f :: rest =>
    let like (g : Failure) : Bool := g.code == f.code && g.page == f.page
    let same := f :: rest.filter like
    let rmw := match p.kind with
      | .load _ _ => false
      | _ => true
    let low := same.foldl (fun (m : Nat) g => min m g.addr.toNat) f.addr.toNat
    { mkDeferred f.code f.reason 0 (BitVec.ofNat 80 low) (prodBytes p.kind) 0 with
      lanes := maskOf (same.map (·.lane))
      atomic := rmw
      write := rmw } ::
      (lateTraps p rest).filter fun d => !(d.code == f.code && d.addr.toNat / 2 ^ 18 == f.page)

def addDeferreds (s : State) (uid tn : Nat) : List Deferred → State
  | [] => s
  | d :: rest => addDeferreds (addDeferred s uid tn d) uid tn rest

/-- A producer fills. Lanes whose data did not come fail at the instruction, where it still stands. -/
def fillProducer (s : State) (uid tn id : Nat) (p : Producer) : State :=
  let lost := lostFails p
  let passed := p.lanes &&& ~~~maskOf (lost.map (·.lane))
  let stands (t : Train) : Bool :=
    (t.siding.any fun q => match q.resume with
      | .data k _ => k == id
      | _ => false) || match t.handler with
      | some h => match h.resume with
        | .data k _ => k == id
        | _ => false
      | none => false
  let late := match trainOf s uid tn with
    | some t => if stands t then [] else lateTraps p lost
    | none => []
  addDeferreds (modTrain s uid tn fun t => settleData (fillTrain t id p) id passed lost) uid tn late

/-- LONG_LATENCY_FILL (R24, R61, R104, R202, R273, R277, R279). -/
def execLongLatencyFill (uid train prod : Nat) (s : State) : Host.Outcome State Fault Refusal :=
  .next <|
    match teamOf s uid, trainOf s uid train with
    | some team, some t =>
      match mapGet t.prods prod with
      | none => s
      | some p =>
        let core := coreOfTeam team
        match p.kind with
        | .alu => fillProducer s uid train prod p
        | .acc _ => match readParts (localPart s uid core prod team t p) p.parts with
          | none => s
          | some parts => fillProducer s uid train prod { p with parts := parts }
        | .load _ _ =>
          if !loadDone p && !loadTurn s uid train t p.seq then s
          else
            let qs := localPicks s p
            let f (q : Part) : Option (Option Part) :=
              if qs.contains q then localPart s uid core prod team t p q else none
            match readParts f p.parts with
            | none => s
            | some parts =>
              let s := l1Scopes s uid train core team p [] qs
              let s := keepInv s (kernelOf uid team) p.policy (partGranules qs)
              let s := storeParts s uid train prod core p parts
              let p : Producer := { p with parts := parts }
              if loadDone p then fillProducer s uid train prod p else s
        | _ => if lanesBack p then fillProducer s uid train prod p else s
    | _, _ => s

/-! ## The stash (R207) -/

/-- STASH_TRANSFER_DONE (R207): pieces move. A `stash` reads its scratchpad bytes, which then travel as stores;
an `unstash` reads memory and writes the scratchpad. -/
def execStashTransferDone (uid train : Nat) (s : State) : Host.Outcome State Fault Refusal :=
  .next <|
    match teamOf s uid, trainOf s uid train with
    | some team, some t =>
      let core := coreOfTeam team
      match workOf t isStashWork with
      | some (.stashWork true lo off n pages policy left) =>
        if !stashTurn s uid train t true then s
        else
          let now := stashTakes s left
          let ops := now.flatMap fun i => stashOps team pages (lo.toNat + 128 * i) (off + 128 * i)
          let s := addReqs uid core train team.ctx true ⟨t.seq, 0, 1, 1, policy, ops, none⟩ []
            (groupOps ops) s
          modTrain s uid train fun t => settleWork t (.stashWork true lo off n pages policy left)
            (stashRest true lo off n pages policy (left.filter fun i => !now.contains i))
      | some (.stashWork false lo off n pages policy left) =>
        if stashUnwritten s uid team lo.toNat n || !stashTurn s uid train t false then s
        else
          let r := unstashRun uid train core team t policy lo.toNat off (stashTakes s left) s
          match r.fault with
          | none => modTrain r.s uid train fun t =>
              settleWork t (.stashWork false lo off n pages policy left)
                (stashRest false lo off n pages policy (left.filter fun i => !r.moved.contains i))
          | some (c, q, va) =>
            modTrain (modTeam r.s uid fun t => { t with stash := t.stash + BitVec.ofNat 80 n }) uid train
              fun t => settleWork t (.stashWork false lo off n pages policy left)
                (.unitFault c q (BitVec.ofNat 80 va) n)
      | _ => s
    | _, _ => s

/-! ## Replicas, evictions, walks -/

/-- REPLICA_DROP (R225). -/
def execReplicaDrop (line slice : Nat) (s : State) : Host.Outcome State Fault Refusal :=
  .next <|
    match mapGet s.l2 line with
    | none => s
    | some l => dropReplicaList s line (l.replicas.filter (·.slice == slice))

/-- L1_EVICT (R219, R227). -/
def execL1Evict (core line : Nat) (s : State) : Host.Outcome State Fault Refusal :=
  .next (invalLine s core line)

/-- L2_EVICT (R222, R228, R344). -/
def execL2Evict (line : Nat) (s : State) : Host.Outcome State Fault Refusal :=
  .next (if lineUpdating s line then s else evictLine s line)

/-- A TLB without what it holds of an address. -/
def tlbDrop (tlb : List TlbEntry) (ctx va : Nat) : List TlbEntry :=
  tlb.filter fun e => !(e.ctx == ctx && e.vpage == va / 2 ^ e.bits)

/-- A TLB with an entry more, for an address; the oldest leaves a full one (R343). -/
def tlbAdd (size va : Nat) (tlb : List TlbEntry) (e : TlbEntry) : List TlbEntry :=
  (e :: tlbDrop tlb e.ctx va).take size

/-- Splits of a train that wait for a page's translation. -/
def waitsPage (t : Train) (page : Nat) : Bool :=
  t.siding.any fun p => match p.st with
    | .waiting (.walk ps) => ps.contains page
    | _ => false

/-- A train that waits for a page learns that its walk faulted. -/
def learnFault (page : Nat) (e : TrapCause) (t : Train) : Train :=
  if waitsPage t page then { t with walked := mapPut t.walked page e } else t

/-- The trains of a context on a core that wait for a page learn that its walk faulted. -/
def walkFault (s : State) (core ctx page : Nat) (e : TrapCause) : State :=
  let f (t : Team) : Team :=
    if t.ctx == ctx && t.loc == Loc.core core then
      { t with trains := t.trains.map fun x => (x.1, learnFault page e x.2) }
    else t
  { s with teams := s.teams.map fun u => (u.1, f u.2) }

/-- TRANSLATION_WALK (R269, R340 to R343): a core TLB's miss is answered by the die's TLB or a walk. A page
that the core's TLB holds is translated anew: an entry may leave a TLB at any time. -/
def execTranslationWalk (core ctx vpage : Nat) (s : State) : Host.Outcome State Fault Refusal :=
  .next <|
    let va := vpage * 2 ^ 18
    let held := (tlbFind (coreOf s core).tlb ctx va).isSome
    match if held then none else tlbFind (dieAt s (dieOf core)).tlb ctx va with
    | some e => modCore s core fun c => { c with tlb := tlbAdd 512 va c.tlb e }
    | none =>
      let s := touchWalk s ctx va
      match walk s ctx va with
      | .error e =>
        let s := modDie s (dieOf core) fun d => { d with tlb := tlbDrop d.tlb ctx va }
        let s := modCore s core fun c => { c with tlb := tlbDrop c.tlb ctx va }
        walkFault s core ctx vpage e
      | .ok e =>
        let s := modDie s (dieOf core) fun d => { d with tlb := tlbAdd 16384 va d.tlb e }
        modCore s core fun c => { c with tlb := tlbAdd 512 va c.tlb e }

/-- SLEEP_EXPIRE (R82): of a train on a core that is not halted. -/
def execSleepExpire (uid train : Nat) (s : State) : Host.Outcome State Fault Refusal :=
  .next <|
    match teamOf s uid with
    | none => s
    | some team =>
      if !isResident team || (coreOf s (coreOfTeam team)).halted then s
      else modTrain s uid train fun t =>
        { t with siding := t.siding.map fun p => match p.st with
            | .waiting (.sleep till) =>
              if till ≤ s.now then { p with st := .ready, resume := .slept } else p
            | _ => p }

end Sys2Proof.Machine
end

