-- ==== Sys2Proof/Machine/Launch.lean ====
section
/-!
DEFINITION. The Timetable (R129 to R136, R155, R156, R366): launch records and kernel headers, acceptance
and refusal, dependences, ranking, placement, draining, pre-emption requests, retirement; opcode 0x70.
-/
namespace Sys2Proof.Machine

/-! ## Kernel headers (R53, R55) -/

/-- A kernel header. -/
structure Header where
  task   : Bool
  fused  : Bool
  determ : Bool
  lanes  : Nat
  width  : Nat
  regs   : Nat
  split  : Nat
  scr    : Nat
  roles  : List Nat
  deriving DecidableEq, Repr

/-- Bytes `lo` to `lo + n - 1` of a list, as a number. -/
def field (bs : List Byte) (lo n : Nat) : Nat := leNat ((bs.drop lo).take n)

/-- Bytes `lo` to `lo + n - 1` of a list are all 0. -/
def zeroBytes (bs : List Byte) (lo n : Nat) : Bool := ((bs.drop lo).take n).all (· == 0)

/-- The budgets of R53 for roles 0 to `roles`. -/
def budgetsOk (bs : List Byte) (roles regs : Nat) : Bool :=
  (List.range 16).all fun (i : Nat) =>
    let b := field bs (16 + i) 1
    if i ≤ roles then 1 ≤ b && b ≤ regs else b == 0

/-- A header's 64 bytes, where they pass the checks of R55. -/
def parseHeader (bs : List Byte) : Option Header :=
  let w0 := field bs 0 4
  let w1 := field bs 4 4
  let w2 := field bs 8 4
  let scr := field bs 12 4
  let roles := bitsOf w0 12 4
  let task := bitOf w0 8
  let lanes := bitsOf w1 16 11
  let wc := bitsOf w1 8 3
  let regs := bitsOf w1 0 6
  let split := bitsOf w2 0 5
  let width := 4 * 2 ^ wc
  if bitsOf w0 16 16 != 0 || bitOf w0 11 || bitsOf w0 0 8 != 1 || bitsOf w1 27 5 != 0
      || bitsOf w1 11 5 != 0 || bitsOf w1 6 2 != 0 || bitsOf w2 5 27 != 0 || !zeroBytes bs 32 32
      || 4 < wc || regs < 1 || 32 < regs || split < 4 || 24 < split || scr % 256 != 0
      || 2 ^ 21 - 65536 * split < scr || !budgetsOk bs roles regs then none
  else if task then
    if lanes != 0 || wc != 0 || roles != 0 || 16384 < scr then none
    else some ⟨true, false, false, 0, 0, 8 * regs, split, scr, [8 * field bs 16 1]⟩
  else if lanes < 1 || 1024 < lanes || 64 < ceilDiv lanes width
      || 65536 * split < roundUp lanes width * 8 * regs * 4 then none
  else some ⟨false, bitOf w0 10, bitOf w0 9, lanes, width, 8 * regs, split, scr,
    (List.range (roles + 1)).map fun (i : Nat) => 8 * field bs (16 + i) 1⟩

/-! ## Launch records (R130, R132) -/

/-- The events of a launch may be written when it is refused (R55): their base and number. -/
def eventsOf (bs : List Byte) : Option (Nat × Nat) :=
  let cl := bitsOf (field bs 0 4) 16 2
  let n := field bs 8 4
  let ev := field bs 48 10
  if ev % 8 != 0 || cl == 3 || n % 2 ^ cl != 0 then none else some (ev, n)

/-- A dependence slot (R130): unused and zero, or an aligned address with a count. -/
def depOk (bs : List Byte) (deps d : Nat) : Bool :=
  let o := 96 + 16 * d
  if d < deps then field bs o 10 % 8 == 0 && zeroBytes bs (o + 10) 2 && field bs (o + 12) 4 != 0
  else zeroBytes bs o 16

/-- The checks of R132 on the record itself. -/
def recordOk (bs : List Byte) : Bool :=
  let w0 := field bs 0 4
  let deps := bitsOf w0 18 3
  bitsOf w0 21 11 == 0 && bitsOf w0 12 4 == 0 && bitsOf w0 0 8 == 1 && deps ≤ 4
    && (eventsOf bs).isSome && field bs 16 10 % 64 == 0 && field bs 64 10 % 256 == 0
    && field bs 80 8 % 256 == 0 && zeroBytes bs 12 4 && zeroBytes bs 26 6 && zeroBytes bs 42 6
    && zeroBytes bs 58 6 && zeroBytes bs 74 6 && zeroBytes bs 88 8
    && (List.range 4).all (depOk bs deps)

/-- The launch that a record and its header describe (R54, R130). -/
def launchOf (ctx order : Nat) (bs : List Byte) (h : Header) : Launch :=
  let w0 := field bs 0 4
  { ctx := ctx
    prio := bitsOf w0 8 2
    order := order
    csize := 2 ^ bitsOf w0 16 2
    determ := bitOf w0 10 || h.determ
    fused := bitOf w0 11 || h.fused
    grid := BitVec.ofNat 32 (field bs 4 4)
    teams := field bs 8 4
    header := BitVec.ofNat 80 (field bs 16 10)
    arg := BitVec.ofNat 80 (field bs 32 10)
    events := BitVec.ofNat 80 (field bs 48 10)
    stash := BitVec.ofNat 80 (field bs 64 10)
    stashsz := field bs 80 8
    deps := (List.range (bitsOf w0 18 3)).map fun (d : Nat) =>
      (BitVec.ofNat 80 (field bs (96 + 16 * d) 10), field bs (96 + 16 * d + 12) 4)
    ready := bitsOf w0 18 3 == 0
    placed := 0
    retired := 0
    lanes := h.lanes
    width := h.width
    regs := h.regs
    roles := h.roles
    scrSize := h.scr
    split := h.split }

/-- A record of the Timetable (R156). -/
def timetableRec (ctx code reason core : Nat) (team : Word) (write : Bool) (addr : Addr)
    (length : Nat) : Rec where
  fetch := false
  atomic := false
  write := write
  reason := BitVec.ofNat 8 reason
  source := 6
  code := BitVec.ofNat 8 code
  core := BitVec.ofNat 16 core
  ctx := BitVec.ofNat 12 ctx
  team := team
  detail := 0
  resume := 0
  train := 0
  unit := 0
  body := accessBody addr length 0 0

/-- Write a team completion event (R155); a fault writes a record in its place (R156). -/
def writeEvent (s : State) (ctx va core status : Nat) (team : Word) : State :=
  let va := va % 2 ^ 80
  match devStore s ctx va (natLe 8 (core * 256 + status)) with
  | .ok s => s
  | .error (e, a) => reportHeld s ctx (timetableRec ctx e.1 e.2 core team true a 8)

/-- Write the events of teams that do not run, in ascending order. -/
def writeEvents (ctx va status : Nat) : Nat → State → State
  | 0, s => s
  | n + 1, s =>
    writeEvent (writeEvents ctx va status n s) ctx (va + 8 * n) 0xFFFF status 0

/-- A refused launch (R55, R132, R156). -/
def refuse (s : State) (ctx : Nat) (bs : List Byte) (reason : Nat) (addr : Addr) (len : Nat) :
    State :=
  let s := match eventsOf bs with
    | some (ev, n) => writeEvents ctx ev 2 n s
    | none => s
  reportHeld s ctx (timetableRec ctx 17 reason 0xFFFF 0 false addr len)

/-- Accepted launches of a context that have not started (R179, R366). -/
def unstarted (s : State) (ctx : Nat) : Nat :=
  (s.launches.filter fun l => l.2.ctx == ctx && l.2.placed == 0).length

/-- The events of a record lie in a line that a copy owns: what would write them waits (R245). -/
def eventsHeld (s : State) (ctx : Nat) (bs : List Byte) : Bool :=
  match eventsOf bs with
  | some (ev, n) => devHeld s ctx .write ev (8 * n)
  | none => false

/-- The lines of a record's events. -/
def eventLines (s : State) (ctx : Nat) (bs : List Byte) : List Nat :=
  match eventsOf bs with
  | some (ev, n) => devLines s ctx .write ev (8 * n)
  | none => []

/-- Accept or refuse a record that has been read (R132): whether it is accepted. -/
def acceptRecord (s : State) (ctx : Nat) (va : Addr) (bs : List Byte) : State × Bool :=
  if va.toNat % 32 ≠ 0 || !recordOk bs then (refuse s ctx bs 0 va 160, false)
  else
    let hva := field bs 16 10
    match devRead s ctx hva 64 with
    | (s, .error (e, a)) => (refuse s ctx bs e.1 a 64, false)
    | (s, .ok hb) =>
      match parseHeader hb with
      | none => (refuse s ctx bs 0 (BitVec.ofNat 80 hva) 64, false)
      | some h =>
        if h.task then (refuse s ctx bs 0 (BitVec.ofNat 80 hva) 64, false)
        else if field bs 8 4 = 0 then (s, true)
        else
          ({ s with
              nextId := s.nextId + 1
              launches := mapPut s.launches s.nextId (launchOf ctx s.nextId bs h) }, true)

/-- Accept or refuse the record in a slot of a launch queue (R156, R366). -/
def acceptSlot (s : State) (ctx : Nat) (va : Nat) : State :=
  match devRead s ctx va 160 with
  | (s, .error (e, a)) => reportHeld s ctx (timetableRec ctx 17 e.1 0xFFFF 0 false a 160)
  | (s, .ok bs) => (acceptRecord s ctx (BitVec.ofNat 80 va) bs).1

/-! ## Host launch queues (R366) -/

/-- Process up to `n` records from `head` on: the state, head, and whether the queue has stalled. -/
def serveQueue (ctx base slots : Nat) : Nat → Nat → State → State × Nat × Bool
  | 0, head, s => (s, head, false)
  | n + 1, head, s =>
    let at_ := (base + 160 * (head % slots)) % 2 ^ 80
    let late := match devLoad s ctx at_ 160 with
      | .ok bs => eventsHeld s ctx bs
      | .error _ => false
    if 1024 ≤ unstarted s ctx || late then (s, head, true)
    else
      serveQueue ctx base slots n ((head + 1) % 2 ^ 64)
        (acceptSlot s ctx at_)

/-- The count up to which a queue is being processed, where a stall has stopped it. -/
def bellUpto (c : Ctx) (queue : Nat) : Option Nat :=
  (c.bells.find? fun b => b.1 == queue && b.2.isSome).bind Prod.snd

/-- The entry of a queue's bell that is served leaves; `next` follows it where the queue stalls. -/
def bellNext (s : State) (ctx queue : Nat) (served : Option Nat) (next : List (Nat × Option Nat)) : State :=
  modCtx s ctx fun c => { c with bells := c.bells.filter (· != (queue, served)) ++ next }

/-- The count up to which a doorbell has a queue processed: its tail, at most a ring beyond its head. -/
def bellTail (slots head tail : Nat) : Nat :=
  if slots < (tail + 2 ^ 64 - head) % 2 ^ 64 then (head + slots) % 2 ^ 64 else tail

/-- LAUNCH_DOORBELL (R366). A queue that stalls goes on later up to the same count; a bell that rings meanwhile
has its tail read again afterwards. -/
def execLaunchDoorbell (ctx queue : Nat) (s : State) : Host.Outcome State Fault Refusal :=
  .next <|
    let c := ctxOf s ctx
    match c.lq[queue]? with
    | none => s
    | some q =>
      let upto := bellUpto c queue
      if !c.created || !c.bells.contains (queue, upto) || devHeld s ctx .write q.ctl.toNat 16 then s
      else if q.size = 0 then bellNext s ctx queue upto []
      else match devRead s ctx q.ctl.toNat 16 with
        | (s, .error (e, a)) =>
          reportHeld (bellNext s ctx queue upto []) ctx (timetableRec ctx e.1 e.2 0xFFFF 0 false a 16)
        | (s, .ok ctl) =>
          let slots := 2 ^ q.size.toNat
          let head := field ctl 8 8
          let t := upto.getD (bellTail slots head (field ctl 0 8))
          let n := min slots ((t + 2 ^ 64 - head) % 2 ^ 64)
          let (s, head', stalled) := serveQueue ctx q.base.toNat slots n head s
          let s := bellNext s ctx queue upto (if stalled then [(queue, some t)] else [])
          if head' = head then s
          else match devStore s ctx ((q.ctl.toNat + 8) % 2 ^ 80) (natLe 8 head') with
            | .ok s => s
            | .error (e, a) =>
              reportHeld s ctx (timetableRec ctx e.1 e.2 0xFFFF 0 true a 8)

/-! ## Dependences (R133, R156) -/

/-- The statuses of `n` consecutive events, or the fault of reading one. -/
def eventStates (s : State) (ctx va : Nat) : Nat → List (Except (TrapCause × Addr) Nat)
  | 0 => []
  | n + 1 => eventStates s ctx va n ++ [match devLoad s ctx ((va + 8 * n) % 2 ^ 80) 8 with
      | .ok bs => .ok (field bs 0 1)
      | .error e => .error e]

/-- The records of dependences that could not be read. -/
def depRecs (s : State) (ctx : Nat) : List (Except (TrapCause × Addr) Nat) → State
  | [] => s
  | .ok _ :: rest => depRecs s ctx rest
  | .error (e, a) :: rest =>
    depRecs (reportHeld s ctx (timetableRec ctx e.1 e.2 0xFFFF 0 false a 8)) ctx rest

/-- The marks of cores that drain for a launch are taken back (R136). -/
def undrain (s : State) (launch : Nat) : State :=
  { s with cores := s.cores.map fun c =>
      if c.2.draining == some launch then (c.1, { c.2 with draining := none }) else c }

/-- A launch has no more to do. -/
def dropLaunch (s : State) (launch : Nat) : State :=
  undrain { s with launches := mapDel s.launches launch } launch

def isPending : Except (TrapCause × Addr) Nat → Bool
  | .ok v => v == 0
  | .error _ => false

def isComplete : Except (TrapCause × Addr) Nat → Bool
  | .ok v => v == 1
  | .error _ => false

/-- LAUNCH_READY (R133, R156). -/
def execLaunchReady (launch : Nat) (s : State) : Host.Outcome State Fault Refusal :=
  .next <|
    match mapGet s.launches launch with
    | none => s
    | some l =>
      if l.ready || devHeld s l.ctx .write l.events.toNat (8 * l.teams) then s
      else
        let s := l.deps.foldl (fun s d => touch s l.ctx .read d.1.toNat (8 * d.2)) s
        let evs := l.deps.flatMap fun d => eventStates s l.ctx d.1.toNat d.2
        if evs.any isPending then s
        else if evs.all isComplete then
          { s with launches := mapPut s.launches launch { l with ready := true } }
        else
          writeEvents l.ctx l.events.toNat 4 l.teams (dropLaunch (depRecs s l.ctx evs) launch)

/-! ## What a core can take (R126, R135) -/

/-- Teams resident on a core. -/
def residents (s : State) (core : Nat) : List Team :=
  (s.teams.filter fun t => t.2.loc == .core core).map Prod.snd

/-- Teams that hold scratchpad on a core: those resident, and those retired whose group is not (R214). -/
def holders (s : State) (core : Nat) : List Team :=
  (s.teams.filter fun t => t.2.loc == .core core || t.2.loc == .retired core).map Prod.snd

/-- A core, or a cluster, has no resident team. A scratchpad still kept for siblings counts as one. -/
def coreEmpty (s : State) (core : Nat) : Bool := (holders s core).isEmpty

def clusterEmpty (s : State) (cl : Nat) : Bool :=
  (List.range 4).all fun m => coreEmpty s (4 * cl + m)

/-- The lanes of a core's resident trains (R126). -/
def coreLanes (s : State) (core : Nat) : Nat :=
  ((residents s core).map fun t => ((liveTrains t).map fun x => x.2.width).sum).sum

/-- The lanes for which a team holds registers (R150, R291). -/
def laneRoom (t : Team) : Nat := roundUp t.lanes t.width

/-- Bytes of the register part that the teams of a core hold. -/
def regsUsed (s : State) (core : Nat) : Nat :=
  ((residents s core).map fun t => laneRoom t * t.regs * 4).sum

/-- `n` bytes from `lo` on are free of the given allocations. -/
def rangeFree (used : List (Nat × Nat)) (lo n : Nat) : Bool :=
  used.all fun u => n == 0 || u.2 == 0 || lo + n ≤ u.1 || u.1 + u.2 ≤ lo

/-- The lowest start of a free range of `n` bytes among `size` (R135). -/
def firstFit (used : List (Nat × Nat)) (size n : Nat) : Option Nat :=
  ((0 :: used.map fun u => u.1 + u.2).filter fun lo => lo + n ≤ size && rangeFree used lo n).min?

/-- What a team needs of a core: lanes of its trains, trains, bytes of registers and of scratchpad. -/
structure Need where
  lanes  : Nat
  trains : Nat
  regs   : Nat
  scr    : Nat
  deriving DecidableEq, Repr

/-- Where a team's scratchpad would start on a core under a split, if the core has room (R8, R126, R135). The
accumulator windows add no condition, though ended trains leave room for windows of more than 4 MiB (R198; log
entry 138). -/
def roomAt (s : State) (core split : Nat) (n : Need) : Option Nat :=
  if 2048 < coreLanes s core + n.lanes || 128 < coreTrains s core + n.trains
      || 16 < (residents s core).length + 1
      || 65536 * split < regsUsed s core + n.regs then none
  else firstFit ((holders s core).map fun t => (t.scrAt, t.scrSize)) (2 ^ 21 - 65536 * split) n.scr

/-- The width of a launch's trains: one lane runs as one train of width 4 (R10). -/
def trainWidth (l : Launch) : Nat := if l.lanes = 1 then 4 else l.width

def needOf (l : Launch) : Need :=
  ⟨ceilDiv l.lanes l.width * trainWidth l, ceilDiv l.lanes l.width, roundUp l.lanes l.width * l.regs * 4,
    l.scrSize⟩

/-- A core takes no team while it is halted or has teams to vacate. -/
def coreOpen (s : State) (core : Nat) : Bool :=
  !(coreOf s core).halted && (coreOf s core).vacating.isEmpty

/-- A draining core takes teams of the split and mode that it drains for (R136). -/
def drainAllows (s : State) (core split : Nat) (fused : Bool) : Bool :=
  match (coreOf s core).draining with
  | none => true
  | some k =>
    match mapGet s.launches k with
    | none => true
    | some l => l.split == split && l.fused == fused

/-- The split in force when a team of the given split comes to a core. -/
def splitFor (s : State) (core split : Nat) : Nat :=
  if coreEmpty s core then split else (coreOf s core).split

/-- A cluster is in a mode, or takes it (R135). -/
def modeFits (s : State) (cl : Nat) (fused : Bool) : Bool :=
  clusterEmpty s cl || s.fused.contains cl == fused

/-- A core can take a team of the given split, mode and need (R135). -/
def canTake (s : State) (core split : Nat) (fused : Bool) (n : Need) : Bool :=
  coreOpen s core && drainAllows s core split fused && splitFor s core split == split &&
    modeFits s (clusterOf core) fused && (roomAt s core split n).isSome

/-- The clusters of a partition, rising (R7). -/
def clustersOf (s : State) (p : Nat) : List Nat :=
  (List.range 64).filter fun c => (partOf s p).mask.getLsbD c

/-- The order in which the placer prefers cores (R136), as one number. -/
def prefKey (s : State) (split core : Nat) : Nat :=
  (if (coreOf s core).split = split then 0 else 1024) + (if coreEmpty s core then 0 else 512) + core

/-- Insert by a key. -/
def keyInsert (key : Nat → Nat) (x : Nat) : List Nat → List Nat
  | [] => [x]
  | y :: t => if key x < key y then x :: y :: t else y :: keyInsert key x t

/-- Sort by a key. -/
def keySort (key : Nat → Nat) (l : List Nat) : List Nat := l.foldr (keyInsert key) []

/-- `a` comes before `b`, number by number. -/
def listLess : List Nat → List Nat → Bool
  | [], _ => false
  | _ :: _, [] => false
  | x :: a, y :: b => x < y || (x == y && listLess a b)

/-- The cores of a cluster that the placer chooses for a group of `c` teams, if it has them. -/
def clusterSpot (s : State) (split : Nat) (fused : Bool) (n : Need) (c cl : Nat) :
    Option (List Nat) :=
  let cs := keySort (prefKey s split)
    (((List.range 4).map (4 * cl + ·)).filter fun k => canTake s k split fused n)
  if cs.length < c then none else some (cs.take c)

/-- The cores for a group among clusters (R129, R136): the most preferred, number by number. -/
def bestSpot (s : State) (split : Nat) (fused : Bool) (n : Need) (c : Nat) :
    List Nat → Option (List Nat)
  | [] => none
  | cl :: rest =>
    match clusterSpot s split fused n c cl, bestSpot s split fused n c rest with
    | none, b => b
    | a, none => a
    | some a, some b =>
      if listLess (b.map (prefKey s split)) (a.map (prefKey s split)) then some b else some a

/-- Where the next group of a launch goes. -/
def launchSpot (s : State) (l : Launch) : Option (List Nat) :=
  bestSpot s l.split l.fused (needOf l) l.csize (clustersOf s (ctxOf s l.ctx).partition.toNat)

/-! ## Ranking (R134, R349) -/

/-- A launch stands for placement in a partition. -/
def placeable (s : State) (p : Nat) (l : Launch) : Bool :=
  l.ready && l.placed * l.csize < l.teams && (ctxOf s l.ctx).created &&
    !(ctxOf s l.ctx).quiesced && (ctxOf s l.ctx).partition.toNat == p

/-- The turn of a context at a priority: how far it stands after the one served last. -/
def turnOf (p : Partition) (prio ctx : Nat) : Nat :=
  match mapGet p.served prio with
  | none => ctx
  | some k => (ctx + 4095 - k) % 4096

/-- The rank of a launch as one number, the lowest first. -/
def rankKey (s : State) (p launch : Nat) : Nat :=
  match mapGet s.launches launch with
  | none => 0
  | some l =>
    ((3 - l.prio) * 4096 + turnOf (partOf s p) l.prio l.ctx) * (s.nextId + 1) + l.order

/-- The launches of a partition that stand for placement, by rank. -/
def ranked (s : State) (p : Nat) : List Nat :=
  keySort (rankKey s p) (mapKeys (s.launches.filter fun l => placeable s p l.2))

/-! ## A new team (R127, R128, R131, R150, R152, R198, R215) -/

/-- A train as it starts (R10, R12, R17, R20, R127). -/
def newTrain (width budget prio : Nat) (lanes : List Nat) (active : LaneMask) (pc : Addr)
    (memctl : Word) (pipe bound now : Nat) : Train where
  width := width
  pipe := pipe
  bound := bound
  since := now
  next := none
  passed := 0
  prio := prio
  v := []
  empty := []
  k := []
  b := []
  p := []
  j := []
  home := List.range width
  lanes := lanes
  active := active
  done := 0
  flags := 0
  memctl := memctl.setWidth 13
  trap := 0
  fault := 0
  role := 0
  budget := budget
  siding := [readySplit pc active]
  sq := []
  prods := []
  seq := 0
  handler := none
  trapped := false
  trapIdx := 0
  pend := none
  defer := []
  walked := []
  asked := []
  streams := []
  merge := none
  ended := false

/-- Bind the trains of a team to their pipes in order (R125). -/
def addTrains (uid core : Nat) (mk : Nat → Nat → Nat → Train) : Nat → State → State
  | 0, s => s
  | n + 1, s =>
    let s := addTrains uid core mk n s
    let t := mk n (pickPipe s core) s.nextId
    modTeam { s with nextId := s.nextId + 1 } uid fun m => { m with trains := mapPut m.trains n t }

/-- Team `i` of a launch, as sibling `sib` of its group, on a core. -/
def newTeam (l : Launch) (launch i sib core at_ : Nat) : Team :=
  let lo := l.stash + BitVec.ofNat 80 (i * l.stashsz)
  let n := roundUp l.lanes l.width
  { ctx := l.ctx
    loc := .core core
    launch := some launch
    group := i / l.csize
    sib := sib
    csize := l.csize
    team := BitVec.ofNat 32 i
    grid := l.grid
    arg := l.arg
    prio := l.prio
    determ := l.determ
    fused := l.fused
    split := l.split
    lanes := l.lanes
    width := l.width
    regs := l.regs
    roles := l.roles
    scrSize := l.scrSize
    scrAt := at_
    scr := []
    accSize := 2048 * n
    acc := []
    stash := lo
    stLo := lo
    stHi := lo.toNat + l.stashsz
    events := l.events
    pool := ceilDiv l.lanes l.width * trainWidth l * (l.regs - headLane l.roles) / 8
    claims := []
    rvs := []
    trains := []
    copies := []
    jobs := []
    nextId := 0
    owed := []
    closing := none
    aborted := false }

/-- A core with no team takes a split (R135). -/
def takeSplit (s : State) (core split : Nat) : State :=
  if coreEmpty s core then modCore s core fun c => { c with split := split } else s

/-- A cluster with no team takes an L1 mode; a change invalidates its four L1s (R135, R220). -/
def takeMode (s : State) (cl : Nat) (fused : Bool) : State :=
  if !clusterEmpty s cl || s.fused.contains cl == fused then s
  else
    let s := (List.range 4).foldl (fun s m =>
      scrubL1 (modCore (sendPartials s (4 * cl + m) none) (4 * cl + m) fun c => { c with l1 := [] })
        (4 * cl + m) fun _ => true) s
    { s with fused := if fused then setAdd s.fused cl else setDel s.fused cl }

/-- The active lanes of train `t` of a team of `lanes` lanes (R127). -/
def launchLanes (lanes width t : Nat) : LaneMask := lowMask (min width (lanes - t * width))

/-- Place team `i` of a launch on a core: it follows the acquire with which the Timetable has read (R133,
R249, R366). -/
def placeTeam (s : State) (launch : Nat) (l : Launch) (i sib core : Nat) : State :=
  let s := takeSplit s core l.split
  let at_ := (roomAt s core (coreOf s core).split (needOf l)).getD 0
  let uid := s.nextId
  let s := setTeam { s with nextId := uid + 1 } uid (newTeam l launch i sib core at_)
  let m := (ctxOf s l.ctx).memctl
  let w := trainWidth l
  let s := addTrains uid core (fun t pipe bound =>
      newTrain w (headLane l.roles) l.prio ((List.range w).map (t * w + ·))
        (launchLanes l.lanes w t) (l.header + 64) m pipe bound s.now)
    (ceilDiv l.lanes l.width) s
  dropForeign s core

def placeTeams (launch : Nat) (l : Launch) : Nat → List Nat → State → State
  | _, [], s => s
  | m, core :: rest, s =>
    placeTeams launch l (m + 1) rest (placeTeam s launch l (l.placed * l.csize + m) m core)

/-- Place the next group of a launch on cores of one cluster (R129, R134). -/
def placeGroup (s : State) (launch : Nat) (l : Launch) (cores : List Nat) : State :=
  let s := takeMode s (clusterOf (headLane cores)) l.fused
  let s := placeTeams launch l 0 cores s
  let s := { s with launches := mapPut s.launches launch { l with placed := l.placed + 1 } }
  let p := (ctxOf s l.ctx).partition.toNat
  let q := partOf s p
  undrain { s with parts := mapPut s.parts p { q with served := mapPut q.served l.prio l.ctx } } launch

/-! ## Draining (R136) -/

/-- The `c` cores of a cluster that would take a group if splits and mode were left out, by fewest
resident lanes; none where there are not so many. -/
def drainCores (s : State) (l : Launch) (cl : Nat) : Option (List Nat) :=
  let cs := keySort (fun k => coreLanes s k * 256 + k)
    (((List.range 4).map (4 * cl + ·)).filter fun k =>
      coreOpen s k && (roomAt s k (splitFor s k l.split) (needOf l)).isSome)
  if cs.length < l.csize then none else some (cs.take l.csize)

/-- The cores that a cluster would have to drain for a launch. -/
def drainMarks (s : State) (l : Launch) (cl : Nat) : List Nat :=
  match drainCores s l cl with
  | none => []
  | some cs =>
    if !modeFits s cl l.fused then (List.range 4).map (4 * cl + ·)
    else cs.filter fun k => (coreOf s k).split != l.split

/-- The cluster to drain: fewest resident lanes on the cores to be drained, the lowest on a tie. -/
def drainBest (s : State) (l : Launch) : List Nat → Option (Nat × List Nat)
  | [] => none
  | cl :: rest =>
    let ms := drainMarks s l cl
    let n := (ms.map (coreLanes s)).sum
    match if ms.isEmpty then none else some (n, ms), drainBest s l rest with
    | none, b => b
    | a, none => a
    | some a, some b => if b.1 < a.1 then some b else some a

/-- Mark cores as draining for a launch, unless some already are. -/
def startDrain (s : State) (launch : Nat) (l : Launch) : State :=
  if s.cores.any fun c => c.2.draining == some launch then s
  else match drainBest s l (clustersOf s (ctxOf s l.ctx).partition.toNat) with
    | none => s
    | some (_, ms) =>
      ms.foldl (fun s k => modCore s k fun c => { c with draining := some launch }) s

/-! ## Pre-emption requests (R350) -/

/-- The teams of a team's cluster group that are resident (R214). -/
def groupOf (s : State) (uid : Nat) (t : Team) : List Nat :=
  match t.launch with
  | none => [uid]
  | some k => mapKeys (s.teams.filter fun e =>
      e.2.launch == some k && e.2.group == t.group && isResident e.2)

/-- The teams of some cores, with their groups. -/
def teamsToVacate (s : State) (cores : List Nat) : List Nat :=
  s.teams.foldl (fun l e => match e.2.loc with
    | .core k => if cores.contains k then setUnion l (groupOf s e.1 e.2) else l
    | _ => l) []

/-- A context's save slots that are free (R348). -/
def freeSlots (c : Ctx) : List Nat :=
  (List.range c.saveslots.toNat).filter fun k => !c.slots.contains k

/-- Every context has free slots for its teams among those to vacate. -/
def slotsFor (s : State) (uids : List Nat) : Bool :=
  s.ctxs.all fun c =>
    (uids.filter fun u => match teamOf s u with
      | some t => t.ctx == c.1
      | none => false).length ≤ (freeSlots c.2).length

/-- Sublists of `c` elements. -/
def choices : Nat → List Nat → List (List Nat)
  | 0, _ => [[]]
  | _ + 1, [] => []
  | c + 1, x :: t => (choices c t).map (x :: ·) ++ choices (c + 1) t

/-- A choice of cores that a launch may pre-empt: its teams rank lower, none is being vacated, and there are
slots (R350). -/
def preemptable (s : State) (l : Launch) (cores : List Nat) : Bool :=
  let uids := teamsToVacate s cores
  !uids.isEmpty && cores.all (coreOpen s) &&
    (cores.all fun k => (residents s k).all fun t => t.prio < l.prio) && slotsFor s uids

/-- The order of choices (R350). -/
def preemptKey (s : State) (cores : List Nat) : List Nat :=
  [(cores.flatMap fun k => (residents s k).map (·.prio)).foldl max 0,
    (cores.map (coreLanes s)).sum, clusterOf (headLane cores)]

def preemptBest (s : State) (l : Launch) : List (List Nat) → Option (List Nat)
  | [] => none
  | cs :: rest =>
    let b := preemptBest s l rest
    if !preemptable s l cs then b
    else match b with
      | none => some cs
      | some b => if listLess (preemptKey s b) (preemptKey s cs) then some b else some cs

/-- Request the vacating of the chosen cores' teams (R350): each core learns its own. -/
def requestVacate (s : State) (uids : List Nat) : State :=
  uids.foldl (fun s u => match teamOf s u with
    | some t => modCore s (coreOfTeam t) fun c => { c with vacating := setAdd c.vacating u }
    | none => s) s

def startPreempt (s : State) (l : Launch) : State :=
  let all := (clustersOf s (ctxOf s l.ctx).partition.toNat).flatMap fun cl =>
    choices l.csize ((List.range 4).map (4 * cl + ·))
  match preemptBest s l all with
  | none => s
  | some cs => requestVacate s (teamsToVacate s cs)

/-! ## Save images (R348) -/

/-- The byte ranges of an image in its slot, by offset and length: saved structures, then register,
scratchpad and accumulator bytes. The structures grow with trains and streams, and those of a core's teams
stay within 256 KiB together. -/
def imageRanges (t : Team) (gen : Nat) : List (Nat × Nat) :=
  [(0, min (Config.imageHead gen) (1024 * (liveTrains t).length
      + 512 * ((liveTrains t).map fun x => x.2.streams.length).sum)),
   (2 ^ 18, laneRoom t * t.regs * 4 + t.scrSize + t.accSize)]

/-- The address of a save slot. -/
def saveSlot (c : Ctx) (slot : Nat) : Nat := (c.save.toNat + slot * 2 ^ 23) % 2 ^ 80

def imageBytes (gen off n : Nat) : List Byte :=
  (List.range n).map fun i => Config.imageByte gen (off + i)

/-- What the reading of an image finds: as it was written or not; or a fault of the save area. -/
def checkImage (s : State) (ctx at_ gen : Nat) : List (Nat × Nat) → Except TrapCause Bool
  | [] => .ok true
  | (off, n) :: rest =>
    match devLoad s ctx ((at_ + off) % 2 ^ 80) n with
    | .error (e, _) => if e.1 = 15 then .ok false else .error e
    | .ok bs => if bs = imageBytes gen off n then checkImage s ctx at_ gen rest else .ok false

/-- The check of a saved team's image. -/
def imageOf (s : State) (uid : Nat) : Except TrapCause Bool :=
  match teamOf s uid with
  | none => .ok true
  | some t =>
    match t.loc with
    | .saved slot gen =>
      checkImage s t.ctx (saveSlot (ctxOf s t.ctx) slot) gen (imageRanges t gen)
    | _ => .ok true

/-- Every train of a team is halted, and its image cannot be read: a fault of the save area has halted them
(R328). -/
def imageStuck (s : State) (uid : Nat) (t : Team) : Bool :=
  !(liveTrains t).isEmpty && (liveTrains t).all (·.2.trapped) && match imageOf s uid with
    | .error _ => true
    | .ok _ => false

/-! ## Restoring (R349) -/

/-- A saved team's group: every team of it that is saved. -/
def savedGroup (s : State) (uid : Nat) (t : Team) : List Nat :=
  match t.launch with
  | none => [uid]
  | some k => mapKeys (s.teams.filter fun e =>
      e.2.launch == some k && e.2.group == t.group && !isResident e.2 &&
        e.2.loc != .retired (coreOfTeam e.2))

/-- What a saved team needs: the registers of all its launch lanes. -/
def teamNeed (t : Team) : Need :=
  ⟨((liveTrains t).map fun x => x.2.width).sum, (liveTrains t).length, laneRoom t * t.regs * 4,
    t.scrSize⟩

/-- A saved team fits a core: for a task team, any with room (R290, R349). -/
def canRestore (s : State) (core : Nat) (t : Team) : Bool :=
  let n := teamNeed t
  let split := if t.launch.isSome then t.split else splitFor s core t.split
  coreOpen s core &&
    (match t.launch with
      | some _ => drainAllows s core t.split t.fused && splitFor s core t.split == t.split &&
          modeFits s (clusterOf core) t.fused
      | none => (coreOf s core).draining.isNone) &&
    (roomAt s core split n).isSome &&
    !(t.trains.any (fun x => x.2.merge.isSome) && (coreOf s core).merge.isSome)

/-- A saved team waits for restoration only: its copies have completed. -/
def restorable (s : State) (uids : List Nat) : Bool :=
  uids.all fun u => match teamOf s u with
    | some t => t.copies.isEmpty && !t.aborted && !imageStuck s u t &&
        (ctxOf s t.ctx).created && !(ctxOf s t.ctx).quiesced
    | none => false

/-- The cores of a cluster for a saved group, by preference. -/
def restoreSpot (s : State) (t : Team) (n cl : Nat) : Option (List Nat) :=
  let cs := keySort (prefKey s t.split)
    (((List.range 4).map (4 * cl + ·)).filter fun k => canRestore s k t)
  if cs.length < n then none else some (cs.take n)

/-- What stands for placement in a partition: a launch's next group, or a saved group, by its launch or
lowest team; and its rank: priority, turn of its context, saved groups before unstarted ones, acceptance
(R134, R349). -/
structure Stand where
  saved : Bool
  name  : Nat
  rank  : List Nat
  deriving DecidableEq, Repr

def launchStand (s : State) (p k : Nat) (l : Launch) : Stand :=
  ⟨false, k, [3 - l.prio, turnOf (partOf s p) l.prio l.ctx, 1, l.order]⟩

def savedStand (s : State) (p uid : Nat) (t : Team) : Stand :=
  ⟨true, uid, [3 - t.prio, turnOf (partOf s p) t.prio t.ctx, 0, t.launch.getD uid, t.group]⟩

def isSaved (t : Team) : Bool :=
  match t.loc with
  | .saved _ _ => true
  | _ => false

/-- A saved group could be restored now in a partition. -/
def savedFits (s : State) (p uid : Nat) (t : Team) : Bool :=
  let group := savedGroup s uid t
  restorable s group && (clustersOf s p).any fun cl => (restoreSpot s t group.length cl).isSome

/-- What stands for placement in a partition and would fit. -/
def standing (s : State) (p : Nat) : List Stand :=
  ((s.launches.filter fun l => placeable s p l.2 && (launchSpot s l.2).isSome).map fun l =>
    launchStand s p l.1 l.2) ++
  (s.teams.filter fun t => isSaved t.2 && (ctxOf s t.2.ctx).partition.toNat == p &&
    savedFits s p t.1 t.2).map fun t => savedStand s p t.1 t.2

/-- The first of what stands, by rank. -/
def firstStand : List Stand → Option Stand
  | [] => none
  | x :: rest =>
    match firstStand rest with
    | none => some x
    | some y => if listLess y.rank x.rank then some y else some x

/-! ## TEAM_PLACE -/

/-- Place the next group of the highest-ranked launch that fits, unless a saved group goes first (R134,
R349). -/
def placeBest (s : State) (p : Nat) : State :=
  match firstStand (standing s p) with
  | none => s
  | some x =>
    if x.saved then s
    else match mapGet s.launches x.name with
      | none => s
      | some l =>
        match launchSpot s l with
        | none => s
        | some cores => placeGroup s x.name l cores

/-- What the highest-ranked launch starts when its next group fits nowhere (R136, R350). -/
def topBlocked (s : State) (launch : Nat) : State :=
  match mapGet s.launches launch with
  | none => s
  | some l =>
    if (launchSpot s l).isSome then s else startPreempt (startDrain s launch l) l

/-- TEAM_PLACE (R134 to R136, R350). -/
def execTeamPlace (partition : Nat) (s : State) : Host.Outcome State Fault Refusal :=
  .next <|
    match ranked s partition with
    | [] => s
    | k :: _ => placeBest (topBlocked s k) partition

/-! ## TEAM_RETIRE (R155, R156, R201, R214, R225, R292) -/

/-- Every train has ended, and every store, atomic and copy of the team has been performed; its
accumulator work is done. -/
def retireReady (s : State) (uid : Nat) (t : Team) : Bool :=
  (liveTrains t).isEmpty && (t.trains.all fun x => x.2.sq.isEmpty) && t.copies.isEmpty &&
    t.jobs.isEmpty && s.net.all fun r => r.2.uid != uid

/-- The requests that a completion's release waits for: those beyond the port of the team's core when it
became ready, and of the cores it was on (R155, R238, R248, R249). -/
def closingOf (s : State) (t : Team) : List Nat :=
  t.closing.getD (if isResident t then coreReqs s (coreOfTeam t) t.owed true else t.owed)

/-- Replicas made for a launch alone are dropped; the others forget it (R225). -/
def dropLaunchReplicas (s : State) (launch : Nat) : List Nat → State
  | [] => s
  | ln :: rest =>
    let s := match mapGet s.l2 ln with
      | none => s
      | some l => dropReplicaList s ln (l.replicas.filter fun r => r.launches.contains launch)
    dropLaunchReplicas s launch rest

/-- A retired team keeps only its scratchpad (R214). -/
def retiredTeam (t : Team) : Team :=
  { t with
    loc := .retired (coreOfTeam t)
    acc := []
    accSize := 0
    pool := 0
    claims := []
    rvs := []
    trains := [] }

/-- The teams of a group have all retired. -/
def groupDone (s : State) (t : Team) : Bool :=
  s.teams.all fun e => !(e.2.launch == t.launch && e.2.group == t.group) ||
    e.2.loc == .retired (coreOfTeam e.2)

/-- The team leaves its core, keeping its scratchpad for its siblings where it has some (R214). -/
def leaveCore (s : State) (uid : Nat) (t : Team) : State :=
  let s := match t.loc with
    | .saved slot _ => modCtx s t.ctx fun c => { c with slots := setDel c.slots slot }
    | _ => s
  if t.launch.isNone || t.csize = 1 then { s with teams := mapDel s.teams uid }
  else
    let s := setTeam s uid (retiredTeam t)
    if groupDone s t then
      { s with teams := s.teams.filter fun e =>
          !(e.2.launch == t.launch && e.2.group == t.group) }
    else s

/-- TEAM_RETIRE. -/
def execTeamRetire (uid : Nat) (s : State) : Host.Outcome State Fault Refusal :=
  .next <|
    match teamOf s uid with
    | none => s
    | some t =>
      let waits := closingOf s t
      if t.loc == .retired (coreOfTeam t) || !retireReady s uid t then s
      else if waits.any fun k => (mapGet s.net k).isSome then
        modTeam s uid fun t => { t with closing := some waits }
      else if t.launch.isSome && devHeld s t.ctx .write (t.events.toNat + 8 * t.team.toNat) 8 then s
      else
        let last := match t.launch with
          | some k => (mapGet s.launches k).map fun l => l.retired + 1 == l.teams
          | none => none
        let s := match t.launch, last with
          | some k, some true => dropLaunchReplicas s k (mapKeys s.l2)
          | _, _ => s
        let s := match t.launch with
          | some _ => writeEvent s t.ctx (t.events.toNat + 8 * t.team.toNat) (coreOfTeam t)
              (if t.aborted then 3 else 1) t.team
          | none => s
        let s := match t.launch, last with
          | some k, some true => dropLaunch s k
          | some k, _ => { s with launches := mapMod s.launches k fun l =>
              { l with retired := l.retired + 1 } }
          | none, _ => s
        leaveCore s uid t

/-! ## `glaunch` (R179) -/

/-- R179: the launch record is read, checked and accepted or refused as one step, after the release. The spec gives
no order between FULL and what the record would bring: FULL comes first, and the record is not touched (log entry
134). -/
def glaunchBody (x : Site) (a : Args) (d : Bool) (s : State) : State :=
  let va := effAddr (bGet x.train (baseNum a.s1))
    (srcNat x.train a.s2 (if d then 2 else 1) (headLane x.lanes)) d 0
  let done (st : Nat) (s : State) : State :=
    advance x (modIssuer x s fun t => dstPut t a.dst 1 [(0, st)])
  if 1024 ≤ unstarted s x.team.ctx then done 2 s
  else match devRead s x.team.ctx va.toNat 160 with
    | (s, .error (e, bad)) => trapAddr x e.1 e.2 bad 160 false s
    | (s, .ok bs) =>
      if eventsHeld s x.team.ctx bs then waitFor x (.lines (eventLines s x.team.ctx bs)) s
      else
        let (s, ok) := acceptRecord s x.team.ctx va bs
        done (if ok then 0 else 1) s

/-- R179: the train holds at it, and its run ends there (R27, R46). -/
def execGlaunch (a : Args) (d : Bool) (s : State) : Host.Outcome State Fault Refusal :=
  issue (.glaunch a d) a s fun x => holdOnce x (releaseAt x 6 (glaunchBody x a d))

end Sys2Proof.Machine
end

