-- ==== Sys2Proof/Machine/Platform.lean ====
section
/-!
DEFINITION. Continuation atomics at their home slice, and the Platform (R278 to R281, R287 to R302);
opcode 0x71.
-/
namespace Sys2Proof.Machine

/-! ## The task table (R287, R288) -/

/-- The address of a context's entry (R287). -/
def taskAt (s : State) (ctx task : Nat) : Nat := ((ctxOf s ctx).tasktable.toNat + 32 * task) % 2 ^ 80

/-- What the bytes of a usable entry give: header, argument, priority. -/
def usableEntry (bs : List Byte) : Option (Addr × Addr × Nat) :=
  let w := field bs 12 4
  if bitsOf w 0 2 != 3 || bitsOf w 4 28 != 0 || !zeroBytes bs 10 2 || !zeroBytes bs 26 6
      || field bs 0 10 % 64 != 0 then none
  else some (BitVec.ofNat 80 (field bs 0 10), BitVec.ofNat 80 (field bs 16 10), bitsOf w 2 2)

/-- An entry as it is read, where it is usable and the read does not fault. -/
def taskEntry (s : State) (ctx task : Nat) : State × Option (Addr × Addr × Nat) :=
  match devRead s ctx (taskAt s ctx task) 32 with
  | (s, .error _) => (s, none)
  | (s, .ok bs) => (s, usableEntry bs)

/-- The read of an entry waits for a copy that owns its line (R245). -/
def taskHeld (s : State) (ctx task : Nat) : Bool := devHeld s ctx .read (taskAt s ctx task) 32

/-- The argument record of a launch (R281, R301). -/
def argRecord (old va task payload : Nat) : BitVec 256 :=
  BitVec.ofNat 256 (leNat (natLe 8 old ++ natLe 10 va ++ natLe 2 task ++ natLe 4 0 ++ natLe 8 payload))

/-- The record of a lost launch (R294, R337). -/
def lostRec (ctx reason source core : Nat) (body : BitVec 256) : Rec where
  fetch := false
  atomic := false
  write := false
  reason := BitVec.ofNat 8 reason
  source := BitVec.ofNat 4 source
  code := 14
  core := BitVec.ofNat 16 core
  ctx := BitVec.ofNat 12 ctx
  team := 0
  detail := 0
  resume := 0
  train := 0
  unit := 0
  body := body

/-! ## The home slice (R280, R293, R295) -/

/-- Die distance (R295, R354). -/
def dieDistance (a b : Nat) : Nat :=
  (if a % 2 = b % 2 then 0 else 1) + (if a / 2 % 2 = b / 2 % 2 then 0 else 1)

/-- The key of a core for a slice (R295), as one number. -/
def bindKey (slice core : Nat) : Nat :=
  let c := core % 64
  let s := slice % 64
  (dieDistance (slice / 64) (dieOf core) * 64 + (max c s - min c s)) * 256 + core

/-- The cores of a context's partition (R7). -/
def ctxCores (s : State) (ctx : Nat) : List Nat :=
  (clustersOf s (ctxOf s ctx).partition.toNat).flatMap fun cl => (List.range 4).map (4 * cl + ·)

/-- The core whose Platform takes a slice's launch. A partition whose mask has been emptied has none; the
launch is then bound to core 0, and waits in its queue until a partition with that core takes the context
(R7; log entry 119). -/
def bindCore (s : State) (ctx slice : Nat) : Nat :=
  headLane (keySort (bindKey slice) (ctxCores s ctx))

/-- The lane operation of a `casl` request. -/
def caslOp (r : Req) : Option (LaneOp × BitVec 8 × DWord) :=
  match r.ops with
  | o :: _ => match o.op with
    | .casl task pay => some (o, task, pay)
    | _ => none
  | [] => none

/-- The old value and status as the fill writes them (R279). -/
def caslValue (o : LaneOp) (old status : Nat) : QWord :=
  BitVec.ofNat 128 (old + 2 ^ (8 * o.addrs.length) * status)

/-- A request's answer with a status. -/
def setStatus (s : State) (req : Nat) (o : LaneOp) (status : Nat) : State :=
  { s with net := mapMod s.net req fun r =>
      { r with olds := r.olds.map fun e => (e.1, caslValue o e.2.toNat status) } }

/-- The launch of a `casl` whose comparison has succeeded: enqueued, or lost with status 3 (R293). -/
def caslLaunch (s : State) (req : Nat) (r : Req) (o : LaneOp) (task : BitVec 8) (pay : DWord)
    (old : Nat) : State :=
  let slice := homeSlice (128 * r.line)
  let body := argRecord old o.va.toNat task.toNat pay.toNat
  let core := bindCore s r.ctx slice
  match taskEntry s r.ctx task.toNat with
  | (s, some (h, arg, prio)) =>
    let e : LqEntry := ⟨core, ⟨r.ctx, task, body, h, arg, prio, 0⟩, none, some req⟩
    setStatus (modSlice s slice fun q => { q with queue := q.queue ++ [e] }) req o 0
  | (s, none) =>
    match claimRec (setStatus s req o 3) r.ctx (lostRec r.ctx 1 4 0xFFFF body) with
    | (s, none) => s
    | (s, some k) =>
      let e : LqEntry := ⟨core, ⟨r.ctx, task, body, 0, 0, 0, 0⟩, some k, none⟩
      modSlice s slice fun q => { q with queue := q.queue ++ [e] }

/-- The compare and write of a `casl` with its entry reserved, and its outcome, as one event. -/
def caslPerform (s : State) (req : Nat) (r : Req) : State :=
  match caslOp r with
  | none => s
  | some (o, task, pay) =>
    let (s, d) := homePerform s req r
    match mapGet d.olds o.lane with
    | none => s
    | some old =>
      if d.wrote = 0 then setStatus s req o 1 else caslLaunch s req r o task pay old.toNat

/-- The home cannot perform a `casl` now: its line, or the line of its task entry, is not free (R221, R245). -/
def caslHeld (s : State) (r : Req) : Bool :=
  lineBusy s r.line || match caslOp r with
    | some (_, task, _) => taskHeld s r.ctx task.toNat
    | none => false

/-- CASL_HOME (R293): the request takes an entry and is performed, or waits for one. -/
def execCaslHome (req : Nat) (s : State) : Host.Outcome State Fault Refusal :=
  .next <|
    match mapGet s.net req with
    | none => s
    | some r =>
      let slice := homeSlice (128 * r.line)
      let q := sliceOf s slice
      if r.stage != .toHome || !isCasl r || !reqReady s req r then s
      else if q.queue.length < 64 && q.waiting.isEmpty then
        if caslHeld s r then s else caslPerform s req r
      else
        let r' : Req := { r with stage := .holding (s.now + 2048) }
        modSlice { s with net := mapPut s.net req r' } slice fun q =>
          { q with waiting := q.waiting ++ [req] }

/-- A request waits for an entry, and its hold has not ended. -/
def isHolding (now : Nat) (r : Req) : Bool :=
  match r.stage with
  | .holding till => now < till
  | _ => false

/-- CASL_RESERVE (R293): the request that has waited longest obtains a free entry. -/
def execCaslReserve (req : Nat) (s : State) : Host.Outcome State Fault Refusal :=
  .next <|
    match mapGet s.net req with
    | none => s
    | some r =>
      let slice := homeSlice (128 * r.line)
      let q := sliceOf s slice
      if !isHolding s.now r || q.waiting.head? != some req || 64 ≤ q.queue.length || caslHeld s r then s
      else
        caslPerform (modSlice s slice fun q => { q with waiting := q.waiting.drop 1 }) req r

/-- The word of a request read as a relaxed load (R293). -/
def caslRead (s : State) (req : Nat) (r : Req) (o : LaneOp) : State :=
  let s := combineLine s r.line
  let lost := match o.addrs.find? fun a => errAt s a != 0 with
    | some a => errAt s a
    | none => 0
  let old := leNat (o.addrs.map (homeByte s))
  let r' : Req :=
    { r with
      olds := if lost = 0 then [(o.lane, caslValue o old 2)] else []
      bad := if lost = 0 then [] else [(o.lane, BitVec.ofNat 8 lost)]
      stage := .updating [] }
  { s with net := mapPut s.net req r' }

/-- CASL_HOLD_EXPIRE (R293): no entry came free within the hold: NO_ROOM. -/
def execCaslHoldExpire (req : Nat) (s : State) : Host.Outcome State Fault Refusal :=
  .next <|
    match mapGet s.net req with
    | none => s
    | some r =>
      match r.stage, caslOp r with
      | .holding till, some (o, _, _) =>
        if s.now < till || holdBehind s req r || lineBusy s r.line then s
        else
          caslRead (modSlice s (homeSlice (128 * r.line)) fun q =>
            { q with waiting := setDel q.waiting req }) req r o
      | _, _ => s

/-! ## The Platform (R296, R297) -/

/-- The tasks pending at a core's Platform. -/
def pendingTasks (c : Core) : Nat :=
  (c.forming.map fun f => f.tasks.length).sum + (c.departed.map fun d => d.tasks.length).sum

/-- The context of a train's tasks. -/
def ctxOfTasks : List Task → Nat
  | [] => 0
  | t :: _ => t.ctx

/-- Two tasks gather (R296). -/
def sameTasks (a b : Task) : Bool :=
  a.ctx == b.ctx && a.task == b.task && a.header == b.header && a.arg == b.arg && a.prio == b.prio

/-- A forming train takes tasks like this one: its window is open, and it has room. -/
def formsFor (now : Nat) (t : Task) (f : Forming) : Bool :=
  match f.tasks with
  | u :: _ => sameTasks t u && f.tasks.length < 32 && now < f.close
  | [] => false

/-- The read of the header of a train's tasks waits for a copy that owns its line (R245). -/
def headerHeld (s : State) (tasks : List Task) : Bool :=
  match tasks with
  | [] => false
  | t :: _ => devHeld s t.ctx .read t.header.toNat 64

/-- What the header read at departure gives (R294, R296). -/
def departedOf (s : State) (tasks : List Task) : State × Departed :=
  match tasks with
  | [] => (s, ⟨[], 0, 0, 0, 0, 2, none⟩)
  | t :: _ =>
    match devRead s t.ctx t.header.toNat 64 with
    | (s, .error _) => (s, ⟨tasks, 0, 0, 0, 0, 3, none⟩)
    | (s, .ok bs) => (s, match parseHeader bs with
      | none => ⟨tasks, 0, 0, 0, 0, 2, none⟩
      | some h =>
        if h.task then ⟨tasks, h.regs, headLane h.roles, h.split, h.scr, 0, none⟩
        else ⟨tasks, 0, 0, 0, 0, 2, none⟩)

/-- The records of lost tasks, in turn: those from the first whose record waits for room stay, with its
name (R335). -/
def loseTasks (core reason : Nat) : List Task → State → State × List Task × Option Nat
  | [], s => (s, [], none)
  | t :: rest, s =>
    match claimRec s t.ctx (lostRec t.ctx reason 5 core t.rec_) with
    | (s, some k) => (s, t :: rest, some k)
    | (s, none) => loseTasks core reason rest s

/-- A Platform takes a departed train, unless its tasks are lost and their records written. -/
def departTrain (core : Nat) (d : Departed) (s : State) : State :=
  let (s, left, wait) := if d.lost = 0 then (s, d.tasks, none) else loseTasks core d.lost d.tasks s
  if left.isEmpty then s
  else modCore s core fun c =>
    { c with departed := c.departed ++ [{ d with tasks := left, wait := wait }] }

/-- A train departs at a core's Platform (R296). -/
def depart (s : State) (core : Nat) (tasks : List Task) : State :=
  let (s, d) := departedOf s tasks
  departTrain core d s

/-- The Platform accepts a task: it joins a forming train or opens one; the 32nd departs (R296). -/
def acceptTask (s : State) (core : Nat) (t : Task) : State :=
  let t := { t with order := s.nextId }
  let s := { s with nextId := s.nextId + 1 }
  let c := coreOf s core
  match c.forming.findIdx? (formsFor s.now t) with
  | none =>
    let f : Forming := ⟨[t], s.now + 32⟩
    setCore s core { c with forming := c.forming ++ [f] }
  | some n =>
    match c.forming[n]? with
    | none => s
    | some f =>
      let tasks := f.tasks ++ [t]
      if 32 ≤ tasks.length && !headerHeld s tasks then
        depart (setCore s core { c with forming := listDrop c.forming n }) core tasks
      else setCore s core { c with forming := listMod c.forming n fun f => { f with tasks := tasks } }

/-- The launches that wait to be delivered: a slice's queue, or, numbered from 256 on, what a context had
unloaded, once it is placed again (R302). -/
def acceptQueue (s : State) (slice : Nat) : List LqEntry :=
  if slice < 256 then (sliceOf s slice).queue
  else
    let c := ctxOf s (slice - 256)
    if c.created && !c.quiesced then c.unloaded else []

def acceptGone (s : State) (slice n : Nat) : State :=
  if slice < 256 then modSlice s slice fun q => { q with queue := listDrop q.queue n }
  else modCtx s (slice - 256) fun c => { c with unloaded := listDrop c.unloaded n }

/-- A launch may be delivered to the Platform that it is bound to: its `casl` has been acknowledged (R247),
and the core is of its context's partition (R7; log entry 119). -/
def deliverable (s : State) (e : LqEntry) : Bool :=
  !(match e.req with
    | some k => (mapGet s.net k).isSome
    | none => false) &&
  (ctxCores s e.task.ctx).contains e.core && pendingTasks (coreOf s e.core) < 256

/-- PLATFORM_ACCEPT (R247, R293, R295, R296, R302): entry `n` of a queue is delivered, unless an earlier
one is bound to the same Platform; a lost launch leaves its entry when its record is written. -/
def execPlatformAccept (slice n : Nat) (s : State) : Host.Outcome State Fault Refusal :=
  .next <|
    let q := acceptQueue s slice
    match q[n]? with
    | none => s
    | some e =>
      if e.lost.isSome then
        if recWaits s e.task.ctx e.lost then s else acceptGone s slice n
      else if (q.take n).any (fun f => f.lost.isNone && f.core == e.core) || !deliverable s e then s
      else acceptTask (acceptGone s slice n) e.core e.task

/-- GATHER_WINDOW_CLOSE (R296). -/
def execGatherWindowClose (core idx : Nat) (s : State) : Host.Outcome State Fault Refusal :=
  .next <|
    let c := coreOf s core
    match c.forming[idx]? with
    | none => s
    | some f =>
      if (s.now < f.close && f.tasks.length < 32) || headerHeld s f.tasks then s
      else depart (setCore s core { c with forming := listDrop c.forming idx }) core f.tasks

/-- The smallest width that holds `n` tasks (R296). -/
def taskWidth (n : Nat) : Nat := if n ≤ 4 then 4 else if n ≤ 8 then 8 else if n ≤ 16 then 16 else 32

def taskNeed (d : Departed) : Need :=
  let w := taskWidth d.tasks.length
  ⟨w, 1, w * d.regs * 4, d.scr⟩

/-- A core can take a departed train (R7, R290, R296): in whatever split and mode, unless it drains. -/
def taskFits (s : State) (core : Nat) (d : Departed) : Bool :=
  d.lost == 0 && (d.tasks.all fun t => (ctxCores s t.ctx).contains core) &&
    coreOpen s core && (coreOf s core).draining.isNone &&
    (roomAt s core (splitFor s core d.split) (taskNeed d)).isSome

/-- The v registers of a task train: lane l's argument record in v0 to v7 (R291). -/
def taskRegs (tasks : List Task) : AMap Word :=
  (List.range 8).flatMap fun (r : Nat) =>
    (List.range tasks.length).filterMap fun (l : Nat) =>
      match tasks[l]? with
      | none => none
      | some t =>
        let w : Word := t.rec_.extractLsb' (32 * r) 32
        if w = 0 then none else some (64 * r + l, w)

/-- The team of a task train (R291). -/
def taskTeam (t : Task) (d : Departed) (core at_ : Nat) (fused : Bool) : Team :=
  let w := taskWidth d.tasks.length
  { ctx := t.ctx
    loc := .core core
    launch := none
    group := 0
    sib := 0
    csize := 1
    team := 0
    grid := t.task.setWidth 32
    arg := t.arg
    prio := t.prio
    determ := false
    fused := fused
    split := d.split
    lanes := d.tasks.length
    width := w
    regs := d.regs
    roles := [d.budget]
    scrSize := d.scr
    scrAt := at_
    scr := []
    accSize := 2048 * w
    acc := []
    stash := 0
    stLo := 0
    stHi := 0
    events := 0
    pool := w * (d.regs - d.budget) / 8
    claims := []
    rvs := []
    trains := []
    copies := []
    jobs := []
    nextId := 0
    owed := []
    closing := none
    aborted := false }

/-- Place a departed train on its core; it begins with an acquire at device scope (R247). -/
def placeTask (s : State) (core : Nat) (t : Task) (d : Departed) : State :=
  let s := takeSplit s core d.split
  let at_ := (roomAt s core (coreOf s core).split (taskNeed d)).getD 0
  let uid := s.nextId
  let team := taskTeam t d core at_ (s.fused.contains (clusterOf core))
  let s := setTeam { s with nextId := uid + 1 } uid team
  let m := (ctxOf s t.ctx).memctl
  let s := addTrains uid core (fun _ pipe bound =>
    { newTrain team.width d.budget t.prio (List.range team.width) (lowMask d.tasks.length)
        (t.header + 64) m pipe bound s.now with
      v := taskRegs d.tasks }) 1 s
  dropForeign s core

/-- Lost tasks that still wait for room in the fault queue stay (R335). -/
def keepLost (c : Core) (idx : Nat) (left : List Task) (wait : Option Nat) : Core :=
  let f (d : Departed) : Departed := { d with tasks := left, wait := wait }
  { c with departed := if left.isEmpty then listDrop c.departed idx else listMod c.departed idx f }

/-- TASK_TRAIN_PLACE (R291, R296, R297): the oldest train that fits is placed; lost tasks leave with their
records. -/
def execTaskTrainPlace (core idx : Nat) (s : State) : Host.Outcome State Fault Refusal :=
  .next <|
    let c := coreOf s core
    match c.departed[idx]? with
    | none => s
    | some d =>
      let gone := setCore s core { c with departed := listDrop c.departed idx }
      if d.lost ≠ 0 then
        if recWaits s (ctxOfTasks d.tasks) d.wait then s
        else
          let (s', left, wait) := loseTasks core d.lost (d.tasks.drop 1) s
          modCore s' core fun c => keepLost c idx left wait
      else if !taskFits s core d || (c.departed.take idx).any (taskFits s core) then s
      else match d.tasks with
        | [] => gone
        | t :: _ => placeTask gone core t d

/-! ## Stealing (R298) -/

/-- A partition that holds both cores and a context. -/
def sharesPart (s : State) (a b ctx : Nat) : Bool :=
  let p := partOf s (ctxOf s ctx).partition.toNat
  p.mask.getLsbD (clusterOf a) && p.mask.getLsbD (clusterOf b)

/-- A Platform is idle: it holds no task and its core has room for a task team. -/
def platformIdle (s : State) (core : Nat) : Bool :=
  pendingTasks (coreOf s core) == 0 && coreOpen s core && (coreOf s core).draining.isNone &&
    (roomAt s core (splitFor s core 4) ⟨4, 1, 128, 0⟩).isSome

/-- PLATFORM_STEAL (R298). -/
def execPlatformSteal (thief victim : Nat) (s : State) : Host.Outcome State Fault Refusal :=
  .next <|
    let c := coreOf s victim
    if thief = victim || !platformIdle s thief then s
    else
      let may (tasks : List Task) : Bool :=
        !tasks.isEmpty && sharesPart s thief victim (ctxOfTasks tasks)
      match c.departed.findIdx? fun d => d.lost == 0 && may d.tasks && !taskFits s victim d with
      | some n =>
        let tasks := ((c.departed[n]?).map (·.tasks)).getD []
        if headerHeld s tasks then s
        else depart (setCore s victim { c with departed := listDrop c.departed n }) thief tasks
      | none =>
        match c.forming.findIdx? fun f => may f.tasks with
        | none => s
        | some n =>
          let tasks := ((c.forming[n]?).map (·.tasks)).getD []
          if headerHeld s tasks then s
          else depart (setCore s victim { c with forming := listDrop c.forming n }) thief tasks

/-! ## `tlaunch` (R300, R301) -/

/-- The lane of a `tlaunch` whose entry is not usable: its record is written, or the Platform holds the task
until it is (R301, R335). -/
def tlaunchLost (core ctx : Nat) (t : Task) (s : State) : State :=
  match claimRec s ctx (lostRec ctx 1 5 core t.rec_) with
  | (s, none) => s
  | (s, some k) => modCore s core fun c =>
      { c with departed := c.departed ++ [⟨[t], 0, 0, 0, 0, 1, some k⟩] }

/-- Give lanes their tasks in turn: the lanes' statuses so far, and those left when one must wait. A lane has
its task where room came before its hold ended, and NO_ROOM where the hold ended first. -/
def tlaunchLanes (x : Site) (a : Args) (task : Nat) (till : Nat) (room : Bool) :
    List Nat → AMap Word → State → State × AMap Word × List Nat
  | [], sts, s => (s, sts, [])
  | l :: rest, sts, s =>
    let body := argRecord (srcNat x.train a.s1 2 l) 0 task (srcNat x.train a.s2 2 l)
    let ctx := x.team.ctx
    let full := decide (256 ≤ pendingTasks (coreOf s x.core))
    if till ≤ s.now && (full || !room) then
      tlaunchLanes x a task (s.now + 2048) false rest (mapPut sts l 2) s
    else if full then (s, sts, l :: rest)
    else if taskHeld s ctx task then (s, sts, l :: rest)
    else match taskEntry s ctx task with
      | (s, none) =>
        tlaunchLanes x a task (s.now + 2048) false rest (mapPut sts l 3)
          (tlaunchLost x.core ctx ⟨ctx, BitVec.ofNat 8 task, body, 0, 0, 0, 0⟩ s)
      | (s, some (h, arg, prio)) =>
        tlaunchLanes x a task (s.now + 2048) false rest (mapPut sts l 0)
          (acceptTask s x.core ⟨ctx, BitVec.ofNat 8 task, body, h, arg, prio, 0⟩)

/-- The loop of R301, from the lanes that are left. -/
def tlaunchGo (x : Site) (a : Args) (sts : AMap Word) (left : List Nat) (till : Nat) (room : Bool)
    (s : State) : State :=
  let task := srcNat x.train a.s3 1 (headLane x.lanes) % 256
  let (s', sts', left') := tlaunchLanes x a task till room left sts s
  if left'.isEmpty then
    advance x (modIssuer x s' fun t => dstPut t a.dst 1 (sts'.map fun e => (e.1, e.2.toNat)))
  else
    let same := left' == left
    waitWith x .unit (.tlaunch sts' left' (if same then till else s.now + 2048) (same && room)) s'

/-- `tlaunch` at an issue: its lanes in turn, after its release. -/
def tlaunchBody (x : Site) (a : Args) (scope : BitVec 3) (s : State) : State :=
  match x.split.resume with
  | .tlaunch sts left till room => tlaunchGo x a sts left till room s
  | _ =>
    let go (s : State) : State := tlaunchGo x a [] x.lanes (s.now + 2048) false s
    if scope = 0 then go s else releaseAt x scope.toNat go s

/-- R300, R301: the train holds at it, and its run ends there (R46). -/
def execTlaunch (a : Args) (scope : BitVec 3) (s : State) : Host.Outcome State Fault Refusal :=
  issue (.tlaunch a scope) a s fun x s =>
    if x.team.determ then trapDet x s else holdOnce x (tlaunchBody x a scope) s

/-- The hold of a waiting `tlaunch`'s lane has ended with the Platform full: it receives NO_ROOM. -/
def expireLane (now : Nat) (p : Split) : Split :=
  match p.resume with
  | .tlaunch sts (l :: rest) till false =>
    if till ≤ now then
      { p with
        resume := .tlaunch (mapPut sts l 2) rest (now + 2048) false
        st := match p.st with
          | .waiting _ => .ready
          | st => st }
    else p
  | _ => p

/-- TLAUNCH_HOLD_EXPIRE (R301). -/
def execTlaunchHoldExpire (uid train : Nat) (s : State) : Host.Outcome State Fault Refusal :=
  .next <| modTrain s uid train fun t => { t with siding := t.siding.map (expireLane s.now) }

/-- A waiting `tlaunch` sees whether its core's Platform has had room since before its lane's hold ended
(R301). -/
def watchRoom (now : Nat) (full : Bool) (p : Split) : Split :=
  match p.resume with
  | .tlaunch sts left till room =>
    { p with resume := .tlaunch sts left till (!full && (room || decide (now < till))) }
  | _ => p

end Sys2Proof.Machine
end

