-- ==== Sys2Proof/Machine/Engines.lean ====
section
/-!
DEFINITION. The copy engine, the index engine and the merge tree (R306 to R327): opcodes 0xA0 to 0xA8 and
`mov` from a stream.
-/
namespace Sys2Proof.Machine

/-! ## Bulk copies: where bytes go (R310 to R312) -/

/-- R311: a byte's place in its row on the swizzled side; its own inverse. -/
def swizzle (span r c : Nat) : Nat := c ^^^ (r % 2 ^ span * 16)

/-- Where byte `o` of a copy, in the order of its destination rows (R315), comes from and goes to: source
and destination address or offset (R312). -/
def copyByte (c : Copy) (o : Nat) : Nat × Nat :=
  let r := o / c.len
  let k := o % c.len
  let g := c.g.toNat
  match c.dir with
  | 0 =>
    let k := swizzle c.span r k
    let src := if c.tr then g + k / c.esize * c.stride + r * c.esize + k % c.esize
      else g + r * c.stride + k
    (src % 2 ^ 80, c.p + o)
  | 1 => (c.p + r * c.len + swizzle c.span r k, (g + r * c.stride + k) % 2 ^ 80)
  | _ => (c.p + r * c.len + swizzle c.span r k, c.sibOff + o)

/-- A higher-numbered row of a `.s2g` copy writes the same byte (R312). -/
def superseded (c : Copy) (o : Nat) : Bool :=
  c.dir == 1 && o / c.len + 1 < c.rows && c.stride ≤ o % c.len

/-- The bytes of chunk `k` (R315). -/
def chunkBytes (c : Copy) (k : Nat) : List Nat :=
  (List.range (min 512 (c.rows * c.len - 512 * k))).map (512 * k + ·)

/-- The rows of the global side: first address and length of each (R312). -/
def globalRows (c : Copy) : List (Nat × Nat) :=
  if c.dir = 2 then []
  else if c.tr then (List.range (c.len / c.esize)).map fun k =>
    ((c.g.toNat + k * c.stride) % 2 ^ 80, c.rows * c.esize)
  else (List.range c.rows).map fun r => ((c.g.toNat + r * c.stride) % 2 ^ 80, c.len)

/-- The virtual pages of rows, in their order. -/
def rowPages : List (Nat × Nat) → List (Nat × Nat)
  | [] => []
  | (a, n) :: rest =>
    let ps := (pagesOf a n).map fun p => (p % 2 ^ 62, max a (p * 2 ^ 18) % 2 ^ 80)
    let tail := rowPages rest
    ps ++ tail.filter fun q => !ps.any fun p => p.1 == q.1

/-- Translate pages: their physical addresses, or the trap and the first failing byte. -/
def xlatePages (s : State) (ctx : Nat) (acc : Access) :
    List (Nat × Nat) → Except (TrapCause × Nat) (AMap Nat)
  | [] => .ok []
  | (p, a) :: rest =>
    match devXlate s ctx acc (p * 2 ^ 18) with
    | .error e => .error (e, a)
    | .ok pa =>
      match xlatePages s ctx acc rest with
      | .error e => .error e
      | .ok l => .ok (mapPut l p pa)

/-! ## `bcopy` (R306 to R316) -/

/-- A lane's copy as its operands give it. -/
def copyOf (x : Site) (a : Args) (m : CopyMods) (l : Nat) (s : State) : Copy :=
  let off := srcNat x.train a.s2 1 l
  let g := bGet x.train (baseNum a.s1) + (BitVec.ofNat 32 off).signExtend 80
  { train := x.tn
    dir := m.dir.toNat
    g := if m.dir = 2 then 0 else g &&& ~~~15
    pages := []
    p := srcNat x.train a.s3 1 l / 16 * 16
    sib := if m.dir = 2 then m.sib.toNat else 0
    sibOff := if m.dir = 2 then off / 16 * 16 else 0
    rows := m.rows.toNat + 1
    len := 16 * (m.len.toNat + 1)
    stride := 16 * m.stride.toNat
    span := m.span.toNat
    tr := m.tr
    esize := 2 ^ m.es.toNat
    bm := if m.bm then some (m.bmoff.toNat * 8 / 16 * 16) else none
    rv := if m.arv then some m.rv.toNat else none
    policy := m.pol.toNat
    left := List.range (ceilDiv ((m.rows.toNat + 1) * 16 * (m.len.toNat + 1)) 512)
    taken := []
    moved := []
    core := x.core
    seq := x.train.seq
    due := s.now + 60 + ceilDiv ((m.rows.toNat + 1) * 16 * (m.len.toNat + 1)) 64 }

/-- Bytes of a copy, and bytes of its bitmap. -/
def copySize (c : Copy) : Nat := c.rows * c.len
def bitmapSize (c : Copy) : Nat := ceilDiv (copySize c) 4096

/-- A failing lane of a copy: the failure and the length of its range (R313, R337). -/
structure CopyFail where
  f   : Failure
  len : Nat
  deriving DecidableEq, Repr

/-- A range check of an allocation. -/
def rangeCheck (l size lo n : Nat) : Option CopyFail :=
  if size < lo + n then some ⟨⟨l, 7, 0, noPage, BitVec.ofNat 80 (max lo size)⟩, n⟩ else none

/-- The length of the global range of a copy (R312). -/
def globalSpan (c : Copy) : Nat :=
  if c.tr then (c.len / c.esize - 1) * c.stride + c.rows * c.esize
  else (c.rows - 1) * c.stride + c.len

/-- The checks of R313 on a lane: its copy with the translations, or how it fails. -/
def copyCheck (s : State) (x : Site) (l : Nat) (c : Copy) : Except CopyFail Copy :=
  let own := rangeCheck l x.team.scrSize c.p (copySize c)
  let sib := if c.dir = 2 then
      if x.team.csize ≤ c.sib then
        some (⟨⟨l, 7, 0, noPage, BitVec.ofNat 80 c.sibOff⟩, copySize c⟩ : CopyFail)
      else match siblingOf s x.uid x.team c.sib with
        | none => some (⟨⟨l, 7, 0, noPage, BitVec.ofNat 80 c.sibOff⟩, copySize c⟩ : CopyFail)
        | some (_, t) => (rangeCheck l t.scrSize c.sibOff (copySize c)).or
            (c.bm.bind fun b => rangeCheck l t.scrSize b (bitmapSize c))
    else c.bm.bind fun b => rangeCheck l x.team.scrSize b (bitmapSize c)
  match own.or sib with
  | some f => .error f
  | none =>
    match xlatePages s x.team.ctx (if c.dir = 1 then .write else .read) (rowPages (globalRows c)) with
    | .error (e, a) =>
      .error ⟨⟨l, e.1, e.2, a / 2 ^ 18, BitVec.ofNat 80 a⟩, globalSpan c⟩
    | .ok pages => .ok { c with pages := pages }

/-- The checks of all lanes: copies by lane, and failures. -/
def copyChecks (s : State) (x : Site) (a : Args) (m : CopyMods) :
    List Nat → List (Nat × Copy) × List CopyFail
  | [] => ([], [])
  | l :: rest =>
    let (ok, bad) := copyChecks s x a m rest
    match copyCheck s x l (copyOf x a m l s) with
    | .ok c => ((l, c) :: ok, bad)
    | .error f => (ok, f :: bad)

/-- The records of failing lanes, grouped by code and page (R339). -/
def copyRecs (x : Site) (write : Bool) (done : LaneMask) (seen : List (Nat × Nat)) :
    List CopyFail → List Rec
  | [] => []
  | f :: rest =>
    if seen.contains (f.f.code, f.f.page) then copyRecs x write done seen rest
    else
      let same := f :: rest.filter fun g => g.f.code == f.f.code && g.f.page == f.f.page
      let low := same.foldl (fun (m : Nat) g => min m g.f.addr.toNat) f.f.addr.toNat
      let r := siteRec x f.f.code f.f.reason 0 (BitVec.ofNat 80 low) f.len
        (maskOf (same.map fun g => g.f.lane)) done false write false 0
      { r with source := 1 } :: copyRecs x write done ((f.f.code, f.f.page) :: seen) rest

/-- Copies in flight in a core's engine, those of vacated teams among them (R314, R347). -/
def copiesOn (s : State) (core : Nat) : Nat :=
  (s.teams.map fun t => (t.2.copies.filter fun c => c.2.core == core).length).sum

/-- The team whose scratchpad holds a copy's bitmap (R314). -/
def bitmapTeam (s : State) (uid : Nat) (c : Copy) : Nat :=
  if c.dir = 2 then
    match teamOf s uid with
    | some t => match siblingOf s uid t c.sib with
      | some (u, _) => u
      | none => uid
    | none => uid
  else uid

/-- Clear bits 0 to K - 1 of a bitmap. -/
def clearBits (t : Team) (bm k : Nat) : Team :=
  scrPuts t ((List.range (ceilDiv k 8)).map fun (i : Nat) =>
    let n := min 8 (k - 8 * i)
    (bm + i, scrGet t (bm + i) &&& ~~~(BitVec.ofNat 8 (2 ^ n - 1))))

/-- Set bit `k`. -/
def setBit (t : Team) (bm k : Nat) : Team :=
  scrPut t (bm + k / 8) (scrGet t (bm + k / 8) ||| BitVec.ofNat 8 (2 ^ (k % 8)))

/-- The destination lines of a `.s2g` copy leave the issuing core's L1 and every sharer, those that a replica
has supplied among them (R221, R225, R245). -/
def ownLine (core : Nat) (s : State) (ln : Nat) : State :=
  let s := dropReplicas s ln
  let s := invalLine s (l1Holder s core (128 * ln)) ln
  let s := l1DropAll s (sharersOf s ln) ln
  { s with l2 := mapMod s.l2 ln fun l => { l with sharers := [] } }

/-- The physical lines of a copy's global side. -/
def copyLines (c : Copy) : List Nat :=
  (globalRows c).foldl (fun ls r =>
    setUnion ls ((List.range (ceilDiv (r.1 % 128 + r.2) 128)).map fun i =>
      pageAddr c.pages ((r.1 / 128 + i) * 128 % 2 ^ 80) / 128)) []

/-- The engine accepts a lane's copy (R314). -/
def acceptCopy (x : Site) (s : State) (c : Copy) : State :=
  let id := s.nextId
  let s := modTeam { s with nextId := id + 1 } x.uid fun t => { t with copies := mapPut t.copies id c }
  let s := match c.bm with
    | some b => modTeam s (bitmapTeam s x.uid c) fun t => clearBits t b c.left.length
    | none => s
  if c.dir = 1 then (copyLines c).foldl (ownLine x.core) s else s

/-- Bytes of the own scratchpad that the copies of an instruction use: a sibling side may be the team's
own (R214). -/
def copySpans (own : Nat) (cs : List (Nat × Copy)) : List (Bool × Nat × Nat) :=
  cs.flatMap fun c =>
    (false, c.2.p, copySize c.2) ::
      ((if c.2.dir = 2 && c.2.sib = own then [(false, c.2.sibOff, copySize c.2)] else []) ++
        match c.2.bm with
        | some b => if c.2.dir = 2 && c.2.sib ≠ own then [] else [(false, b, bitmapSize c.2)]
        | none => [])

/-- The walks of the copies' pages read their tables (R228). -/
def touchCopies (x : Site) (a : Args) (m : CopyMods) (s : State) : State :=
  x.lanes.foldl (fun s l =>
    touchPages s x.team.ctx ((rowPages (globalRows (copyOf x a m l s))).map Prod.fst)) s

/-- Operations write a byte from `lo` to `lo + n - 1` of a team's scratchpad. -/
def writesScr (u lo n : Nat) (ops : List LaneOp) : Bool :=
  ops.any fun o => o.place == .scr u && o.addrs.any fun a => lo ≤ a && a < lo + n

/-- A store of a train before number `seq` to bytes of a team's scratchpad has not been performed: it stands in
the train's queue, or on its way to a sibling. -/
def scrBefore (s : State) (uid tn seq : Nat) (sq : List SqEntry) (u lo n : Nat) : Bool :=
  (sq.any fun e => e.seq < seq && writesScr u lo n e.ops) ||
  s.net.any fun r => r.2.uid == uid && r.2.trains.contains tn && r.2.seq < seq && r.2.place == .scr u &&
    writesScr u lo n r.2.ops

/-- A store of the train to a byte of the bitmaps has not been performed: their clearing comes after it (R314). -/
def bitmapStores (s : State) (x : Site) (cs : List (Nat × Copy)) : Bool :=
  cs.any fun c => match c.2.bm with
    | none => false
    | some b => scrBefore s x.uid x.tn x.train.seq x.train.sq (bitmapTeam s x.uid c.2) b (bitmapSize c.2)

/-- R308 to R316. -/
def execBcopy (a : Args) (m : CopyMods) (s : State) : Host.Outcome State Fault Refusal :=
  issue (.bcopy a m) a s fun x s =>
    if m.dir = 2 && x.team.determ then trapDet x s
    else
      let s := touchCopies x a m s
      let (ok, bad) := copyChecks s x a m x.lanes
      if jobBlocks x.team x.tn (copySpans x.team.sib ok) then waitFor x (.jobs s.nextId) s
      else if bitmapStores s x ok then waitFor x (.fence false true true false []) s
      else if 64 < copiesOn s x.core + ok.length then waitFor x (.copyRoom ok.length) s
      else
        let s := (ok.map Prod.snd).foldl (acceptCopy x) s
        match bad with
        | [] => advance x (modIssuer x s fun t => { t with done := 0 })
        | f :: _ =>
          let done := x.train.done ||| maskOf (ok.map Prod.fst)
          let s := modIssuer x s fun t => { t with done := done, seq := t.seq + 1 }
          trapHere x f.f.code (copyRecs x (m.dir == 1) done [] bad) s

/-! ## COPY_CHUNK_DONE (R245, R246, R311 to R316, R344) -/

/-- A store of a train before number `seq` has not been performed at its home, its acknowledgement among
what that takes (R221, R245). -/
def storesBefore (s : State) (uid tn seq : Nat) (sq : List SqEntry) : Bool :=
  (sq.any fun e => e.seq < seq && e.ops.any (·.place == .glob)) ||
  s.net.any fun r => r.2.uid == uid && r.2.trains.contains tn && r.2.seq < seq && r.2.place == .glob

/-- A copy that has no chunk left completes: it arrives, or it ends (R315). -/
def copyEnd (s : State) (uid copy : Nat) (c : Copy) : State :=
  if !c.left.isEmpty then s
  else match c.rv with
    | some n => arriveTurn s uid n (.copy copy)
    | none => modTeam s uid fun t => { t with copies := mapDel t.copies copy }

/-- The chunk is done: its bit, and the end of the copy with the last. -/
def chunkEnd (s : State) (uid copy chunk : Nat) (c : Copy) : State :=
  let s := match c.bm with
    | some b => modTeam s (bitmapTeam s uid c) fun t => setBit t b chunk
    | none => s
  let c : Copy :=
    { c with
      left := setDel c.left chunk
      taken := c.taken.filter fun b => b.1 / 512 != chunk
      moved := c.moved.filter (· / 512 != chunk) }
  copyEnd (modTeam s uid fun t => { t with copies := mapPut t.copies copy c }) uid copy c

/-- The source of a chunk has an uncorrectable error: it and the later chunks are not written, and the copy
counts as completed (R344). -/
def chunkFail (s : State) (uid copy chunk : Nat) (c : Copy) (reason : Nat) (addr : Addr) : State :=
  let c := { c with left := c.left.filter (· < chunk) }
  let s := modTeam s uid fun t => { t with copies := mapPut t.copies copy c }
  let s := addDeferred s uid c.train (mkDeferred 15 reason 1 addr (copySize c) 0)
  copyEnd s uid copy c

/-- The lowest source byte of a chunk with an error: reason and address (R337). -/
def chunkErr (s : State) (uid : Nat) (c : Copy) (os : List Nat) : Option (Nat × Addr) :=
  if s.errs.isEmpty then none
  else
    let bad (o : Nat) : Nat :=
      let src := (copyByte c o).1
      if c.dir = 0 then errAt s (pageAddr c.pages src)
      else if scrErr s uid src 1 then 4 else 0
    (lowSpan ((os.filter fun o => bad o != 0).map fun o => ((copyByte c o).1, bad o))).map fun p =>
      (p.2, BitVec.ofNat 80 p.1)

/-- The bytes of a chunk that are still to be read. -/
def unreadBytes (c : Copy) (chunk : Nat) : List Nat :=
  (chunkBytes c chunk).filter fun o => !c.moved.contains o && (mapGet c.taken o).isNone

/-- What the next step does with a chunk's bytes: those that it reads, and those that it writes. It takes all
that are left, or those it picks, a byte's read by its place and its write by 512 more (R1, R315; log entry
16). -/
def chunkPicks (s : State) (c : Copy) (chunk : Nat) : List Nat × List Nat :=
  let ws := (chunkBytes c chunk).filter fun o =>
    !c.moved.contains o && (s.pick.isEmpty || s.pick.contains (o % 512 + 512))
  ((unreadBytes c chunk).filter fun o => ws.contains o || s.pick.contains (o % 512), ws)

/-- The physical lines of bytes of a copy's global side. -/
def byteLines (c : Copy) (os : List Nat) : List Nat :=
  linesOf (os.map fun o =>
    pageAddr c.pages (if c.dir = 0 then (copyByte c o).1 else (copyByte c o).2))

/-- The source byte of a copy. -/
def sourceByte (s : State) (uid : Nat) (c : Copy) (o : Nat) : Byte :=
  let src := (copyByte c o).1
  if c.dir = 0 then homeByte s (pageAddr c.pages src)
  else match teamOf s uid with
    | some t => scrGet t src
    | none => 0

/-- The policy of a copy's global side, numbered as an access's (R224, R309). -/
def copyPolicy (c : Copy) : Nat := if c.policy = 2 then 6 else c.policy + 1

/-- What the homes do for a copy's access to lines: partials are combined, and the lines are brought into L2 as
the policy says (R224, R228). -/
def copyBring (s : State) (ctx : Nat) (c : Copy) (lns : List Nat) : State :=
  lns.foldl (fun s ln => homeBring (combineLine s ln) ctx ln (copyPolicy c)) s

/-- A scratchpad source is read after the train's earlier stores to it (R316). -/
def sourceStores (s : State) (uid : Nat) (c : Copy) (sq : List SqEntry) (os : List Nat) : Bool :=
  c.dir != 0 && os.any fun o => scrBefore s uid c.train c.seq sq uid (copyByte c o).1 1

/-- The copy has read bytes. -/
def takeBytes (s : State) (uid : Nat) (c : Copy) (os : List Nat) : Copy :=
  { c with taken := os.foldl (fun m o => mapPut m o (sourceByte s uid c o)) c.taken }

/-- The copy writes bytes that it has read. -/
def putBytes (s : State) (uid : Nat) (c : Copy) (os : List Nat) : State :=
  let ws := (os.filter fun o => !superseded c o).map fun o =>
    ((copyByte c o).2, (mapGet c.taken o).getD 0)
  if c.dir = 1 then
    let ws := ws.map fun w => (pageAddr c.pages w.1, w.2)
    clearErrs (coherentStore s ws) (ws.map Prod.fst)
  else
    let u := if c.dir = 0 then uid else bitmapTeam s uid c
    clearLocal (modTeam s u fun t => scrPuts t ws) u false (ws.map Prod.fst)

/-- A copy moves bytes of a chunk, which is done with the last. -/
def moveBytes (s : State) (uid copy chunk : Nat) (c : Copy) (rs ws : List Nat) : State :=
  let c := takeBytes s uid c rs
  let s := putBytes s uid c ws
  let c := { c with moved := ws ++ c.moved }
  if (chunkBytes c chunk).all c.moved.contains then chunkEnd s uid copy chunk c
  else modTeam s uid fun t => { t with copies := mapPut t.copies copy c }

/-- COPY_CHUNK_DONE: a copy moves a chunk, or some of it. -/
def execCopyChunkDone (uid copy chunk : Nat) (s : State) : Host.Outcome State Fault Refusal :=
  .next <|
    match teamOf s uid with
    | none => s
    | some team =>
      match mapGet team.copies copy with
      | none => s
      | some c =>
        let (rs, ws) := chunkPicks s c chunk
        let sq := match mapGet team.trains c.train with
          | some t => t.sq
          | none => []
        if !c.left.contains chunk then s
        else if c.dir == 0 &&
            (storesBefore s uid c.train c.seq sq || (byteLines c rs).any (lineBusy s)) then s
        else if sourceStores s uid c sq rs then s
        else if c.dir == 1 && (byteLines c ws).any (lineUpdating s) then s
        else
          let s := if c.dir = 2 then s
            else copyBring s team.ctx c (byteLines c (if c.dir = 0 then rs else ws))
          match chunkErr s uid c (unreadBytes c chunk) with
          | some (r, a) => chunkFail s uid copy chunk c r a
          | none => moveBytes s uid copy chunk c rs ws

/-! ## Streams (R317 to R322) -/

/-- A merge tree of this train has qN as its output (R323). -/
def mergeOut (s : State) (uid tn q : Nat) : Option Merge :=
  match mergeOf s uid tn with
  | some m => if m.scr.isNone && m.q == q then some m else none
  | none => none

/-- Streams defined on a core (R317). -/
def streamsOn (s : State) (core : Nat) : Nat :=
  ((residents s core).map fun t => (t.trains.map fun x => x.2.streams.length).sum).sum

/-- A trap of an engine at its command, with the engine's number as source, and its unit (R336). -/
def trapEngine (x : Site) (source unit code reason : Nat) (addr : Addr) (length : Nat) (write : Bool)
    (s : State) : State :=
  let r := siteRec x code reason 0 addr length x.split.mask x.train.done false write false unit
  trapHere x code [{ r with source := BitVec.ofNat 4 source }] s

/-- The stream that `sdef` defines. -/
def streamOf (x : Site) (a : Args) (m : SdefMods) : Stream where
  dir := m.dir
  sx := m.sx
  isz := 2 ^ m.isz.toNat
  asz := 2 ^ m.asz.toNat
  baseA := BitVec.ofNat 80 ((bGet x.train m.a.toNat).toNat / 2 ^ m.asz.toNat * 2 ^ m.asz.toNat)
  baseB := BitVec.ofNat 80 ((bGet x.train m.b.toNat).toNat / 2 ^ m.isz.toNat * 2 ^ m.isz.toNat)
  save := bGet x.train m.sv.toNat &&& ~~~7
  count := srcNat x.train a.s1 1 0
  stride := (BitVec.ofNat 32 (srcNat x.train a.s2 1 0)).toInt
  limit := srcNat x.train a.s3 1 0
  fetched := 0
  popped := 0
  fifo := []
  ahead := []
  state := 0
  recAt := 0
  told := false
  seq := x.train.seq

/-- The lines of streams' save words that are not free (R245). -/
def savesHeld (s : State) (ctx : Nat) (qs : List Stream) : List Nat :=
  (qs.filter (saveHeld s ctx)).flatMap fun q => devLines s ctx .write q.save.toNat 8

/-- R317. -/
def execSdef (a : Args) (m : SdefMods) (s : State) : Host.Outcome State Fault Refusal :=
  issue (.sdef a m) a s fun x s =>
    let n := m.q.toNat
    let k := streamOf x a m
    if (mergeOut s x.uid x.tn n).isSome then statusEnd x a 2 s
    else if 256 ≤ streamsOn s x.core && (mapGet x.train.streams n).isNone then statusEnd x a 1 s
    else
      let s := touchLeaf s x.team.ctx k.save.toNat
      match devXlate s x.team.ctx .write k.save.toNat with
      | .error e => trapEngine x 2 n e.1 e.2 k.save 8 true s
      | .ok _ =>
        match savesHeld s x.team.ctx (k :: (mapGet x.train.streams n).toList) with
        | [] =>
          let s := freeStream s x.uid x.tn n
          let s := modIssuer x s fun t => { t with streams := mapPut t.streams n k }
          statusEnd x a 0 (saveWord s x.team.ctx k 0)
        | ls => waitFor x (.lines ls) s

/-- What a fetch of the next element comes to (R318, R320, R344). -/
inductive Fetched
  | ok (v : DWord)
  | wait
  | fault (code reason : Nat) (addr : Addr)
  /-- a bad index, with the address of its element -/
  | bad (addr : Addr)
  | err (reason : Nat) (addr : Addr)
  deriving DecidableEq, Repr

/-- Read `n` bytes for an engine at their homes. -/
def engineRead (s : State) (ctx va n : Nat) : Fetched :=
  match devXlates s ctx .read n va none with
  | .error (e, a) => .fault e.1 e.2 a
  | .ok pas =>
    if (linesOf pas).any (lineBusy s) then .wait
    else match devLoad s ctx va n with
      | .error (e, a) => .err e.2 a
      | .ok bs => .ok (BitVec.ofNat 64 (leNat bs))

/-- The same with what the homes do for it (R228): a read that waits has reached no home yet. -/
def engineLoad (ctx va n : Nat) (s : State) : State × Fetched :=
  match engineRead s ctx va n with
  | .wait => (s, .wait)
  | r => (touch s ctx .read va n, r)

/-- The address of element `k` of a base, of elements of `sz` bytes. -/
def streamAt (b : Addr) (k : Int) (sz : Nat) : Nat := ((b.toNat + k * sz : Int) % (2 ^ 80 : Nat)).toNat

/-- What has been read of element `i`. -/
def flightOf (q : Stream) (i : Nat) : Flight := (mapGet q.ahead i).getD ⟨none, none⟩

/-- The index of element `i`: its place, or the value read from B. -/
def elemIndex (ctx : Nat) (q : Stream) (i : Nat) (s : State) : State × Fetched :=
  if q.dir then (s, .ok 0)
  else match (flightOf q i).index with
    | some v => (s, .ok v)
    | none => engineLoad ctx (streamAt q.baseB (i * q.stride) q.isz) q.isz s

/-- The index that a value from B stands for. -/
def indexVal (q : Stream) (i : Nat) (v : DWord) : Int :=
  if q.dir then i * q.stride else if q.sx then sext (8 * q.isz) v.toNat else (v.toNat : Int)

/-- The data of element `i` at the index of `v`, or the index is bad. -/
def elemData (ctx : Nat) (q : Stream) (i : Nat) (v : DWord) (s : State) : State × Fetched :=
  let x := indexVal q i v
  if q.limit ≠ 0 && (x < 0 || (q.limit : Int) ≤ x) then
    (s, .bad (BitVec.ofNat 80 (streamAt q.baseA x q.asz)))
  else match (flightOf q i).elem with
    | some w => (s, .ok w)
    | none => engineLoad ctx (streamAt q.baseA x q.asz) q.asz s

/-- What the fetch of the next element comes to, of what has not been read yet (R318), with the bytes of the
access that it ends at. -/
def fetchElem (s : State) (uid tn ctx : Nat) (t : Train) (q : Stream) : State × Fetched × Nat :=
  if storesBefore s uid tn q.seq t.sq then (s, .wait, 0)
  else match elemIndex ctx q q.fetched s with
    | (s, .ok v) =>
      let (s, r) := elemData ctx q q.fetched v s
      (s, r, q.asz)
    | (s, r) => (s, r, q.isz)

/-- One read of an element that is not in the FIFO, at a moment of its own (R1, R318): `2·d` is the B read of the
element `d` after the next, `2·d + 1` its A read, for which the index must have come. A read that does not come
is made again later. -/
def readAhead (ctx k : Nat) (q : Stream) (s : State) : State × Stream :=
  let i := q.fetched + k / 2
  let f := flightOf q i
  let keep (r : State × Fetched) (g : DWord → Flight) : State × Stream :=
    match r with
    | (s, .ok v) => (s, { q with ahead := mapPut q.ahead i (g v) })
    | (s, _) => (s, q)
  if q.count ≤ i || 64 ≤ q.fifo.length + k / 2 then (s, q)
  else if k % 2 = 0 then
    if q.dir || f.index.isSome then (s, q)
    else keep (elemIndex ctx q i s) fun v => { f with index := some v }
  else match if q.dir then some 0 else f.index with
    | none => (s, q)
    | some v => keep (elemData ctx q i v s) fun w => { f with elem := some w }

/-- The reads that a step picks, in their order. -/
def readsAhead (ctx : Nat) : List Nat → Stream → State → State × Stream
  | [], q, s => (s, q)
  | k :: rest, q, s =>
    let (s, q) := readAhead ctx k q s
    readsAhead ctx rest q s

/-- An element enters the FIFO. -/
def pushElem (q : Stream) (v : DWord) : Stream :=
  { q with
    fetched := q.fetched + 1
    fifo := q.fifo ++ [v]
    ahead := mapDel q.ahead q.fetched
    state := 0
    told := false }

def putStream (s : State) (uid tn n : Nat) (q : Stream) : State :=
  modTrain s uid tn fun t => { t with streams := mapPut t.streams n q }

/-- The record of a suspension (R320, R336 to R338). -/
def suspendRec (s : State) (uid tn n : Nat) (q : Stream) (code reason : Nat) (addr : Addr)
    (len : Nat) : Rec :=
  trainRec s uid tn code reason 2 (BitVec.ofNat 32 q.fetched) 0 addr len 0 0 false false n

/-- The engine suspends a stream (R320): its save word, then its record, for which it holds the stream while
the queue lacks room (R335). Its element is fetched again when a pop needs it. -/
def suspend (s : State) (uid tn n ctx : Nat) (q : Stream) (state code reason : Nat) (addr : Addr)
    (len : Nat) : State :=
  let r := suspendRec s uid tn n q code reason addr len
  let (s, at_) := claimRecs (saveWord s ctx q state) ctx [r] (.stream uid tn n r)
  putStream s uid tn n { q with
    ahead := mapDel q.ahead q.fetched
    state := state
    recAt := at_.getD 0
    told := at_.isSome }

/-- STREAM_FETCH of a stream: the next element enters its FIFO, or the step makes the reads that it picks. -/
def streamFetch (uid train n : Nat) (team : Team) (t : Train) (q : Stream) (s : State) : State :=
  if !isResident team || (coreOf s (coreOfTeam team)).halted || q.state ≠ 0 || q.count ≤ q.fetched ||
      64 ≤ q.fifo.length || saveHeld s team.ctx q then s
  else if !s.pick.isEmpty then
    if storesBefore s uid train q.seq t.sq then s
    else
      let (s, q) := readsAhead team.ctx s.pick q s
      putStream s uid train n q
  else match fetchElem s uid train team.ctx t q with
    | (s, .ok v, _) => putStream s uid train n (pushElem q v)
    | (s, .fault c r a, len) => suspend s uid train n team.ctx q (if c = 5 then 1 else 2) c r a len
    | (s, .bad a, len) => suspend s uid train n team.ctx q 3 6 5 a len
    | (s, _, _) => s

/-- Pop elements for lanes (R321): values by lane, and the stream after. -/
def popLanes (q : Stream) (lanes : List Nat) : List (Nat × Nat) × Stream :=
  let n := min lanes.length q.fifo.length
  ((List.range lanes.length).map fun i =>
      ((lanes[i]?).getD 0, ((q.fifo[i]?).getD 0).toNat),
    { q with fifo := q.fifo.drop n, popped := q.popped + n })

/-- A destination is full again. -/
def fillDest (a : Args) (n : Nat) (t : Train) : Train :=
  match a.dst with
  | .v r _ _ => markFull t r.toNat n
  | _ => t

/-- Bytes of a record of a stream's suspension that name it: source, context, team, element, train and
stream. -/
def recNames (bs : List Byte) : List Byte :=
  (bs.drop 1).take 1 ++ (bs.drop 4).take 2 ++ (bs.drop 8).take 8 ++ (bs.drop 26).take 2

/-- The record of a suspension becomes the record of the pop's trap, where it still stands in its slot: the
resume address, the lanes that have no element, and `%done` (R320, R330, R337; log entry 131). -/
def markRec (x : Site) (q : Nat) (k : Stream) (left done : LaneMask) (s : State) : State :=
  let at_ := k.recAt.toNat
  let ctx := x.team.ctx
  let r := recNames (recBytes (suspendRec s x.uid x.tn q k 0 0 0 0) true 0)
  let s := touch s ctx .read at_ 64
  match devLoad s ctx at_ 64 with
  | .error _ => s
  | .ok bs =>
    if recNames bs ≠ r then s
    else
      match devStore s ctx (at_ + 16) (natLe 10 x.pc.toNat) with
      | .error _ => s
      | .ok s =>
        match devStore s ctx (at_ + 48) (natLe 8 left.toNat ++ natLe 8 done.toNat) with
        | .error _ => s
        | .ok s => s

/-- The lanes of a pop that a fault ends: those that have an element, and those that have none. -/
def popGot (x : Site) (k : Stream) : List Nat := x.lanes.take k.fifo.length
def popLeft (x : Site) (k : Stream) : List Nat := x.lanes.drop k.fifo.length

/-- `%done` as a pop's fault leaves it. -/
def popDone (x : Site) (k : Stream) : LaneMask := x.train.done ||| maskOf (popGot x k)

/-- The fault that ends a pop: lanes that have an element keep it (R321, R270). The element that failed is
fetched again at the replay. -/
def popKeep (x : Site) (a : Args) (n q : Nat) (k : Stream) (s : State) : State :=
  let (vals, k') := popLanes k (popGot x k)
  modIssuer x s fun t =>
    let t := fillDest a n (dstPut t a.dst n vals)
    { t with
      done := popDone x k
      streams := mapPut t.streams q { k' with ahead := mapDel k'.ahead k'.fetched }
      seq := t.seq + 1 }

/-- The trap of a pop from a suspended stream, at the record of its suspension (R320). -/
def popFault (x : Site) (a : Args) (n q : Nat) (k : Stream) (code : Nat) (s : State) : State :=
  let s := markRec x q k (maskOf (popLeft x k)) (popDone x k) (popKeep x a n q k s)
  let s := modSplit x s fun p => { p with resume := .none }
  enterTrap (endRunOf s x.uid x.tn) x.uid x.tn x.idx code k.recAt

/-- The trap of a pop whose element has an uncorrectable error (R344). -/
def popErr (x : Site) (a : Args) (n q : Nat) (k : Stream) (reason : Nat) (addr : Addr) (len : Nat) (s : State) :
    State :=
  trapHere x 15 [siteRec x 15 reason 0 addr len (maskOf (popLeft x k)) (popDone x k) false false false 0]
    (popKeep x a n q k s)

/-- A pop waits for its elements, its destination marked empty (R321). -/
def popWait (x : Site) (a : Args) (n q need : Nat) (k : Stream) (s : State) : State :=
  let s := modIssuer x s fun t =>
    let t := { t with streams := mapPut t.streams q k }
    match a.dst with
    | .v r _ _ => markEmpty t r.toNat n
    | _ => t
  waitWith x (.stream q need) .popping s

/-- A pop from a stream (R320, R321): a suspended one is fetched again, with its reads at moments of their own
where the step picks one. -/
def popStream (x : Site) (a : Args) (n q : Nat) (k : Stream) (s : State) : State :=
  let need := min x.lanes.length (k.count - k.popped)
  let ctx := x.team.ctx
  let wait (k : Stream) (s : State) : State := popWait x a n q need k s
  if need ≤ k.fifo.length then
    let (vals, k') := popLanes k x.lanes
    advance x (modIssuer x s fun t =>
      let t := fillDest a n (dstPut t a.dst n vals)
      { t with done := 0, streams := mapPut t.streams q k' })
  else if k.state ≠ 0 && s.pick.contains 0 && !storesBefore s x.uid x.tn k.seq x.train.sq then
    let (s, k) := readAhead ctx 0 k s
    wait k s
  else match fetchElem s x.uid x.tn ctx x.train k with
    | (s', .ok v, _) =>
      if k.state = 0 || saveHeld s ctx k then wait k s
      else
        let k' := pushElem k v
        wait k' (saveWord s' ctx k' 0)
    | (_, .wait, _) => wait k s
    | (s', .err r addr, len) => popErr x a n q k r addr len s'
    | (s', .fault c _ _, _) => if k.told then popFault x a n q k c s' else wait k s'
    | (s', .bad _, _) => if k.told then popFault x a n q k 6 s' else wait k s'

/-- A pop from the merge tree's FIFO (R324): an empty one gives the marker. -/
def popMerge (x : Site) (a : Args) (m : Merge) (s : State) : State :=
  let n := min x.lanes.length m.fifo.length
  let vals := (List.range x.lanes.length).map fun i =>
    ((x.lanes[i]?).getD 0, ((m.fifo[i]?).getD 0xFFFFFFFF00000000).toNat)
  let m' : Merge := { m with fifo := m.fifo.drop n }
  let s := modCore s x.core fun c => { c with merge := some m' }
  advance x (modIssuer x s fun t => { dstPut t a.dst 2 vals with done := 0 })

/-- R321. -/
def execMovStream (a : Args) (m : Mods) (s : State) : Host.Outcome State Fault Refusal :=
  issue (.movStream a m) a s fun x s =>
    let q := match a.s1 with
      | .q r => r.toNat
      | _ => 8
    match mergeOut s x.uid x.tn q, mapGet x.train.streams q with
    | some k, _ => if m.d then popMerge x a k s else trapIllegal x s
    | none, none => trapIllegal x s
    | none, some k =>
      if (k.asz == 8) != m.d then trapIllegal x s
      else popStream x a (if m.d then 2 else 1) q k s

/-- R322. -/
def execSfree (a : Args) (q : BitVec 3) (s : State) : Host.Outcome State Fault Refusal :=
  issue (.sfree a q) a s fun x s =>
    match savesHeld s x.team.ctx (mapGet x.train.streams q.toNat).toList with
    | [] => advance x (freeStream s x.uid x.tn q.toNat)
    | ls => waitFor x (.lines ls) s

/-- R322: elements not yet popped, and the state. -/
def execSstat (a : Args) (q : BitVec 3) (s : State) : Host.Outcome State Fault Refusal :=
  issue (.sstat a q) a s fun x s =>
    let v := match mergeOut s x.uid x.tn q.toNat, mapGet x.train.streams q.toNat with
      | some _, _ => 0xFFFFFFFF + 2 ^ 32 * 6
      | none, some k => k.count - k.popped + 2 ^ 32 * k.state
      | none, none => 2 ^ 32 * 5
    uniformWrite (.sstat a q) a v x s

/-- R322. -/
def execQlen (a : Args) (q : BitVec 3) (s : State) : Host.Outcome State Fault Refusal :=
  issue (.qlen a q) a s fun x s =>
    let v := match mergeOut s x.uid x.tn q.toNat, mapGet x.train.streams q.toNat with
      | some k, _ => k.fifo.length
      | none, some k => k.fifo.length
      | none, none => 0
    uniformWrite (.qlen a q) a v x s

/-! ## The merge tree (R323 to R326) -/

/-- `n` bytes of a team's scratchpad. -/
def scrBytes (t : Team) (o n : Nat) : List Byte := (List.range n).map fun i => scrGet t (o + i)

/-- The descriptor of R323 is free of nonzero reserved bytes, with 1 to 8 inputs. -/
def mergeDescOk (d : List Byte) : Bool :=
  let n := field d 0 4
  1 ≤ n && n ≤ 8 && zeroBytes d 8 8 &&
    (List.range 8).all fun (i : Nat) =>
      if i < n then zeroBytes d (16 + 16 * i + 10) 2 else zeroBytes d (16 + 16 * i) 16

/-- The inputs of a descriptor. -/
def mergeIns (d : List Byte) : List MergeIn :=
  (List.range (field d 0 4)).map fun (i : Nat) =>
    ⟨BitVec.ofNat 80 (field d (16 + 16 * i) 10 / 8 * 8), field d (16 + 16 * i + 12) 4, 0, false, []⟩

/-- Another train owns the tree of a core. -/
def mergeBusy (s : State) (x : Site) : Bool :=
  match (coreOf s x.core).merge with
  | some m => !(m.uid == x.uid && m.train == x.tn)
  | none => false

/-- R323. Bytes 4 to 7 of the descriptor are reserved without `.scr` only in name: they are not read. -/
def execMdef (a : Args) (m : MdefMods) (s : State) : Host.Outcome State Fault Refusal :=
  issue (.mdef a m) a s fun x s =>
    let o := srcNat x.train a.s1 1 0 / 16 * 16
    let d := scrBytes x.team o 144
    let out := field d 4 4 / 8 * 8
    let outLen := if m.scr then 8 * m.k.toNat else 0
    let old := (mapGet x.train.streams m.q.toNat).toList
    let free := if m.scr then [] else savesHeld s x.team.ctx old
    if mergeBusy s x then statusEnd x a 1 s
    else if x.team.scrSize < o + 144 then
      trapEngine x 3 0 7 0 (BitVec.ofNat 80 (max o x.team.scrSize)) 144 false s
    else workTurn x [(false, o, 144)] (fun s =>
    match scrBad s x.uid [(o, 144)] with
    | some p => trapErr x 4 (BitVec.ofNat 80 p.1) 144 false false s
    | none =>
    if m.scr && x.team.scrSize < out + outLen then
      trapEngine x 3 0 7 0 (BitVec.ofNat 80 (max out x.team.scrSize)) outLen true s
    else if !mergeDescOk d || (m.scr && m.k == 0) then trapIllegal x s
    else if !free.isEmpty then waitFor x (.lines free) s
    else
      let s := if m.scr then s else freeStream s x.uid x.tn m.q.toNat
      let k : Merge :=
        { uid := x.uid
          train := x.tn
          q := m.q.toNat
          scr := if m.scr then some out else none
          fkey := m.fkey
          k := m.k.toNat
          thr := m.thr
          emitted := 0
          ins := mergeIns d
          fifo := []
          kept := 0
          seq := x.train.seq
          done := false }
      statusEnd x a 0 (modCore s x.core fun c => { c with merge := some k })) s

/-- R324: the order of keys. -/
def keyOrd (fkey : Bool) (k : Word) : Nat :=
  if !fkey then k.toNat
  else if k.getLsbD 31 then (~~~k).toNat else (k ^^^ 0x80000000).toNat

/-- The address of pair `k` of an input. -/
def pairAt (i : MergeIn) (k : Nat) : Nat := (i.base.toNat + 8 * k) % 2 ^ 80

/-- An input has a head: it has not ended, and its cursor stands before its count. -/
def hasHead (i : MergeIn) : Bool := !i.ended && i.cursor < i.count

/-- The head that an input holds. -/
def headOf (i : MergeIn) : Option DWord := if hasHead i then mapGet i.ahead i.cursor else none

/-- The test of R324 on an input whose head stands: it ends where nothing is left of it, or nothing above the
threshold. -/
def judgeIn (m : Merge) (i : MergeIn) : MergeIn :=
  match headOf i with
  | none => { i with ended := true }
  | some v => if keyOrd m.fkey (v.setWidth 32) < keyOrd m.fkey m.thr then { i with ended := true } else i

/-- The heads that the inputs do not hold are read, input by input, and held from then on (R327), and the inputs
are tested; or what became of the read that did not come. -/
def mergeHeads (ctx : Nat) (m : Merge) : List MergeIn → State → State × List MergeIn × Option Fetched
  | [], s => (s, [], none)
  | i :: rest, s =>
    let go (i : MergeIn) (s : State) : State × List MergeIn × Option Fetched :=
      let (s, l, stop) := mergeHeads ctx m rest s
      (s, judgeIn m i :: l, stop)
    if hasHead i && (headOf i).isNone then
      match engineLoad ctx (pairAt i i.cursor) 8 s with
      | (s, .ok v) => go { i with ahead := mapPut i.ahead i.cursor v } s
      | (s, r) => (s, i :: rest, some r)
    else go i s

/-- The place of the input with the largest key, the lowest on a tie. -/
def bestHead (fkey : Bool) : Nat → List MergeIn → Option (Nat × DWord)
  | _, [] => none
  | n, i :: rest =>
    match headOf i, bestHead fkey (n + 1) rest with
    | none, b => b
    | some v, none => some (n, v)
    | some v, some (k, w) =>
      if keyOrd fkey (v.setWidth 32) < keyOrd fkey (w.setWidth 32) then some (k, w) else some (n, v)

/-- What one MergeStep comes to. -/
inductive Step3
  | emit (m : Merge) (pair : DWord)
  | done (m : Merge)
  | stop (m : Merge) (r : Fetched)
  deriving DecidableEq, Repr

/-- An input's head has been emitted. -/
def nextPair (i : MergeIn) : MergeIn :=
  { i with cursor := i.cursor + 1, ahead := mapDel i.ahead i.cursor }

/-- R324: one MergeStep. -/
def mergeStep (ctx : Nat) (m : Merge) (s : State) : State × Step3 :=
  if m.done || (m.k ≠ 0 && m.emitted = m.k) then (s, .done { m with done := true })
  else
    let (s, ins, stop) := mergeHeads ctx m m.ins s
    let m := { m with ins := ins }
    match stop, bestHead m.fkey 0 ins with
    | some r, _ => (s, .stop m r)
    | none, none => (s, .done { m with done := true })
    | none, some (n, v) =>
      (s, .emit { m with ins := listMod m.ins n nextPair, emitted := m.emitted + 1 } v)

/-- An emitted pair goes to the output (R324). -/
def mergeOutput (s : State) (m : Merge) (pair : DWord) : State × Merge :=
  match m.scr with
  | some o =>
    let at_ := o + 8 * (m.emitted - 1)
    let ws := bytesAt at_ (natLe 8 pair.toNat)
    (clearLocal (modTeam s m.uid fun t => scrPuts t ws) m.uid false (ws.map Prod.fst), m)
  | none => (s, { m with fifo := m.fifo ++ [pair] })

/-- The FIFO output has no room. -/
def mergeFull (m : Merge) : Bool := m.scr.isNone && decide (64 ≤ m.fifo.length)

/-- The steps of an `mnext` (R325): up to `n` more pairs. -/
def mergeRun (ctx : Nat) : Nat → Merge → State → State × Merge × Option Fetched
  | 0, m, s => (s, m, none)
  | n + 1, m, s =>
    if mergeFull m then (s, m, none)
    else
      match mergeStep ctx m s with
      | (s, .done m) => (s, m, none)
      | (s, .stop m r) => (s, m, some r)
      | (s, .emit m v) =>
        let (s, m) := mergeOutput s m v
        mergeRun ctx n { m with kept := m.kept + 1 } s

/-- STREAM_FETCH of input `n` of the merge tree: one pair that has not been emitted is read, at a moment of its own
(R1, R323): the head, or the pair so far after it as the step picks. A read that does not come is made again
later. -/
def mergeFetch (uid train n : Nat) (team : Team) (t : Train) (m : Merge) (s : State) : State :=
  let core := coreOfTeam team
  match m.ins[n]? with
  | none => s
  | some i =>
    let k := i.cursor + s.pick.headD 0
    if !isResident team || (coreOf s core).halted || !hasHead i || i.count ≤ k || (mapGet i.ahead k).isSome ||
        storesBefore s uid train m.seq t.sq then s
    else
      match engineLoad team.ctx (pairAt i k) 8 s with
      | (s, .ok v) =>
        let ins := listMod m.ins n fun i => { i with ahead := mapPut i.ahead k v }
        modCore s core fun c => { c with merge := some { m with ins := ins } }
      | (s, _) => s

/-- STREAM_FETCH (R318, R320, R323): streams 0 to 7, and inputs of the train's merge tree as 8 and on. -/
def execStreamFetch (uid train q : Nat) (s : State) : Host.Outcome State Fault Refusal :=
  .next <|
    match teamOf s uid, trainOf s uid train with
    | some team, some t =>
      if q < 8 then
        match mapGet t.streams q with
        | none => s
        | some k => streamFetch uid train q team t k s
      else match mergeOf s uid train with
        | none => s
        | some m => mergeFetch uid train (q - 8) team t m s
    | _, _ => s

/-- The larger of two thresholds (R325). -/
def raiseThr (m : Merge) (t : Word) : Merge :=
  if keyOrd m.fkey m.thr < keyOrd m.fkey t then { m with thr := t } else m

/-- The lines that the heads of a merge, not yet read, lie in. -/
def mergeLines (s : State) (ctx : Nat) (m : Merge) : List Nat :=
  (m.ins.filter fun i => hasHead i && (headOf i).isNone).foldl (fun ls i =>
    match devXlate s ctx .read (pairAt i i.cursor) with
    | .ok pa => setAdd ls (pa / 128)
    | .error _ => ls) []

/-- The scratchpad bytes that an `mnext` of up to `n` pairs writes. -/
def mergeSpans (m : Merge) (n : Nat) : List (Bool × Nat × Nat) :=
  match m.scr with
  | some o => [(false, o + 8 * m.emitted, 8 * n)]
  | none => []

/-- The threshold of an `mnext` (R325). -/
def mnextThr (x : Site) (a : Args) (thr : Bool) (m : Merge) : Merge :=
  if thr then raiseThr m (BitVec.ofNat 32 (srcNat x.train a.s2 1 0)) else m

/-- The pairs that an `mnext` has still to emit: those of one that a fault has stopped count (R325). -/
def mnextLeft (x : Site) (a : Args) (m : Merge) : Nat := min 64 (srcNat x.train a.s1 1 0) - m.kept

/-- The pairs that one step of an `mnext` emits: all that are left, or as many as it picks (R1). -/
def mnextTurn (s : State) (left : Nat) : Nat := min left (s.pick.headD left)

/-- The end of a step of an `mnext`: its status, or what stopped it; with pairs left, it goes on holding the
train. -/
def mnextEnd (x : Site) (a : Args) (more : Bool) (r : State × Merge × Option Fetched) : State :=
  let put (m : Merge) : State := modCore r.1 x.core fun c => { c with merge := some m }
  match r.2.2 with
  | none =>
    if more && !r.2.1.done && !mergeFull r.2.1 then waitFor x (.lines []) (put r.2.1)
    else
      statusEnd x a (BitVec.ofNat 32 (r.2.1.kept + if r.2.1.done then 2 ^ 16 else 0))
        (put { r.2.1 with kept := 0 })
  | some (.fault c q va) => trapEngine x 3 0 c q va 8 false (put r.2.1)
  | some (.err q va) => trapEngine x 3 0 15 q va 8 false (put r.2.1)
  | some _ => waitFor x (.lines (mergeLines r.1 x.team.ctx r.2.1)) (put r.2.1)

/-- `mnext` of the tree's owner, after the train's earlier stores (R245). -/
def mnextBody (x : Site) (a : Args) (thr : Bool) (m : Merge) (s : State) : State :=
  if storesBefore s x.uid x.tn x.train.seq x.train.sq then
    waitFor x (.fence false true true false []) s
  else
    let left := mnextLeft x a m
    let n := mnextTurn s left
    workTurn x (mergeSpans m n)
      (fun s => mnextEnd x a (n < left) (mergeRun x.team.ctx n (mnextThr x a thr m) s)) s

/-- R325. The owner's train holds at it, and its run ends there (R46); `kept` counts the pairs of this
`mnext`, those before a fault among them. -/
def execMnext (a : Args) (thr : Bool) (s : State) : Host.Outcome State Fault Refusal :=
  issue (.mnext a thr) a s fun x s =>
    match mergeOf s x.uid x.tn with
    | none => statusEnd x a 0x00010000 s
    | some m => holdOnce x (mnextBody x a thr m) s

/-- R326. -/
def execMfree (a : Args) (s : State) : Host.Outcome State Fault Refusal :=
  issue (.mfree a) a s fun x s => advance x (freeMerge s x.uid x.tn)

/-- R326. -/
def execMstat (a : Args) (s : State) : Host.Outcome State Fault Refusal :=
  issue (.mstat a) a s fun x s =>
    let v := match mergeOf s x.uid x.tn with
      | some m => m.emitted % 2 ^ 32 + 2 ^ 32 * m.thr.toNat
      | none => 0xFFFFFFFF
    uniformWrite (.mstat a) a v x s

end Sys2Proof.Machine
end

