-- ==== Sys2Proof/Machine/RunSlot.lean ====
section
/-!
DEFINITION. When a wait is over (R25 to R27, R46), the run slots of the issue pipes (R125, R137, R140), and
what the trains that wait see after every action of the device. A split whose wait is over issues its
instruction again; where that instruction then waits for something else, its run ends at once.
-/
namespace Sys2Proof.Machine

/-- The partner of a train at a `fuse` lets it go on (R148). -/
def partnerReady (team : Team) (tn : Nat) (t : Train) : Bool :=
  match mapGet team.trains (tn ^^^ 1) with
  | none => true
  | some p => p.ended || ((fuseSplit p).isSome && quietTrain t && quietTrain p)

/-- A pop of a stream finds its elements, a suspension or an error (R320, R321, R344). -/
def streamReady (s : State) (uid tn : Nat) (team : Team) (t : Train) (q need : Nat) : Bool :=
  match mapGet t.streams q with
  | none => true
  | some k => need ≤ k.fifo.length || k.told ||
    match (fetchElem s uid tn team.ctx t k).2.1 with
    | .err _ _ => true
    | .ok _ => k.state != 0 && !saveHeld s team.ctx k
    | _ => false

/-- The work of a unit is done, or it can take the next lane's task (R301). -/
def unitReady (s : State) (core : Nat) (p : Split) : Bool :=
  match p.resume with
  | .crWork .. => false
  | .stashWork .. => false
  | .tlaunch _ left _ _ => left.isEmpty || pendingTasks (coreOf s core) < 256
  | _ => true

/-- The data of an instruction that stands have come. -/
def dataCame (p : Split) : Bool :=
  match p.resume with
  | .dataDone _ _ => true
  | _ => false

/-- A wait is over. -/
def waitOver (s : State) (uid tn : Nat) (team : Team) (t : Train) (p : Split) : Wait → Bool
  | .full regs => regs.all fun r => !t.empty.contains r
  | .data _ => dataCame p
  | .probe eas => eas.all fun a => (mapGet t.asked a).isSome
  | .turn points => !points.any fun n => (rvOf team n).held.any (heldOf tn)
  | .sqRoom => t.sq.length < 16
  | .flags => flagsReady team tn t
  | .drain => t.prods.isEmpty
  | .quiet => quietTrain t
  | .siding n => n ≤ freeEntries t
  | .partner => partnerReady team tn t
  | .claim => match p.resume with
    | .tok _ => false
    | _ => true
  | .regs from_ => !t.empty.any (from_ ≤ ·)
  | .phase n ph => phaseOver team n ph
  | .held _ _ => match p.resume with
    | .tok _ => false
    | _ => true
  | .sleep _ => false
  | .fence acq rel wide sys reqs => fenceOver s uid tn t acq rel wide sys reqs
  | .word u off mask => p.resume == .seen || wordReady s uid tn t u off mask
  | .copyRoom n => copiesOn s (coreOfTeam team) + n ≤ 64
  | .stream q need => streamReady s uid tn team t q need
  | .jobs below => team.jobs.all fun j => !(j.1 < below && j.2.train == some tn)
  | .arrival => arrivalReady s uid tn team t
  | .walk pages => pages.all fun v =>
    (tlbFind (coreOf s (coreOfTeam team)).tlb team.ctx (v * 2 ^ 18)).isSome || (mapGet t.walked v).isSome
  | .lines ls => !ls.any (lineBusy s)
  | .unit => unitReady s (coreOfTeam team) p

/-- A split may issue (R46, R140). -/
def splitReady (s : State) (uid tn : Nat) (team : Team) (t : Train) (p : Split) : Bool :=
  !p.held && match p.st with
    | .ready => true
    | .waiting w => waitOver s uid tn team t p w
    | .atJoin _ => false

/-- A split holds its train: it stands at a producer with a k destination (R27), at a `waitm` (R283), or at an
instruction whose entry holds the train (R119, R179, R207, R282, R286, R301, R325). -/
def holdsTrain (t : Train) (p : Split) : Bool :=
  !p.held &&
    ((match p.st with
      | .waiting (.word ..) => true
      | .waiting (.data id) => match (mapGet t.prods id).map (·.dst) with
        | some (Dst.k _ _) => true
        | _ => false
      | _ => false) ||
    match p.resume with
    | .begun | .fence _ | .tlaunch .. | .crWork .. | .stashWork .. | .unitDone _ | .unitFault .. | .table _
    | .loaded _ => true
    | _ => false)

/-- The splits from which a train might issue its next run, in their order (R140): those whose waits are over,
and of a train that holds at an instruction that one only. A deferred trap goes first (R333). -/
def runnable (s : State) (uid tn : Nat) (team : Team) (t : Train) : List Nat :=
  if t.ended || t.trapped || t.pend.isSome || (t.handler.isNone && !t.defer.isEmpty) then []
  else
    let held := t.siding.any (holdsTrain t)
    (List.range t.siding.length).filter fun i => match t.siding[i]? with
      | some p => splitReady s uid tn team t p && (!held || holdsTrain t p)
      | none => false

/-- A train bound to a pipe, as a candidate for its run slot, with the split from which it would run (R140). -/
structure Bound where
  uid   : Nat
  tn    : Nat
  train : Train
  idx   : Option Nat
  deriving DecidableEq, Repr

/-- The live trains bound to a pipe of a core (R125). -/
def boundTo (s : State) (core pipe : Nat) : List Bound :=
  s.teams.flatMap fun e =>
    if e.2.loc == .core core then
      ((liveTrains e.2).filter fun x => x.2.pipe == pipe).map fun x =>
        ⟨e.1, x.1, x.2, x.2.next⟩
    else []

/-- The order of R137: trains passed over 32 times, the one ready longest first; else the highest
priority, then the one ready longest; then the one bound earlier. -/
def slotKey (b : Bound) : List Nat :=
  if 32 ≤ b.train.passed then [0, 0, b.train.since, b.train.bound]
  else [1, 65536 - b.train.prio, b.train.since, b.train.bound]

def slotPick : List Bound → Option Bound
  | [] => none
  | b :: rest =>
    if b.idx.isNone then slotPick rest
    else match slotPick rest with
      | none => some b
      | some c => if listLess (slotKey c) (slotKey b) then some c else some b

/-- The run slot counts for the trains that are ready. -/
def passSlots : List Bound → State → State
  | [], s => s
  | b :: rest, s =>
    passSlots rest (if b.idx.isNone then s
      else modTrain s b.uid b.tn fun t => { t with passed := t.passed + 1 })

/-- The gang passes that a pipe may still begin in the current window, one in each cycle (R383). -/
def passesLeft (s : State) (core pipe : Nat) : Nat :=
  let p := pipeOf (coreOf s core) pipe
  min ((coreOf s core).grant - if p.window = s.now / 64 then p.passes else 0) (64 - s.now % 64)

/-- The gang passes of an instruction of a train (R124). -/
def passesOf (width : Nat) : Nat := if 32 < width then 2 else 1

/-- A run of a train begins, from a split of it. -/
def beginRun (s : State) (core pipe uid tn idx : Nat) : State :=
  let s := modTrain s uid tn fun t =>
    { t with next := none, passed := 0, siding := listMod t.siding idx fun p => { p with st := .ready } }
  setPipe s core pipe { pipeOf (coreOf s core) pipe with run := some ⟨uid, tn, idx, 0⟩ }

/-- A run of the chosen train begins. -/
def startRun (s : State) (core pipe : Nat) (b : Bound) : State :=
  beginRun s core pipe b.uid b.tn (b.idx.getD 0)

/-- A pipe can start a run. -/
def slotOpen (s : State) (core pipe : Nat) : Bool :=
  !(coreOf s core).halted && (pipeOf (coreOf s core) pipe).run.isNone && 0 < passesLeft s core pipe

/-- RUN_SLOT (R137). -/
def execRunSlot (core pipe : Nat) (s : State) : Host.Outcome State Fault Refusal :=
  .next <|
    if !slotOpen s core pipe then s
    else
      let bs := boundTo s core pipe
      match slotPick bs with
      | none => passSlots bs s
      | some b => startRun (passSlots bs s) core pipe b

/-! ## What trains see after an action -/

/-- A split that waits at `waitm` reads its word after every write to it (R283). -/
def watchWord (s : State) (uid tn : Nat) (t : Train) (p : Split) : Split :=
  match p.st with
  | .waiting (.word u off mask) =>
    if wordReady s uid tn t u off mask then { p with resume := .seen } else p
  | _ => p

/-- Change the trains of the teams on cores. -/
def mapResident (s : State) (f : Nat → Nat → Team → Train → Train) : State :=
  { s with teams := s.teams.map fun e =>
      if isResident e.2 then
        (e.1, { e.2 with trains := e.2.trains.map fun x => (x.1, f e.1 x.1 e.2 x.2) })
      else e }

/-- What the waiting splits of a train see after an action. -/
def watchTrain (s : State) (uid tn : Nat) (team : Team) (t : Train) : Train :=
  let full := decide (256 ≤ pendingTasks (coreOf s (coreOfTeam team)))
  { t with siding := t.siding.map fun p => watchRoom s.now full (watchWord s uid tn t p) }

/-- A contraction that is not in the array of a running core takes none of its cycles. -/
def watchJobs (s : State) : State :=
  let idle (t : Team) (k : Nat) (j : Job) : Bool :=
    isContract j.kind && (!isResident t || (coreOf s (coreOfTeam t)).halted || jobHeld t k j || arrayHeld s t k)
  { s with teams := s.teams.map fun e =>
      if e.2.jobs.isEmpty then e
      else (e.1, { e.2 with jobs := e.2.jobs.map fun j =>
        (j.1, if idle e.2 j.1 j.2 then { j.2 with since := s.now } else j.2) }) }

/-- Whether a train is ready, from which split it would run, and the cycle since which it has been ready
(R137), after `yield` the next (R81). -/
def watchReady (now : Nat) (next : Option Nat) (t : Train) : Train :=
  match next, t.next with
  | none, _ => { t with next := none, passed := 0 }
  | some i, none => { t with next := some i, since := max now t.since }
  | some i, some _ => { t with next := some i }

/-- TAKE_DEADLOCK is looked for where a claim waits (R151). -/
def watchClaims : List (Nat × Team) → State → State
  | [], s => s
  | e :: rest, s => watchClaims rest (if e.2.claims.isEmpty then s else checkTake s e.1)

/-- A `cbld` under way holds the table of a name (R119). -/
def loadsTable (k : Nat) (t : Train) : Bool :=
  (t.siding.any fun p => p.resume == .loaded k) || match t.handler with
    | some h => h.resume == .loaded k
    | none => false

/-- Tables whose `cbld` has gone are no longer loading (R345). -/
def watchLoads (s : State) : State :=
  let keep (ctx k : Nat) : Bool :=
    s.teams.any fun t => t.2.ctx == ctx && t.2.trains.any fun x => loadsTable k x.2
  let trim (n : Nat) (c : Ctx) : Ctx := { c with loading := c.loading.filter fun l => keep n l.1 }
  if s.ctxs.all (·.2.loading.isEmpty) then s
  else { s with ctxs := s.ctxs.map fun c => (c.1, trim c.1 c.2) }

/-- Time passes: the writers that wait for fault-queue room read its count again (R335), before the cycles. -/
def passTime (n : Nat) (s : State) : State :=
  let s := s.ctxs.foldl (fun s c => pumpQueue c.1 c.2.fqWait.length s) s
  { s with now := s.now + n }

end Sys2Proof.Machine
end

