-- ==== Sys2Proof/Machine/Preempt.lean ====
section
/-!
DEFINITION. Traps that a train takes between runs (R331, R333), pre-emption (R345 to R347), save images
(R348) and restoration (R349). The image of a saved team is kept as the team's own state; its bytes in
the slot are the device's own (log entry 8).
-/
namespace Sys2Proof.Machine

/-! ## TRAP_ENTRY and DEFERRED_TRAP -/

/-- TRAP_ENTRY (R331, R335): an entry that waits for queue room continues. -/
def execTrapEntry (uid train : Nat) (s : State) : Host.Outcome State Fault Refusal :=
  .next (continueTrap s uid train)

/-- A run of the train is in progress on its pipe. -/
def inRun (s : State) (core uid tn : Nat) (t : Train) : Bool :=
  match (pipeOf (coreOf s core) t.pipe).run with
  | some r => r.uid == uid && r.train == tn
  | none => false

/-- The train can take a deferred trap now: between runs, in no handler, no other entry pending (R333). One
that is halted in the trapped state takes it at once; one on a halted core, or vacated, when it goes on (log
entry 91). -/
def mayDefer (s : State) (uid tn : Nat) (team : Team) (t : Train) : Bool :=
  isResident team && !(coreOf s (coreOfTeam team)).halted && !t.ended &&
    t.pend.isNone && t.handler.isNone && !inRun s (coreOfTeam team) uid tn t

/-- DEFERRED_TRAP (R333): the first split in the Siding takes it. -/
def execDeferredTrap (uid train : Nat) (s : State) : Host.Outcome State Fault Refusal :=
  .next <|
    match teamOf s uid, trainOf s uid train with
    | some team, some t =>
      match t.defer, t.siding with
      | d :: rest, p :: _ =>
        if !mayDefer s uid train team t then s
        else
          let s := modTrain s uid train fun t => { t with defer := rest }
          takeTrap s uid train 0 d.code [deferredRec s uid train d p.pc p.mask t.done]
      | _, _ => s
    | _, _ => s

/-! ## PREEMPT_REQUEST (R345) -/

/-- The wait of a `tlaunch` for room ends: the lanes not yet accepted receive NO_ROOM. -/
def endTlaunch (p : Split) : Split :=
  match p.resume with
  | .tlaunch sts left till _ =>
    { p with
      resume := .tlaunch (left.foldl (fun m l => mapPut m l 2) sts) [] till false
      st := match p.st with
        | .waiting _ => .ready
        | st => st }
  | _ => p

/-- A `cbld` in progress is abandoned. -/
def dropLoad (r : Resume) : Resume :=
  match r with
  | .loaded _ => .none
  | .table _ => .none
  | r => r

/-- A train at the halt: what the table of R345 ends or abandons. -/
def haltSplits (t : Train) : Train :=
  { t with
    siding := t.siding.map fun p => endTlaunch { p with resume := dropLoad p.resume }
    handler := t.handler.map fun h => { h with resume := dropLoad h.resume } }

/-- The teams resident on a core, by name. -/
def residentIds (s : State) (core : Nat) : List Nat :=
  mapKeys (s.teams.filter fun t => t.2.loc == .core core)

def pauseJobs (s : State) (uid : Nat) : List (Nat × Job) → State
  | [] => s
  | (k, j) :: rest => pauseJobs (pauseJob s uid k j) uid rest

/-- A team at the halt of its core. -/
def haltTeam (s : State) (uid : Nat) : State :=
  match teamOf s uid with
  | none => s
  | some t =>
    let s := pauseJobs s uid t.jobs
    modTeam s uid fun t => { t with trains := t.trains.map fun x => (x.1, haltSplits x.2) }

/-- PREEMPT_REQUEST: every run of the core ends at its boundary, contractions pause, and the core halts. -/
def execPreemptRequest (core : Nat) (s : State) : Host.Outcome State Fault Refusal :=
  .next <|
    if (coreOf s core).halted then s
    else
      let s := [0, 1, 2, 3].foldl (fun s p => endRun s core p) s
      let s := (residentIds s core).foldl haltTeam s
      modCore s core fun c => { c with halted := true }

/-! ## Writing save images (R348) -/

/-- Write an image. -/
def putImage (ctx at_ gen : Nat) : List (Nat × Nat) → State → Except (TrapCause × Addr) State
  | [], s => .ok s
  | (off, n) :: rest, s =>
    match devStore s ctx ((at_ + off) % 2 ^ 80) (imageBytes gen off n) with
    | .error e => .error e
    | .ok s => putImage ctx at_ gen rest s

/-! ## VACATE (R346) -/

/-- A merge as it is saved: of the pairs read ahead, the heads only (R327). -/
def headsOnly (m : Merge) : Merge :=
  { m with ins := m.ins.map fun i => { i with ahead := i.ahead.filter fun p => p.1 == i.cursor } }

/-- The streams of a train as they are saved: reads in flight are made again (R327). -/
def dropFlights (t : Train) : Train :=
  { t with streams := t.streams.map fun q => (q.1, { q.2 with ahead := [] }) }

/-- The merge tree's state goes with its train. -/
def takeMerge (s : State) (core uid : Nat) : State :=
  match (coreOf s core).merge with
  | none => s
  | some m =>
    if m.uid ≠ uid then s
    else
      let s := modCore s core fun c => { c with merge := none }
      modTrain s uid m.train fun t => { t with merge := some (headsOnly m) }

/-- The stores and atomics of a team have been performed (R248): what may remain is a `casl` at its home
and what a peer has still to answer. -/
def drained (s : State) (uid : Nat) (t : Team) : Bool :=
  (t.trains.all fun x => x.2.sq.isEmpty) && s.net.all fun r =>
    r.2.uid != uid || isCasl r.2 || match r.2.stage with
      | .atPeer _ => true
      | _ => false

/-- The partials of every core whose L1 a core shares go to their homes (R220, R227). -/
def sendAll (s : State) (core : Nat) : State :=
  (l1Cores s core).foldl (fun s c => sendPartials s c none) s

/-- The claims of a team's trains leave the queue for fault-queue room: their entries are pending (R345). -/
def leaveQueue (s : State) (ctx uid : Nat) : State :=
  modCtx s ctx fun c => { c with fqWait := c.fqWait.filter fun w => match w with
    | .train u _ => u != uid
    | _ => true }

/-- Pending entries claim room again after restoration (R331). -/
def rejoinQueue (s : State) (ctx uid : Nat) (t : Team) : State :=
  (t.trains.filter fun x => x.2.pend.isSome).foldl (fun s x => queueWriter s ctx (.train uid x.1)) s

/-- Save one team: partials go home, the image is written to the lowest free slot; it still follows the
requests of the core that it leaves (R248). A fault of the save area halts the context's trains, and the team
stays (R328). -/
def saveTeam (s : State) (uid : Nat) : State :=
  match teamOf s uid with
  | none => s
  | some t =>
    let core := coreOfTeam t
    match freeSlots (ctxOf s t.ctx) with
    | [] => s
    | slot :: _ =>
      let gen := s.nextId
      let s := sendAll { s with nextId := gen + 1 } core
      match putImage t.ctx (saveSlot (ctxOf s t.ctx) slot) gen (imageRanges t gen) s with
      | .error _ => fqFault s t.ctx
      | .ok s =>
        let s := leaveQueue (modCtx s t.ctx fun c => { c with slots := setAdd c.slots slot }) t.ctx uid
        let owed := coreReqs s core t.owed true
        modTeam (takeMerge s core uid) uid fun t =>
          { t with
            loc := .saved slot gen
            owed := owed
            trains := t.trains.map fun x => (x.1, dropFlights x.2) }

/-- A core resumes issue once nothing is left to vacate. -/
def resumeCore (uids : List Nat) (s : State) (core : Nat) : State :=
  let left := (coreOf s core).vacating.filter fun u => !uids.contains u
  modCore s core fun c => { c with vacating := left, halted := !left.isEmpty }

/-- The teams that a vacate of a core takes: those named that are resident on it, with their cluster
groups. -/
def vacateSet (s : State) (core : Nat) (uids : List Nat) : List Nat :=
  uids.foldl (fun l u => match teamOf s u with
    | some t => if t.loc == .core core then setUnion l (groupOf s u t) else l
    | none => l) []

/-- VACATE: the teams chosen leave their halted cores once their stores have been performed; where a
context lacks slots for them they are not chosen (R348). -/
def execVacate (core : Nat) (uids : List Nat) (s : State) : Host.Outcome State Fault Refusal :=
  .next <|
    let us := vacateSet s core uids
    let cores := setAdd (us.foldl (fun l u => match teamOf s u with
      | some t => setAdd l (coreOfTeam t)
      | none => l) []) core
    let ready := (cores.all fun k => (coreOf s k).halted) && us.all fun u => match teamOf s u with
      | some t => drained s u t
      | none => true
    if !ready then s
    else
      let s' := if slotsFor s us then us.foldl saveTeam s else s
      cores.foldl (resumeCore us) s'

/-! ## The end of a team by command or by a bad image (R332, R348) -/

/-- Every train stops at once and the copies are cancelled; the team retires as ABORTED once its stores and
atomics have been performed, and the contractions and accumulator instructions under way have completed
(R201). What is held at its points stands for no train any more. -/
def abortTeam (s : State) (uid : Nat) : State :=
  match teamOf s uid with
  | none => s
  | some t =>
    let live := mapKeys (liveTrains t)
    let s := modTeam s uid fun t => { t with claims := [], copies := [], aborted := true }
    let s := leaveQueue s t.ctx uid
    let s := live.foldl (fun s n => endTrain (modTrain s uid n fun x =>
      { x with prods := [], active := 0, pend := none, handler := none }) uid n) s
    modTeam s uid fun t =>
      { t with copies := [], rvs := t.rvs.map fun r => (r.1, { r.2 with held := [] }) }

/-! ## TEAM_RESTORE (R348, R349) -/

/-- A train on its new core: a `sleep` waits again (R82), and it competes from now. -/
def restoreTrain (pipe bound now : Nat) (t : Train) : Train :=
  { t with
    pipe := pipe
    bound := bound
    next := none
    since := now
    passed := 0
    siding := t.siding.map fun p =>
      { p with
        resume := if p.resume = .slept then .none else p.resume
        st := match p.st with
          | .waiting (.sleep _) => .ready
          | st => st }
    handler := t.handler.map fun h =>
      { h with resume := if h.resume = .slept then .none else h.resume } }

def rebind (uid core : Nat) : List Nat → State → State
  | [], s => s
  | n :: rest, s =>
    let pipe := pickPipe s core
    rebind uid core rest (modTrain { s with nextId := s.nextId + 1 } uid n fun t =>
      restoreTrain pipe s.nextId s.now { t with ended := false })

/-- The trains of a team as ended, for the binding to count them one by one. -/
def hideTrains (t : Team) : Team :=
  { t with trains := t.trains.map fun x => (x.1, { x.2 with ended := true }) }

/-- The merge tree's state returns to its core. -/
def giveMerge (s : State) (core uid : Nat) (t : Team) : State :=
  match t.trains.find? fun x => x.2.merge.isSome with
  | none => s
  | some (n, x) => modTrain (modCore s core fun c => { c with merge := x.merge }) uid n fun x =>
      { x with merge := none }

/-- Restore one team on a core; every train begins with an acquire at device scope (R248). -/
def restoreTeam (s : State) (uid core : Nat) : State :=
  match teamOf s uid with
  | none => s
  | some t =>
    let s := if t.launch.isSome then takeMode s (clusterOf core) t.fused else s
    let s := takeSplit s core t.split
    let at_ := (roomAt s core (coreOf s core).split (teamNeed t)).getD 0
    let s := match t.loc with
      | .saved slot _ => modCtx s t.ctx fun c => { c with slots := setDel c.slots slot }
      | _ => s
    let s := setTeam s uid { hideTrains t with loc := .core core, scrAt := at_ }
    let s := rejoinQueue (rebind uid core (mapKeys (liveTrains t)) s) t.ctx uid t
    dropForeign (giveMerge s core uid t) core

/-- What the homes do for the reading of images. -/
def touchImages (s : State) (uids : List Nat) : State :=
  uids.foldl (fun s u => match teamOf s u with
    | none => s
    | some t => match t.loc with
      | .saved slot gen => (imageRanges t gen).foldl (fun s r =>
          touch s t.ctx .read ((saveSlot (ctxOf s t.ctx) slot + r.1) % 2 ^ 80) r.2) s
      | _ => s) s

/-- Restore the teams of a group on their cores; one whose image does not match ends (R348). -/
def restoreAll : List (Nat × Nat) → State → State
  | [], s => s
  | (u, core) :: rest, s =>
    match imageOf s u with
    | .ok true => restoreAll rest (restoreTeam s u core)
    | _ =>
      match teamOf s u with
      | none => restoreAll rest s
      | some t =>
        restoreAll rest
          (reportHeld (abortTeam s u) t.ctx (timetableRec t.ctx 15 7 0xFFFF t.team false 0 0))

/-- The cores for a saved group, the first of them given by the event for a team alone. -/
def restoreCores (s : State) (t : Team) (group : List Nat) (core : Nat) : Option (List Nat) :=
  let cs := if group.length = 1 then some [core]
    else restoreSpot s t group.length (clusterOf core)
  match cs with
  | none => none
  | some cs =>
    if (group.zip cs).all fun g => match teamOf s g.1 with
        | some m => canRestore s g.2 m
        | none => false then some cs else none

/-- A saved group is the first of what stands for placement (R134, R349). -/
def groupFirst (s : State) (p : Nat) (group : List Nat) : Bool :=
  match firstStand (standing s p) with
  | some x => x.saved && group.contains x.name
  | none => false

/-- TEAM_RESTORE. A fault of the save area halts the context's trains (R328). -/
def execTeamRestore (uid core : Nat) (s : State) : Host.Outcome State Fault Refusal :=
  .next <|
    match teamOf s uid with
    | none => s
    | some t =>
      match t.loc with
      | .saved _ _ =>
        let group := savedGroup s uid t
        let p := (ctxOf s t.ctx).partition.toNat
        if !restorable s group || !(clustersOf s p).contains (clusterOf core) ||
            !groupFirst s p group then s
        else match restoreCores s t group core with
          | none => s
          | some cs =>
            let s := touchImages s group
            if group.any fun u => match imageOf s u with
                | .error _ => true
                | .ok _ => false then fqFault s t.ctx
            else restoreAll (group.zip cs) s
      | _ => s

end Sys2Proof.Machine
end

