-- ==== Sys2Proof/Machine/Power.lean ====
section
/-!
DEFINITION. Start-up and reset (R378 to R381), the power arbiter (R382, R383), the monitors and the
thermal limits (R384, R385), memory errors (R344), and the loss of power.
-/
namespace Sys2Proof.Machine

/-! ## Resets -/

/-- An error lies in memory outside the dies' own stores. -/
def lasting : ErrPlace → Bool
  | .hbm _ => true
  | .cxl _ => true
  | _ => false

/-- The module resets: stored memory, the boot registers and what the model keeps for itself stay; all
other state takes its value at reset. -/
def moduleReset (s : State) : State :=
  { State.reset with
    now := s.now
    agenda := s.agenda
    turn := s.turn
    nextId := s.nextId
    drawn := s.drawn
    mem := s.mem
    boot := s.boot
    period := s.now + 12000
    device := s.device
    errs := s.errs.filter lasting
    msix := s.msix
    hostOut := s.hostOut
    ckpts := s.ckpts }

/-- What keeps a start from its end: its reason code, and the last stage reached (R378 to R380). -/
def startFault (x : StartIn) : Option (Nat × Nat) :=
  if !x.imageOk then some (3, 1)
  else if !x.stacksOk then some (5, 2)
  else if !x.diesOk then some (4, 3)
  else if !x.cxl0Ok then some (8, 4)
  else none

/-- Fail(r) of R379: held, or the registers with which the next start begins. -/
def bootFail (b : Boot) (r : Nat) : Boot × Bool :=
  if b.fails = 3 then ({ b with mode := 3, reason := BitVec.ofNat 8 r }, true)
  else
    let n := b.fails + 1
    ({ b with fails := n, reason := if n = 3 then 7 else BitVec.ofNat 8 r }, false)

/-- Start of R379, one input for each try: as far as the firmware, or held. None where the inputs do not
reach an end. -/
def startFrom (now : Nat) (b : Boot) : List StartIn → Option Boot
  | [] => none
  | x :: rest =>
    match startFault x with
    | none =>
      let small := b.fails == 3
      some
        { b with
          mode := 0
          stage := 5
          till := now + 6000000000
          from_ := now
          cxlUp := if small then 1 else x.cxlUp ||| 1
          milern := if small then 0 else x.milernUp }
    | some (r, stage) =>
      let b' : Boot := { b with stage := BitVec.ofNat 8 stage, cxlUp := 0, milern := 0 }
      match bootFail b' r with
      | (b', true) => some b'
      | (b', false) => startFrom now b' rest

/-- The module resets and starts; the step is not taken where the inputs reach no end. -/
def startModule (s : State) (b : Boot) (starts : List StartIn) : State :=
  match startFrom s.now { b with mode := 0, stage := 1 } starts with
  | none => s
  | some b => { moduleReset s with boot := b }

/-- POWER_ON_RESET (R379). -/
def execPowerOnReset (starts : List StartIn) (s : State) : Host.Outcome State Fault Refusal :=
  .next (startModule s { s.boot with reason := 0 } starts)

/-- HOST_RESET_REQUEST (R379); a held module answers nothing. -/
def execHostResetRequest (starts : List StartIn) (s : State) : Host.Outcome State Fault Refusal :=
  .next (if s.boot.mode = 3 then s else startModule s { s.boot with reason := 1 } starts)

/-- A start waits for its firmware. -/
def booting (s : State) : Bool := s.boot.mode == 0 && s.boot.stage == 5

/-- FIRMWARE_UP (R379), within 10 s of the reset: the mode, and the windows and device number that the
firmware has set up. -/
def execFirmwareUp (windows : List (Nat × Nat)) (device : Nat) (s : State) :
    Host.Outcome State Fault Refusal :=
  .next <|
    if !booting s || s.boot.till ≤ s.now then s
    else
      let small := s.boot.fails == 3
      let b : Boot :=
        { s.boot with
          mode := if small then 2 else 1
          stage := 6
          fails := if small then 3 else 0 }
      { s with
        boot := b
        device := device % 8192
        windows := windows.foldl (fun m w => mapPut m w.1 w.2) [] }

/-- BOOT_TIMEOUT (R379): Fail(2), 10 s after the reset. -/
def execBootTimeout (starts : List StartIn) (s : State) : Host.Outcome State Fault Refusal :=
  .next <|
    if !booting s || s.now < s.boot.till then s
    else match bootFail s.boot 2 with
      | (b, true) => { moduleReset s with boot := b }
      | (b, false) => startModule s b starts

/-- Memory that loses its contents with the module's power: all but pooled and host memory. -/
def keepsPower (c : Nat × Byte) : Bool := regionOf c.1 == .cxl || regionOf c.1 == .host

/-- MODULE_POWER_LOSS (R378). -/
def execModulePowerLoss (s : State) : Host.Outcome State Fault Refusal :=
  .next { moduleReset s with
    mem := s.mem.filter keepsPower
    errs := []
    boot := Boot.reset
    device := 0 }

/-! ## The power arbiter (R382, R383) -/

/-- The budget register, clamped (R382). -/
def setBudget (w : Nat) (s : State) : State := { s with budget := max 600 (min 2400 w) }

def modPart (s : State) (p : Nat) (f : Partition → Partition) : State :=
  { s with parts := mapPut s.parts p (f (partOf s p)) }

/-- A partition's weight (R382). -/
def setWeight (p w : Nat) (s : State) : State :=
  modPart s p fun q => { q with weight := BitVec.ofNat 8 w }

/-- BUDGET_WRITE (R382). -/
def execBudgetWrite (w : Nat) (s : State) : Host.Outcome State Fault Refusal :=
  .next (if s.boot.mode = 3 then s else setBudget w s)

/-- PWEIGHT_WRITE (R382). -/
def execPweightWrite (partition w : Nat) (s : State) : Host.Outcome State Fault Refusal :=
  .next (if s.boot.mode = 3 || 16 ≤ partition then s else setWeight partition w s)

/-- A core that shares in the budget: its number, weight, and estimate at full issue. -/
structure Share where
  core   : Nat
  weight : Nat
  full   : Nat
  deriving DecidableEq, Repr

/-- The cores with a resident team (R383). -/
def sharers (s : State) (full : List (Nat × Nat)) : List Share :=
  (List.range 256).filterMap fun (c : Nat) =>
    match residents s c with
    | [] => none
    | t :: _ =>
      let p := (ctxOf s t.ctx).partition.toNat
      let f := ((full.find? (·.1 == c)).map Prod.snd).getD 8
      some ⟨c, (partOf s p).weight.toNat, max 1 f⟩

def shareWeight (l : List Share) : Nat := (l.map (·.weight)).sum

/-- A core's part of `r` among cores of total weight `w` reaches its cap. -/
def capped (r w : Nat) (c : Share) : Bool := c.full * w ≤ r * c.weight && 0 < c.weight

/-- Shares among the cores not capped: what is left for them, and those cores; the others have their
estimate at full issue. -/
def fillShares : Nat → Nat → List Share → Nat × List Share
  | 0, r, l => (r, l)
  | n + 1, r, l =>
    let w := shareWeight l
    let full := l.filter (capped r w)
    if full.isEmpty then (r, l)
    else fillShares n (r - (full.map (·.full)).sum) (l.filter fun c => !capped r w c)

/-- The grant of a core with a resident team (R383). -/
def grantOf (r : Nat) (open_ : List Share) (c : Share) : Nat :=
  if open_.contains c then
    let w := shareWeight open_
    max 8 (min 64 (if w = 0 then 0 else 64 * r * c.weight / (w * c.full)))
  else 64

/-- The grant of any core; every one on a throttled die is 8 (R384; log entry 95). -/
def coreGrant (s : State) (r : Nat) (open_ all : List Share) (c : Nat) : Nat :=
  if (dieAt s (dieOf c)).throttled then 8
  else match all.find? (·.core == c) with
    | none => 0
    | some x => grantOf r open_ x

/-- The contractions on a core count their cycles anew, for the grant changes. -/
def countJobs (s : State) (core : Nat) : State :=
  { s with teams := s.teams.map fun e =>
      if e.2.loc == .core core then
        (e.1, { e.2 with jobs := e.2.jobs.map fun j => (j.1, countJob s e.2 j.2) })
      else e }

def setGrant (s : State) (c g : Nat) : State :=
  if (coreOf s c).grant = g then s
  else modCore (countJobs s c) c fun k => { k with grant := g }

def setGrants (r : Nat) (open_ all : List Share) (s : State) : State :=
  (List.range 256).foldl (fun k (c : Nat) => setGrant k c (coreGrant s r open_ all c)) s

/-- ARBITER_PERIOD (R383). -/
def execArbiterPeriod (uncore : Nat) (full : List (Nat × Nat)) (s : State) :
    Host.Outcome State Fault Refusal :=
  .next <|
    if s.now < s.period then s
    else
      let all := sharers s full
      let (r, open_) := fillShares 256 (s.budget - uncore) all
      let s := setGrants r open_ all s
      { s with
        estimate := Config.powerEstimate s.drawn
        drawn := s.drawn + 1
        period := s.period + 12000 }

/-! ## Monitors (R384, R385) -/

/-- A thermal word's temperature in units of 1/16 °C, where it is valid. -/
def temperature (w : Word) : Option Int :=
  if w.getLsbD 31 then some ((w.setWidth 16).toInt) else none

def atLeast (limit : Int) (w : Word) : Bool :=
  match temperature w with
  | some t => limit ≤ t
  | none => false

/-- A droop word after a sample; a word that has been cleared, or never sampled, starts anew. -/
def droopSample (old : Option DWord) (mv n : Nat) : DWord :=
  let low := match old with
    | none => mv % 65536
    | some w => min (bitsOf w.toNat 32 16) (mv % 65536)
  BitVec.ofNat 64 (low * 2 ^ 32 + min (2 ^ 32 - 1) ((old.getD 0).toNat % 2 ^ 32 + n))

/-- Droop words after the samples of sensors. -/
def droopSamples (xs : List (Nat × Nat × Nat)) (m : AMap DWord) : AMap DWord :=
  xs.foldl (fun m e =>
    if e.1 < 16 then mapPut m e.1 (droopSample (mapGet m e.1) e.2.1 e.2.2) else m) m

/-- A thermal word as the monitor holds it: bits [30:16] are reserved (R5, R385). -/
def thermalWord (w : Word) : Word := w &&& 0x8000FFFF

/-- What a die's words took before is of the present cycle, or forgotten (R385). -/
def freshDie (now : Nat) (d : Die) : Die :=
  if d.newAt = now then d else { d with newAt := now, newDroop := [], newCorr := [] }

/-- Counts with what a sample brings them, saturating. -/
def countUp (new : AMap Nat) (m : AMap Word) : AMap Word :=
  new.foldl (fun m e => mapPut m e.1 (BitVec.ofNat 32 (min (2 ^ 32 - 1) ((defGet 0 m e.1).toNat + e.2)))) m

/-- A die's words after a sample in the period that ends at `period`, and its throttle (R384, R385). -/
def sampleDie (now period : Nat) (x : Sample) (d : Die) : Die :=
  let d := freshDie now d
  let thermal := x.thermal.foldl (fun m e =>
    if e.1 < 32 then mapPut m e.1 (thermalWord e.2) else m) d.thermal
  { d with
    sampled := period
    newDroop := droopSamples x.droop d.newDroop
    newCorr := countUp d.pending d.newCorr
    corrected := countUp d.pending d.corrected
    pending := []
    thermal := thermal
    droop := droopSamples x.droop d.droop
    process := x.process.foldl (fun m e => if e.1 < 8 then mapPut m e.1 e.2 else m) d.process
    throttled := (thermal.any fun e => atLeast 1600 e.2) ||
      (d.throttled && thermal.any fun e => atLeast 1520 e.2) }

/-- A sensor reads 110 °C or more on two consecutive samples. -/
def trips (x : Sample) (d : Die) : Bool :=
  x.thermal.any fun e => e.1 < 32 && atLeast 1760 e.2 && atLeast 1760 (defGet 0 d.thermal e.1)

/-- MONITOR_SAMPLE (R384, R385), once in an arbiter period; a thermal trip resets the module with reason 6. A
held module samples nothing (R379). -/
def execMonitorSample (die : Nat) (x : Sample) (starts : List StartIn) (s : State) :
    Host.Outcome State Fault Refusal :=
  .next <|
    if 4 ≤ die || s.boot.mode = 3 || (dieAt s die).sampled = s.period then s
    else if trips x (dieAt s die) then startModule s { s.boot with reason := 6 } starts
    else modDie s die (sampleDie s.now s.period x)

/-- A word that is cleared keeps what it took in this cycle. -/
def keepNew {α : Type} (m new : AMap α) (k : Nat) : AMap α :=
  match mapGet new k with
  | some w => mapPut m k w
  | none => mapDel m k

/-- A write of 0 to a droop or corrected-error word clears it; the other monitor words take no write. -/
def clearMonitor (die off : Nat) (s : State) : State :=
  if 0x100 ≤ off && off < 0x180 && off % 8 = 0 then
    modDie s die fun d =>
      let d := freshDie s.now d
      { d with droop := keepNew d.droop d.newDroop ((off - 0x100) / 8) }
  else if 0x300 ≤ off && off < 0x314 && off % 4 = 0 then
    modDie s die fun d =>
      let d := freshDie s.now d
      { d with corrected := keepNew d.corrected d.newCorr ((off - 0x300) / 4) }
  else s

/-- MONITOR_CLEAR (R385). -/
def execMonitorClear (die off : Nat) (s : State) : Host.Outcome State Fault Refusal :=
  .next (if 4 ≤ die || s.boot.mode = 3 then s else clearMonitor die off s)

/-! ## Memory errors (R344) -/

/-- The die and the reason code of an error's place (R338, R385), where the place holds data. -/
def errSite (s : State) : ErrPlace → Option (Nat × Nat)
  | .hbm pa => if regionOf pa = .hbm then some (homeDie pa, 1) else none
  | .l2 pa => if (mapGet s.l2 (pa / 128)).isSome then some (homeDie pa, 2) else none
  | .l1 core pa =>
    if (mapGet (coreOf s core).l1 (pa / 128)).isSome then some (dieOf core, 3) else none
  | .scratch u o => match teamOf s u with
    | some t => if isResident t && o < t.scrSize then some (dieOf (coreOfTeam t), 4) else none
    | none => none
  | .vreg u tn r => match teamOf s u, trainOf s u tn with
    | some t, some x => if isResident t && r < x.budget then some (dieOf (coreOfTeam t), 4) else none
    | _, _ => none
  | .acc u o => match teamOf s u with
    | some t => if isResident t && o < t.accSize then some (dieOf (coreOfTeam t), 5) else none
    | none => none
  | .cxl pa => if regionOf pa = .cxl || regionOf pa = .host then some (0, 6) else none

/-- The check granule of an error's place: 8 bytes, or a register. -/
def checkGranule : ErrPlace → ErrPlace
  | .hbm pa => .hbm (pa / 8 * 8)
  | .l2 pa => .l2 (pa / 8 * 8)
  | .l1 c pa => .l1 c (pa / 8 * 8)
  | .scratch u o => .scratch u (o / 8 * 8)
  | .vreg u t r => .vreg u t r
  | .acc u o => .acc u (o / 8 * 8)
  | .cxl pa => .cxl (pa / 8 * 8)

/-- A corrected error counts on its die, by its reason code 1 to 5: the next sample takes it (R385). -/
def countCorrected (s : State) (die reason : Nat) : State :=
  if reason = 6 then s
  else modDie s die fun d => { d with pending := mapPut d.pending (reason - 1) (defGet 0 d.pending (reason - 1) + 1) }

/-- A separate access touches the line, or the granule of a core's store, of an error's place. -/
def touchesPlace (q : Part) : ErrPlace → Bool
  | .hbm pa => q.place == .glob && headLane q.addrs / 128 == pa / 128
  | .l2 pa => q.place == .glob && headLane q.addrs / 128 == pa / 128
  | .l1 _ pa => q.place == .glob && headLane q.addrs / 128 == pa / 128
  | .cxl pa => q.place == .glob && headLane q.addrs / 128 == pa / 128
  | .scratch u o => q.place == .scr u && q.addrs.any (· / 8 == o / 8)
  | .acc u o => q.place == .acc u && q.addrs.any (· / 8 == o / 8)
  | .vreg .. => false

/-- A chunk of a copy has been written in part and would meet an error at a place (R344; log entry 120). -/
def tornBy (s : State) (place : ErrPlace) : Bool :=
  let s := { s with errs := [checkGranule place] }
  s.teams.any fun t => t.2.copies.any fun c =>
    (c.2.moved.map (· / 512)).any fun k => (chunkErr s t.1 c.2 (unreadBytes c.2 k)).isSome

/-- An instruction, or a chunk of a copy, has gone on whose data have still to come from an error's place (log
entry 120). -/
def inFlight (s : State) (place : ErrPlace) : Bool :=
  tornBy s place || s.teams.any fun t => t.2.trains.any fun x => x.2.prods.any fun p =>
    !p.2.held && p.2.parts.any fun q =>
      q.got.isNone && (mapGet p.2.vals q.lane).isNone && touchesPlace q place

/-- MEMORY_ERROR (R344). An uncorrectable error comes about between the accesses of its place. -/
def execMemoryError (place : ErrPlace) (corrected : Bool) (s : State) :
    Host.Outcome State Fault Refusal :=
  .next <|
    match errSite s place with
    | none => s
    | some (die, reason) =>
      if corrected then countCorrected s die reason
      else if s.errs.contains (checkGranule place) || inFlight s place then s
      else { s with errs := checkGranule place :: s.errs }

end Sys2Proof.Machine
end

