-- ==== Sys2Proof/Machine/Registers.lean ====
section
/-!
DEFINITION. The management register region (R376 to R378, R381, R382, R385): reading and writing its
registers, and starting a command.
-/
namespace Sys2Proof.Machine

/-- Where the region starts. -/
def mgmtBase : Nat := 0xFF000000000000

/-! ## The boot block (R378, R381) -/

def bootWord (b : Boot) : Nat :=
  b.reason.toNat * 2 ^ 16 + b.fails.toNat * 2 ^ 12 + b.mode.toNat * 2 ^ 8 + b.stage.toNat

def linkWord (b : Boot) : Nat := b.milern.toNat * 16 + b.cxlUp.toNat

/-! ## Context registers (R328, R356, R377) -/

/-- The width of context register `k`, in the order of the two tables. -/
def ctxRegWidth (k : Nat) : Nat :=
  match k with
  | 0 => 56
  | 1 => 80
  | 2 => 5
  | 3 => 80
  | 4 => 80
  | 5 => 17
  | 6 => 1
  | 7 => 80
  | 8 => 16
  | 9 => 80
  | 10 => 32
  | 11 => 4
  | 12 => 80
  | 13 => 1
  | 26 => 11
  | k => if k < 18 then 80 else if k < 22 then 5 else 80

def lqOf (c : Ctx) (i : Nat) : LqRegs := (c.lq[i]?).getD ⟨0, 0, 0⟩

/-- The value of context register `k`. -/
def ctxReg (c : Ctx) (k : Nat) : Nat :=
  match k with
  | 0 => c.ptroot.toNat
  | 1 => c.fqbase.toNat
  | 2 => c.fqsize.toNat
  | 3 => c.fqctl.toNat
  | 4 => c.vector.toNat
  | 5 => c.trapmask.toNat
  | 6 => if c.scopechk then 1 else 0
  | 7 => c.save.toNat
  | 8 => c.saveslots.toNat
  | 9 => c.tasktable.toNat
  | 10 => c.memctl.toNat
  | 11 => c.partition.toNat
  | 12 => c.devmap.toNat
  | 13 => if c.peerok then 1 else 0
  | 26 => c.nvec.toNat
  | k =>
    if k < 18 then (lqOf c (k - 14)).base.toNat
    else if k < 22 then (lqOf c (k - 18)).size.toNat
    else (lqOf c (k - 22)).ctl.toNat

def setLq (c : Ctx) (i : Nat) (f : LqRegs → LqRegs) : Ctx := { c with lq := listMod c.lq i f }

/-- Write context register `k`. -/
def ctxRegPut (k v : Nat) (c : Ctx) : Ctx :=
  match k with
  | 0 => { c with ptroot := BitVec.ofNat 56 v }
  | 1 => { c with fqbase := BitVec.ofNat 80 v }
  | 2 => { c with fqsize := BitVec.ofNat 5 v }
  | 3 => { c with fqctl := BitVec.ofNat 80 v }
  | 4 => { c with vector := BitVec.ofNat 80 v }
  | 5 => { c with trapmask := BitVec.ofNat 17 v }
  | 6 => { c with scopechk := v % 2 == 1 }
  | 7 => { c with save := BitVec.ofNat 80 v }
  | 8 => { c with saveslots := BitVec.ofNat 16 v }
  | 9 => { c with tasktable := BitVec.ofNat 80 v }
  | 10 => { c with memctl := BitVec.ofNat 32 v }
  | 11 => { c with partition := BitVec.ofNat 4 v }
  | 12 => { c with devmap := BitVec.ofNat 80 v }
  | 13 => { c with peerok := v % 2 == 1 }
  | 26 => { c with nvec := BitVec.ofNat 11 v }
  | k =>
    if k < 18 then setLq c (k - 14) fun q => { q with base := BitVec.ofNat 80 v }
    else if k < 22 then setLq c (k - 18) fun q => { q with size := BitVec.ofNat 5 v }
    else setLq c (k - 22) fun q => { q with ctl := BitVec.ofNat 80 v }

/-- The access size of a register of a width, in bytes: an 80-bit register is two of 64 bits. -/
def regSize (width : Nat) : Nat := if width ≤ 32 then 4 else 8

/-- Whether an access at offset `o` of a slot is one of its register. -/
def slotAccess (k o size : Nat) : Bool :=
  size == regSize (ctxRegWidth k) && (o == 0 || (o == 8 && ctxRegWidth k == 80))

def statusWord (c : Ctx) : Nat := c.cause.toNat * 2 ^ 24 + c.cmdStatus.toNat * 2 ^ 16

/-- A context block's register at an offset, as it reads. -/
def ctxRead (c : Ctx) (off size : Nat) : Nat :=
  if off < 0x1B0 then
    let k := off / 16
    let v := ctxReg c k
    if c.created || !slotAccess k (off % 16) size then 0
    else if off % 16 = 8 then v / 2 ^ 64 else v % 2 ^ 64
  else if off = 0x200 && size = 4 then statusWord c
  else if off = 0x210 && size = 4 then c.command.toNat % 2 ^ 32
  else if 0x220 ≤ off && off < 0x260 && off % 8 = 0 && size = 8 then
    ((c.args[(off - 0x220) / 8]?).getD 0).toNat
  else 0

/-- A command is written (R377): started, or rejected. -/
def startCommand (code : Nat) (c : Ctx) : Ctx :=
  let fits := if code == 1 || code == 6 then !c.created else (2 ≤ code && code ≤ 8) && c.created
  if c.command ≠ 0 || !fits then { c with cmdStatus := 4 }
  else { c with command := BitVec.ofNat 64 code, cmdStatus := 1, outcome := 0 }

/-- A write to a context block. -/
def ctxWrite (off size v : Nat) (c : Ctx) : Ctx :=
  if off < 0x1B0 then
    let k := off / 16
    if c.created || !slotAccess k (off % 16) size then c
    else
      let old := ctxReg c k
      let new := if ctxRegWidth k ≠ 80 then v
        else if off % 16 = 8 then v * 2 ^ 64 + old % 2 ^ 64
        else old / 2 ^ 64 * 2 ^ 64 + v
      ctxRegPut k new c
  else if off = 0x208 && size = 4 then
    if c.created && v < 4 && !c.bells.contains (v, none) then { c with bells := c.bells ++ [(v, none)] } else c
  else if off = 0x210 && size = 4 then startCommand v c
  else if 0x220 ≤ off && off < 0x260 && off % 8 = 0 && size = 8 then
    { c with args := listMod c.args ((off - 0x220) / 8) fun _ => BitVec.ofNat 64 v }
  else c

/-! ## Partitions, routes, arbiter, monitors -/

/-- The clusters of the partitions other than `p`. -/
def othersMask (s : State) (p : Nat) : DWord :=
  s.parts.foldl (fun m q => if q.1 = p then m else m ||| q.2.mask) 0

/-- A cluster mask as it is written (R380): a cluster of another partition is not taken (R7; log entry 96). -/
def maskWritten (s : State) (p v : Nat) : DWord :=
  (if minimal s.boot && 2 ≤ v then 1 else BitVec.ofNat 64 v) &&& ~~~othersMask s p

def dieRead (d : Die) (off size : Nat) : Nat :=
  if off < 0x80 && size = 4 then (defGet 0 d.thermal (off / 4)).toNat
  else if 0x100 ≤ off && off < 0x180 && size = 8 then (defGet 0 d.droop ((off - 0x100) / 8)).toNat
  else if 0x200 ≤ off && off < 0x220 && size = 4 then (defGet 0 d.process ((off - 0x200) / 4)).toNat
  else if 0x300 ≤ off && off < 0x314 && size = 4 then (defGet 0 d.corrected ((off - 0x300) / 4)).toNat
  else 0

def arbiterRead (s : State) (off size : Nat) : Nat :=
  if size ≠ 4 then 0
  else if off = 0 then s.budget
  else if 8 ≤ off && off < 0x48 then (partOf s ((off - 8) / 4)).weight.toNat
  else if 0x100 ≤ off && off < 0x500 then (coreOf s ((off - 0x100) / 4)).grant
  else if off = 0x500 then s.estimate.toNat
  else 0

/-- What a read of the region returns (R376, R379). -/
def mgmtRead (s : State) (pa size : Nat) : Nat :=
  let off := pa - mgmtBase
  if !(size == 4 || size == 8) || pa % size ≠ 0 then 0
  else if off = 0 && size = 4 then bootWord s.boot
  else if s.boot.mode = 3 then 0
  else if off = 8 && size = 4 then linkWord s.boot
  else if 0x10000 ≤ off && off < 0x20000 then arbiterRead s (off - 0x10000) size
  else if 0x20000 ≤ off && off < 0x24000 then
    dieRead (dieAt s ((off - 0x20000) / 0x1000)) (off % 0x1000) size
  else if 0x100000 ≤ off && off < 0x100080 then
    if size = 4 && off % 8 = 0 then (partOf s ((off - 0x100000) / 8)).share.toNat else 0
  else if 0x100080 ≤ off && off < 0x100100 then
    if size = 8 then (partOf s ((off - 0x100080) / 8)).mask.toNat else 0
  else if 0x200000 ≤ off && off < 0x220000 then
    if size = 8 && off % 16 = 0 then (defGet 0 s.routes ((off - 0x200000) / 16)).toNat else 0
  else if 0x100000000 ≤ off && off < 0x101000000 then
    ctxRead (ctxOf s ((off - 0x100000000) / 0x1000)) (off % 0x1000) size
  else 0

/-- A write to the region. -/
def mgmtWrite (pa size v : Nat) (s : State) : State :=
  let off := pa - mgmtBase
  if !(size == 4 || size == 8) || pa % size ≠ 0 || s.boot.mode = 3 || pa < mgmtBase then s
  else if off = 0x10000 && size = 4 then setBudget v s
  else if 0x10008 ≤ off && off < 0x10048 && size = 4 then setWeight ((off - 0x10008) / 4) v s
  else if 0x20000 ≤ off && off < 0x24000 then
    let o := off % 0x1000
    if v = 0 && size = (if o < 0x200 then 8 else 4) then
      clearMonitor ((off - 0x20000) / 0x1000) o s else s
  else if 0x100000 ≤ off && off < 0x100080 && size = 4 && off % 8 = 0 then
    modPart s ((off - 0x100000) / 8) fun q => { q with share := BitVec.ofNat 32 v }
  else if 0x100080 ≤ off && off < 0x100100 && size = 8 then
    modPart s ((off - 0x100080) / 8) fun q =>
      { q with mask := maskWritten s ((off - 0x100080) / 8) v }
  else if 0x200000 ≤ off && off < 0x220000 && size = 8 && off % 16 = 0 then
    { s with routes := defPut 0 s.routes ((off - 0x200000) / 16) (BitVec.ofNat 64 v) }
  else if 0x100000000 ≤ off && off < 0x101000000 then
    modCtx s ((off - 0x100000000) / 0x1000) (ctxWrite (off % 0x1000) size v)
  else s

/-- REGISTER_WRITE (R376, R377). -/
def execRegisterWrite (pa size : Nat) (x : DWord) (s : State) : Host.Outcome State Fault Refusal :=
  .next (mgmtWrite pa size (x.toNat % 2 ^ (8 * size)) s)

end Sys2Proof.Machine
end

