-- ==== Sys2Proof/Machine/Contexts.lean ====
section
/-!
DEFINITION. The commands of a context (R377): creation (R329), destruction, translation invalidation
(R343), checkpoint and restore (R369, R370), resuming a trapped train and ending a team (R332).
A command under way is `command`; what it has come to is `outcome` (2 done, 3 failed) until
COMMAND_COMPLETE writes it to the status.
-/
namespace Sys2Proof.Machine

/-- A command of a context is under way and has come to nothing yet. -/
def commanded (s : State) (ctx code : Nat) : Bool :=
  (ctxOf s ctx).command.toNat == code && (ctxOf s ctx).outcome == 0

/-- A command has come to its outcome. -/
def setOutcome (s : State) (ctx : Nat) (o : Byte) : State :=
  modCtx s ctx fun c => { c with outcome := o }

def argOf (s : State) (ctx i : Nat) : Nat := (((ctxOf s ctx).args[i]?).getD 0).toNat

/-! ## CREATE_CONTEXT and DESTROY_CONTEXT -/

/-- A launch queue's registers pass the check of R329. -/
def lqOk (q : LqRegs) : Bool :=
  q.size == 0 || (q.size.toNat ≤ 16 && q.base.toNat % 32 == 0 && q.ctl.toNat % 16 == 0)

/-- The check of R329. -/
def contextOk (s : State) (c : Ctx) : Bool :=
  c.ptroot.toNat % 32 == 0 && regionOf c.ptroot.toNat != .mgmt && regionOf c.ptroot.toNat != .nothing &&
    c.fqbase.toNat % 4096 == 0 && 7 ≤ c.fqsize.toNat && c.fqsize.toNat ≤ 20 &&
    c.fqctl.toNat % 16 == 0 && c.vector.toNat % 4 == 0 && c.save.toNat % 2 ^ 23 == 0 &&
    c.tasktable.toNat % 8192 == 0 && c.memctl.toNat < 2 ^ 13 && memctlOk c.memctl.toNat &&
    (partOf s c.partition.toNat).mask != 0 && c.lq.all lqOk

/-- CREATE_CONTEXT (R329, R377). -/
def execCreateContext (ctx : Nat) (s : State) : Host.Outcome State Fault Refusal :=
  .next <|
    if !commanded s ctx 1 then s
    else if contextOk s (ctxOf s ctx) then
      modCtx s ctx fun c => { c with created := true, outcome := 2 }
    else setOutcome s ctx 3

/-- A context's registers as the host wrote them; everything else of it is gone. -/
def bareCtx (c : Ctx) : Ctx :=
  { c with
    created := false
    codebook := []
    ranges := []
    fqWait := []
    loading := []
    noteDue := false
    bells := []
    quiesced := false
    unloaded := []
    slots := [] }

/-- Entries of other contexts. -/
def otherTlb (ctx : Nat) (l : List TlbEntry) : List TlbEntry := l.filter (·.ctx != ctx)

/-- A core without the work of a context: its runs, tasks, merge tree, translations, and the teams that
were to vacate. -/
def dropFromCore (ctx : Nat) (uids : List Nat) (c : Core) : Core :=
  let mine (l : List Task) : Bool := ctxOfTasks l == ctx
  let left := c.vacating.filter fun u => !uids.contains u
  { c with
    tlb := otherTlb ctx c.tlb
    forming := c.forming.filter fun f => !mine f.tasks
    departed := c.departed.filter fun d => !mine d.tasks
    merge := match c.merge with
      | some m => if uids.contains m.uid then none else some m
      | none => none
    pipes := c.pipes.map fun p => (p.1, { p.2 with run := match p.2.run with
      | some r => if uids.contains r.uid then none else some r
      | none => none })
    vacating := left
    halted := c.halted && !(left.isEmpty && !c.vacating.isEmpty) }

def dropTlbs (ctx : Nat) (d : Die) : Die := { d with tlb := otherTlb ctx d.tlb }

/-- The slices' queues without a context's launches, and without requests that are gone. -/
def dropFromSlice (ctx : Nat) (gone : List Nat) (q : Slice) : Slice :=
  { queue := q.queue.filter fun e => e.task.ctx != ctx
    waiting := q.waiting.filter fun r => !gone.contains r }

/-- Everything of a context is dropped; stores that have passed a port go on to memory. -/
def dropContext (s : State) (ctx : Nat) : State :=
  let uids := mapKeys (s.teams.filter fun t => t.2.ctx == ctx)
  let gone := mapKeys (s.net.filter fun r => r.2.ctx == ctx && r.2.peer.isNone && isCasl r.2)
  let s := (mapKeys (s.launches.filter fun l => l.2.ctx == ctx)).foldl dropLaunch s
  let s : State :=
    { s with
      teams := s.teams.filter fun t => t.2.ctx != ctx
      net := s.net.filter fun r => !gone.contains r.1
      peerLoads := s.peerLoads.filter fun l => !uids.contains l.2.uid
      probes := s.probes.filter fun l => !uids.contains l.2.uid
      cores := s.cores.map fun c => (c.1, dropFromCore ctx uids c.2)
      dies := s.dies.map fun d => (d.1, dropTlbs ctx d.2)
      slices := s.slices.map fun q => (q.1, dropFromSlice ctx gone q.2) }
  modCtx s ctx bareCtx

/-- DESTROY_CONTEXT (R377). -/
def execDestroyContext (ctx : Nat) (s : State) : Host.Outcome State Fault Refusal :=
  .next (if commanded s ctx 2 then setOutcome (dropContext s ctx) ctx 2 else s)

/-! ## INVALIDATE_TRANSLATION (R343, R377) -/

/-- A translation overlaps a range of a context. -/
def tlbMeets (ctx lo len : Nat) (e : TlbEntry) : Bool :=
  e.ctx == ctx && e.vpage * 2 ^ e.bits < lo + len && lo < (e.vpage + 1) * 2 ^ e.bits

def invalTlb (ctx lo len : Nat) (l : List TlbEntry) : List TlbEntry :=
  l.filter fun e => !tlbMeets ctx lo len e

/-- Answers of walks in a range that an instruction still waits to use are asked for again. -/
def forgetWalks (lo len : Nat) (t : Train) : Train :=
  { t with walked := t.walked.filter fun w =>
      !(w.1 * 2 ^ 18 < lo + len && lo < (w.1 + 1) * 2 ^ 18) }

def forgetTeam (ctx lo len : Nat) (t : Team) : Team :=
  if t.ctx = ctx then { t with trains := t.trains.map fun x => (x.1, forgetWalks lo len x.2) } else t

def invalCore (ctx lo len : Nat) (c : Core) : Core := { c with tlb := invalTlb ctx lo len c.tlb }

def invalDie (ctx lo len : Nat) (d : Die) : Die := { d with tlb := invalTlb ctx lo len d.tlb }

/-- An address is in a range. -/
def inSpan (lo len : Nat) (va : Addr) : Bool := lo ≤ va.toNat && va.toNat < lo + len

/-- A train has accesses of global memory in a range that were translated at issue and have not been
performed: stores in its queue, loads, and a `stash`. -/
def trainUses (lo len : Nat) (t : Train) : Bool :=
  (t.sq.any fun e => e.ops.any fun o => o.place == .glob && inSpan lo len o.va) ||
  (t.prods.any fun p => p.2.parts.any fun q =>
    q.place == .glob && q.got.isNone && inSpan lo len q.va)

/-- Accesses of a context in a range still use what was translated at their issue: the command completes
after them, since only copies may go on with it (R343; log entry 121). -/
def translatedIn (s : State) (ctx lo len : Nat) : Bool :=
  (s.teams.any fun t => t.2.ctx == ctx &&
    (stashPending t.2 lo len || t.2.trains.any fun x => trainUses lo len x.2)) ||
  s.net.any fun r => r.2.ctx == ctx && r.2.place == .glob &&
    (r.2.ops ++ r.2.rest).any fun o => inSpan lo len o.va

/-- INVALIDATE_TRANSLATION: every TLB drops what overlaps the range. -/
def execInvalidateTranslation (ctx : Nat) (s : State) : Host.Outcome State Fault Refusal :=
  .next <|
    let lo := argOf s ctx 0
    let len := argOf s ctx 1
    if !commanded s ctx 3 || translatedIn s ctx lo len then s
    else
      let s : State :=
        { s with
          cores := s.cores.map fun c => (c.1, invalCore ctx lo len c.2)
          dies := s.dies.map fun d => (d.1, invalDie ctx lo len d.2)
          teams := s.teams.map fun t => (t.1, forgetTeam ctx lo len t.2) }
      setOutcome s ctx 2

/-! ## CHECKPOINT_PHASE_1 (R302, R369) -/

/-- The teams of a context that are on a core, with their groups. -/
def ctxResidents (s : State) (ctx : Nat) : List Nat :=
  s.teams.foldl (fun l e => if e.2.ctx == ctx && isResident e.2 then setUnion l (groupOf s e.1 e.2) else l)
    []

/-- An access goes to a peer, to the host or to pooled memory (R369). -/
def farPart (q : Part) : Bool :=
  match q.place with
  | .peer _ => true
  | .glob => regionOf (headLane q.addrs) != .hbm
  | _ => false

/-- A load of a train has accesses that leave the device and have not been performed, and comes next in the
order of R233. -/
def farLoad (t : Train) (p : Producer) : Bool :=
  (match p.kind with
    | .load _ _ => true
    | _ => false) && earlierPassed t p.seq && p.parts.any fun q => partOpen q && farPart q

/-- A team's accesses that phase 1 waits for: loads of peer, host and pooled memory, copies, transfers of the
stash. -/
def teamBusy (t : Team) : Bool :=
  !t.copies.isEmpty || t.trains.any fun x =>
    (x.2.prods.any fun p => farLoad x.2 p.2) || (workOf x.2 isStashWork).isSome

/-- An access of a context that has not been performed for system scope. -/
def ctxBusy (s : State) (ctx : Nat) : Bool :=
  let mine (uid : Nat) : Bool := match teamOf s uid with
    | some t => t.ctx == ctx
    | none => false
  (s.net.any fun r => r.2.ctx == ctx && r.2.peer.isNone) || (s.peerLoads.any fun l => mine l.2.uid) ||
    (s.probes.any fun l => mine l.2.uid) || s.teams.any fun t => t.2.ctx == ctx && teamBusy t.2

/-- Tasks in the order in which their Platform took them. -/
def taskInsert (t : Task) : List Task → List Task
  | [] => [t]
  | u :: rest => if t.order < u.order then t :: u :: rest else u :: taskInsert t rest

/-- A departed train of a context whose tasks are not lost; those stay until their records are written. -/
def unloads (ctx : Nat) (d : Departed) : Bool := ctxOfTasks d.tasks == ctx && d.lost == 0

/-- The tasks of a context at a core's Platform, as launches bound to it, in the order in which the Platform
took them (R302). -/
def coreTasks (ctx core : Nat) (c : Core) : List LqEntry :=
  (((c.departed.filter (unloads ctx)).flatMap (·.tasks) ++
    (c.forming.filter fun f => ctxOfTasks f.tasks == ctx).flatMap (·.tasks)).foldr taskInsert []).map
      fun t => ⟨core, t, none, none⟩

/-- A core's Platform without the tasks of a context. -/
def unloadCore (ctx : Nat) (c : Core) : Core :=
  { c with
    forming := c.forming.filter fun f => ctxOfTasks f.tasks != ctx
    departed := c.departed.filter fun d => !unloads ctx d }

/-- The unloaded entries are written to the context's save area: bytes of the device's own, at the head of
its lowest free slot (R302; log entry 123). -/
def writeUnloaded (ctx : Nat) (es : List LqEntry) (s : State) : State :=
  match es, freeSlots (ctxOf s ctx) with
  | [], _ => s
  | _, [] => s
  | es, slot :: _ =>
    match devStore { s with nextId := s.nextId + 1 } ctx (saveSlot (ctxOf s ctx) slot)
        (imageBytes s.nextId 0 (min (2 ^ 18) (64 * es.length))) with
    | .ok s => s
    | .error _ => fqFault s ctx

/-- Slice queue entries and Platform tasks of a context are unloaded with it, those of the Platforms,
which were delivered earlier, first (R302). -/
def unload (s : State) (ctx : Nat) : State :=
  let tasks := s.cores.flatMap fun c => coreTasks ctx c.1 c.2
  let queued := s.slices.flatMap fun q => (q.2.queue.filter fun e => e.task.ctx == ctx).map fun e =>
    { e with req := none }
  let s : State :=
    { s with
      cores := s.cores.map fun c => (c.1, unloadCore ctx c.2)
      slices := s.slices.map fun q => (q.1, dropFromSlice ctx [] q.2) }
  writeUnloaded ctx (tasks ++ queued)
    (modCtx s ctx fun c => { c with unloaded := c.unloaded ++ tasks ++ queued })

def setQuiesced (s : State) (ctx : Nat) (b : Bool) : State :=
  modCtx s ctx fun c => { c with quiesced := b }

/-- CHECKPOINT_PHASE_1: placement stops, the teams' vacating is requested, and once they are saved and
every access is performed the tasks are unloaded. A context without slots for its teams fails. -/
def execCheckpointPhase1 (ctx : Nat) (s : State) : Host.Outcome State Fault Refusal :=
  .next <|
    if !commanded s ctx 4 then s
    else
      let s1 := setQuiesced s ctx true
      let us := ctxResidents s1 ctx
      let new := us.filter fun u => match teamOf s u with
        | some t => !(coreOf s (coreOfTeam t)).vacating.contains u
        | none => false
      if !us.isEmpty then
        if !new.isEmpty && !slotsFor s us then setOutcome (setQuiesced s ctx false) ctx 3
        else requestVacate s1 new
      else if ctxBusy s1 ctx then s1
      else setOutcome (unload s1 ctx) ctx 2

/-! ## CHECKPOINT_PHASE_2 (R369) -/

/-- The range list in memory: entries of a start and a length of 8 bytes each, up to 64, ended by a
length of 0 (log entry 11). -/
def rangeList (s : State) (ctx : Nat) : Nat → Nat → Option (List (Addr × Nat))
  | 0, _ => some []
  | n + 1, at_ =>
    match devLoad s ctx (at_ % 2 ^ 80) 16 with
    | .error _ => none
    | .ok bs =>
      let lo := leNat (bs.take 8)
      let len := leNat (bs.drop 8)
      if len = 0 then some []
      else if lo % 2 ^ 18 ≠ 0 || len % 2 ^ 18 ≠ 0 then none
      else (rangeList s ctx n (at_ + 16)).map fun l => (BitVec.ofNat 80 lo, len) :: l

/-- Bytes that are not 0, by offset. -/
def nonZero : Nat → List Byte → AMap Byte
  | _, [] => []
  | o, b :: rest => if b = 0 then nonZero (o + 1) rest else (o, b) :: nonZero (o + 1) rest

/-- The contents of the named ranges. -/
def readRanges (s : State) (ctx : Nat) : List (Addr × Nat) → Option (List (Addr × Nat × AMap Byte))
  | [] => some []
  | (lo, len) :: rest =>
    match devLoad s ctx lo.toNat len, readRanges s ctx rest with
    | .ok bs, some l => some ((lo, len, nonZero 0 bs) :: l)
    | _, _ => none

/-- The errors of a line that is written back and stays in L2: a bad granule is written with a check code that
no data matches (R344). -/
def backErrs (errs : List ErrPlace) (ln : Nat) : List ErrPlace :=
  errs.filter (fun e => match e with
    | .hbm a => a / 128 != ln
    | .cxl a => a / 128 != ln
    | _ => true) ++
  errs.filterMap fun e => match e with
    | .l2 a => if a / 128 ≠ ln then none else if regionOf a = .hbm then some (.hbm a) else some (.cxl a)
    | _ => none

/-- A modified line is written back, with a record where it holds an error (R344). -/
def writeBack (s : State) (ln : Nat) (l : L2Line) : State :=
  let bad := lineErr s ln
  let s : State :=
    { s with
      mem := memPutBytes s.mem (128 * ln) ((List.range 128).map (lineByte l.data))
      l2 := mapPut s.l2 ln { l with modified := false }
      errs := if s.errs.isEmpty then s.errs else backErrs s.errs ln }
  match if bad then anyCtx s else none with
  | some c => reportHeld s c (writebackRec c)
  | none => s

/-- Every modified line is written back. -/
def writeBackAll (s : State) : State :=
  (s.l2.filter fun l => l.2.modified).foldl (fun s l => writeBack s l.1 l.2) s

def checkpointBytes (gen n : Nat) : List Byte := (List.range n).map (Config.checkpointByte gen)

/-- The size of a checkpoint: its header, 4 KiB for what a context holds, its slots and its ranges. -/
def checkpointSize (c : Ctx) (ranges : List (Addr × Nat)) : Nat :=
  8192 + c.slots.length * 2 ^ 23 + (ranges.map Prod.snd).sum

/-- Physical memory from `lo` on lies in pooled memory that is present. -/
def pooled (s : State) (lo len : Nat) : Bool :=
  regionOf lo == .cxl && regionOf (lo + len - 1) == .cxl &&
    (List.range (len / 2 ^ 36 + 2)).all fun i => present s (min (lo + i * 2 ^ 36) (lo + len - 1))

/-- Write a checkpoint at a pooled address, and write it back, so that another device may read it (R365,
R369). -/
def putCheckpoint (s : State) (ctx at_ : Nat) (ranges : List (Addr × Nat × AMap Byte)) (size : Nat) :
    State :=
  let gen := s.nextId
  let c := ctxOf s ctx
  let k : Ckpt :=
    { gen := gen
      at_ := at_
      size := size
      device := s.device
      ctxId := ctx
      ctx := c
      teams := s.teams.filter fun t => t.2.ctx == ctx
      launches := s.launches.filter fun l => l.2.ctx == ctx
      nextId := gen
      ranges := ranges }
  let s := { writeBackAll s with nextId := gen + 1 }
  let s := writeBackAll (coherentStore s (bytesAt at_ (checkpointBytes gen size)))
  { s with ckpts := k :: s.ckpts }

/-- What the homes do for the reading of ranges. -/
def touchRanges (s : State) (ctx : Nat) (rs : List (Addr × Nat)) : State :=
  rs.foldl (fun s r => touch s ctx .read r.1.toNat r.2) s

/-- CHECKPOINT_PHASE_2: allowed once the context is quiesced; when it is written, placement goes on. -/
def execCheckpointPhase2 (ctx : Nat) (s : State) : Host.Outcome State Fault Refusal :=
  .next <|
    if !commanded s ctx 5 then s
    else
      let at_ := argOf s ctx 0
      let s := touch s ctx .read (argOf s ctx 1 % 2 ^ 80) 1024
      let s := touchRanges s ctx ((rangeList s ctx 64 (argOf s ctx 1)).getD [])
      let done := match rangeList s ctx 64 (argOf s ctx 1) with
        | none => none
        | some rs =>
          let size := checkpointSize (ctxOf s ctx) rs
          if !(ctxOf s ctx).quiesced || at_ % 4096 ≠ 0 || !pooled s at_ size then none
          else (readRanges s ctx rs).map fun l =>
            setQuiesced (putCheckpoint s ctx at_ l size) ctx false
      match done with
      | none => setOutcome s ctx 3
      | some s => setOutcome s ctx 2

/-! ## RESTORE (R370) -/

/-- R370: the checkpoint of another device that pooled memory holds at an address, if it holds one there
whose check word matches. Free value of draw number `draw`; log entry 122. -/
opaque otherCheckpoint (draw at_ : Nat) : Option Ckpt

/-- The checkpoint whose header stands at an address: one of this device, its bytes as they were written, or
one of another. -/
def findCheckpoint (s : State) (at_ : Nat) : Option Ckpt :=
  match s.ckpts.find? (·.at_ == at_) with
  | none => if pooled s at_ 4096 then otherCheckpoint s.drawn at_ else none
  | some k =>
    if (List.range k.size).all fun i => viewByte s (at_ + i) == Config.checkpointByte k.gen i
    then some k else none

/-- Write the saved ranges back. -/
def putRanges (ctx : Nat) : List (Addr × Nat × AMap Byte) → State → Option State
  | [], s => some s
  | (lo, len, bs) :: rest, s =>
    match devStore s ctx lo.toNat ((List.range len).map fun i => defGet 0 bs i) with
    | .error _ => none
    | .ok s => putRanges ctx rest s

/-- The images of saved teams are written back to their slots. -/
def putImages (ctx : Nat) : List (Nat × Team) → State → Option State
  | [], s => some s
  | (_, t) :: rest, s =>
    match t.loc with
    | .saved slot gen =>
      match putImage ctx (saveSlot (ctxOf s ctx) slot) gen (imageRanges t gen) s with
      | .error _ => none
      | .ok s => putImages ctx rest s
    | _ => putImages ctx rest s

/-! ### Names of what a checkpoint holds: each is raised by the names in use, so that none is another's -/

def liftWriter (n : Nat) : FqWriter → FqWriter
  | .train u t => .train (u + n) t
  | .stream u t q r => .stream (u + n) t q r
  | .rec_ k r => .rec_ (k + n) r

def liftEntry (n : Nat) (e : LqEntry) : LqEntry := { e with lost := e.lost.map (· + n) }

/-- The requests that a restored instruction still names have been performed (R369). -/
def liftSplit (p : Split) : Split :=
  { p with
    st := match p.st with
      | .waiting (.fence a r w y _) => .waiting (.fence a r w y [])
      | st => st
    resume := match p.resume with
      | .fence _ => .fence []
      | r => r }

def liftTrain (n : Nat) (t : Train) : Train :=
  { t with
    siding := t.siding.map liftSplit
    merge := t.merge.map fun m => { m with uid := m.uid + n } }

def liftTeam (n : Nat) (t : Team) : Team :=
  { t with
    launch := t.launch.map (· + n)
    trains := t.trains.map fun x => (x.1, liftTrain n x.2)
    owed := []
    closing := t.closing.map fun _ => [] }

def liftLaunch (n : Nat) (l : Launch) : Launch := { l with order := l.order + n }

/-- The registers and tables of a saved context, with the command of the present one. -/
def restoredCtx (n : Nat) (saved now : Ctx) : Ctx :=
  { saved with
    created := true
    quiesced := false
    fqWait := saved.fqWait.map (liftWriter n)
    unloaded := saved.unloaded.map (liftEntry n)
    loading := []
    cause := now.cause
    cmdStatus := now.cmdStatus
    command := now.command
    args := now.args
    outcome := now.outcome }

/-- The saved teams and launches come back, under new names. -/
def restoreNames (k : Ckpt) (s : State) : State :=
  let n := s.nextId
  { s with
    nextId := n + k.nextId
    teams := (k.teams.filter fun t => !isResident t.2).foldl
      (fun m t => mapPut m (t.1 + n) (liftTeam n t.2)) s.teams
    launches := k.launches.foldl (fun m l => mapPut m (l.1 + n) (liftLaunch n l.2)) s.launches }

/-- A checkpoint is restored as a context: its registers, its memory, its saved teams and launches. -/
def restoreCkpt (ctx : Nat) (k : Ckpt) (s : State) : Option State :=
  if k.ctxId ≠ ctx then none
  else
    let s1 := modCtx s ctx (restoredCtx s.nextId k.ctx)
    match putRanges ctx k.ranges s1 with
    | none => none
    | some s2 => (putImages ctx k.teams s2).map (restoreNames k)

/-- RESTORE: a check word that does not match, or another context's checkpoint, creates nothing. -/
def execRestore (ctx : Nat) (s : State) : Host.Outcome State Fault Refusal :=
  .next <|
    if !commanded s ctx 6 then s
    else
      let at_ := argOf s ctx 0
      let s := if s.partials.isEmpty then s
        else match s.ckpts.find? (·.at_ == at_) with
          | some k => touchLines s ((List.range (ceilDiv k.size 128)).map (at_ / 128 + ·))
          | none => s
      let found := findCheckpoint s at_
      let s := { s with drawn := s.drawn + 1 }
      match found.bind fun k => restoreCkpt ctx k s with
      | none => setOutcome s ctx 3
      | some s => setOutcome s ctx 2

/-! ## RESUME_TRAPPED_TRAIN and END_TEAM (R332, R334) -/

/-- The team of a context with a `%team` on a core, the earliest placed. -/
def findTeam (s : State) (ctx core team : Nat) : Option (Nat × Team) :=
  s.teams.find? fun e => e.2.ctx == ctx && e.2.loc == .core core && e.2.team.toNat == team

/-- The effect of `rte` on a train that halted outside a handler: the split that trapped goes on. -/
def resumeAt (s : State) (uid tn : Nat) (A : Addr) (D : LaneMask) (next : Bool) (len : Nat) : State :=
  modTrain s uid tn fun t =>
    { t with
      done := if next then 0 else D
      siding := listMod t.siding t.trapIdx fun p =>
        { p with
          pc := if next then A + BitVec.ofNat 80 len else A
          st := .ready
          replay := !next
          resume := if !next && p.pc = A then p.resume else .none } }

/-- The record at `%fault` resumes a train: the state after it, and whether it could be read. -/
def resumeFrom (s : State) (uid tn : Nat) (team : Team) (t : Train) (next : Bool) : State × Bool :=
  if t.handler.isSome then
    match rteFrom s uid tn next with
    | .ok s => (s, true)
    | .error (s, _) => (s, false)
  else match devRead s team.ctx t.fault.toNat 64 with
    | (s, .error _) => (s, false)
    | (s, .ok bs) =>
      let A := BitVec.ofNat 80 (leNat ((bs.drop 16).take 10) / 4 * 4)
      let D : LaneMask := if leNat (bs.take 1) = 14 then 0 else BitVec.ofNat 64 (leNat (bs.drop 56))
      if next then
        let s := touch s team.ctx .fetch A.toNat 12
        match unitLength s team.ctx A.toNat with
        | .error _ => (s, false)
        | .ok n => (resumeAt s uid tn A D true n, true)
      else (resumeAt s uid tn A D false 0, true)

/-- RESUME_TRAPPED_TRAIN: once no producer and no store of the train is outstanding. A record that cannot
be read leaves the train halted. -/
def execResumeTrappedTrain (ctx : Nat) (s : State) : Host.Outcome State Fault Refusal :=
  .next <|
    if !commanded s ctx 7 then s
    else
      let tn := argOf s ctx 2
      match findTeam s ctx (argOf s ctx 0) (argOf s ctx 1) with
      | none => setOutcome s ctx 3
      | some (uid, team) =>
        match mapGet team.trains tn with
        | none => setOutcome s ctx 3
        | some t =>
          if !t.trapped || t.ended then setOutcome s ctx 3
          else if !t.prods.isEmpty || ownStores s uid tn t then s
          else match resumeFrom s uid tn team t (argOf s ctx 3 % 2 == 1) with
            | (s', false) => setOutcome s' ctx 3
            | (s', true) =>
              setOutcome (modTrain s' uid tn fun t =>
                { t with trapped := false, next := none, passed := 0 }) ctx 2

/-- END_TEAM (R332). -/
def execEndTeam (ctx : Nat) (s : State) : Host.Outcome State Fault Refusal :=
  .next <|
    if !commanded s ctx 8 then s
    else match findTeam s ctx (argOf s ctx 0) (argOf s ctx 1) with
      | none => setOutcome s ctx 3
      | some (uid, _) => setOutcome (abortTeam s uid) ctx 2

/-- COMMAND_COMPLETE (R368, R377): the status, and for the phases of a checkpoint or restore the
notification. -/
def execCommandComplete (ctx : Nat) (s : State) : Host.Outcome State Fault Refusal :=
  .next <|
    let c := ctxOf s ctx
    if c.command = 0 || c.outcome = 0 then s
    else
      let s := modCtx s ctx fun c => { c with cmdStatus := c.outcome, command := 0, outcome := 0 }
      if 4 ≤ c.command.toNat && c.command.toNat ≤ 6 then notify s ctx 3 else s

end Sys2Proof.Machine
end

