-- ==== Sys2Proof/Machine/Links.lean ====
section
/-!
DEFINITION. What reaches the device from outside: flits of the Milern links and their loss (R361, R362),
accesses of peers and the answers to this device's own (R355 to R359), the host's accesses (R364, R365),
and the end of a notification window (R368).
-/
namespace Sys2Proof.Machine

/-! ## Requests of peers (R357, R358) -/

/-- The core number and team name under which a peer device's requests travel to their homes: no core or
team of this device has them. -/
def peerCore (src : Nat) : Nat := 0x10000 + src
def peerUid : Nat := 2 ^ 64

/-- An answer leaves for a device. -/
def answer (s : State) (r : PeerIn) (code reason : Nat) (value : Line) (lost : List (Nat × Nat)) : State :=
  sendTo s r.src (.answer r.tag code reason value lost)

/-- The bytes of a peer's access, as offsets from its address. -/
def peerBytes (r : PeerIn) : List Nat :=
  if r.kind = 1 then r.ws.map Prod.fst else List.range r.n

/-- A peer's access lies within one line, and is of a size its kind allows. -/
def peerFits (r : PeerIn) : Bool :=
  r.kind < 5 && !(peerBytes r).isEmpty &&
    ((peerBytes r).all fun o => r.va.toNat % 128 + o < 128) &&
    (r.kind < 2 || r.kind == 4 || (r.n == 4 || r.n == 8) && r.va.toNat % r.n == 0)

/-- What the access needs of its page. -/
def peerAccess (r : PeerIn) : Access :=
  match r.kind, r.op.toNat with
  | 0, _ => .read
  | 1, _ => .write
  | 2, _ => .both
  | 3, _ => .test
  | _, 0 => .read
  | _, 1 => .write
  | _, 2 => .both
  | _, _ => .test

/-- The check of R357 at the target: the physical address and whether its page may be written, or the
trap. -/
def peerXlate (s : State) (r : PeerIn) : Except TrapCause (Nat × Bool) :=
  let c := ctxOf s r.ctx
  let va := r.va.toNat
  if !c.created || !c.peerok then .error (6, 6)
  else match leafOf s r.ctx va with
    | .error e => .error e
    | .ok e => match useLeaf s (peerAccess r) va e with
      | .error e => .error e
      | .ok pa => .ok (pa, e.w)

/-- The byte that a peer's store writes at an offset, the later of two winning. -/
def peerByte (r : PeerIn) (o : Nat) : Option Byte := (r.ws.reverse.find? (·.1 == o)).map Prod.snd

/-- The bytes of a peer's store in one aligned group of its line, as offsets: one operation where the store
writes the whole group, else one for each byte (R242, R358). -/
def peerGroup (r : PeerIn) (pa : Nat) (w : Bool) (as_ : List Nat) : List LaneOp :=
  let op (l : List Nat) : LaneOp :=
    ⟨(headLane l - pa) / 8 % 64, r.va.setWidth 80, .glob, l, .store,
      BitVec.ofNat 128 (leNat (l.map fun a => (peerByte r (a - pa)).getD 0)), 0, w⟩
  let as' := as_.filter fun a => pa ≤ a && (peerByte r (a - pa)).isSome
  if as' = as_ then [op as_] else as'.map fun a => op [a]

/-- A peer's store at the physical address `pa`: its lanes' accesses are of `n` bytes. -/
def peerStores (r : PeerIn) (pa : Nat) (w : Bool) : List LaneOp :=
  let n := if r.n = 2 || r.n = 4 || r.n = 8 then r.n else 1
  (List.range (128 / n)).flatMap fun g =>
    peerGroup r pa w ((List.range n).map fun i => pa / 128 * 128 + g * n + i)

/-- The operations of a peer's request at the physical address `pa`. -/
def peerOps (r : PeerIn) (pa : Nat) (w : Bool) : List LaneOp :=
  let va := r.va.setWidth 80
  match r.kind with
  | 1 => peerStores r pa w
  | 2 => [⟨0, va, .glob, (List.range r.n).map (pa + ·), .atom r.op, r.data.setWidth 128, 0, w⟩]
  | _ => [⟨0, va, .glob, (List.range r.n).map (pa + ·), .cas, r.data.setWidth 128, r.cmp, w⟩]

/-- A peer's store or atomic as a request on its way to its home. -/
def peerReq (s : State) (r : PeerIn) (pa : Nat) (w : Bool) : Req :=
  { core := peerCore r.src
    uid := peerUid
    ctx := r.ctx
    trains := []
    seq := 0
    pc := 0
    order := 1
    scope := 1
    policy := 1
    place := .glob
    line := pa / 128
    ops := peerOps r pa w
    prod := none
    peer := some (r.src, r.tag)
    stash := false
    olds := []
    oks := 0
    flags := 0
    bad := []
    stage := .toHome
    waitFor := []
    rest := []
    wrote := []
    mark := none
    due := s.now + 1 }

/-- A peer's load, performed at the home (R228, R358). Bytes with an uncorrectable error are named. -/
def peerLoad (s : State) (r : PeerIn) (pa : Nat) : State :=
  let s := homeBring (combineLine s (pa / 128)) r.ctx (pa / 128) 1
  let pas := (List.range r.n).map (pa + ·)
  answer s r 0 0 (lineOf (pas.map (homeByte s)))
    (((List.range r.n).map fun i => (i, errAt s (pa + i))).filter fun e => e.2 != 0)

/-- An earlier request of the peer to the line has not been performed (R361). -/
def peerBehind (s : State) (src ln : Nat) : Bool :=
  s.net.any fun q => q.2.core == peerCore src && q.2.line == ln &&
    (q.2.stage == .toHome || !q.2.rest.isEmpty)

/-- Serve one access of a peer; none where the home cannot take it now. -/
def servePeer (s : State) (r : PeerIn) : Option State :=
  if !peerFits r then some s
  else
    let s := touchLeaf s r.ctx r.va.toNat
    match peerXlate s r with
    | .error e => some (answer s r e.1 e.2 0 [])
    | .ok (pa, w) =>
      match r.kind with
      | 0 => if lineBusy s (pa / 128) || peerBehind s r.src (pa / 128) then none
        else some (peerLoad s r pa)
      | 4 => some (answer s r 0 (if w then 0 else 1) 0 [])
      | _ => some { s with net := mapPut s.net s.nextId (peerReq s r pa w), nextId := s.nextId + 1 }

/-- A device is heard. -/
def heard (s : State) (dev : Nat) : State :=
  { s with silent := setDel s.silent dev, lastHeard := mapPut s.lastHeard dev s.now }

/-- A device has stopped responding: every context is told (R361, R368). -/
def fallsSilent (s : State) (dev : Nat) : State :=
  if s.silent.contains dev then s else notifyAll { s with silent := setAdd s.silent dev } 4

/-- PEER_REQUEST (R357, R358): a device with no port up receives none (R380, R381). -/
def execPeerRequest (r : PeerIn) (s : State) : Host.Outcome State Fault Refusal :=
  .next (if s.boot.milern = 0 then s else (servePeer (heard s r.src) r).getD s)

/-! ## Answers to this device's accesses (R357, R358, R362) -/

/-- The lanes of a request. -/
def opLanes (r : Req) : LaneMask := maskOf (r.ops.map (·.lane))

/-- The lowest address of a request's operations. -/
def opsVa (r : Req) : Addr :=
  match r.ops with
  | [] => 0
  | o :: rest => rest.foldl (fun (m : Addr) p => if p.va.toNat < m.toNat then p.va else m) o.va

/-- A request's deferred trap, of its lanes (R333, R362). -/
def reqTrap (s : State) (r : Req) (code reason : Nat) : State :=
  let n := match r.ops with
    | o :: _ => o.addrs.length
    | [] => 0
  addDeferred s r.uid (headLane r.trains)
    { mkDeferred code reason 0 (opsVa r) n 0 with
      lanes := opLanes r
      atomic := !(r.ops.all isStore)
      write := true }

/-- What a request of an atomic brings back: its old value, whether a comparison held, its flags. -/
def answered (r : Req) (value : Line) : Req :=
  match r.ops with
  | o :: _ =>
    if isStore o then { r with stage := .updating [] }
    else
      let old := value.toNat % 2 ^ (8 * o.addrs.length)
      { r with
        stage := .updating []
        olds := [(o.lane, BitVec.ofNat 128 old)]
        oks := if (opEffect o old).1.isSome then maskOf [o.lane] else 0
        flags := value.extractLsb' 128 6 }
  | [] => { r with stage := .updating [] }

/-- The answer to a store or an atomic. A refused store traps deferred; a refused atomic's lane is lost to
its fill. -/
def answerReq (s : State) (tag : Nat) (r : Req) (code reason : Nat) (value : Line) : State :=
  if code = 0 then { s with net := mapPut s.net tag (answered r value) }
  else
    let lost : BitVec 8 := BitVec.ofNat 8 (16 * code + reason)
    let r' : Req :=
      { r with
        stage := .updating []
        bad := (r.ops.filter fun o => !isStore o).map fun o => (o.lane, lost) }
    let s := { s with net := mapPut s.net tag r' }
    if r.ops.all isStore then reqTrap s r code reason else s

/-- The open accesses of a peer load. -/
def ofPeer (l : PeerLoad) (q : Part) : Bool :=
  partOpen q && q.place == .peer l.dev && q.addrs.all fun a => l.addr ≤ a && a < l.addr + l.n

/-- A peer load's accesses are performed with the bytes that came, but for those among `errs` by offset;
or, where `lost` names a cause, none is. -/
def answerLoad (s : State) (tag : Nat) (l : PeerLoad) (lost : BitVec 8) (value : Line)
    (errs : List (Nat × Nat)) : State :=
  let s := { s with peerLoads := mapDel s.peerLoads tag }
  match teamOf s l.uid, trainOf s l.uid l.train with
  | some team, some t =>
    match mapGet t.prods l.prod with
    | none => s
    | some p =>
      let core := coreOfTeam team
      let f (q : Part) : Option (Option Part) :=
        if !ofPeer l q then none
        else if lost ≠ 0 then some (some { q with bad := lost })
        else some (readPart s core team.owed t p.seq (fun a => lineByte value (a - l.addr))
          (fun a => defGet 0 errs (a - l.addr)) q)
      match readParts f p.parts with
      | none => s
      | some parts => storeParts s l.uid l.train l.prod core p parts
  | _, _ => s

/-- The answer to a check: the instruction that waits for it learns of it (R357). -/
def answerProbe (s : State) (tag : Nat) (p : Probe) (code reason : Nat) : State :=
  modTrain { s with probes := mapDel s.probes tag } p.uid p.train fun t =>
    { t with asked := mapPut t.asked p.ea (code, reason) }

/-- An answer arrives. -/
def takeAnswer (s : State) (tag code reason : Nat) (value : Line) (lost : List (Nat × Nat)) : State :=
  match mapGet s.peerLoads tag, mapGet s.probes tag, mapGet s.net tag with
  | some l, _, _ =>
    answerLoad (heard s l.dev) tag l (if code = 0 then 0 else BitVec.ofNat 8 (16 * code + reason))
      value lost
  | none, some p, _ => answerProbe (heard s p.dev) tag p code reason
  | none, none, some r =>
    match r.stage, r.place with
    | .atPeer _, .peer dev => answerReq (heard s dev) tag r code reason value
    | _, _ => s
  | none, none, none => s

/-- A store or atomic is given up: its train goes on, and its lanes trap deferred (R362). -/
def dropReq (s : State) (tag : Nat) (r : Req) : State :=
  let s := { s with net := mapDel s.net tag }
  let s := match r.prod with
    | none => s
    | some (tn, id) => modTrain s r.uid tn fun t =>
        { t with prods := mapMod t.prods id fun p => { p with lanes := p.lanes &&& ~~~opLanes r } }
  reqTrap s r 6 6

/-- PEER_TIMEOUT (R362): PROTECTION, reason 6. A store or atomic whose check has had no answer goes on its way,
where its own time is over at once: its trap is deferred. -/
def execPeerTimeout (tag : Nat) (s : State) : Host.Outcome State Fault Refusal :=
  .next <|
    match mapGet s.peerLoads tag, mapGet s.probes tag, mapGet s.net tag with
    | some l, _, _ =>
      if s.now < l.till then s else answerLoad (fallsSilent s l.dev) tag l 0x66 0 []
    | none, some p, _ =>
      if s.now < p.till then s else answerProbe (fallsSilent s p.dev) tag p 0 0
    | none, none, some r =>
      match r.stage, r.place with
      | .atPeer till, .peer dev =>
        if s.now < till then s else dropReq (fallsSilent s dev) tag r
      | _, _ => s
    | none, none, none => s

/-! ## Flits (R361) -/

def portOf (s : State) (n : Nat) : Port := (mapGet s.ports n).getD ⟨0, s.boot.from_⟩

/-- A down link is seen by every context (R361, R368, R381). -/
def linkDown (s : State) (port : Nat) : State :=
  let m : BitVec 16 := BitVec.ofNat 16 (2 ^ port)
  notifyAll { s with boot := { s.boot with milern := s.boot.milern &&& ~~~m } } 4

/-- Take in what a flit carries, in its order; none where something of it must wait. -/
def takeItems : List FlitItem → State → Option State
  | [], s => some s
  | .request r :: rest, s =>
    match servePeer (heard s r.src) r with
    | none => none
    | some s => takeItems rest s
  | .answer tag code reason value lost :: rest, s =>
    takeItems rest (takeAnswer s tag code reason value lost)
  | .alive dev :: rest, s => takeItems rest (heard s dev)

/-- FLIT_RECEIVE (R361): a flit whose check fails is discarded and sent again; after 16 failures in a row
the link is down. -/
def execFlitReceive (port : Nat) (good : Bool) (items : List FlitItem) (s : State) :
    Host.Outcome State Fault Refusal :=
  .next <|
    if !portUp s port then s
    else if good then
      match takeItems items s with
      | none => s
      | some s => { s with ports := mapPut s.ports port ⟨0, s.now⟩ }
    else
      let n := (portOf s port).fails + 1
      if 16 ≤ n then linkDown { s with ports := mapPut s.ports port ⟨0, s.now⟩ } port
      else { s with ports := mapPut s.ports port ⟨n, s.now⟩ }

/-- The devices behind a port that have been heard, and have then sent no flit for 1 ms (R361). -/
def unheard (s : State) (port : Nat) : List Nat :=
  mapKeys (s.lastHeard.filter fun d => routeTo s d.1 == port && d.2 + 600000 ≤ s.now)

/-- LINK_SILENCE_TIMEOUT (R361): 1 ms without a flit, of a device behind a port, or of the port. -/
def execLinkSilenceTimeout (port : Nat) (s : State) : Host.Outcome State Fault Refusal :=
  .next <|
    let s := (unheard s port).foldl fallsSilent s
    if portUp s port && (portOf s port).last + 600000 ≤ s.now then linkDown s port else s

/-! ## The host (R364, R365) -/

/-- Bytes that lie within one 64-byte request. -/
def inRequest (pa n : Nat) : Bool := 0 < n && pa % 64 + n ≤ 64

/-- The device answers the host's accesses to its memory. -/
def answersHost (s : State) : Bool := s.boot.mode != 3

/-- HOST_WRITE (R364, R365): at the home of a line of device memory; host memory itself where the device
does not hold the line. -/
def execHostWrite (pa : Nat) (bytes : List Byte) (s : State) : Host.Outcome State Fault Refusal :=
  .next <|
    if !inRequest pa bytes.length || !answersHost s then s
    else match regionOf pa with
      | .hbm =>
        if !present s pa || lineBusy s (pa / 128) then s
        else
          let ws := bytesAt pa bytes
          clearErrs (coherentStore (combineLine s (pa / 128)) ws) (ws.map Prod.fst)
      | .host =>
        if (mapGet s.l2 (pa / 128)).isSome then s
        else { s with mem := memPutBytes s.mem pa bytes }
      | _ => s

/-- HOST_READ (R364, R376): the home's value, or a register's; an uncorrectable error returns no bytes. -/
def execHostRead (pa n : Nat) (s : State) : Host.Outcome State Fault Refusal :=
  .next <|
    if regionOf pa = .mgmt then { s with hostOut := natLe n (mgmtRead s pa n) }
    else if !inRequest pa n || !answersHost s then s
    else match regionOf pa with
      | .hbm =>
        if !present s pa || lineBusy s (pa / 128) then s
        else
          let s := combineLine s (pa / 128)
          let pas := (List.range n).map (pa + ·)
          if pas.any fun a => errAt s a != 0 then { s with hostOut := [] }
          else { s with hostOut := pas.map (homeByte s) }
      | .host =>
        if (mapGet s.l2 (pa / 128)).isSome then s
        else { s with hostOut := (List.range n).map fun i => memGet s.mem (pa + i) }
      | _ => s

/-- HOST_OWNERSHIP_RECALL (R365): the home slice gives up a host-region line; then the host writes. -/
def execHostOwnershipRecall (line : Nat) (host : List (Nat × Byte)) (s : State) :
    Host.Outcome State Fault Refusal :=
  .next <|
    if regionOf (128 * line) != .host || lineBusy s line then s
    else
      let s := evictLine s line
      { s with mem := host.foldl (fun m w => memPut m (128 * line + w.1 % 128) w.2) s.mem }

/-- NOTIFICATION_WINDOW_END (R368). -/
def execNotificationWindowEnd (ctx : Nat) (s : State) : Host.Outcome State Fault Refusal :=
  .next <|
    let c := ctxOf s ctx
    if s.now < c.noteTill || !c.noteDue then s
    else notify (modCtx s ctx fun c => { c with noteTill := s.now + 600, noteDue := false }) ctx 1

end Sys2Proof.Machine
end

