-- ==== Sys2Proof/Machine/Moves.lean ====
section
/-!
DEFINITION. Moves, immediates, selection, base registers, predicates (R67 to R72): opcodes 0x10 to
0x1D, but for `mov` from a stream (R321).
-/
namespace Sys2Proof.Machine

/-- R67: a copy, of a base register whole. -/
def execMov (a : Args) (m : Mods) (s : State) : Host.Outcome State Fault Refusal :=
  issue (.mov a m) a s (aluWrite (.mov a m) a fun _ x _ _ => (x, 0))

/-- R68: the F128 word zero-extends into a base register; other immediates are sign-extended. -/
def execLi (a : Args) (m : Mods) (s : State) : Host.Outcome State Fault Refusal :=
  issue (.li a m) a s fun x =>
    let v := match a.s1 with
      | .imm w => w.toNat
      | _ => 0
    uniformWrite (.li a m) a v x

/-- R69. -/
def execSel (a : Args) (m : Mods) (s : State) : Host.Outcome State Fault Refusal :=
  issue (.sel a m) a s fun x =>
    aluWrite (.sel a m) a (fun l p q _ =>
      (if pGet x.train m.py.toNat l != m.px.getLsbD 0 then p else q, 0)) x

/-- R70: H[15:0] × 2^64 + A. -/
def execBset (a : Args) (m : Mods) (s : State) : Host.Outcome State Fault Refusal :=
  issue (.bset a m) a s (aluWrite (.bset a m) a fun _ p h _ => (h % 2 ^ 16 * 2 ^ 64 + p, 0))

/-- R70: the low 64 bits. -/
def execBget (a : Args) (s : State) : Host.Outcome State Fault Refusal :=
  issue (.bget a) a s (aluWrite (.bget a) a fun _ b _ _ => (b % 2 ^ 64, 0))

/-- R70: bits [79:64]. -/
def execBgetHi (a : Args) (s : State) : Host.Outcome State Fault Refusal :=
  issue (.bgetHi a) a s (aluWrite (.bgetHi a) a fun _ b _ _ => (b / 2 ^ 64 % 2 ^ 16, 0))

/-- R70: Bs + SExt(X). -/
def execBadd (a : Args) (m : Mods) (s : State) : Host.Outcome State Fault Refusal :=
  issue (.badd a m) a s (aluWrite (.badd a m) a fun _ b y _ =>
    ((effAddr (BitVec.ofNat 80 b) y m.d 0).toNat, 0))

/-- R70: the effective address, whole for a base register, bits [63:0] for a pair. -/
def execLea (a : Args) (m : Mods) (s : State) : Host.Outcome State Fault Refusal :=
  issue (.lea a m) a s (aluWrite (.lea a m) a fun _ b y _ =>
    ((effAddr (BitVec.ofNat 80 b) y m.d m.py.toNat).toNat, 0))

/-- R70: the unsigned comparison of base registers. -/
def execBcmp (a : Args) (m : Mods) (s : State) : Host.Outcome State Fault Refusal :=
  issue (.bcmp a m) a s fun x =>
    predWrite m.px.toNat (fun _ =>
      condHolds m.py.toNat (srcNat x.train a.s1 1 0) (srcNat x.train a.s2 1 0)) x

/-- R71: a function of two predicates; inputs are read before the output is written. -/
def predAlu (i : Instr) (a : Args) (m : PredMods) (f : Bool → Bool → Bool) (s : State) :
    Host.Outcome State Fault Refusal :=
  issue i a s fun x =>
    predWrite m.pd.toNat (fun l =>
      f (pGet x.train m.pa.toNat l) (pGet x.train m.pb.toNat l != m.inv)) x

/-- R71. -/
def execPand (a : Args) (m : PredMods) (s : State) := predAlu (.pand a m) a m (fun p q => p && q) s
/-- R71. -/
def execPor (a : Args) (m : PredMods) (s : State) := predAlu (.por a m) a m (fun p q => p || q) s
/-- R71. -/
def execPxor (a : Args) (m : PredMods) (s : State) := predAlu (.pxor a m) a m (fun p q => p != q) s
/-- R71. -/
def execPnot (a : Args) (m : PredMods) (s : State) := predAlu (.pnot a m) a m (fun p _ => !p) s

/-- The predicates of a lane, bit i for pi, from p(n-1) down (R72). -/
def predBits (t : Train) (l : Nat) : Nat → Nat
  | 0 => 0
  | n + 1 => (if pGet t n l then 2 ^ n else 0) + predBits t l n

/-- R72. -/
def execPget (a : Args) (s : State) : Host.Outcome State Fault Refusal :=
  issue (.pget a) a s fun x => aluWrite (.pget a) a (fun l _ _ _ => (predBits x.train l 8, 0)) x

/-- Set the predicates of a mask, from p(n-1) down, to the bits of a word (R72). -/
def psetLanes (mask : BitVec 7) (vals : List (Nat × Nat)) (t : Train) : Nat → Train
  | 0 => t
  | n + 1 =>
    let t := if mask.getLsbD n then predPut t n (vals.map fun p => (p.1, bitOf p.2 n)) else t
    psetLanes mask vals t n

/-- R72. -/
def execPset (a : Args) (mask : BitVec 7) (s : State) : Host.Outcome State Fault Refusal :=
  issue (.pset a mask) a s fun x s =>
    let vals := x.lanes.map fun l => (l, srcNat x.train a.s1 1 l)
    advance x (modIssuer x s fun t => psetLanes mask vals t 7)

end Sys2Proof.Machine
end

