-- ==== Sys2Proof/Machine/Dispatch.lean ====
section
/-!
DEFINITION. What each instruction and each step of the device does: one arm for each constructor.
-/
namespace Sys2Proof.Machine

def exec (i : Instr) (s : State) : Host.Outcome State Fault Refusal :=
  match i with
  | .nop a => Sys2Proof.Machine.execNop a s
  | .trap a code => Sys2Proof.Machine.execTrap a code s
  | .exit a => Sys2Proof.Machine.execExit a s
  | .br a h off => Sys2Proof.Machine.execBr a h off s
  | .bri a h => Sys2Proof.Machine.execBri a h s
  | .call a off => Sys2Proof.Machine.execCall a off s
  | .calli a => Sys2Proof.Machine.execCalli a s
  | .ret a => Sys2Proof.Machine.execRet a s
  | .rte a => Sys2Proof.Machine.execRte a s
  | .rteNext a => Sys2Proof.Machine.execRteNext a s
  | .rds a d => Sys2Proof.Machine.execRds a d s
  | .wrs a d => Sys2Proof.Machine.execWrs a d s
  | .yield a => Sys2Proof.Machine.execYield a s
  | .sleep a => Sys2Proof.Machine.execSleep a s
  | .loop a h off => Sys2Proof.Machine.execLoop a h off s
  | .mov a m => Sys2Proof.Machine.execMov a m s
  | .movStream a m => Sys2Proof.Machine.execMovStream a m s
  | .li a m => Sys2Proof.Machine.execLi a m s
  | .bset a m => Sys2Proof.Machine.execBset a m s
  | .bget a => Sys2Proof.Machine.execBget a s
  | .bgetHi a => Sys2Proof.Machine.execBgetHi a s
  | .badd a m => Sys2Proof.Machine.execBadd a m s
  | .sel a m => Sys2Proof.Machine.execSel a m s
  | .pand a m => Sys2Proof.Machine.execPand a m s
  | .por a m => Sys2Proof.Machine.execPor a m s
  | .pxor a m => Sys2Proof.Machine.execPxor a m s
  | .pnot a m => Sys2Proof.Machine.execPnot a m s
  | .pget a => Sys2Proof.Machine.execPget a s
  | .pset a mask => Sys2Proof.Machine.execPset a mask s
  | .lea a m => Sys2Proof.Machine.execLea a m s
  | .bcmp a m => Sys2Proof.Machine.execBcmp a m s
  | .iadd a m => Sys2Proof.Machine.execIadd a m s
  | .isub a m => Sys2Proof.Machine.execIsub a m s
  | .imul a m => Sys2Proof.Machine.execImul a m s
  | .imulh a m => Sys2Proof.Machine.execImulh a m s
  | .imad a m => Sys2Proof.Machine.execImad a m s
  | .ineg a m => Sys2Proof.Machine.execIneg a m s
  | .iabs a m => Sys2Proof.Machine.execIabs a m s
  | .imin a m => Sys2Proof.Machine.execImin a m s
  | .imax a m => Sys2Proof.Machine.execImax a m s
  | .div a m => Sys2Proof.Machine.execDiv a m s
  | .rem a m => Sys2Proof.Machine.execRem a m s
  | .icmp a m => Sys2Proof.Machine.execIcmp a m s
  | .imulw a m => Sys2Proof.Machine.execImulw a m s
  | .iaddx a m => Sys2Proof.Machine.execIaddx a m s
  | .isubx a m => Sys2Proof.Machine.execIsubx a m s
  | .isad a m => Sys2Proof.Machine.execIsad a m s
  | .and a m => Sys2Proof.Machine.execAnd a m s
  | .or a m => Sys2Proof.Machine.execOr a m s
  | .xor a m => Sys2Proof.Machine.execXor a m s
  | .not a m => Sys2Proof.Machine.execNot a m s
  | .andn a m => Sys2Proof.Machine.execAndn a m s
  | .shl a m => Sys2Proof.Machine.execShl a m s
  | .shr a m => Sys2Proof.Machine.execShr a m s
  | .sar a m => Sys2Proof.Machine.execSar a m s
  | .rotl a m => Sys2Proof.Machine.execRotl a m s
  | .bfx a m => Sys2Proof.Machine.execBfx a m s
  | .bfi a m => Sys2Proof.Machine.execBfi a m s
  | .popc a m => Sys2Proof.Machine.execPopc a m s
  | .clz a m => Sys2Proof.Machine.execClz a m s
  | .ctz a m => Sys2Proof.Machine.execCtz a m s
  | .brev a m => Sys2Proof.Machine.execBrev a m s
  | .lop3 a table d => Sys2Proof.Machine.execLop3 a table d s
  | .fadd a m => Sys2Proof.Machine.execFadd a m s
  | .fsub a m => Sys2Proof.Machine.execFsub a m s
  | .fmul a m => Sys2Proof.Machine.execFmul a m s
  | .ffma a m => Sys2Proof.Machine.execFfma a m s
  | .fmin a m => Sys2Proof.Machine.execFmin a m s
  | .fmax a m => Sys2Proof.Machine.execFmax a m s
  | .fabs a m => Sys2Proof.Machine.execFabs a m s
  | .fneg a m => Sys2Proof.Machine.execFneg a m s
  | .fcmp a m => Sys2Proof.Machine.execFcmp a m s
  | .fclass a m => Sys2Proof.Machine.execFclass a m s
  | .fscale a m => Sys2Proof.Machine.execFscale a m s
  | .fround a m => Sys2Proof.Machine.execFround a m s
  | .frcp a m => Sys2Proof.Machine.execFrcp a m s
  | .fsqrt a m => Sys2Proof.Machine.execFsqrt a m s
  | .frsqrt a m => Sys2Proof.Machine.execFrsqrt a m s
  | .fexp2 a m => Sys2Proof.Machine.execFexp2 a m s
  | .flog2 a m => Sys2Proof.Machine.execFlog2 a m s
  | .fsin a m => Sys2Proof.Machine.execFsin a m s
  | .fcos a m => Sys2Proof.Machine.execFcos a m s
  | .ftanh a m => Sys2Proof.Machine.execFtanh a m s
  | .fdp2 a m => Sys2Proof.Machine.execFdp2 a m s
  | .fdp4 a m => Sys2Proof.Machine.execFdp4 a m s
  | .idp4 a m => Sys2Proof.Machine.execIdp4 a m s
  | .cvt a rm dt st => Sys2Proof.Machine.execCvt a rm dt st s
  | .pack a rm ov f int => Sys2Proof.Machine.execPack a rm ov f int s
  | .unpack a f int => Sys2Proof.Machine.execUnpack a f int s
  | .cbdec a hi e4m3 => Sys2Proof.Machine.execCbdec a hi e4m3 s
  | .rnd a f => Sys2Proof.Machine.execRnd a f s
  | .hadd2 a m => Sys2Proof.Machine.execHadd2 a m s
  | .hmul2 a m => Sys2Proof.Machine.execHmul2 a m s
  | .hfma2 a m => Sys2Proof.Machine.execHfma2 a m s
  | .hmax2 a m => Sys2Proof.Machine.execHmax2 a m s
  | .join a n => Sys2Proof.Machine.execJoin a n s
  | .jset a op n p => Sys2Proof.Machine.execJset a op n p s
  | .jget a n => Sys2Proof.Machine.execJget a n s
  | .split a w => Sys2Proof.Machine.execSplit a w s
  | .fuse a => Sys2Proof.Machine.execFuse a s
  | .elect a pd wr => Sys2Proof.Machine.execElect a pd wr s
  | .vote a inv pd op p => Sys2Proof.Machine.execVote a inv pd op p s
  | .perm a z d => Sys2Proof.Machine.execPerm a z d s
  | .redx a m => Sys2Proof.Machine.execRedx a m s
  | .scan a m => Sys2Proof.Machine.execScan a m s
  | .rvinit a n => Sys2Proof.Machine.execRvinit a n s
  | .arrive a n => Sys2Proof.Machine.execArrive a n s
  | .await a n => Sys2Proof.Machine.execAwait a n s
  | .arrwait a n => Sys2Proof.Machine.execArrwait a n s
  | .rgive a n => Sys2Proof.Machine.execRgive a n s
  | .rtake a n => Sys2Proof.Machine.execRtake a n s
  | .rtakeRole a r => Sys2Proof.Machine.execRtakeRole a r s
  | .glaunch a d => Sys2Proof.Machine.execGlaunch a d s
  | .tlaunch a scope => Sys2Proof.Machine.execTlaunch a scope s
  | .rvget a f n => Sys2Proof.Machine.execRvget a f n s
  | .matchLanes a d => Sys2Proof.Machine.execMatch a d s
  | .actv a which => Sys2Proof.Machine.execActv a which s
  | .ld a size sx m => Sys2Proof.Machine.execLd a size sx m s
  | .st a size m => Sys2Proof.Machine.execSt a size m s
  | .stCr a size m => Sys2Proof.Machine.execStCr a size m s
  | .atom a op m d => Sys2Proof.Machine.execAtom a op m d s
  | .cas a ps m d => Sys2Proof.Machine.execCas a ps m d s
  | .casl a m => Sys2Proof.Machine.execCasl a m s
  | .fence a scope order => Sys2Proof.Machine.execFence a scope order s
  | .pref a l2 m => Sys2Proof.Machine.execPref a l2 m s
  | .inval a => Sys2Proof.Machine.execInval a s
  | .invalAll a => Sys2Proof.Machine.execInvalAll a s
  | .crdecl a op d => Sys2Proof.Machine.execCrdecl a op d s
  | .crdrop a => Sys2Proof.Machine.execCrdrop a s
  | .cbld a d => Sys2Proof.Machine.execCbld a d s
  | .stash a => Sys2Proof.Machine.execStash a s
  | .unstash a => Sys2Proof.Machine.execUnstash a s
  | .waitm a => Sys2Proof.Machine.execWaitm a s
  | .cx a x => Sys2Proof.Machine.execCx a x s
  | .cxs a x => Sys2Proof.Machine.execCxs a x s
  | .cxt a n x => Sys2Proof.Machine.execCxt a n x s
  | .accrd a d => Sys2Proof.Machine.execAccrd a d s
  | .accwr a d => Sys2Proof.Machine.execAccwr a d s
  | .accclr a => Sys2Proof.Machine.execAccclr a s
  | .accpk a x => Sys2Proof.Machine.execAccpk a x s
  | .accmv a => Sys2Proof.Machine.execAccmv a s
  | .accup a x => Sys2Proof.Machine.execAccup a x s
  | .bcopy a m => Sys2Proof.Machine.execBcopy a m s
  | .sdef a m => Sys2Proof.Machine.execSdef a m s
  | .sfree a q => Sys2Proof.Machine.execSfree a q s
  | .sstat a q => Sys2Proof.Machine.execSstat a q s
  | .mdef a m => Sys2Proof.Machine.execMdef a m s
  | .mnext a thr => Sys2Proof.Machine.execMnext a thr s
  | .mfree a => Sys2Proof.Machine.execMfree a s
  | .qlen a q => Sys2Proof.Machine.execQlen a q s
  | .mstat a => Sys2Proof.Machine.execMstat a s
  | .sleepExpire uid train => Sys2Proof.Machine.execSleepExpire uid train s
  | .tlaunchHoldExpire uid train => Sys2Proof.Machine.execTlaunchHoldExpire uid train s
  | .contractionComplete uid job => Sys2Proof.Machine.execContractionComplete uid job s
  | .copyChunkDone uid copy chunk => Sys2Proof.Machine.execCopyChunkDone uid copy chunk s
  | .streamFetch uid train q => Sys2Proof.Machine.execStreamFetch uid train q s
  | .longLatencyFill uid train prod => Sys2Proof.Machine.execLongLatencyFill uid train prod s
  | .runSlot core pipe => Sys2Proof.Machine.execRunSlot core pipe s
  | .storePortPass uid train => Sys2Proof.Machine.execStorePortPass uid train s
  | .homeWrite req => Sys2Proof.Machine.execHomeWrite req s
  | .sharerUpdate req core => Sys2Proof.Machine.execSharerUpdate req core s
  | .storeAck req => Sys2Proof.Machine.execStoreAck req s
  | .homeRead uid train prod line => Sys2Proof.Machine.execHomeRead uid train prod line s
  | .replicaDrop line slice => Sys2Proof.Machine.execReplicaDrop line slice s
  | .l1Evict core line => Sys2Proof.Machine.execL1Evict core line s
  | .l2Evict line => Sys2Proof.Machine.execL2Evict line s
  | .translationWalk core ctx vpage => Sys2Proof.Machine.execTranslationWalk core ctx vpage s
  | .caslHome req => Sys2Proof.Machine.execCaslHome req s
  | .caslReserve req => Sys2Proof.Machine.execCaslReserve req s
  | .caslHoldExpire req => Sys2Proof.Machine.execCaslHoldExpire req s
  | .platformAccept slice n => Sys2Proof.Machine.execPlatformAccept slice n s
  | .gatherWindowClose core idx => Sys2Proof.Machine.execGatherWindowClose core idx s
  | .taskTrainPlace core idx => Sys2Proof.Machine.execTaskTrainPlace core idx s
  | .platformSteal thief victim => Sys2Proof.Machine.execPlatformSteal thief victim s
  | .launchDoorbell ctx queue => Sys2Proof.Machine.execLaunchDoorbell ctx queue s
  | .launchReady launch => Sys2Proof.Machine.execLaunchReady launch s
  | .teamPlace partition => Sys2Proof.Machine.execTeamPlace partition s
  | .teamRetire uid => Sys2Proof.Machine.execTeamRetire uid s
  | .trapEntry uid train => Sys2Proof.Machine.execTrapEntry uid train s
  | .deferredTrap uid train => Sys2Proof.Machine.execDeferredTrap uid train s
  | .preemptRequest core => Sys2Proof.Machine.execPreemptRequest core s
  | .vacate core uids => Sys2Proof.Machine.execVacate core uids s
  | .teamRestore uid core => Sys2Proof.Machine.execTeamRestore uid core s
  | .arbiterPeriod uncore full => Sys2Proof.Machine.execArbiterPeriod uncore full s
  | .monitorSample die x starts => Sys2Proof.Machine.execMonitorSample die x starts s
  | .monitorClear die off => Sys2Proof.Machine.execMonitorClear die off s
  | .powerOnReset starts => Sys2Proof.Machine.execPowerOnReset starts s
  | .hostResetRequest starts => Sys2Proof.Machine.execHostResetRequest starts s
  | .firmwareUp windows device => Sys2Proof.Machine.execFirmwareUp windows device s
  | .bootTimeout starts => Sys2Proof.Machine.execBootTimeout starts s
  | .budgetWrite w => Sys2Proof.Machine.execBudgetWrite w s
  | .pweightWrite partition w => Sys2Proof.Machine.execPweightWrite partition w s
  | .registerWrite pa size x => Sys2Proof.Machine.execRegisterWrite pa size x s
  | .createContext ctx => Sys2Proof.Machine.execCreateContext ctx s
  | .destroyContext ctx => Sys2Proof.Machine.execDestroyContext ctx s
  | .invalidateTranslation ctx => Sys2Proof.Machine.execInvalidateTranslation ctx s
  | .checkpointPhase1 ctx => Sys2Proof.Machine.execCheckpointPhase1 ctx s
  | .checkpointPhase2 ctx => Sys2Proof.Machine.execCheckpointPhase2 ctx s
  | .restore ctx => Sys2Proof.Machine.execRestore ctx s
  | .resumeTrappedTrain ctx => Sys2Proof.Machine.execResumeTrappedTrain ctx s
  | .endTeam ctx => Sys2Proof.Machine.execEndTeam ctx s
  | .commandComplete ctx => Sys2Proof.Machine.execCommandComplete ctx s
  | .flitReceive port good items => Sys2Proof.Machine.execFlitReceive port good items s
  | .linkSilenceTimeout port => Sys2Proof.Machine.execLinkSilenceTimeout port s
  | .peerRequest r => Sys2Proof.Machine.execPeerRequest r s
  | .peerTimeout tag => Sys2Proof.Machine.execPeerTimeout tag s
  | .hostWrite pa bytes => Sys2Proof.Machine.execHostWrite pa bytes s
  | .hostRead pa n => Sys2Proof.Machine.execHostRead pa n s
  | .accumulatorInstructionComplete uid job => Sys2Proof.Machine.execAccumulatorInstructionComplete uid job s
  | .crdeclCrdropDone uid train => Sys2Proof.Machine.execCrdeclCrdropDone uid train s
  | .stashTransferDone uid train => Sys2Proof.Machine.execStashTransferDone uid train s
  | .modulePowerLoss => Sys2Proof.Machine.execModulePowerLoss s
  | .memoryError place corrected => Sys2Proof.Machine.execMemoryError place corrected s
  | .hostOwnershipRecall line host => Sys2Proof.Machine.execHostOwnershipRecall line host s
  | .notificationWindowEnd ctx => Sys2Proof.Machine.execNotificationWindowEnd ctx s

end Sys2Proof.Machine
end

