-- ==== Sys2Proof/Machine/Fetch.lean ====
section
/-!
DEFINITION. Fetching a run's next instruction (R31, R32, R340, R344), and the placing of an instruction
for the next fetch.
-/
namespace Sys2Proof.Machine

/-! ## The bytes of an instruction -/

/-- The physical address of an instruction byte: the core TLB's translation, or a walk. -/
def fetchXlate (s : State) (core ctx va : Nat) : Except TrapCause Nat :=
  match tlbFind (coreOf s core).tlb ctx va with
  | some e => useLeaf s .fetch va e
  | none => devXlate s ctx .fetch va

/-- What the homes do for a fetch: of a walk's entries where the core's TLB holds none, and of the bytes. -/
def touchFetch (s : State) (core ctx va : Nat) : State :=
  if s.partials.isEmpty && s.net.isEmpty then s
  else
    let s := match tlbFind (coreOf s core).tlb ctx va with
      | some _ => s
      | none => touchLeaf s ctx va
    match fetchXlate s core ctx va with
    | .ok pa => touchLines s [pa / 128]
    | .error _ => s

/-- The bytes from an address to the end of its fetch block, which lies in one page (R31). -/
def blockBytes (s : State) (pa : Nat) : List Byte :=
  (List.range (32 - pa % 32)).map fun i => viewByte s (pa + i)

/-- The lowest byte of a unit of `n` bytes with an uncorrectable error (R337, R344): its offset. -/
def fetchErr (s : State) (pa n : Nat) : Option Nat :=
  if s.errs.isEmpty then none
  else (List.range n).find? fun i => errAt s (pa + i) != 0

/-- What a fetch comes to; a fault with the offset of its lowest failing byte. -/
inductive Fetch
  | instr (i : Instr)
  | misaligned
  | illegal
  | fault (code reason off : Nat)
  deriving DecidableEq, Repr

/-- The instruction that a fetch block's bytes hold, the error of its bytes coming first. -/
def readInstr (s : State) (pa : Nat) (bs : List Byte) : Fetch :=
  match decode bs with
  | .ok (i, rest) =>
    match fetchErr s pa (bs.length - rest.length) with
    | none => .instr i
    | some o => .fault 15 (errAt s (pa + o)) o
  | .error d =>
    match fetchErr s pa (min 8 bs.length) with
    | some o => .fault 15 (errAt s (pa + o)) o
    | none => if d = .truncated then .misaligned else .illegal

/-- Fetch at a program counter. The spec gives no order between a fault of the translation and MISALIGNED_FETCH of
a unit that cannot lie in its block (R32): the fault comes first (log entry 132). -/
def fetch (s : State) (core ctx : Nat) (pc : Addr) : Fetch :=
  match fetchXlate s core ctx pc.toNat with
  | .error e => .fault e.1 e.2 0
  | .ok pa => readInstr s pa (blockBytes s pa)

/-- The record of a trap that a fetch raises: the whole split's, with the unit's address where its bytes
could not be had or do not lie in one block (R336, R337). -/
def fetchRec (s : State) (uid tn : Nat) (t : Train) (p : Split) (code reason off : Nat) (isFetch : Bool) :
    Rec :=
  { trainRec s uid tn code reason 0 0 p.pc (if isFetch then p.pc + BitVec.ofNat 80 off else 0)
      (if isFetch then 8 else 0) p.mask t.done false false 0 with
    fetch := isFetch }

/-! ## The issue of an instruction -/

/-- The pipe issues, and begins its next instruction once its passes have begun (R124). -/
def beginIssue (s : State) (core pipe width : Nat) : State :=
  let s := { s with turn := (core, pipe) }
  setPipe s core pipe { pipeOf (coreOf s core) pipe with next := s.now + passesOf width }

/-- What the issue of a fetched instruction does. -/
def issueFetched (s : State) (r : Run) (t : Train) (p : Split) :
    Fetch → Host.Outcome State Fault Refusal
  | .instr i => exec i s
  | .misaligned => .next (takeTrap s r.uid r.train r.idx 2 [fetchRec s r.uid r.train t p 2 0 0 true])
  | .illegal => .next (takeTrap s r.uid r.train r.idx 1 [fetchRec s r.uid r.train t p 1 0 0 false])
  | .fault c q o => .next (takeTrap s r.uid r.train r.idx c [fetchRec s r.uid r.train t p c q o true])

/-- A pipe issues the next instruction of its run. -/
def issueRun (core pipe : Nat) (r : Run) (team : Team) (t : Train) (p : Split) (s : State) :
    Host.Outcome State Fault Refusal :=
  let s := touchFetch (beginIssue s core pipe t.width) core team.ctx p.pc.toNat
  issueFetched s r t p (fetch s core team.ctx p.pc)

/-- A pipe issues the next instruction of its run, if it has one, its core is not halted, and its grant
has room (R45, R345, R383). -/
def issueStep (core pipe : Nat) (s : State) : Host.Outcome State Fault Refusal :=
  match (pipeOf (coreOf s core) pipe).run with
  | none => .next s
  | some r =>
    match teamOf s r.uid, trainOf s r.uid r.train with
    | some team, some t =>
      match t.siding[r.idx]? with
      | none => .next (endRun s core pipe)
      | some p =>
        if (coreOf s core).halted || passesLeft s core pipe < passesOf t.width then .next s
        else issueRun core pipe r team t p s
    | _, _ => .next (endRun s core pipe)

/-! ## Placing an instruction for the next step (log entry 1) -/

/-- Where the placed program's tables, fault queue and instruction stand. -/
def placeTables : Nat := 0x10000
def placeCode : Nat := 0x200000

/-- An entry of a table: valid, leaf or not, all permissions. -/
def placeEntry (pa : Nat) (leaf : Bool) : Nat :=
  pa / 2 ^ 18 * 2 ^ 20 + (if leaf then 0x3B else 1)

/-- Tables that map the first 8 GiB of the context to physical memory as it stands. -/
def placeWrites : List (Nat × Byte) :=
  bytesAt placeTables (natLe 8 (placeEntry (2 ^ 18) false)) ++
    bytesAt (2 ^ 18) (natLe 8 (placeEntry (2 * 2 ^ 18) false)) ++
    bytesAt (2 * 2 ^ 18) (natLe 8 (placeEntry (3 * 2 ^ 18) false)) ++
    bytesAt (3 * 2 ^ 18) (natLe 8 (placeEntry 0 true))

/-- The context of a placed program. -/
def placeCtx (c : Ctx) : Ctx :=
  { c with
    created := true
    ptroot := BitVec.ofNat 56 placeTables
    fqbase := 0x300000
    fqsize := 7
    fqctl := 0x2FF000 }

/-- The launch of a placed program: one team of one train of 32 lanes. -/
def placeLaunch : Launch where
  ctx := 0
  prio := 0
  order := 0
  csize := 1
  determ := false
  fused := false
  grid := 0
  teams := 1
  header := BitVec.ofNat 80 (placeCode - 64)
  arg := 0
  events := 0x400000
  stash := 0x500000
  stashsz := 65536
  deps := []
  ready := true
  placed := 1
  retired := 0
  lanes := 32
  width := 32
  regs := 256
  roles := [256]
  scrSize := 65536
  split := 4

/-- The team and its train, named `uid`, on core 0. -/
def placedTeam (uid now : Nat) : Team :=
  { newTeam placeLaunch uid 0 0 0 0 with
    launch := none
    trains := [(0, newTrain 32 256 0 (List.range 32) (lowMask 32) (BitVec.ofNat 80 placeCode) 0 0 uid
      now)] }

/-- The core that runs it. -/
def placeCore (uid now : Nat) (c : Core) : Core :=
  { c with
    halted := false
    grant := 64
    pipes := mapPut c.pipes 0 ⟨some ⟨uid, 0, 0, 0⟩, now / 64, 0, now⟩ }

/-- A state in which the next step fetches and runs the given bytes. -/
def placeBytes (s : State) (bs : List Byte) : State :=
  let uid := s.nextId
  let s := homePuts s (placeWrites ++ bytesAt placeCode bs)
  let s := setTeam { s with nextId := uid + 1, errs := [], partials := [] } uid (placedTeam uid s.now)
  let s := modCore (modCtx s 0 placeCtx) 0 (placeCore uid s.now)
  { s with
    boot := { s.boot with mode := 1, stage := 6 }
    agenda := .issue 0 0 :: s.agenda }

end Sys2Proof.Machine
end

