-- ==== Sys2Proof/Machine/Sched.lean ====
section
/-!
DEFINITION. What follows every action of the device at once, the readiness of its trains with it (R137); and the
default schedule (log entry 5): where no agenda says what comes next, the first step of the device that is due
and changes something; else the issue of a pipe; else a cycle passes.
-/
namespace Sys2Proof.Machine

/-! ## Readiness (R137, R140) -/

/-- The state after a train has issued its next instruction from a split, as a trial that leaves no trace. -/
def trial (s : State) (uid tn idx : Nat) : Option State :=
  match teamOf s uid, trainOf s uid tn with
  | some team, some t =>
    let core := coreOfTeam team
    let s := beginRun { s with pick := [] } core t.pipe uid tn idx
    match (t.siding[idx]?), issueRun core t.pipe ⟨uid, tn, idx, 0⟩ team t
        ((t.siding[idx]?).getD ⟨0, 0, .ready, false, .none, false⟩) s with
    | some _, .next u => some u
    | _, _ => none
  | _, _ => none

/-- A wait whose beginning is an effect of its instruction: time, a walk, a probe, or a partner counts on it. -/
def begins : Wait → Bool
  | .sleep _ | .siding _ | .partner | .word .. | .walk _ | .probe _ => true
  | _ => false

/-- A trial has done nothing but wait: the train stands where it stood, its instruction not issued. -/
def onlyWaits (a b : Train) (p q : Split) : Bool :=
  b.seq == a.seq && b.pend == a.pend && b.handler == a.handler && b.trapped == a.trapped &&
    b.siding.length == a.siding.length && q.pc == p.pc && q.mask == p.mask && q.resume == p.resume &&
    match q.st with
    | .waiting w => !begins w
    | _ => false

/-- The next instruction of a split can issue without waiting. One that only begins to hold its train is tried
once more. -/
def issues : Nat → State → Nat → Nat → Nat → Bool
  | 0, _, _, _, _ => true
  | n + 1, s, uid, tn, idx =>
    match trial s uid tn idx with
    | none => true
    | some u =>
      match trainOf s uid tn, trainOf u uid tn with
      | some a, some b =>
        match a.siding[idx]?, b.siding[idx]? with
        | some p, some q =>
          if p.resume = .none && q.resume = .begun && q.st = .ready && q.pc = p.pc then issues n u uid tn idx
          else !onlyWaits a b p q
        | _, _ => true
      | _, _ => true

/-- A run of the train is in progress. -/
def runningOn (s : State) (core uid tn : Nat) (t : Train) : Bool :=
  match (pipeOf (coreOf s core) t.pipe).run with
  | some r => r.uid == uid && r.train == tn
  | none => false

/-- The split from which a train would issue its next run, where it is ready: the first whose next instruction
can issue without waiting (R137, R140). A train in a run becomes ready anew after it. -/
def nextSplit (s : State) (uid tn : Nat) (team : Team) (t : Train) : Option Nat :=
  if runningOn s (coreOfTeam team) uid tn t then none
  else (runnable s uid tn team t).find? (issues 2 s uid tn)

/-- What follows every action: the trains that wait look at what they wait for, and claims that no pool can
serve are found; then it is seen which trains are ready. -/
def settleStep (s : State) : State :=
  let s := watchJobs (watchLoads (watchClaims s.teams s))
  let s := mapResident s (watchTrain s)
  mapResident s fun uid tn team t => watchReady s.now (nextSplit s uid tn team t) t

/-! ## The default schedule -/

/-- A step of the device, when taken now, changes the state. -/
def changes (s : State) (i : Instr) : Bool :=
  match exec i s with
  | .next t => decide (t ≠ s)
  | _ => false

/-- Walks for which splits of a train wait. -/
def walkEvents (core ctx : Nat) (t : Train) : List Instr :=
  t.siding.flatMap fun p => match p.st with
    | .waiting (.walk ps) => ps.map (.translationWalk core ctx)
    | _ => []

/-- Steps of a producer that is due. -/
def prodEvents (now uid tn : Nat) (e : Nat × Producer) : List Instr :=
  if now < e.2.due then []
  else
    ((e.2.parts.filter partOpen).filterMap partLine).map (.homeRead uid tn e.1) ++
      [.longLatencyFill uid tn e.1]

/-- Steps of a train. -/
def trainEvents (s : State) (uid : Nat) (team : Team) (e : Nat × Train) : List Instr :=
  let (tn, t) := e
  [.trapEntry uid tn, .deferredTrap uid tn, .storePortPass uid tn, .sleepExpire uid tn,
      .tlaunchHoldExpire uid tn, .crdeclCrdropDone uid tn, .stashTransferDone uid tn] ++
    walkEvents (coreOfTeam team) team.ctx t ++
    (t.prods.flatMap (prodEvents s.now uid tn)) ++
    t.streams.map fun q => .streamFetch uid tn q.1

/-- Steps of a copy that is due: its lowest chunk left. -/
def copyEvents (now uid : Nat) (e : Nat × Copy) : List Instr :=
  if now < e.2.due then []
  else match e.2.left with
    | [] => []
    | k :: _ => [.copyChunkDone uid e.1 k]

def jobEvents (s : State) (uid : Nat) (team : Team) (e : Nat × Job) : List Instr :=
  if !jobTimed s team e.2 then []
  else if isContract e.2.kind then [.contractionComplete uid e.1]
  else [.accumulatorInstructionComplete uid e.1]

/-- Cores on which a saved team may be restored; one whose trains have all halted stays. -/
def restoreEvents (s : State) (uid : Nat) (t : Team) : List Instr :=
  match t.loc with
  | .saved _ _ =>
    if !(liveTrains t).isEmpty && (liveTrains t).all (·.2.trapped) then []
    else (ctxCores s t.ctx).map (.teamRestore uid)
  | _ => []

/-- Steps of a team. -/
def teamEvents (s : State) (e : Nat × Team) : List Instr :=
  (e.2.trains.flatMap (trainEvents s e.1 e.2)) ++
    (e.2.copies.flatMap (copyEvents s.now e.1)) ++
    (e.2.jobs.flatMap (jobEvents s e.1 e.2)) ++
    restoreEvents s e.1 e.2 ++ [.teamRetire e.1]

/-- Steps of a request that is due. -/
def reqEvents (now : Nat) (e : Nat × Req) : List Instr :=
  if now < e.2.due then []
  else match e.2.stage with
    | .toHome => [if isCasl e.2 then .caslHome e.1 else .homeWrite e.1]
    | .updating [] => [.storeAck e.1]
    | .updating left => left.map (.sharerUpdate e.1)
    | .holding _ => [.caslReserve e.1, .caslHoldExpire e.1]
    | .atPeer _ => [.peerTimeout e.1]

def acceptEvents (slice : Nat) (q : List LqEntry) : List Instr :=
  (List.range q.length).map (.platformAccept slice)

/-- Steps of a core: its Platform, its pre-emption, its run slots. -/
def coreEvents (s : State) (e : Nat × Core) : List Instr :=
  let (n, c) := e
  ((List.range c.forming.length).map (.gatherWindowClose n)) ++
    ((List.range c.departed.length).map (.taskTrainPlace n)) ++
    (if c.departed.isEmpty then [] else (List.range 256).map fun k => .platformSteal k n) ++
    (if c.halted then [.vacate n c.vacating]
      else if c.vacating.isEmpty then [] else [.preemptRequest n]) ++
    (([0, 1, 2, 3] : List Nat).filter fun p => decide ((pipeOf c p).next ≤ s.now)).map (.runSlot n)

/-- The step of a command under way. -/
def commandEvents (ctx : Nat) (c : Ctx) : List Instr :=
  if c.outcome ≠ 0 then [.commandComplete ctx]
  else match c.command.toNat with
    | 1 => [.createContext ctx]
    | 2 => [.destroyContext ctx]
    | 3 => [.invalidateTranslation ctx]
    | 4 => [.checkpointPhase1 ctx]
    | 5 => [.checkpointPhase2 ctx]
    | 6 => [.restore ctx]
    | 7 => [.resumeTrappedTrain ctx]
    | 8 => [.endTeam ctx]
    | _ => []

/-- Steps of a context. -/
def ctxEvents (e : Nat × Ctx) : List Instr :=
  commandEvents e.1 e.2 ++ e.2.bells.map (fun b => .launchDoorbell e.1 b.1) ++
    acceptEvents (256 + e.1) e.2.unloaded ++ [.notificationWindowEnd e.1]

/-- The steps that may be due, in the order in which the default schedule looks at them. -/
def dueEvents (s : State) : List Instr :=
  (if s.period ≤ s.now then [.arbiterPeriod 0 []] else []) ++
    s.ctxs.flatMap ctxEvents ++
    (s.net.flatMap (reqEvents s.now)) ++
    s.teams.flatMap (teamEvents s) ++
    (s.peerLoads.map fun l => .peerTimeout l.1) ++
    (s.probes.map fun l => .peerTimeout l.1) ++
    (s.slices.flatMap fun q => acceptEvents q.1 q.2.queue) ++
    (s.launches.map fun l => .launchReady l.1) ++
    ((List.range 16).map .teamPlace) ++
    s.cores.flatMap (coreEvents s) ++
    (List.range 16).map .linkSilenceTimeout

/-- A pipe of a core can issue now. -/
def canIssue (s : State) (core pipe : Nat) : Bool :=
  let p := pipeOf (coreOf s core) pipe
  match p.run with
  | none => false
  | some r =>
    let w := match trainOf s r.uid r.train with
      | some t => t.width
      | none => 4
    !(coreOf s core).halted && decide (p.next ≤ s.now) && decide (passesOf w ≤ passesLeft s core pipe)

/-- The pipes that can issue, by core and pipe. -/
def issuers (s : State) : List (Nat × Nat) :=
  s.cores.flatMap fun c => (([0, 1, 2, 3] : List Nat).filter (canIssue s c.1)).map fun p => (c.1, p)

/-- What comes next where no agenda says so. -/
def defaultAction (s : State) : Action :=
  match (dueEvents s).find? (changes s) with
  | some e => .ev e
  | none => match issuers s with
    | (c, p) :: _ => .issue c p
    | [] => .tick 1

end Sys2Proof.Machine
end

