-- ==== Sys2Proof/Machine/Step.lean ====
section
/-!
DEFINITION. One step of the device: what stands first in the agenda, else what the default schedule
chooses (log entry 5).
-/
namespace Sys2Proof.Machine

/-- What an action comes to, with what follows it at once. -/
def settled (o : Host.Outcome State Fault Refusal) : Host.Outcome State Fault Refusal :=
  match o with
  | .next s => .next (settleStep { s with pick := [] })
  | o => o

/-- One action. An instruction stands in memory and is issued by a pipe; as an action of its own it is
no step of the device, and changes nothing. -/
def act (s : State) : Action → Host.Outcome State Fault Refusal
  | .issue core pipe => settled (issueStep core pipe s)
  | .ev i => if (argsOf i).isNone then settled (exec i s) else .next s
  | .tick n => .next (settleStep (passTime n s))
  | .pick ps => .next { s with pick := ps }

/-- One step. -/
def step (s : State) : Host.Outcome State Fault Refusal :=
  match s.agenda with
  | a :: rest => act { s with agenda := rest } a
  | [] => act s (defaultAction s)

/-- `s` with the instruction of bits `w` where the next step fetches (log entry 1): a context, its page
tables, a team of one train on core 0 with a run in progress, and the pipe's issue next in the agenda. -/
def State.withFetchWord (s : State) (nbits w : Nat) : State :=
  placeBytes s (natLe 24 (w % 2 ^ nbits))

end Sys2Proof.Machine
end

