-- ==== Sys2Proof/Safety.lean ====
section
/-!
DEFINITION. What counts as a safe run of the machine, and the words in which claims about it are
stated: when an instruction issues, what it has written, and what it has left alone.
-/
namespace Sys2Proof.Machine

/-- An outcome is a next state. -/
def completes (r : Host.Outcome State Fault Refusal) : Bool :=
  match r with
  | .next _ => true
  | _ => false

/-- `k` steps from `s` all answer a next state. -/
def safeRun : Nat → State → Bool
  | 0, _ => true
  | k + 1, s =>
    match step s with
    | .next t => safeRun k t
    | _ => false

/-- The invariant of the device: stored memory keeps its canonical form. -/
abbrev Inv (s : State) : Prop := Memory.wf s.mem = true

/-! ## When an instruction issues -/

/-- An instruction stands until its data come, and does no more than end when they have (R27, R344). -/
def awaitsData : Resume → Bool
  | .data _ _ => true
  | .dataDone _ _ => true
  | _ => false

/-- Instruction `i` issues at `x` and passes every check that comes before its own effect: its place in
a fetch block (R31), its encoding and budget (R32, R13), an enabled lane (R11), room in the store queue
(R234), full v sources and a comparand that hold no error (R29, R344), and a full v destination; it does
not stand for data already on their way. -/
abbrev Issues (i : Instr) (a : Args) (s : State) (x : Site) : Prop :=
  siteOf s i a = some x ∧
  awaitsData x.split.resume = false ∧
  x.pc.toNat % 32 + x.len ≤ 32 ∧
  wellFormed i = true ∧
  inBudget x.train i a = true ∧
  x.lanes ≠ [] ∧
  (takesEntry i = true → x.train.sq.length < 16) ∧
  (∀ e ∈ vSources x.train i a, groupEmpty x.train e.2.1 e.2.2.1 = false) ∧
  regError s x i a = false ∧
  (∀ d ∈ (vDest i a).toList, groupEmpty x.train d.1 d.2 = false ∨ x.split.resume = .popping)

/-! ## What an instruction has written -/

/-- A destination of `n` registers holds `val`: lane by lane in a v register, and the lowest enabled
lane's value in a k or base register (R15). -/
def Wrote (u : Train) (d : Opnd) (n : Nat) (lanes : List Nat) (val : Nat → Nat) : Prop :=
  match d with
  | .v r _ _ => ∀ l ∈ lanes, vGroup u r.toNat l n = val l % 2 ^ (32 * n)
  | .k r => kGroup u r.toNat n = val (headLane lanes) % 2 ^ (32 * n)
  | .b r => bGet u r.toNat = BitVec.ofNat 80 (val (headLane lanes))
  | _ => True

/-- A function of the lane and the three sources, at a lane of the issuing train. -/
def onSources {α : Type} (i : Instr) (a : Args) (x : Site) (f : Nat → Nat → Nat → Nat → α) (l : Nat) :
    α :=
  f l (srcNat x.train a.s1 (sigOf i).s1.n l) (srcNat x.train a.s2 (sigOf i).s2.n l)
    (srcNat x.train a.s3 (sigOf i).s3.n l)

/-- Flags ORed over lanes (R18). -/
def orLanes (lanes : List Nat) (f : Nat → FlagSet) : FlagSet :=
  lanes.foldr (fun l acc => f l ||| acc) 0

/-- The split that issued stands ready at `pc`, the instruction counted; the other splits stay. -/
def GoesOn (x : Site) (u : Train) (pc : Addr) : Prop :=
  u.seq = x.train.seq + 1 ∧
  u.siding.length = x.train.siding.length ∧
  u.siding[x.idx]? =
    some { x.split with pc := pc, st := .ready, replay := false, resume := .none } ∧
  ∀ j, j ≠ x.idx → u.siding[j]? = x.train.siding[j]?

/-- As `GoesOn`, with the producer `id` outstanding: with a v destination the split goes on; with another
it stands at the instruction until the fill, and then goes on in the next run (R27, R46). -/
def GoesOnWith (x : Site) (u : Train) (d : Opnd) (id : Nat) : Prop :=
  u.seq = x.train.seq + 1 ∧
  u.siding.length = x.train.siding.length ∧
  u.siding[x.idx]? = some (if d.isV then
      { x.split with pc := nextPc x, st := .ready, replay := false, resume := .none }
    else { x.split with st := .waiting (.data id), resume := .data id [] }) ∧
  ∀ j, j ≠ x.idx → u.siding[j]? = x.train.siding[j]?

/-- The instruction waits: its split is ready again when what it waits for holds, with `r` kept, and it
has had no other effect; the run has ended (R46). -/
def Waits (x : Site) (t : State) (u : Train) (w : Wait) (r : Resume) : Prop :=
  u.seq = x.train.seq ∧
  u.siding.length = x.train.siding.length ∧
  u.siding[x.idx]? = some { x.split with st := .waiting w, resume := r } ∧
  (∀ j, j ≠ x.idx → u.siding[j]? = x.train.siding[j]?) ∧
  (pipeOf (coreOf t x.core) x.pipe).run = none

/-! ## What an instruction has left alone -/

/-- v register `r` of lane `l` belongs to a destination. -/
def inDestV (d : Opnd) (n : Nat) (lanes : List Nat) (r l : Nat) : Prop :=
  match d with
  | .v q _ _ => q.toNat ≤ r ∧ r < q.toNat + n ∧ l ∈ lanes
  | _ => False

/-- k register `r` belongs to a destination. -/
def inDestK (d : Opnd) (n r : Nat) : Prop :=
  match d with
  | .k q => q.toNat ≤ r ∧ r < q.toNat + n
  | _ => False

/-- Base register `r` is a destination. -/
def inDestB (d : Opnd) (r : Nat) : Prop :=
  match d with
  | .b q => r = q.toNat
  | _ => False

/-- Every register of a train outside a destination is unchanged. -/
def KeepsRegs (t u : Train) (d : Opnd) (n : Nat) (lanes : List Nat) : Prop :=
  (∀ r l, l < 64 → ¬ inDestV d n lanes r l → vGet u r l = vGet t r l) ∧
  (∀ r, ¬ inDestK d n r → kGet u r = kGet t r) ∧
  (∀ r, ¬ inDestB d r → bGet u r = bGet t r)

/-- Every predicate of a train but `pd` in the given lanes is unchanged. -/
def KeepsPreds (t u : Train) (pd : Nat) (lanes : List Nat) : Prop :=
  ∀ q l, l < 64 → ¬ (q = pd ∧ l ∈ lanes) → pGet u q l = pGet t q l

/-- Nothing of a train but its v, k, base and predicate registers, its flags, and what counts its
instructions and its turns of the pipe, has changed. -/
def KeepsTrain (t u : Train) : Prop :=
  u = { t with
    v := u.v
    k := u.k
    b := u.b
    p := u.p
    flags := u.flags
    seq := u.seq
    since := u.since
    passed := u.passed
    siding := u.siding }

/-- Nothing of the device has changed but the issuing train, the issuing pipe's counts and run, and the
errors of registers that were written anew (R344): no byte of memory, scratchpad or accumulator, no
other train, team, core, context or queue. -/
def OnlyTrain (x : Site) (s t : State) : Prop :=
  t = { s with teams := t.teams, cores := t.cores, errs := t.errs } ∧
  (∀ e, e ∈ t.errs → e ∈ s.errs) ∧
  (∀ u, u ≠ x.uid → teamOf t u = teamOf s u) ∧
  (∃ m, teamOf t x.uid = some m ∧ m = { x.team with trains := m.trains }) ∧
  (∀ k, k ≠ x.tn → trainOf t x.uid k = trainOf s x.uid k) ∧
  (∀ c, coreOf t c = { coreOf s c with pipes := (coreOf t c).pipes }) ∧
  (∀ c p, ¬ (c = x.core ∧ p = x.pipe) → pipeOf (coreOf t c) p = pipeOf (coreOf s c) p) ∧
  ∀ pa, viewByte t pa = viewByte s pa

/-- Nothing of the device has changed but the issuing team, the issuing pipe's counts and run, the next
name, and the errors of registers that were written anew: no byte of memory, no other team or core. -/
def OnlyTeam (x : Site) (s t : State) : Prop :=
  t = { s with teams := t.teams, cores := t.cores, errs := t.errs, nextId := t.nextId } ∧
  (∀ u, u ≠ x.uid → teamOf t u = teamOf s u) ∧
  (∀ c, coreOf t c = { coreOf s c with pipes := (coreOf t c).pipes }) ∧
  (∀ c p, ¬ (c = x.core ∧ p = x.pipe) → pipeOf (coreOf t c) p = pipeOf (coreOf s c) p) ∧
  ∀ pa, viewByte t pa = viewByte s pa

/-- Of a train, only its counts and its splits have changed. -/
def KeepsAll (t u : Train) : Prop :=
  u = { t with seq := u.seq, siding := u.siding, since := u.since, passed := u.passed }

/-! ## Whole effects -/

/-- Instruction `i` answers a next state in which its destination of `n` registers holds `val`, the
flags `fl` have been ORed into `%flags`, the split goes on at `pc`, and nothing else has changed. -/
def WritesTo (i : Instr) (a : Args) (s : State) (x : Site) (n : Nat) (val : Nat → Nat) (fl : FlagSet)
    (pc : Addr) : Prop :=
  ∃ t u, exec i s = .next t ∧ trainOf t x.uid x.tn = some u ∧
    Wrote u a.dst n x.lanes val ∧ u.flags = x.train.flags ||| fl ∧ GoesOn x u pc ∧
    KeepsRegs x.train u a.dst n x.lanes ∧ (∀ q l, pGet u q l = pGet x.train q l) ∧
    KeepsTrain x.train u ∧ OnlyTrain x s t

/-- As `WritesTo`, the split going on after the instruction. -/
def Writes (i : Instr) (a : Args) (s : State) (x : Site) (n : Nat) (val : Nat → Nat) (fl : FlagSet) :
    Prop := WritesTo i a s x n val fl (nextPc x)

/-- Instruction `i` answers a next state in which predicate `pd` holds `f` in each enabled lane (a write
to p7 is discarded, R12), the flags `fl` have been ORed, the split goes on after it, and nothing else
has changed. -/
def WritesPred (i : Instr) (s : State) (x : Site) (pd : Nat) (f : Nat → Bool) (fl : FlagSet) : Prop :=
  ∃ t u, exec i s = .next t ∧ trainOf t x.uid x.tn = some u ∧
    (pd ≠ 7 → ∀ l ∈ x.lanes, pGet u pd l = f l) ∧ u.flags = x.train.flags ||| fl ∧
    GoesOn x u (nextPc x) ∧ KeepsPreds x.train u pd x.lanes ∧ u.v = x.train.v ∧ u.k = x.train.k ∧
    u.b = x.train.b ∧ KeepsTrain x.train u ∧ OnlyTrain x s t

/-- Instruction `i` answers a next state in which a producer for its destination is outstanding (R24),
that will write `val` in the written lanes and OR `fl` no earlier than cycle `due`: a v destination of
`n` registers is empty and the split goes on; for a k destination it stands at the instruction until the
fill (R27). Nothing else has changed. -/
def Launches (i : Instr) (a : Args) (s : State) (x : Site) (n : Nat) (val : Nat → Nat) (fl : FlagSet)
    (due : Nat) : Prop :=
  ∃ t u p, exec i s = .next t ∧ trainOf t x.uid x.tn = some u ∧
    t.nextId = s.nextId + 1 ∧ mapGet u.prods s.nextId = some p ∧
    p.kind = .alu ∧ p.dst = dstOf a.dst n ∧ p.lanes = maskOf (writtenLanes x a.dst) ∧
    (∀ l ∈ writtenLanes x a.dst, mapGet p.vals l = some (BitVec.ofNat 128 (val l))) ∧
    p.flags = fl ∧ p.due = due ∧ p.bad = [] ∧
    (∀ k, k ≠ s.nextId → mapGet u.prods k = mapGet x.train.prods k) ∧
    (∀ r, r ∈ u.empty ↔ r ∈ x.train.empty ∨ inDestV a.dst n [0] r 0) ∧
    GoesOnWith x u a.dst s.nextId ∧
    u = { x.train with
      prods := u.prods
      empty := u.empty
      seq := x.train.seq + 1
      since := u.since
      passed := u.passed
      siding := u.siding } ∧
    OnlyTrain x { s with nextId := s.nextId + 1 } t

end Sys2Proof.Machine
end

