-- ==== Sys2Proof/Certificates/Slice0/Obligations.lean ====
section
/-!
DEFINITION. The statements for the provers, and the tables of what the rules say of values, each
written apart from the meanings it speaks of.
-/
namespace Sys2Proof.Machine

/-! ## Integers as the rules read and write them (R57, R58) -/

/-- A `w`-bit operand as an exact integer. -/
def operandInt (w : Nat) (u : Bool) (x : Nat) : Int :=
  if u then (BitVec.ofNat w x).toNat else (BitVec.ofNat w x).toInt

/-- The low `w` bits of an exact integer. -/
def lowBits (w : Nat) (v : Int) : Nat := (BitVec.ofInt w v).toNat

/-- An exact integer held to the range of `w` bits. -/
def heldTo (w : Nat) (u : Bool) (v : Int) : Int :=
  if u then max 0 (min (2 ^ w - 1) v) else max (-2 ^ (w - 1)) (min (2 ^ (w - 1) - 1) v)

/-- The number whose bit `i` is `f i`, for the low `n` bits. -/
def numOfBits (f : Nat → Bool) : Nat → Nat
  | 0 => 0
  | n + 1 => numOfBits f n + if f n then 2 ^ n else 0

/-- The integer instructions of R59: the operands' width and signedness, whether the result is held to
the range, the result's width, and the exact result. -/
def exactInt : Instr → Option (Args × (Nat × Bool) × Bool × Nat × (Int → Int → Int → Int))
  | .iadd a m => some (a, (opWidth m.d, m.u), m.s, opWidth m.d, fun x y _ => x + y)
  | .isub a m => some (a, (opWidth m.d, m.u), m.s, opWidth m.d, fun x y _ => x - y)
  | .imul a m => some (a, (opWidth m.d, m.u), m.s, opWidth m.d, fun x y _ => x * y)
  | .imulh a m => some (a, (opWidth m.d, m.u), m.s, opWidth m.d, fun x y _ => (x * y).fdiv (2 ^ opWidth m.d))
  | .imad a m => some (a, (opWidth m.d, m.u), m.s, opWidth m.d, fun x y z => x * y + z)
  | .ineg a m => some (a, (opWidth m.d, m.u), m.s, opWidth m.d, fun x _ _ => -x)
  | .iabs a m => some (a, (opWidth m.d, m.u), m.s, opWidth m.d, fun x _ _ => max x (-x))
  | .imin a m => some (a, (opWidth m.d, m.u), m.s, opWidth m.d, fun x y _ => if x ≤ y then x else y)
  | .imax a m => some (a, (opWidth m.d, m.u), m.s, opWidth m.d, fun x y _ => if x ≤ y then y else x)
  | .imulw a m => some (a, (32, m.u), false, 64, fun x y _ => x * y)
  | .isad a m => some (a, (32, m.u), false, 32, fun x y z => max (x - y) (y - x) + z)
  | _ => none

/-- The bitwise instructions, shifts and bit fields of R63 to R66: the width, and bit `i` of the
result of x, y and z. -/
def bitRule : Instr → Option (Args × Nat × (Nat → Nat → Nat → Nat → Bool))
  | .and a m => some (a, opWidth m.d, fun x y _ i => x.testBit i && y.testBit i)
  | .or a m => some (a, opWidth m.d, fun x y _ i => x.testBit i || y.testBit i)
  | .xor a m => some (a, opWidth m.d, fun x y _ i => x.testBit i != y.testBit i)
  | .not a m => some (a, opWidth m.d, fun x _ _ i => !x.testBit i)
  | .andn a m => some (a, opWidth m.d, fun x y _ i => x.testBit i && !y.testBit i)
  | .brev a m => some (a, opWidth m.d, fun x _ _ i => x.testBit (opWidth m.d - 1 - i))
  | .shl a m => some (a, opWidth m.d, fun x y _ i => y % 256 ≤ i && x.testBit (i - y % 256))
  | .shr a m => some (a, opWidth m.d, fun x y _ i =>
      i + y % 256 < opWidth m.d && x.testBit (i + y % 256))
  | .sar a m => some (a, opWidth m.d, fun x y _ i => x.testBit (min (i + y % 256) (opWidth m.d - 1)))
  | .rotl a m => some (a, opWidth m.d, fun x y _ i =>
      x.testBit ((i + opWidth m.d - y % 256 % opWidth m.d) % opWidth m.d))
  | .bfx a m => some (a, opWidth m.d, fun x y _ i =>
      let pos := y % 256
      let len := min (y / 256 % 256) (opWidth m.d)
      let bit (j : Nat) : Bool := j + pos < opWidth m.d && x.testBit (j + pos)
      if i < len then bit i else !m.u && 0 < len && bit (len - 1))
  | .bfi a m => some (a, opWidth m.d, fun x y z i =>
      let pos := z % 256
      let len := z / 256 % 256
      if pos ≤ i ∧ i < pos + len then y.testBit (i - pos) else x.testBit i)
  | .lop3 a table d => some (a, opWidth d, fun x y z i =>
      table.getLsbD (4 * (x.testBit i).toNat + 2 * (y.testBit i).toNat + (z.testBit i).toNat))
  | _ => none

/-- The bit counts of R63: the width, and what says that `n` is the count of x. -/
def countRule : Instr → Option (Args × Nat × (Nat → Nat → Prop))
  | .popc a m => some (a, opWidth m.d, fun x n => n = ((List.range (opWidth m.d)).filter x.testBit).length)
  | .clz a m => some (a, opWidth m.d, fun x n => n ≤ opWidth m.d ∧
      (∀ i, i < n → x.testBit (opWidth m.d - 1 - i) = false) ∧
      (n < opWidth m.d → x.testBit (opWidth m.d - 1 - n) = true))
  | .ctz a m => some (a, opWidth m.d, fun x n => n ≤ opWidth m.d ∧
      (∀ i, i < n → x.testBit i = false) ∧ (n < opWidth m.d → x.testBit n = true))
  | _ => none

/-- The conditions of R62. -/
def meets (c : BitVec 3) (x y : Int) : Bool :=
  match c.toNat with
  | 0 => x = y
  | 1 => ¬ x = y
  | 2 => x < y
  | 3 => x ≤ y
  | 4 => x > y
  | _ => x ≥ y

/-- What the instructions that write one predicate give in a lane, and which predicate: the integer and
base comparisons (R62, R70), predicate logic (R71), and the votes of R168. -/
def predRule (x : Site) : Instr → Option (Args × BitVec 3 × (Nat → Bool))
  | .icmp a m => some (a, m.px, fun l =>
      meets m.py (operandInt (opWidth m.d) m.u (srcNat x.train a.s1 (wide m.d) l))
        (operandInt (opWidth m.d) m.u (srcNat x.train a.s2 (wide m.d) l)))
  | .bcmp a m => some (a, m.px, fun l => meets m.py (srcNat x.train a.s1 1 l) (srcNat x.train a.s2 1 l))
  | .pand a m => some (a, m.pd, fun l =>
      pGet x.train m.pa.toNat l && Bool.xor (pGet x.train m.pb.toNat l) m.inv)
  | .por a m => some (a, m.pd, fun l =>
      pGet x.train m.pa.toNat l || Bool.xor (pGet x.train m.pb.toNat l) m.inv)
  | .pxor a m => some (a, m.pd, fun l =>
      Bool.xor (pGet x.train m.pa.toNat l) (Bool.xor (pGet x.train m.pb.toNat l) m.inv))
  | .pnot a m => some (a, m.pd, fun l => !pGet x.train m.pa.toNat l)
  | .vote a inv pd op p =>
    let q (l : Nat) : Bool := Bool.xor (pGet x.train p.toNat l) inv
    match op.toNat with
    | 0 => some (a, pd, fun _ => ∃ l ∈ x.lanes, q l = true)
    | 1 => some (a, pd, fun _ => ∀ l ∈ x.lanes, q l = true)
    | 2 => some (a, pd, fun _ => ∀ l ∈ x.lanes, ∀ k ∈ x.lanes, q l = q k)
    | _ => none
  | _ => none

/-! ## Floats as the rules read and write them (R102 to R118) -/

/-- The FP32 operand of a lane (R103). -/
def floatAt (t : Train) (a : Args) (o : Opnd) (l : Nat) : Num := decodeFloat 0 (srcFloat t a.form o 0 l)

/-- The random bits of a lane, 0 but under `.sr` (R105). -/
def rAt (t : Train) (o : Opnd) (rm : BitVec 3) (l : Nat) : Nat := if rm = 4 then srcNat t o 1 l else 0

/-- The operations on numbers of one format: FP32 (R106 to R108, R111) with `ov` 1. -/
def fp32Rule (t : Train) : Instr → Option (Args × (Nat → Nat × FlagSet))
  | .fadd a m => some (a, fun l =>
      let xs := [floatAt t a a.s1 l, floatAt t a a.s2 l]
      sumRound 0 m.py.toNat (rAt t a.s3 m.py l) true xs xs)
  | .fsub a m => some (a, fun l =>
      let x := floatAt t a a.s1 l
      let y := floatAt t a a.s2 l
      sumRound 0 m.py.toNat (rAt t a.s3 m.py l) true [x, y] [x, negNum y])
  | .fmul a m => some (a, fun l =>
      mulRound 0 m.py.toNat (rAt t a.s3 m.py l) true (floatAt t a a.s1 l) (floatAt t a a.s2 l))
  | .ffma a m => some (a, fun l =>
      let x := floatAt t a a.s1 l
      let y := floatAt t a a.s2 l
      let z := floatAt t a a.s3 l
      sumRound 0 m.py.toNat 0 true [x, y, z] [mulNum x y, z])
  | .fscale a m => some (a, fun l =>
      fscaleOf m.py.toNat (rAt t a.s3 m.py l) (floatAt t a a.s1 l)
        (operandInt 32 false (srcNat t a.s2 1 l)))
  | .fround a m => some (a, fun l =>
      froundOf m.py.toNat (rAt t a.s2 m.py l) (floatAt t a a.s1 l))
  | .fmin a _ => some (a, fun l =>
      minMaxCode 0 false (srcFloat t a.form a.s1 0 l) (srcFloat t a.form a.s2 0 l))
  | .fmax a _ => some (a, fun l =>
      minMaxCode 0 true (srcFloat t a.form a.s1 0 l) (srcFloat t a.form a.s2 0 l))
  | .fabs a _ => some (a, fun l =>
      let c := srcFloat t a.form a.s1 0 l
      if isNan (decodeFloat 0 c) then (0x7FC00000, if isSnan (decodeFloat 0 c) then fInvalid else 0)
      else (numOfBits (fun i => i < 31 && c.testBit i) 32, 0))
  | .fneg a _ => some (a, fun l =>
      let c := srcFloat t a.form a.s1 0 l
      if isNan (decodeFloat 0 c) then (0x7FC00000, if isSnan (decodeFloat 0 c) then fInvalid else 0)
      else (numOfBits (fun i => if i < 31 then c.testBit i else !c.testBit i) 32, 0))
  | .fclass a _ => some (a, fun l => (fclassOf (srcNat t a.s1 1 l), 0))
  | _ => none

/-- The class bits of R109. -/
def classBit : Num → Bool → Nat
  | .nan false, _ => 9
  | .nan true, _ => 8
  | .inf false, _ => 7
  | .fin false m _, normal => if m = 0 then 4 else if normal then 6 else 5
  | .fin true m _, normal => if m = 0 then 3 else if normal then 1 else 2
  | .inf true, _ => 0

/-- The value of a finite number (R85). -/
def valueOf : Num → ℚ
  | .fin s m e => (if s then -1 else 1) * m * (2 : ℚ) ^ e
  | _ => 0

/-- A number is finite. -/
def finite : Num → Bool
  | .fin .. => true
  | _ => false

/-- One number lies below another; neither is a NaN. -/
def below : Num → Num → Prop
  | .inf s, .inf t => s = true ∧ t = false
  | .inf s, _ => s = true
  | _, .inf t => t = false
  | a, b => valueOf a < valueOf b

/-- Two numbers are equal as values; neither is a NaN. -/
def sameValue : Num → Num → Prop
  | .inf s, .inf t => s = t
  | .inf _, _ => False
  | _, .inf _ => False
  | a, b => valueOf a = valueOf b

/-- A code and flags are those of the number `x`, rounded to the nearest element of float format `f`, a tie
to the even code; `x` overflows where it lies so far beyond the largest element that an element after it
would be the nearest, or the even one of two (R94, R95). -/
def RoundsToNearest (f : Nat) (x : Num) (r : Nat × FlagSet) : Prop :=
  let v (c : Nat) : ℚ := valueOf (decodeFloat f c)
  let top : ℚ := v (maxMag f) + (v (maxMag f) - v (maxMag f - 1)) / 2
  let beyond : Prop := top < |valueOf x| ∨ |valueOf x| = top ∧ maxMag f % 2 = 1
  (beyond → r.2.getLsbD 2 = true ∧ r.2.getLsbD 4 = true) ∧
  (¬ beyond → r.1 < 2 ^ elemBits f ∧ finite (decodeFloat f r.1) = true ∧
    r.1.testBit (elemBits f - 1) = numNeg x ∧ r.2.getLsbD 2 = false ∧
    (r.2.getLsbD 4 = true ↔ v r.1 ≠ valueOf x) ∧
    ∀ c, c < 2 ^ elemBits f → finite (decodeFloat f c) = true →
      |valueOf x - v r.1| ≤ |valueOf x - v c| ∧
      (|valueOf x - v r.1| = |valueOf x - v c| → v r.1 ≠ v c → r.1 % 2 = 0))

/-- A packed pair of 16-bit codes. -/
def packPair (lo hi : Nat × FlagSet) : Nat × FlagSet := (2 ^ 16 * hi.1 + lo.1, lo.2 ||| hi.2)

/-- Element `i` of a packed float operand (R91, R103). -/
def elemAt (t : Train) (a : Args) (o : Opnd) (f i l : Nat) : Nat :=
  srcFloat t a.form o f l / 2 ^ (elemBits f * i) % 2 ^ elemBits f

/-- A packed 16-bit instruction: `g` of format, random bits and the two or three elements' numbers,
element 1 with the random bits rotated by 16 (R115). -/
def pairRule (t : Train) (a : Args) (m : Mods) (g : Nat → Nat → Num → Num → Num → Nat × FlagSet)
    (l : Nat) : Nat × FlagSet :=
  let f := if m.u then 2 else 1
  let r := rAt t a.s3 m.py l
  let e (o : Opnd) (i : Nat) : Num := decodeFloat f (elemAt t a o f i l)
  packPair (g f r (e a.s1 0) (e a.s2 0) (e a.s3 0))
    (g f (r % 2 ^ 16 * 2 ^ 16 + r / 2 ^ 16) (e a.s1 1) (e a.s2 1) (e a.s3 1))

/-- The exact dot product of `n` packed elements plus an FP32 value, rounded once (R113). -/
def dotRule (t : Train) (a : Args) (n fa fb rm l : Nat) : Nat × FlagSet :=
  let as := (List.range n).map fun i => decodeFloat fa (elemAt t a a.s1 fa i l)
  let bs := (List.range n).map fun i => decodeFloat fb (elemAt t a a.s2 fb i l)
  let c := floatAt t a a.s3 l
  sumRound 0 rm 0 true (as ++ bs ++ [c]) (List.zipWith mulNum as bs ++ [c])

/-- An 8-bit integer element (R87). -/
def byteInt (u : Bool) (x i : Nat) : Int := operandInt 8 u (x / 2 ^ (8 * i))

/-- Dot products and packed instructions (R113 to R115). -/
def packedRule (t : Train) : Instr → Option (Args × (Nat → Nat × FlagSet))
  | .fdp2 a m => some (a, dotRule t a 2 (if m.u then 2 else 1) (if m.u then 2 else 1) m.py.toNat)
  | .fdp4 a m => some (a, dotRule t a 4 (if m.u then 4 else 3) (if m.d then 4 else 3) m.py.toNat)
  | .idp4 a m => some (a, fun l =>
      let x := srcNat t a.s1 1 l
      let y := srcNat t a.s2 1 l
      let v := byteInt m.u x 0 * byteInt m.d y 0 + byteInt m.u x 1 * byteInt m.d y 1
        + byteInt m.u x 2 * byteInt m.d y 2 + byteInt m.u x 3 * byteInt m.d y 3
        + operandInt 32 false (srcNat t a.s3 1 l)
      (lowBits 32 (if m.s then heldTo 32 false v else v),
        if m.s ∧ heldTo 32 false v ≠ v then fSat else 0))
  | .hadd2 a m => some (a, pairRule t a m fun f r x y _ =>
      sumRound f m.py.toNat r m.s [x, y] [x, y])
  | .hmul2 a m => some (a, pairRule t a m fun f r x y _ => mulRound f m.py.toNat r m.s x y)
  | .hfma2 a m => some (a, pairRule t a m fun f _ x y z =>
      sumRound f m.py.toNat 0 m.s [x, y, z] [mulNum x y, z])
  | .hmax2 a m => some (a, fun l =>
      let f := if m.u then 2 else 1
      packPair (minMaxCode f true (elemAt t a a.s1 f 0 l) (elemAt t a a.s2 f 0 l))
        (minMaxCode f true (elemAt t a a.s1 f 1 l) (elemAt t a a.s2 f 1 l)))
  | _ => none

/-- Conversions (R116 to R118): the registers of the destination and the result in a lane. -/
def convertRule (t : Train) : Instr → Option (Args × Nat × (Nat → Nat × FlagSet))
  | .cvt a rm dt st => some (a, if 3 ≤ dt.toNat then 2 else 1, fun l =>
      let W (ty : BitVec 3) : Nat := if 3 ≤ ty.toNat then 64 else 32
      let uns (ty : BitVec 3) : Bool := ty = 2 ∨ ty = 4
      let r := rAt t a.s2 rm l
      let int := operandInt (W st) (uns st) (srcNat t a.s1 (W st / 32) l)
      if dt = 0 then toFloat 0 rm.toNat r true (numOfInt int)
      else
        let lo : Int := if uns dt then 0 else -2 ^ (W dt - 1)
        let hi : Int := if uns dt then 2 ^ W dt - 1 else 2 ^ (W dt - 1) - 1
        if st = 0 then
          let v := toInt lo hi rm.toNat r (floatAt t a a.s1 l)
          (lowBits (W dt) v.1, v.2)
        else
          let v := heldTo (W dt) (uns dt) int
          (lowBits (W dt) v, if v ≠ int then fSat else 0))
  | .pack a rm ov f int => some (a, 1, fun l =>
      let s := elemBits f.toNat
      let i := srcNat t a.s2 1 l % 8 % (32 / s)
      let v := if int then srcNat t a.s1 1 l else srcFloat t a.form a.s1 0 l
      let c := packCode f.toNat rm.toNat (rAt t a.s3 rm l) ov int v (zeroPoint f.toNat (srcNat t a.s2 1 l))
      (numOfBits (fun b => if b / s = i then c.1.testBit (b % s)
        else (srcNat t a.dst 1 l).testBit b) 32, c.2))
  | .unpack a f int => some (a, 1, fun l =>
      let s := elemBits f.toNat
      let i := srcNat t a.s2 1 l % 8 % (32 / s)
      unpackOf f.toNat int (srcNat t a.s1 1 l / 2 ^ (s * i) % 2 ^ s)
        (zeroPoint f.toNat (srcNat t a.s2 1 l)))
  | .rnd a f => some (a, 1, fun l =>
      let y := rndBits (srcNat t a.s2 2 l) (srcNat t a.s1 2 l)
      (if f then (toFloat 0 0 0 true (.fin false (y / 256) (-24))).1 else y, 0))
  | _ => none

/-- The data of producer `id` have come, in the lanes of a mask, for the instruction that stands until
then. -/
def dataCameTo (id : Nat) (lanes : LaneMask) : Resume → Resume
  | .data k fs => if k = id then .dataDone lanes fs else .data k fs
  | r => r

/-- What the long-latency producers of arithmetic compute in a lane from the sources, and after how many
cycles (R61, R112). -/
def laterRule : Instr → Option (Args × Nat × Nat × (Nat → Nat → Nat × FlagSet))
  | .div a m => some (a, wide m.d, if m.d then 68 else 36, fun p q =>
      let x := operandInt (opWidth m.d) m.u p
      let y := operandInt (opWidth m.d) m.u q
      if y = 0 then (2 ^ opWidth m.d - 1, if x = 0 then 0 else fDivzero)
      else (lowBits (opWidth m.d) (x.tdiv y), 0))
  | .rem a m => some (a, wide m.d, if m.d then 68 else 36, fun p q =>
      let x := operandInt (opWidth m.d) m.u p
      let y := operandInt (opWidth m.d) m.u q
      if y = 0 then (lowBits (opWidth m.d) x, if x = 0 then 0 else fDivzero)
      else (lowBits (opWidth m.d) (x - y * x.tdiv y), 0))
  | .frcp a m => some (a, 1, 24, fun p _ => fnCode .rcp m.py.toNat p)
  | .fsqrt a m => some (a, 1, 24, fun p _ => fnCode .sqrt m.py.toNat p)
  | .frsqrt a _ => some (a, 1, 24, fun p _ => fnCode .rsqrt 0 p)
  | .fexp2 a _ => some (a, 1, 24, fun p _ => fnCode .exp2 0 p)
  | .flog2 a _ => some (a, 1, 24, fun p _ => fnCode .log2 0 p)
  | .fsin a _ => some (a, 1, 24, fun p _ => fnCode .sin 0 p)
  | .fcos a _ => some (a, 1, 24, fun p _ => fnCode .cos 0 p)
  | .ftanh a _ => some (a, 1, 24, fun p _ => fnCode .tanh 0 p)
  | _ => none

/-! ## Moves and lane reads -/

/-- The effective address of R23 as an 80-bit number. -/
def addressOf (base : Nat) (off : Nat) (wide : Bool) (scale : Nat) : Nat :=
  lowBits 80 (base + operandInt (if wide then 64 else 32) false off * 2 ^ (if wide then 0 else scale))

/-- Moves, immediates, selection and base registers (R67 to R72): the registers of the destination and
its value in a lane. -/
def moveRule (t : Train) : Instr → Option (Args × Nat × (Nat → Nat))
  | .mov a m => some (a, wide m.d, fun l => srcNat t a.s1 (wide m.d) l)
  | .li a m => some (a, wide m.d, fun _ => immOf a |>.toNat)
  | .sel a m => some (a, wide m.d, fun l =>
      if Bool.xor (pGet t m.py.toNat l) (m.px.getLsbD 0) then srcNat t a.s1 (wide m.d) l
      else srcNat t a.s2 (wide m.d) l)
  | .bset a _ => some (a, 1, fun l => srcNat t a.s2 1 l % 2 ^ 16 * 2 ^ 64 + srcNat t a.s1 2 l)
  | .bget a => some (a, 2, fun l => srcNat t a.s1 1 l % 2 ^ 64)
  | .bgetHi a => some (a, 1, fun l => srcNat t a.s1 1 l / 2 ^ 64)
  | .badd a m => some (a, 1, fun l =>
      addressOf (srcNat t a.s1 1 l) (srcNat t a.s2 (wide m.d) l) m.d 0)
  | .lea a m => some (a, 2, fun l =>
      addressOf (srcNat t a.s1 1 l) (srcNat t a.s2 (wide m.d) l) m.d m.py.toNat)
  | .pget a => some (a, 1, fun l => numOfBits (fun i => pGet t i l) 8)
  | _ => none

/-! ## Reads across lanes (R165, R168 to R174) -/

/-- The combination of a set of values, in ascending lane order (R171, R172): for an integer operation by
R58, for a float one by R106 and R108, and the identity for the empty set. -/
def combined (m : RedMods) (xs : List Nat) : Nat × FlagSet :=
  let w := if m.d then 64 else 32
  let v := xs.map (operandInt w m.u)
  let lo : Int := if m.u then 0 else -2 ^ (w - 1)
  let hi : Int := if m.u then 2 ^ w - 1 else 2 ^ (w - 1) - 1
  match m.op.toNat with
  | 0 => (lowBits w (if m.s then heldTo w m.u v.sum else v.sum),
          if m.s ∧ heldTo w m.u v.sum ≠ v.sum then fSat else 0)
  | 1 => (lowBits w (v.foldr min hi), 0)
  | 2 => (lowBits w (v.foldr max lo), 0)
  | 3 => (numOfBits (fun i => xs.all (·.testBit i)) w, 0)
  | 4 => (numOfBits (fun i => xs.any (·.testBit i)) w, 0)
  | 5 => (numOfBits (fun i => (xs.filter (·.testBit i)).length % 2 = 1) w, 0)
  | 6 => if xs = [] then (0x80000000, 0)
         else sumRound 0 0 0 true (xs.map (decodeFloat 0)) (xs.map (decodeFloat 0))
  | k => if xs = [] then (if k = 7 then 0x7F800000 else 0xFF800000, 0)
         else match xs.filter fun x => !isNan (decodeFloat 0 x) with
           | [] => (0x7FC00000, 0)
           | y :: ys => (ys.foldl (fun b c => (minMaxCode 0 (k = 8) b c).1) y, 0)

/-- The flag of R173 for a signalling NaN among the enabled lanes' values. -/
def snanOf (m : RedMods) (xs : List Nat) : FlagSet :=
  if 6 ≤ m.op.toNat ∧ ∃ x ∈ xs, isSnan (decodeFloat 0 x) = true then fInvalid else 0

/-- What the instructions that read across lanes, or read the train's and the team's own state, write:
the registers of the destination, and the value and flags of a lane. -/
def laneRule (s : State) (x : Site) : Instr → Option (Args × Nat × (Nat → Nat × FlagSet))
  | .jget a n => some (a, 2, fun _ => ((jGet x.train n.toNat).toNat, 0))
  | .actv a w => some (a, 2, fun _ =>
      ((if w = 0 then maskOf x.lanes else if w = 1 then x.split.mask else x.train.active).toNat, 0))
  | .vote a inv _ op p => if op = 3 then some (a, 2, fun _ =>
      (numOfBits (fun l => x.lanes.contains l && Bool.xor (pGet x.train p.toNat l) inv) 64, 0)) else none
  | .matchLanes a d => some (a, 2, fun l =>
      (numOfBits (fun m => x.lanes.contains m &&
        srcNat x.train a.s1 (wide d) m == srcNat x.train a.s1 (wide d) l) 64, 0))
  | .perm a z d => some (a, wide d, fun l =>
      let u := srcNat x.train a.s2 1 l
      (if z ∧ x.train.width ≤ u then 0 else srcNat x.train a.s1 (wide d) (u % x.train.width), 0))
  | .redx a m => some (a, wide m.d, fun _ =>
      let xs := x.lanes.map fun l => srcNat x.train a.s1 (wide m.d) l
      ((combined m xs).1, (combined m xs).2 ||| snanOf m xs))
  | .scan a m => some (a, wide m.d, fun l =>
      let v (l : Nat) : Nat := srcNat x.train a.s1 (wide m.d) l
      let r := combined m ((x.lanes.filter fun k => if m.excl then k < l else k ≤ l).map v)
      (r.1, r.2 ||| snanOf m (x.lanes.map v)))
  | .rvget a f n => some (a, if 2 ≤ f.toNat then 2 else 1, fun _ =>
      let r := rvOf x.team n.toNat
      (if f = 0 then r.expected else if f = 1 then r.arrivals else if f = 2 then r.members.toNat
       else r.arrived.toNat, 0))
  | .cbdec a hi e4m3 => some (a, 2, fun l =>
      let w := srcNat x.train a.s1 1 l
      let g := if hi then w / 2 ^ 16 else w % 2 ^ 16
      (cbdecBytes (defGet 0 (ctxOf s x.team.ctx).codebook (g / 256)).toNat g e4m3 8, 0))
  | _ => none

/-! ## Special registers (R16, R17) -/

/-- The value that R17 gives a special register in a lane. How long before the module's start a core's own cycle
count has begun is the free value `Config.resetLead` (log entry 116). -/
def sregRule (s : State) (x : Site) (l : Nat) : Nat → Nat
  | 0 => l
  | 1 => (x.train.home[l]?).getD 0
  | 2 => x.train.width
  | 3 => x.tn
  | 4 => x.team.team.toNat
  | 5 => x.core / 4
  | 6 => x.team.grid.toNat
  | 7 => x.team.lanes
  | 8 => x.train.role
  | 9 => x.train.done.toNat
  | 10 => x.train.flags.toNat
  | 11 => x.train.memctl.toNat
  | 12 => x.team.stash.toNat
  | 13 => (Config.resetLead s.boot.from_ x.core + (s.now - s.boot.from_)) % 2 ^ 64
  | 14 => x.team.ctx
  | 15 => x.train.trap.toNat
  | 16 => x.train.fault.toNat
  | 17 => x.team.arg.toNat
  | _ => 0

/-- No field of a memory-control word holds a code that R42 reserves (R20). -/
def memctlLegal (v : Nat) : Bool :=
  v % 8 ≤ 5 && v / 8 % 8 ≤ 6 && v / 64 % 8 ≤ 5 && v / 512 % 16 ≤ 6

/-! ## Branches (R75 to R78, R141) -/

/-- An address with bits [1:0] taken as 0. -/
def evenAddr (a : Addr) : Addr := BitVec.ofNat 80 (a.toNat / 4 * 4)

/-- The target of R75. -/
def offsetTarget (x : Site) (off : Word) : Addr := BitVec.ofInt 80 (x.pc.toInt + 4 * off.toInt)

/-- The base register of an operand. -/
def baseOf : Opnd → Nat
  | .b r => r.toNat
  | _ => 0

/-- The branches with one target: the hint, the target, and the base registers after it (R76, R77). -/
def branchRule (x : Site) : Instr → Option (Args × Bool × Addr × (Nat → Addr))
  | .br a h off => some (a, h, offsetTarget x off, bGet x.train)
  | .call a off => some (a, false, offsetTarget x off,
      fun r => if r = baseOf a.dst then nextPc x else bGet x.train r)
  | .calli a => some (a, false, evenAddr (bGet x.train (baseOf a.s1)),
      fun r => if r = baseOf a.dst then nextPc x else bGet x.train r)
  | .ret a => some (a, false, evenAddr (bGet x.train (baseOf a.s1)), bGet x.train)
  | _ => none

/-- The Siding with the issuing split replaced by splits in order. -/
def sidingWith (x : Site) (ps : List Split) : List Split :=
  x.train.siding.take x.idx ++ ps ++ x.train.siding.drop (x.idx + 1)

/-- The issuing split, whole, ready at an address. -/
def wholeAt (x : Site) (pc : Addr) : Split :=
  { x.split with pc := pc, st := .ready, replay := false, resume := .none }

/-- The splits of a two-way branch to `T` (R141): one where every lane of the split is enabled, else
the enabled lanes at `T` and the others after the branch, the side that `h` names first. -/
def branchSplits (x : Site) (h : Bool) (T : Addr) : List Split :=
  let rest := x.split.mask &&& ~~~maskOf x.lanes
  if rest = 0 then [wholeAt x T]
  else if h then [readySplit T (maskOf x.lanes), readySplit (nextPc x) rest]
  else [readySplit (nextPc x) rest, readySplit T (maskOf x.lanes)]

/-! ## Join masks (R143, R163) -/

/-- The value that `jset` writes: bit l of it, before the width and the active lanes (R163). -/
def jsetBit (x : Site) (a : Args) (op n p : BitVec 3) (l : Nat) : Bool :=
  let X := (srcNat x.train a.s1 2 0).testBit l
  let j := (jGet x.train n.toNat).getLsbD l
  match op.toNat with
  | 0 => X
  | 1 => j || X
  | 2 => j && !X
  | 3 => x.split.mask.getLsbD l
  | 4 => x.lanes.contains l && pGet x.train p.toNat l
  | _ => x.lanes.contains l && !pGet x.train p.toNat l

/-! ### What becomes of the splits that wait at joins (R143, R145, R163) -/

/-- Of the splits of `l` that `who` picks, the lanes of `out` form the splits `gs`: one for each address,
ready after the `join` there, which is 8 bytes long, and held where a split there is held. -/
def OneSplitEach (who : Split → Prop) (out : LaneMask) (l gs : List Split) : Prop :=
  (gs.map (·.pc)).Nodup ∧
  (∀ q ∈ gs, q.st = .ready ∧ q.replay = false ∧ q.resume = .none ∧
    ∃ p ∈ l, who p ∧ q.pc = p.pc + 8 ∧ q.held = p.held) ∧
  (∀ p ∈ l, who p → ∃ q ∈ gs, q.pc = p.pc + 8) ∧
  ∀ q ∈ gs, ∀ i, i < 64 → (q.mask.getLsbD i = true ↔ out.getLsbD i = true ∧
    ∃ p ∈ l, who p ∧ q.pc = p.pc + 8 ∧ p.mask.getLsbD i = true)

/-- `l'` holds the splits `kept`, in their order, and the splits `gs`, and nothing else. -/
def Mixed (kept gs l' : List Split) : Prop := kept.Sublist l' ∧ l'.Perm (kept ++ gs)

/-- The join on jN, whose value is `j`, in a train of the given active lanes: where splits of the Siding `l`
wait at it and every active lane of jN is in one of them, it completes, and the lanes that wait at one
`join` form one split; else nothing changes (R143). -/
def Rejoins (n : BitVec 3) (j active : LaneMask) (l l' : List Split) : Prop :=
  let complete : Prop := (∃ p ∈ l, p.st = .atJoin n) ∧ ∀ i, i < 64 → j.getLsbD i = true →
    active.getLsbD i = true → ∃ p ∈ l, p.st = .atJoin n ∧ p.mask.getLsbD i = true
  (complete → ∃ gs, OneSplitEach (fun p => p.st = .atJoin n) (~~~0) l gs ∧
    Mixed (l.filter fun p => p.st ≠ .atJoin n) gs l') ∧
  (¬ complete → l' = l)

/-- The lanes outside `v` leave the joins on jN: the lanes that leave one `join` form one split (R163). -/
def Leaves (n : BitVec 3) (v : LaneMask) (l l' : List Split) : Prop :=
  let who (p : Split) : Prop := p.st = .atJoin n ∧ p.mask &&& ~~~v ≠ 0
  let rest (p : Split) : Option Split :=
    if p.st ≠ .atJoin n ∨ p.mask &&& ~~~v = 0 then some p
    else if p.mask &&& v = 0 then none else some { p with mask := p.mask &&& v }
  ∃ gs, OneSplitEach who (~~~v) l gs ∧ Mixed (l.filterMap rest) gs l'

/-- No split of the Siding can go on: each waits at a join, or for entries that are not there (R145). -/
def Stuck (l : List Split) : Prop :=
  ∀ p ∈ l, (∃ n, p.st = .atJoin n) ∨ ∃ k, p.st = .waiting (.siding k) ∧ 16 - l.length < k

/-! ## Traps (R329 to R339) -/

/-- The record of a trap of a whole instruction of the issuing split (R336, R337). -/
def wholeRecord (x : Site) (code reason : Nat) (detail : Word) (addr : Addr) (length : Nat)
    (fetch : Bool) (unit : Nat) : Rec where
  fetch := fetch
  atomic := false
  write := false
  reason := BitVec.ofNat 8 reason
  source := 0
  code := BitVec.ofNat 8 code
  core := BitVec.ofNat 16 x.core
  ctx := BitVec.ofNat 12 x.team.ctx
  team := x.team.team
  detail := detail
  resume := x.pc
  train := BitVec.ofNat 6 x.tn
  unit := BitVec.ofNat 5 unit
  body := accessBody addr length x.split.mask x.train.done

/-- The record of JOIN_DEADLOCK: the train's, with the first split of its Siding (R145). -/
def deadlockRecord (x : Site) (p : Split) : Rec :=
  { wholeRecord x 11 0 0 0 0 false 0 with
    core := BitVec.ofNat 16 (coreOfTeam x.team)
    resume := p.pc
    body := accessBody 0 0 p.mask x.train.done }

/-- Instruction `i` leaves the Siding `l`, counted or not, its run ended and nothing else changed; where no
split of `l` can go on, JOIN_DEADLOCK is then taken, once for the train (R145). -/
def LeavesSiding (i : Instr) (s : State) (x : Site) (counted : Bool) (l : List Split) : Prop :=
  ∃ t u, trainOf t x.uid x.tn = some u ∧ u.siding = l ∧ u.seq = x.train.seq + counted.toNat ∧
    KeepsAll x.train u ∧ (pipeOf (coreOf t x.core) x.pipe).run = none ∧ OnlyTrain x s t ∧
    (¬ Stuck l → exec i s = .next t) ∧
    (Stuck l → x.train.pend = none → x.train.trapped = false → ∀ p, l.head? = some p →
      exec i s = .next (takeTrap t x.uid x.tn 0 11 [deadlockRecord x p]))

/-- Instruction `i` needs `n` free entries of the Siding and waits for them (R142). -/
def WaitsForEntries (i : Instr) (s : State) (x : Site) (n : Nat) : Prop :=
  LeavesSiding i s x false (sidingWith x [{ x.split with st := .waiting (.siding n) }])

/-! ## Memory accesses (R23, R268 to R281) -/

/-- The address of each of some lanes. -/
def accesses (x : Site) (a : Args) (m : AddrMods) (ls : List Nat) : List (Nat × Addr) :=
  ls.map fun l => (l, BitVec.ofNat 80 (addressOf (srcNat x.train a.s1 1 l)
    (srcNat x.train a.s2 (if m.o64 then 2 else 1) l) m.o64 m.scale.toNat))

/-- The operations of the lanes that passed, one for each separate access. -/
def storeOps (c : Checked) (op : LanePass → MemOp) (data cmp : Nat → Nat) : List LaneOp :=
  c.passed.flatMap fun p => p.parts.map fun q =>
    ⟨q.lane, q.va, q.place, q.addrs, op p, BitVec.ofNat 128 (data p.lane / 2 ^ (8 * q.shift)),
      BitVec.ofNat 64 (cmp p.lane), q.mayWrite⟩

/-- Instruction `i` answers a next state in which its operations stand last in its train's store queue
(R234), and nothing else has changed but the state of replays. -/
def Queues (i : Instr) (s : State) (x : Site) (k : Mem) (ops : List LaneOp) : Prop :=
  ∃ t u, exec i s = .next t ∧ trainOf t x.uid x.tn = some u ∧ GoesOn x u (nextPc x) ∧
    u = { x.train with
      sq := x.train.sq ++ [⟨x.train.seq, x.pc, BitVec.ofNat 3 k.order, BitVec.ofNat 3 k.scope,
        BitVec.ofNat 4 k.policy, ops, none⟩]
      done := 0
      walked := []
      asked := []
      seq := u.seq
      siding := u.siding
      since := u.since
      passed := u.passed } ∧
    OnlyTrain x s t

/-- Instruction `i` answers a next state in which its producer for `regs` registers is outstanding
(R24), with the accesses of the lanes that passed, and its operations, if it has any, stand last in the
store queue. With a k destination, or where `held`, its data may not come, the split stands at the
instruction until they have (R27, R344). Nothing else has changed but the state of replays. -/
def Asks (i : Instr) (a : Args) (s : State) (x : Site) (regs : Nat) (kind : ProdKind) (k : Mem)
    (c : Checked) (ops : List LaneOp) (held : Bool) : Prop :=
  ∃ t u p, exec i s = .next t ∧ trainOf t x.uid x.tn = some u ∧ t.nextId = s.nextId + 1 ∧
    mapGet u.prods s.nextId = some p ∧ p.seq = x.train.seq ∧ p.pc = x.pc ∧ p.kind = kind ∧
    p.dst = dstOf a.dst regs ∧ p.lanes = maskOf (writtenLanes x a.dst) ∧
    p.order = BitVec.ofNat 3 k.order ∧ p.scope = BitVec.ofNat 3 k.scope ∧
    p.parts = c.passed.flatMap (·.parts) ∧ p.vals = [] ∧ p.bad = [] ∧ p.flags = 0 ∧ p.held = held ∧
    (∀ n, n ≠ s.nextId → mapGet u.prods n = mapGet x.train.prods n) ∧
    (∀ r, r ∈ u.empty ↔ r ∈ x.train.empty ∨ inDestV a.dst regs [0] r 0) ∧
    GoesOnWith x u (if held then .none else a.dst) s.nextId ∧
    u = { x.train with
      prods := u.prods
      empty := u.empty
      sq := if ops = [] then x.train.sq else x.train.sq ++ [⟨x.train.seq, x.pc, BitVec.ofNat 3 k.order,
        BitVec.ofNat 3 k.scope, BitVec.ofNat 4 k.policy, ops, some s.nextId⟩]
      done := if held then x.train.done else 0
      walked := []
      asked := []
      seq := u.seq
      siding := u.siding
      since := u.since
      passed := u.passed } ∧
    OnlyTrain x { s with nextId := s.nextId + 1 } t

/-- The data of an access may not come: an uncorrectable error stands in its line (R344), a comparison may
hold on a page that cannot be written (R341), or a peer serves the load (R357, R362). -/
def mayFail (s : State) (load : Bool) (q : Part) : Bool :=
  (!load && !q.mayWrite) || (match q.place with
    | .glob => s.errs.any fun e => match e with
      | .hbm p | .l2 p | .l1 _ p | .cxl p => p / 128 == headLane q.addrs / 128
      | _ => false
    | .peer _ => load
    | _ => false)

/-- The atomics of R276 to R278: address modifiers, bytes, registers of the destination, order and
space, the producer, and each lane's operation, operand and comparand. -/
def atomRule (x : Site) : Instr → Option (Args × AddrMods × Nat × Nat × Mem × ProdKind ×
    (Nat → MemOp) × (Nat → Nat) × (Nat → Nat))
  | .atom a op m d =>
    let w := wide d
    some (a, m, 4 * w, w, atMods x.train a, .atom (4 * w), fun _ => .atom op,
      fun l => srcNat x.train a.s3 w l, fun _ => 0)
  | .cas a pS m d =>
    let w := wide d
    some (a, m, 4 * w, w, atMods x.train a, .cas (4 * w) pS, fun _ => .cas,
      fun l => srcNat x.train a.s3 w l, fun l => srcNat x.train a.dst w l)
  | .casl a m =>
    let w := wide m.d
    some (a, ⟨m.scale, m.o64⟩, 4 * w, 2 * w, caslMods x.train a, .casl (4 * w),
      fun l => .casl m.task (BitVec.ofNat 64 (srcNat x.train m.pay 2 l)),
      fun l => srcNat x.train a.s3 w l, fun l => srcNat x.train a.dst w l)
  | _ => none

/-- The new value of an atomic of R276 on `w` bits. -/
def atomNew (w : Nat) (op : BitVec 4) (old v : Nat) : Nat :=
  let si : Nat → Int := operandInt w false
  match op.toNat with
  | 0 => (old + v) % 2 ^ w
  | 1 => if si old ≤ si (v % 2 ^ w) then old else v % 2 ^ w
  | 2 => if si (v % 2 ^ w) ≤ si old then old else v % 2 ^ w
  | 3 => min old (v % 2 ^ w)
  | 4 => max old (v % 2 ^ w)
  | 5 => numOfBits (fun i => old.testBit i && v.testBit i) w
  | 6 => numOfBits (fun i => old.testBit i || v.testBit i) w
  | 7 => numOfBits (fun i => old.testBit i != v.testBit i) w
  | 8 => v % 2 ^ w
  | 9 => (sumRound 0 0 0 true [decodeFloat 0 old, decodeFloat 0 (v % 2 ^ w)]
      [decodeFloat 0 old, decodeFloat 0 (v % 2 ^ w)]).1
  | _ => (minMaxCode 0 true old (v % 2 ^ w)).1

/-- The bytes per lane that a load or an atomic accesses, and whether it is an atomic. -/
def laneAccess : Instr → Option (Nat × Bool)
  | .ld _ size _ _ => some (2 ^ size.toNat, false)
  | .atom _ _ _ d => some (4 * wide d, true)
  | .cas _ _ _ d => some (4 * wide d, true)
  | .casl _ m => some (4 * wide m.d, true)
  | _ => none

/-- What an atomic needs of its page: `cas` and `casl` write only where their comparison holds (R341). -/
def atomAccess : Instr → Access
  | .atom .. => .both
  | _ => .test

/-- The byte that a list of writes, made in order, leaves at an address, over `f`. -/
def afterWrites (ws : List (Nat × Byte)) (f : Nat → Byte) (pa : Nat) : Byte :=
  match (ws.filter (·.1 = pa)).getLast? with
  | some w => w.2
  | none => f pa

/-- The bytes that operations write, lowest first. -/
def opBytes (ops : List LaneOp) : List (Nat × Byte) :=
  ops.flatMap fun o => o.addrs.zip (natLe o.addrs.length o.data.toNat)

/-- Every byte at its home reads as before. -/
def SameBytes (s t : State) : Prop := ∀ pa, homeByte t pa = homeByte s pa

/-- A core's L1 copy of a line, where it holds one, has taken bytes, by their offsets in the line, and a
scope record. -/
def CopyTakes (s t : State) (core line : Nat) (ws : List (Nat × Byte)) (mark : Option ScopeRec) : Prop :=
  ∀ l : L1Line, mapGet (coreOf s core).l1 line = some l → (∀ w ∈ ws, w.1 < 128) →
    ∃ l' : L1Line, mapGet (coreOf t core).l1 line = some l' ∧
      l' = { l with data := l'.data, scope := mark } ∧
      ∀ i, i < 128 → lineByte l'.data i = afterWrites ws (lineByte l.data) i

/-- No request is on its way, and no partial is held. -/
def Calm (s : State) : Prop := s.net = [] ∧ s.partials = []

/-- No copy in flight has a global destination, so that none owns a line (R245). -/
def NoOwner (s : State) : Prop := ∀ m ∈ s.teams, ∀ c ∈ m.2.copies, c.2.dir ≠ 1

/-- Instruction `i` begins to wait: its run has ended, it stands to begin the next, and nothing else has
changed (R46). -/
def BeginsRun (i : Instr) (s : State) (x : Site) : Prop :=
  ∃ t u, exec i s = .next t ∧ trainOf t x.uid x.tn = some u ∧
    u.siding[x.idx]? = some { x.split with resume := .begun } ∧ u.seq = x.train.seq ∧
    (∀ j, j ≠ x.idx → u.siding[j]? = x.train.siding[j]?) ∧
    (pipeOf (coreOf t x.core) x.pipe).run = none ∧ KeepsAll x.train u ∧ OnlyTrain x s t

/-! ## The contraction array and the accumulator unit (R180 to R205) -/

/-- Instruction `i` answers a next state in which its unit has one job more, and nothing else has
changed. -/
def GivesJob (i : Instr) (s : State) (x : Site) (train rv : Option Nat) (kind : JobKind) : Prop :=
  ∃ t u m id cycles, exec i s = .next t ∧ trainOf t x.uid x.tn = some u ∧ teamOf t x.uid = some m ∧
    GoesOn x u (nextPc x) ∧ KeepsAll x.train u ∧ s.nextId ≤ id ∧ id < t.nextId ∧
    m = { x.team with
      trains := m.trains
      jobs := mapPut x.team.jobs id ⟨train, rv, kind, 0, 0, 0, s.now, cycles⟩ } ∧
    OnlyTeam x s t

/-- The tile's own bytes. -/
def tileSpan (tile : Word) : Nat × Nat := (tileOff tile, tileM tile * pitch (tileN tile))

/-- The accumulator instructions of R202 to R204: their arguments, whether their words are legal, the
accumulator and the scratchpad bytes they name as offset and length, and the job. -/
def accRule (x : Site) : Instr → Option (Args × Bool × List (Nat × Nat) × List (Nat × Nat) × JobKind)
  | .accwr a d =>
    let n := 4 * wide d
    let at_ (l : Nat) : Nat := (srcNat x.train a.s1 1 l + srcNat x.train a.s2 1 l) % 2 ^ 32 / n * n
    some (a, true, x.lanes.map fun l => (at_ l, n), [],
      .write (x.lanes.flatMap fun l => (List.range n).map fun i =>
        (at_ l + i, BitVec.ofNat 8 (srcNat x.train a.s3 (wide d) l / 256 ^ i))))
  | .accclr a =>
    let tile := BitVec.ofNat 32 (srcNat x.train a.s1 1 0)
    some (a, tileOk tile, [tileSpan tile], [], .clear tile)
  | .accmv a =>
    let tile := BitVec.ofNat 32 (srcNat x.train a.s1 1 0)
    let o := srcNat x.train a.s2 1 0
    some (a, tileOk tile && o < 2 ^ 14, [tileSpan tile, (256 * o, (tileSpan tile).2)], [],
      .move tile (256 * o))
  | .accpk a e =>
    let c := BitVec.ofNat 32 (srcNat x.train a.s3 2 0)
    let tile := BitVec.ofNat 32 (srcNat x.train a.s3 2 0 / 2 ^ 32)
    some (a, convOk false c tile e, [tileSpan tile],
      convSpans c tile e (rowBase x.train e.s) (rowBase x.train e.d),
      .pack c tile e (rowBase x.train e.s) (rowBase x.train e.d))
  | .accup a e =>
    let c := BitVec.ofNat 32 (srcNat x.train a.s3 2 0)
    let tile := BitVec.ofNat 32 (srcNat x.train a.s3 2 0 / 2 ^ 32)
    some (a, convOk true c tile e, [tileSpan tile],
      convSpans c tile e (rowBase x.train e.s) (rowBase x.train e.d),
      .unpack c tile e (rowBase x.train e.s) (rowBase x.train e.d))
  | _ => none

/-- Byte ranges lie within `size` bytes. -/
def spansFit (size : Nat) (l : List (Nat × Nat)) : Prop := ∀ p ∈ l, p.2 = 0 ∨ p.1 + p.2 ≤ size

/-- C[i][j] of a tile after a contraction: block by block (R182). -/
def contracted (fmt tile : Word) (goff : BitVec 8) (book : Codebooks) (rows : List CxRow) (i j : Nat)
    (c : Word) : Word :=
  (blocksOf rows).foldl (fun c q => (accumulate (cxFmtOf fmt).int c
    (blockTerms (cxFmtOf fmt) goff book (tileM tile) (tileN tile) i j (rowsOf rows q))).1) c

/-- What the tile at `off` holds after `f` of each element of the team `m`; every other accumulator word
is unchanged. -/
def TileBecomes (m m' : Team) (tile : Word) (f : Nat → Nat → Word) : Prop :=
  let w (i j : Nat) : Nat := tileWord (tileOff tile) (tileN tile) i j
  (∀ i j, i < tileM tile → j < tileN tile → accWord m' (w i j) = f i j) ∧
  ∀ k, (∀ i j, i < tileM tile → j < tileN tile → k ≠ w i j) → accWord m' k = accWord m k

/-- What a job of the accumulator unit does to its team (R200 to R205). -/
def accDoes (m m' : Team) : JobKind → Prop
  | .write ws => (∀ o, accGet m' o = afterWrites ws (accGet m) o) ∧ m'.scr = m.scr
  | .store ws => (∀ o, accGet m' o = afterWrites ws (accGet m) o) ∧ m'.scr = m.scr
  | .clear tile => TileBecomes m m' tile (fun _ _ => 0) ∧ m'.scr = m.scr
  | .move tile off => m'.scr = m.scr ∧
      TileBecomes m m' tile fun i j => accWord m (tileWord off (tileN tile) i j)
  | .pack c tile e sd dt => m'.acc = m.acc ∧
      ∀ a, scrGet m' a = afterWrites (packRows m c tile e sd dt).1 (scrGet m) a
  | .unpack c tile e sd dt => m'.scr = m.scr ∧
      let f := convOf c
      let n := tileN tile
      TileBecomes m m' tile fun i j =>
        (upElem f (accWord m (tileWord (tileOff tile) n i j))
          (rowVal f.f f.blk f.sc f.zp f.int ⟨[], 0⟩ 0 (scrRead m (dt + i * 4 * e.ds.toNat) (rowBytes f.f n))
            (scrRead m (sd + i * 4 * e.ss.toNat) (sideBytes f.sc f.zp f.blk n)) n j)).1
  | .contract .. => True

/-! ## The engines (R306 to R327) -/

/-- The bytes that a chunk of a copy writes, in their order, each with the byte of its source (R311,
R312): row r of a swizzled side has its byte c at c XOR 16·(r mod 2^span). -/
def chunkWrites (c : Copy) (src : Nat → Byte) (chunk : Nat) : List (Nat × Byte) :=
  let n := min 512 (c.rows * c.len - 512 * chunk)
  (List.range n).filterMap fun i =>
    let o := 512 * chunk + i
    let r := o / c.len
    let k := o % c.len
    let sw (k : Nat) : Nat := k ^^^ (r % 2 ^ c.span * 16)
    match c.dir with
    | 0 => some (c.p + o, src (if c.tr then
        (c.g.toNat + sw k / c.esize * c.stride + r * c.esize + sw k % c.esize) % 2 ^ 80
        else (c.g.toNat + r * c.stride + sw k) % 2 ^ 80))
    | 1 => if r + 1 < c.rows ∧ c.stride ≤ k then none
        else some ((c.g.toNat + r * c.stride + k) % 2 ^ 80, src (c.p + r * c.len + sw k))
    | _ => some (c.sibOff + o, src (c.p + r * c.len + sw k))

/-- The rank of a key, in the order of R324: as an unsigned number, or as the code of an FP32 number. -/
def mergeKey (fkey : Bool) (k : Word) : Nat :=
  if fkey then if k.toNat < 2 ^ 31 then k.toNat + 2 ^ 31 else 2 ^ 32 - 1 - k.toNat else k.toNat

/-- What `sstat`, `qlen` and `mstat` give (R322, R326). -/
def engineStatus (s : State) (x : Site) : Instr → Option (Args × Nat × Nat)
  | .sstat a q => some (a, 2,
      match mergeOut s x.uid x.tn q.toNat, mapGet x.train.streams q.toNat with
      | some _, _ => 0xFFFFFFFF + 2 ^ 32 * 6
      | none, some k => k.count - k.popped + 2 ^ 32 * k.state
      | none, none => 2 ^ 32 * 5)
  | .qlen a q => some (a, 1,
      match mergeOut s x.uid x.tn q.toNat, mapGet x.train.streams q.toNat with
      | some k, _ => k.fifo.length
      | none, some k => k.fifo.length
      | none, none => 0)
  | .mstat a => some (a, 2,
      match mergeOf s x.uid x.tn with
      | some m => m.emitted % 2 ^ 32 + 2 ^ 32 * m.thr.toNat
      | none => 0xFFFFFFFF)
  | _ => none

/-! ## Launches, tasks and continuations (R127, R178, R179, R279, R281, R291 to R301) -/

/-- A `casl` request `r` with the one operation `o` has been performed at its home as one event (R280,
R293, R341): a comparison that fails writes nothing and answers status 1; one that holds on a page that
cannot be written writes nothing and fails with PROTECTION, reason 1; one that holds on another writes the
new value, and with a usable task entry answers 0 and appends its launch, with the argument record of R281,
to the slice's queue. -/
def CaslDone (s t : State) (req : Nat) (r : Req) (o : LaneOp) (task : BitVec 8) (pay : DWord) : Prop :=
  let n := o.addrs.length
  let old := natLE (o.addrs.map (homeByte s))
  let slice := homeSlice (128 * r.line)
  let holds : Prop := old = o.cmp.toNat % 2 ^ (8 * n)
  ∃ r', mapGet t.net req = some r' ∧
    (¬ holds → SameBytes s t ∧ r'.oks = 0 ∧
      r'.olds = [(o.lane, BitVec.ofNat 128 (old + 2 ^ (8 * n)))] ∧
      (sliceOf t slice).queue = (sliceOf s slice).queue) ∧
    (holds → o.mayWrite = false → SameBytes s t ∧ r'.olds = [] ∧
      mapGet r'.bad o.lane = some (BitVec.ofNat 8 (16 * 6 + 1)) ∧
      (sliceOf t slice).queue = (sliceOf s slice).queue) ∧
    (holds → o.mayWrite = true →
      ∀ h arg prio, (taskEntry (homePerform s req r).1 r.ctx task.toNat).2 = some (h, arg, prio) →
      (∀ pa, homeByte t pa = afterWrites (o.addrs.zip (natLe n o.data.toNat)) (homeByte s) pa) ∧
      r'.olds = [(o.lane, BitVec.ofNat 128 old)] ∧
      ∃ rec_ : BitVec 256, rec_.toNat = old + 2 ^ 64 * (o.va.toNat + 2 ^ 80 * (task.toNat
          + 2 ^ 48 * pay.toNat)) ∧
        (sliceOf t slice).queue = (sliceOf s slice).queue ++
          [⟨bindCore s r.ctx slice, ⟨r.ctx, task, rec_, h, arg, prio, 0⟩, none, some req⟩])

/-- Train `n` of a team of `lanes` lanes as it starts (R127): its lanes, at the address after the header,
with every register 0. -/
def StartsAs (u : Train) (n lanes width budget : Nat) (pc : Addr) (memctl : Word) : Prop :=
  u.width = width ∧
  (∀ l, l < 64 → (u.active.getLsbD l = true ↔ l < width ∧ n * width + l < lanes)) ∧
  u.siding = [readySplit pc u.active] ∧ u.home = List.range width ∧
  u.lanes = (List.range width).map (n * width + ·) ∧ u.k = [] ∧ u.b = [] ∧ u.p = [] ∧ u.j = [] ∧
  u.empty = [] ∧ u.flags = 0 ∧ u.done = 0 ∧ u.trap = 0 ∧ u.fault = 0 ∧ u.role = 0 ∧
  u.budget = budget ∧ u.memctl = memctl.setWidth 13 ∧ u.sq = [] ∧ u.prods = [] ∧ u.handler = none ∧
  u.trapped = false ∧ u.ended = false

/-! ## Words worked out in the manual (R30 to R43, and the entries of the instructions) -/

def vReg (r : BitVec 8) : Opnd := .v r false Turn.id

/-- An unguarded instruction without stop bit and prefix. -/
def bareArgs (form : Form) (dst s1 s2 s3 : Opnd) : Args :=
  ⟨form, false, 7, false, dst, s1, s2, s3, none⟩

def noMods : Mods := ⟨0, 0, false, false, false⟩

/-- R30 to R48: `nop` and plain integer units. -/
def wordTableA : List (Nat × Nat × Instr) :=
  [(8, 0x0000000000003800, .nop (bareArgs .f64 .none .none .none .none)),
   (8, 0x0000000C0404B900, .iadd (bareArgs .f64 (vReg 9) (vReg 4) (vReg 6) .none) noMods),
   (8, 0x0000000C0404B904,
     .iadd ⟨.f64, true, 7, false, vReg 9, vReg 4, vReg 6, .none, none⟩ noMods),
   (8, 0x0008020404055900,
     .iadd ⟨.f64, false, 3, true, vReg 10, .v 4 true Turn.id, .k 2, .none, none⟩ noMods),
   (12, 0x00000819 * 2 ^ 64 + 0x0000000C0404B901,
     .iadd (bareArgs .f96t (vReg 9) (.v 4 false ⟨1, 3⟩) (.v 6 false ⟨2, 0⟩) .none) noMods),
   (12, 0x000186A0 * 2 ^ 64 + 0x800003000404B901,
     .iadd (bareArgs .f96i (vReg 9) (vReg 4) (.imm 100000) .none) noMods)]

/-- R75 to R82, R334: comparisons, control, special registers. -/
def wordTableB : List (Nat × Nat × Instr) :=
  [(8, 0x2400000A04003958,
     .icmp (bareArgs .f64 .none (vReg 4) (vReg 5) .none) ⟨2, 2, false, false, false⟩),
   (8, 0x1000030004003958,
     .icmp (bareArgs .f64 .none (vReg 4) (.imm 0) .none) ⟨1, 0, false, false, false⟩),
   (8, 0x0007FFFFFC81B86C,
     .loop ⟨.f64, true, 7, false, .k 3, .none, .none, .none, none⟩ false (-4)),
   (8, 0x0000000008004818, .br ⟨.f64, false, 1, true, .none, .none, .none, .none, none⟩ false 8),
   (8, 0x004000000A001018, .br ⟨.f64, false, 2, false, .none, .none, .none, .none, none⟩ true 10),
   (8, 0x06000301810538A8,
     .sel (bareArgs .f64 (vReg 10) (.imm 1) (.imm 0) .none) ⟨0, 3, false, false, false⟩),
   (8, 0x00000001C1013848, .rds (bareArgs .f64 (vReg 2) (.sreg 1) .none .none) false),
   (8, 0x0000000000003840, .rte (bareArgs .f64 .none .none .none .none)),
   (8, 0x0040000000003840, .rteNext (bareArgs .f64 .none .none .none .none))]

/-- R106 to R112, R163 to R176: floats and lanes. -/
def wordTableC : List (Nat × Nat × Instr) :=
  [(8, 0x0204100602053A18,
     .ffma (bareArgs .f64 (vReg 10) (vReg 2) (vReg 3) (.k 4)) ⟨0, 1, false, false, false⟩),
   (12, 0x3FC00000 * 2 ^ 64 + 0x800003000502BA11,
     .fmul (bareArgs .f96i (vReg 5) (vReg 5) (.imm 0x3FC00000) .none) noMods),
   (8, 0x0080000000003B00, .join (bareArgs .f64 .none .none .none .none) 2),
   (8, 0x3000000000003B08, .jset (bareArgs .f64 .none .none .none .none) 3 0 0),
   (8, 0x0040000000823B18, .split (bareArgs .f64 (.k 4) .none .none .none) 1),
   (8, 0x06C0000000053B30, .vote (bareArgs .f64 (vReg 10) .none .none .none) false 0 3 3),
   (8, 0x0C0000000201BB40,
     .redx (bareArgs .f64 (vReg 3) (vReg 2) .none .none) ⟨false, 6, false, false, false⟩),
   (12, 0x000000C8 * 2 ^ 64 + 0x8140021180003B51,
     .rvinit (bareArgs .f96i .none (.imm 200) (.k 8) .none) 5)]

/-- R190 to R203, R272 to R284, R309: memory, contractions, a copy. -/
def wordTableD : List (Nat × Nat × Instr) :=
  [(8, 0x2000002951013C00, .ld (bareArgs .f64 (vReg 2) (.b 1) (vReg 20) .none) 2 false ⟨0, false⟩),
   (16, 0x2000241153003C08 * 2 ^ 64 + 0x15B,
     .st ⟨.f64, false, 7, false, .none, .b 3, vReg 8, vReg 9, some ⟨false, false, 0, 0, 5, 3⟩⟩ 2
       ⟨0, false⟩),
   (8, 0x01402C1552033C20,
     .casl (bareArgs .f64 (vReg 6) (.b 2) (vReg 10) (vReg 11)) ⟨5, false, 0, false, .none⟩),
   (8, 0x5A00000000003C28, .fence (bareArgs .f64 .none .none .none .none) 5 5),
   (8, 0x0004100602003C80,
     .cx (bareArgs .f64 .none (vReg 2) (vReg 3) (.k 4)) ⟨0, 0, 0, 0, 0, 0, 0, 0, 0⟩),
   (16, 0x0404000000000032 * 2 ^ 64 + 0x0004100000003C8A,
     .cxs (bareArgs .f128 .none .none .none (.k 4)) ⟨4, 4, 0, 0, 0, 0, 0, 3, 2⟩),
   (8, 0x0000003100053C98, .accrd (bareArgs .f64 (vReg 10) (.k 0) (vReg 24) .none) false),
   (16, 0x04040080200C03C0 * 2 ^ 64 + 0x0E040E0551003D02,
     .bcopy (bareArgs .f128 .none (.b 1) (.k 2) (.k 3))
       ⟨0, true, 3, 64, false, 4, 512, true, 3, 15, 0, 0, 0⟩)]

/-- Units of the manual's worked encodings: bytes, the word with the lowest address's byte lowest, and the
instruction that the assembly line names (03, 04, 06, 08, 09, 10, 11, 14, 17, 18). -/
def wordTable : List (Nat × Nat × Instr) := wordTableA ++ wordTableB ++ wordTableC ++ wordTableD

end Sys2Proof.Machine

open Sys2Proof Sys2Proof.Machine

/-! ## Instructions as words, and the whole machine -/

/-- R33 to R43 and each instruction's entry: the worked encodings of the manual decode to the instruction
that their line names, and encode to those bytes. -/
def Obligations.SpecWordsDecode : Prop :=
  ∀ e ∈ wordTable, decodeUnit (bytesLE e.1 e.2.1) = some e.2.2 ∧ encode e.2.2 = bytesLE e.1 e.2.1

/-- R30 to R47: every well-formed instruction, with every operand, modifier, prefix and extension, decodes
from its own encoding, whatever follows it. -/
def Obligations.EncodeThenDecode : Prop :=
  ∀ i rest, wellFormed i = true → decode (encode i ++ rest) = .ok (i, rest)

/-- R5, R32, R47: what decodes is a well-formed instruction and its own encoding, so that no two
instructions share a word and no bit of a word is dropped. -/
def Obligations.DecodeThenEncode : Prop :=
  ∀ bs i rest, decode bs = .ok (i, rest) → wellFormed i = true ∧ bs = encode i ++ rest

/-- What the manual gives for reset: the mode is starting (R378), no context exists, no team runs, every
partition has all ways and weights of 1 (R218, R382), every core has split 4 and every cluster is unfused
(R135), grants are 0 without a resident team (R383); and stored memory is in its canonical form. Where the
manual leaves a point open this rests on the model's choice, log entry 4. -/
def Obligations.ResetState : Prop :=
  let s := State.reset
  Machine.Inv s ∧ s.boot.mode = 0 ∧ s.boot.fails = 0 ∧ s.boot.reason = 0 ∧ s.teams = [] ∧ s.launches = [] ∧
  s.fused = [] ∧ (∀ c, (ctxOf s c).created = false ∧ (ctxOf s c).scopechk = false) ∧
  (∀ p, (partOf s p).share = 0x0101FFFF ∧ (partOf s p).weight = 1) ∧
  ∀ c, (coreOf s c).split = 4 ∧ (coreOf s c).grant = 0 ∧ (coreOf s c).l1 = [] ∧ (coreOf s c).tlb = []

/-- Every step keeps stored memory in its canonical form: addresses strictly rise and no listed byte is
what an unlisted address reads as (log entry 4), so that equal memories are equal data. -/
def Obligations.MemoryFormKept : Prop :=
  ∀ s t, Machine.Inv s → step s = .next t → Machine.Inv t

/-- R31, R32, R45, R340, R345, R383: where the next action is the issue of a pipe whose run names a split
of a resident train, the core not halted and the grant with room, the step is `exec` of the instruction
that the bytes at the split's address decode to, once the pipe has been marked as issuing and the homes have
done what the fetch asks of them; bytes that decode to nothing trap. Where the next action is a step of the
device, the step is `exec` of it. What follows every action at once changes nothing else than since when a
train is ready and at which split, what a split has seen of what it waits for, from when the cycles of a
contraction count, and the tables still loading. The agenda and the default schedule are the model's choice
(log entry 5); so is the trial by which a train counts as ready (log entry 141). -/
def Obligations.StepRunsDecoded : Prop :=
  (∀ (s : State) (core pipe : Nat) (rest : List Action) (r : Run) (m : Team) (t : Train) (p : Split)
      (pa : Nat),
    (s.agenda = .issue core pipe :: rest ∨
      s.agenda = [] ∧ rest = [] ∧ defaultAction s = .issue core pipe) →
    (pipeOf (coreOf s core) pipe).run = some r → teamOf s r.uid = some m →
    trainOf s r.uid r.train = some t → t.siding[r.idx]? = some p → (coreOf s core).halted = false →
    passesOf t.width ≤ passesLeft s core pipe →
    let s1 := touchFetch (beginIssue { s with agenda := rest } core pipe t.width) core m.ctx p.pc.toNat
    fetchXlate s1 core m.ctx p.pc.toNat = .ok pa → s1.errs = [] →
    (s.partials = [] → s.net = [] →
      s1 = { s with agenda := rest, turn := (core, pipe), cores := s1.cores } ∧
      pipeOf (coreOf s1 core) pipe =
        { pipeOf (coreOf s core) pipe with next := s.now + passesOf t.width }) ∧
    (∀ i tail, decode (blockBytes s1 pa) = .ok (i, tail) → step s = settled (exec i s1)) ∧
    (∀ e, decode (blockBytes s1 pa) = .error e → step s = settled (.next (takeTrap s1 r.uid r.train r.idx
      (if e = .truncated then 2 else 1)
      [fetchRec s1 r.uid r.train t p (if e = .truncated then 2 else 1) 0 0 (e = .truncated)])))) ∧
  (∀ (s : State) (i : Instr) (rest : List Action), s.agenda = .ev i :: rest → argsOf i = none →
    step s = settled (exec i { s with agenda := rest })) ∧
  (∀ t : State, (∀ e ∈ t.teams, e.2.claims = []) →
    ∃ t' : State, settled (.next t) = .next t' ∧
      t' = { t with pick := [], teams := t'.teams, ctxs := t'.ctxs } ∧
      (∀ c, ctxOf t' c = { ctxOf t c with loading := (ctxOf t' c).loading }) ∧
      (∀ uid m, teamOf t uid = some m →
        ∃ m', teamOf t' uid = some m' ∧ m' = { m with trains := m'.trains, jobs := m'.jobs } ∧
          m'.jobs.map (fun j => (j.1, { j.2 with since := 0 })) =
            m.jobs.map fun j => (j.1, { j.2 with since := 0 })) ∧
      ∀ uid tn u, trainOf t uid tn = some u → ∃ u', trainOf t' uid tn = some u' ∧
        u' = { u with siding := u'.siding, next := u'.next, since := u'.since, passed := u'.passed } ∧
        u'.siding.map (fun p => { p with resume := .none }) =
          u.siding.map (fun p => { p with resume := .none }))

/-! ## Integer arithmetic, logic and shifts -/

/-- R59 by R58 and R28: every integer arithmetic instruction writes the exact result, held to the range
under `.sat` (a change sets SAT), cut to the result's width; its frame is that of `Writes`. Where the manual
leaves a point open this rests on the model's choice, log entry 33. -/
def Obligations.IntegerArithmetic : Prop :=
  ∀ i a w u sat n f s x, exactInt i = some (a, (w, u), sat, n, f) → Issues i a s x →
    let exact (l : Nat) : Int := onSources i a x (fun _ p q r =>
      f (operandInt w u p) (operandInt w u q) (operandInt w u r)) l
    Writes i a s x (n / 32)
      (fun l => lowBits n (if sat then heldTo n u (exact l) else exact l))
      (orLanes (writtenLanes x a.dst) fun l =>
        if sat ∧ heldTo n u (exact l) ≠ exact l then fSat else 0)

/-- R63 to R66: bit by bit, the result of the logic instructions, the shifts by B[7:0], the bit fields and
`lop3`; `popc`, `clz` and `ctz` write a 32-bit count, W for `clz` and `ctz` of 0. Where the manual leaves a
point open this rests on the model's choice, log entry 33. -/
def Obligations.BitwiseResults : Prop :=
  (∀ i a w f s x, bitRule i = some (a, w, f) → Issues i a s x →
     Writes i a s x (w / 32) (fun l => onSources i a x (fun _ p q r => numOfBits (f p q r) w) l) 0) ∧
  (∀ i a w count s x, countRule i = some (a, w, count) → Issues i a s x →
     ∃ val, Writes i a s x 1 val 0 ∧
       ∀ l ∈ writtenLanes x a.dst, count (srcNat x.train a.s1 (w / 32) l) (val l))

/-- R60: `iaddx` and `isubx` write the sum or difference with the carry in, which the instruction reads
before any write, and the carry or borrow out to pOut. Where the manual leaves a point open this rests on
the model's choice, log entry 33. -/
def Obligations.CarryChain : Prop :=
  ∀ i a m sub s x, (i = .iaddx a m ∧ sub = false ∨ i = .isubx a m ∧ sub = true) → Issues i a s x →
    ∃ (t : State) (u : Train) (val : Nat → Nat) (carry : Nat → Bool), exec i s = .next t ∧
      trainOf t x.uid x.tn = some u ∧
      (∀ l ∈ x.lanes, val l < 2 ^ opWidth m.d ∧ onSources i a x (fun l p q _ =>
        let cin : Int := if m.s ∧ pGet x.train m.py.toNat l = true then 1 else 0
        let out : Int := if carry l = true then 1 else 0
        if sub then (p - q - cin : Int) = val l - 2 ^ opWidth m.d * out
        else (p + q + cin : Int) = val l + 2 ^ opWidth m.d * out) l) ∧
      Wrote u a.dst (wide m.d) x.lanes val ∧
      (m.px ≠ 7 → ∀ l ∈ x.lanes, pGet u m.px.toNat l = carry l) ∧
      u.flags = x.train.flags ∧ GoesOn x u (nextPc x) ∧
      KeepsRegs x.train u a.dst (wide m.d) x.lanes ∧ KeepsPreds x.train u m.px.toNat x.lanes ∧
      KeepsTrain x.train u ∧ OnlyTrain x s t

/-- R62, R70, R71, R168: the comparisons of integers and of base registers, predicate logic, and the
votes write one predicate of every enabled lane, from inputs read before the write. -/
def Obligations.PredicateResults : Prop :=
  ∀ i a pd f s x, predRule x i = some (a, pd, f) → Issues i a s x →
    WritesPred i s x pd.toNat f 0

/-! ## Floats -/

/-- R106 to R109, R111: FP32 arithmetic, minimum, maximum, sign, class, scaling and integral rounding. Where
the manual leaves a point open this rests on the model's choices, log entries 33 and 125. -/
def Obligations.FloatArithmetic : Prop :=
  ∀ i a f s x, fp32Rule x.train i = some (a, f) → Issues i a s x →
    Writes i a s x 1 (fun l => (f l).1) (orLanes (writtenLanes x a.dst) fun l => (f l).2)

/-- R113 to R115: the dot products and the packed 16-bit instructions. Where the manual leaves a point open
this rests on the model's choices, log entries 31, 33, 125 and 127. -/
def Obligations.PackedArithmetic : Prop :=
  ∀ i a f s x, packedRule x.train i = some (a, f) → Issues i a s x →
    Writes i a s x 1 (fun l => (f l).1) (orLanes (writtenLanes x a.dst) fun l => (f l).2)

/-- R116 to R118, R122: the conversions and the generator. Where the manual leaves a point open this rests
on the model's choice, log entry 33. -/
def Obligations.Conversions : Prop :=
  ∀ i a n f s x, convertRule x.train i = some (a, n, f) → Issues i a s x →
    Writes i a s x n (fun l => (f l).1) (orLanes (writtenLanes x a.dst) fun l => (f l).2)

/-- R86, R94 to R97, R108 to R110: converting a code that is not a NaN to a number and rounding that to the
same format gives the code back, with no flag, in every rounding mode; `fclass` gives exactly one class bit.
A finite number that is not 0 is rounded to the nearest element, a tie to the even one, with inexact where
that changes it, and overflows beyond the range; a sum and a product of finite numbers are rounded once, as
their exact value is; a number rounded to an integer goes to the nearest, a tie to the even one. The
conditions of `fcmp` and the choice of `fmin` and `fmax` are those of the values. -/
def Obligations.FloatFormats : Prop :=
  (∀ f c mode r ov, f ≤ 5 → c < 2 ^ elemBits f → isNan (decodeFloat f c) = false →
     toFloat f mode r ov (decodeFloat f c) = (c, 0)) ∧
  (∀ c, c < 2 ^ 32 → fclassOf c = 2 ^ classBit (decodeFloat 0 c) (c / 2 ^ 23 % 256 ≠ 0)) ∧
  (∀ f s m e r ov, f ≤ 5 → m ≠ 0 → RoundsToNearest f (.fin s m e) (toFloat f 0 r ov (.fin s m e))) ∧
  (∀ f mode r ov xs x, f ≤ 5 → (∀ y ∈ xs, finite y = true) → finite x = true → valueOf x ≠ 0 →
     valueOf x = (xs.map valueOf).sum → sumRound f mode r ov xs xs = toFloat f mode r ov x) ∧
  (∀ f mode r ov a b x, f ≤ 5 → finite a = true → finite b = true → finite x = true → valueOf x ≠ 0 →
     valueOf x = valueOf a * valueOf b → mulRound f mode r ov a b = toFloat f mode r ov x) ∧
  (∀ lo hi r x, finite x = true → (toInt lo hi 0 r x).2.getLsbD 0 = false →
     let y := (toInt lo hi 0 r x).1
     lo ≤ y ∧ y ≤ hi ∧ 2 * |valueOf x - y| ≤ 1 ∧ (2 * |valueOf x - y| = 1 → y % 2 = 0)) ∧
  (∀ a b, isNan a = false → isNan b = false →
     (fcmpHolds 0 a b = true ↔ sameValue a b) ∧ (fcmpHolds 1 a b = true ↔ ¬ sameValue a b) ∧
     (fcmpHolds 2 a b = true ↔ below a b) ∧ (fcmpHolds 3 a b = true ↔ below a b ∨ sameValue a b) ∧
     (fcmpHolds 4 a b = true ↔ below b a) ∧ (fcmpHolds 5 a b = true ↔ below b a ∨ sameValue a b) ∧
     fcmpHolds 6 a b = false ∧ fcmpHolds 7 a b = true) ∧
  (∀ c a b, c < 8 → isNan a = true ∨ isNan b = true →
     fcmpHolds c a b = (c == 1 || c == 6)) ∧
  (∀ f a b, f ≤ 5 → isNan (decodeFloat f a) = false → isNan (decodeFloat f b) = false →
     below (decodeFloat f a) (decodeFloat f b) →
     minMaxCode f true a b = (b, 0) ∧ minMaxCode f true b a = (b, 0) ∧
     minMaxCode f false a b = (a, 0) ∧ minMaxCode f false b a = (a, 0))

/-- R110: `fcmp` writes its predicate by the condition, and a signalling NaN in an enabled lane sets invalid,
as nothing else does. Where the manual leaves a point open this rests on the model's choices, log entries
33 and 124. -/
def Obligations.FloatCompare : Prop :=
  ∀ a m s x, Issues (.fcmp a m) a s x →
    WritesPred (.fcmp a m) s x m.px.toNat
      (fun l => fcmpHolds m.py.toNat (floatAt x.train a a.s1 l) (floatAt x.train a a.s2 l))
      (if ∃ l ∈ x.lanes, isSnan (floatAt x.train a a.s1 l) = true ∨
          isSnan (floatAt x.train a a.s2 l) = true then fInvalid else 0)

/-- R24, R27, R61, R104, R112: `div`, `rem` and the FP32 functions issue a producer; the fill writes the
quotient, remainder or function value later, with the flags. Where the manual leaves a point open this rests
on the model's choices, log entries 5 and 34. -/
def Obligations.LaterProducers : Prop :=
  ∀ i a n lat f s x, laterRule i = some (a, n, lat, f) → Issues i a s x →
    Launches i a s x n (fun l => onSources i a x (fun _ p q _ => (f p q).1) l)
      (orLanes (writtenLanes x a.dst) fun l => onSources i a x (fun _ p q _ => (f p q).2) l)
      (s.now + lat)

/-- R24, R19, R202, R272, R277: a fill writes each lane's value and fills the destination: what an arithmetic
producer computed, the bytes of a load or of `accrd` put together and extended, or an atomic's old value,
with the predicate of a `cas`. The flags are ORed, the producer is gone, an instruction that stood until its
data came learns that they have, and every other register stays. Where the manual leaves a point open this
rests on the model's choice, log entry 33. -/
def Obligations.ProducerFill : Prop :=
  ∀ uid tn id s (m : Team) (t : Train) (p : Producer), teamOf s uid = some m →
    trainOf s uid tn = some t → mapGet t.prods id = some p → p.bad = [] → (∀ q ∈ p.parts, q.bad = 0) →
    (match p.kind with
      | .alu => True
      | .load _ _ => ∀ q ∈ p.parts, q.got.isSome = true ∨
          ((q.place = .scr uid ∨ ∃ w, q.place = .acc w) ∧ loadTurn s uid tn t p.seq = true ∧
            t.sq = [] ∧ s.net = [] ∧ s.errs = [] ∧ m.jobs = [] ∧ s.pick = [])
      | .acc _ => ∀ q ∈ p.parts, q.got.isSome = true ∨
          ((∃ w, q.place = .acc w) ∧ t.sq = [] ∧ s.net = [] ∧ s.errs = [] ∧ m.jobs = [])
      | _ => lanesBack p = true) →
    let got (q : Part) : Nat := match q.got, q.place with
      | some v, _ => v.toNat
      | none, .scr _ => natLE (q.addrs.map (scrGet m)) % 2 ^ 64
      | none, _ => natLE (q.addrs.map (accGet m)) % 2 ^ 64
    let sum (l : Nat) : Nat :=
      ((p.parts.filter (·.lane == l)).map fun q => got q * 2 ^ (8 * q.shift)).sum
    let val (l : Nat) : Nat := match p.kind with
      | .acc _ => sum l
      | .load n sx =>
        let v := sum l
        if sx = true ∧ v.testBit (8 * n - 1) = true then v + (2 ^ 32 - 2 ^ (8 * n)) else v
      | _ => (defGet 0 p.vals l).toNat
    ∃ t' u, exec (.longLatencyFill uid tn id) s = .next t' ∧ trainOf t' uid tn = some u ∧
      mapGet u.prods id = none ∧ u.flags = t.flags ||| p.flags ∧
      u.siding = (t.siding.map fun q => { q with resume := dataCameTo id p.lanes q.resume }) ∧
      u.handler = (t.handler.map fun h => { h with resume := dataCameTo id p.lanes h.resume }) ∧
      t' = { s with teams := t'.teams, cores := t'.cores, drawn := t'.drawn } ∧ (∀ pa, homeByte t' pa = homeByte s pa) ∧
      (match p.kind with
        | .cas _ d => (d ≠ 7 → ∀ l ∈ lanesOf p.lanes, pGet u d.toNat l = p.oks.getLsbD l) ∧
            KeepsPreds t u d.toNat (lanesOf p.lanes)
        | _ => u.p = t.p) ∧
      match p.dst with
      | .v r n =>
        (∀ l ∈ lanesOf p.lanes, vGroup u r l n = val l % 2 ^ (32 * n)) ∧
        (∀ q l, l < 64 → ¬ (r ≤ q ∧ q < r + n ∧ l ∈ lanesOf p.lanes) → vGet u q l = vGet t q l) ∧
        (∀ q, q ∈ u.empty ↔ q ∈ t.empty ∧ ¬ (r ≤ q ∧ q < r + n)) ∧ u.k = t.k
      | .k r n =>
        (∀ l, (lanesOf p.lanes).head? = some l → kGroup u r n = val l % 2 ^ (32 * n)) ∧
        (∀ q, ¬ (r ≤ q ∧ q < r + n) → kGet u q = kGet t q) ∧ u.empty = t.empty ∧ u.v = t.v

/-! ## Moves -/

/-- R67 to R72: moves, immediates, `sel`, `bset`, `bget`, `badd`, `lea` and `pget`; `pset` sets the predicates
of its mask to the bits of the source in every enabled lane, and writes nothing else. Where the manual
leaves a point open this rests on the model's choices, log entries 32, 33 and 129. -/
def Obligations.Moves : Prop :=
  (∀ i a n f s x, moveRule x.train i = some (a, n, f) → Issues i a s x → Writes i a s x n f 0) ∧
  (∀ a mask s x, Issues (.pset a mask) a s x →
     ∃ t u, exec (.pset a mask) s = .next t ∧ trainOf t x.uid x.tn = some u ∧
       (∀ n, n < 7 → ∀ l, l < 64 → pGet u n l =
         if mask.getLsbD n = true ∧ l ∈ x.lanes then (srcNat x.train a.s1 1 l).testBit n
         else pGet x.train n l) ∧
       u.flags = x.train.flags ∧ GoesOn x u (nextPc x) ∧ u.v = x.train.v ∧ u.k = x.train.k ∧
       u.b = x.train.b ∧ KeepsTrain x.train u ∧ OnlyTrain x s t)

/-! ## Reads across lanes, special registers -/

/-- R165: `jget` writes jN, as it is held, to D of every enabled lane, once to a K destination. `actv` writes
the enabled lanes, the lanes of the split or the active lanes; lanes that are not active are 0 in each of
these three. -/
def Obligations.LaneMaskReads : Prop :=
  (∀ a n s x, Issues (.jget a n) a s x →
    Writes (.jget a n) a s x 2 (fun _ => (jGet x.train n.toNat).toNat) 0) ∧
  (∀ a w s x, Issues (.actv a w) a s x →
    let m : LaneMask := if w = 0 then maskOf x.lanes else if w = 1 then x.split.mask else x.train.active
    Writes (.actv a w) a s x 2 (fun _ => m.toNat) 0 ∧
    (x.split.mask &&& ~~~x.train.active = 0 → m &&& ~~~x.train.active = 0))

/-- R168 to R174, R121: ballots, `match`, `perm`, reductions, scans, `rvget` and the codebook decode, which
here is issued while no table of its context is being loaded (R120). Where the manual leaves a point open
this rests on the model's choices, log entries 32, 33 and 115. -/
def Obligations.LaneReads : Prop :=
  ∀ i a n f s x, laneRule s x i = some (a, n, f) → Issues i a s x →
    (∀ b hi e4m3, i = .cbdec b hi e4m3 → (ctxOf s x.team.ctx).loading = []) →
    Writes i a s x n (fun l => (f l).1) (orLanes (writtenLanes x a.dst) fun l => (f l).2)

/-- R167: `elect` sets pD in the lowest enabled lane and clears it in the others, and Kd receives that
lane's number. -/
def Obligations.ElectsLowest : Prop :=
  ∀ a pd wr s x, Issues (.elect a pd wr) a s x →
    ∃ t u c, exec (.elect a pd wr) s = .next t ∧ trainOf t x.uid x.tn = some u ∧
      c ∈ x.lanes ∧ (∀ l ∈ x.lanes, c ≤ l) ∧
      (pd ≠ 7 → ∀ l ∈ x.lanes, pGet u pd.toNat l = (l == c)) ∧
      (wr = true → Wrote u a.dst 1 x.lanes fun _ => c) ∧
      u.flags = x.train.flags ∧ GoesOn x u (nextPc x) ∧
      KeepsRegs x.train u (if wr then a.dst else .none) 1 x.lanes ∧
      KeepsPreds x.train u pd.toNat x.lanes ∧ KeepsTrain x.train u ∧ OnlyTrain x s t

/-- R73, R74, R17: `rds` gives every special register's value, `%flags` once nothing that will change it is
outstanding (R19). Where the manual leaves a point open this rests on the model's choice, log entry 116. -/
def Obligations.SpecialRegisterRead : Prop :=
  ∀ a d r s x, a.s1 = .sreg r → Issues (.rds a d) a s x →
    (r = 10 → flagsReady x.team x.tn x.train = true) →
    Writes (.rds a d) a s x (wide d) (fun l => sregRule s x l r.toNat) 0

/-- R73, R74, R16: `wrs` writes its special register from the lowest enabled lane, `%flags` by the wait
of R19 and `%memctl` where no code is reserved (R20), and changes nothing else; `%stash` is the team's. A
reserved code leaves `%memctl` and raises ILLEGAL_INSTRUCTION. -/
def Obligations.SpecialRegisterWrite : Prop :=
  (∀ a d r s x, a.dst = .sreg r → Issues (.wrs a d) a s x →
     let v := srcNat x.train a.s1 (wide d) (headLane x.lanes)
     (r = 10 → flagsReady x.team x.tn x.train = true) → (r = 11 → memctlLegal v = true) →
     ∃ t u m, exec (.wrs a d) s = .next t ∧ trainOf t x.uid x.tn = some u ∧
       teamOf t x.uid = some m ∧ GoesOn x u (nextPc x) ∧
       u = { x.train with
         done := if r = 9 then BitVec.ofNat 64 v else x.train.done
         flags := if r = 10 then BitVec.ofNat 6 v else x.train.flags
         memctl := if r = 11 then BitVec.ofNat 13 v else x.train.memctl
         trap := if r = 15 then BitVec.ofNat 32 v else x.train.trap
         fault := if r = 16 then BitVec.ofNat 80 v else x.train.fault
         seq := u.seq
         siding := u.siding
         since := u.since
         passed := u.passed } ∧
       m = { x.team with
         stash := if r = 12 then BitVec.ofNat 80 v else x.team.stash
         trains := m.trains } ∧
       t = { s with teams := t.teams, cores := t.cores } ∧
       (∀ u, u ≠ x.uid → teamOf t u = teamOf s u) ∧
       (∀ k, k ≠ x.tn → trainOf t x.uid k = trainOf s x.uid k)) ∧
  (∀ a s x, a.dst = .sreg 11 → Issues (.wrs a false) a s x →
     memctlLegal (srcNat x.train a.s1 1 (headLane x.lanes)) = false →
     exec (.wrs a false) s = .next (clearRegs (.wrs a false) a x (trapAt x 1 0 0 s)))

/-! ## Control flow -/

/-- R75 to R78, R141, R142: `br`, `call`, `calli` and `ret` send every enabled lane to the target and every
other lane of the split on, dividing the split only when both have lanes; a link is the address after the
call, written once for the train. `loop` takes 1 from its counter, once for the train; its enabled lanes go
to the target while that is not 0. `bri` divides its split into one split per target, in the order of their
lowest lanes, with the lanes that are not enabled first, or last under the hint. A branch that would divide
its split while the Siding lacks the entries waits for them and changes nothing else of its train; where no
split of the train can go on, JOIN_DEADLOCK is taken (R145). Where the manual leaves a point open this rests
on the model's choice, log entry 30. -/
def Obligations.Branches : Prop :=
  (∀ i a h T b s x, branchRule x i = some (a, h, T, b) → Issues i a s x →
     (x.split.mask &&& ~~~maskOf x.lanes = 0 ∨ x.train.siding.length < 16) →
     ∃ t u, exec i s = .next t ∧ trainOf t x.uid x.tn = some u ∧
       u.siding = sidingWith x (branchSplits x h T) ∧ u.seq = x.train.seq + 1 ∧
       (∀ r, bGet u r = b r) ∧ u.v = x.train.v ∧ u.k = x.train.k ∧ u.p = x.train.p ∧
       u.flags = x.train.flags ∧ KeepsTrain x.train u ∧ OnlyTrain x s t) ∧
  (∀ a h off r s x, a.dst = .k r → Issues (.loop a h off) a s x →
     (kGet x.train r.toNat - 1 = 0 ∨ x.split.mask &&& ~~~maskOf x.lanes = 0 ∨
       x.train.siding.length < 16) →
     ∃ t u, exec (.loop a h off) s = .next t ∧ trainOf t x.uid x.tn = some u ∧
       kGet u r.toNat = kGet x.train r.toNat - 1 ∧
       (∀ q, q ≠ r.toNat → kGet u q = kGet x.train q) ∧
       u.siding = sidingWith x (if kGet x.train r.toNat - 1 = 0 then [wholeAt x (nextPc x)]
         else branchSplits x h (offsetTarget x off)) ∧
       u.seq = x.train.seq + 1 ∧ u.v = x.train.v ∧ u.b = x.train.b ∧ u.p = x.train.p ∧
       u.flags = x.train.flags ∧ KeepsTrain x.train u ∧ OnlyTrain x s t) ∧
  (∀ a h s x, Issues (.bri a h) a s x →
     let target (l : Nat) : Addr := evenAddr (BitVec.ofNat 80
       (addressOf (srcNat x.train a.s1 1 l) (srcNat x.train a.s2 1 l) false 0))
     let rest := x.split.mask &&& ~~~maskOf x.lanes
     ∃ gs : List (Addr × LaneMask),
       (gs.map Prod.fst).Nodup ∧ (gs.map fun g => headLane (lanesOf g.2)).Pairwise (· < ·) ∧
       (∀ l ∈ x.lanes, target l ∈ gs.map Prod.fst) ∧
       (∀ g ∈ gs, g.2 ≠ 0 ∧ ∀ l, l < 64 → (g.2.getLsbD l = true ↔ l ∈ x.lanes ∧ target l = g.1)) ∧
       (16 - x.train.siding.length < gs.length + (if rest = 0 then 0 else 1) - 1 →
         WaitsForEntries (.bri a h) s x (gs.length + (if rest = 0 then 0 else 1) - 1)) ∧
       (gs.length + (if rest = 0 then 0 else 1) - 1 ≤ 16 - x.train.siding.length →
         ∃ t u, exec (.bri a h) s = .next t ∧ trainOf t x.uid x.tn = some u ∧
           u.siding.map (fun p => (p.pc, p.mask)) =
             (x.train.siding.take x.idx).map (fun p => (p.pc, p.mask)) ++
             (if rest = 0 then gs else if h then gs ++ [(nextPc x, rest)] else (nextPc x, rest) :: gs) ++
             (x.train.siding.drop (x.idx + 1)).map (fun p => (p.pc, p.mask)) ∧
           u.v = x.train.v ∧ u.k = x.train.k ∧ u.b = x.train.b ∧ u.p = x.train.p ∧
           u.flags = x.train.flags ∧ KeepsTrain x.train u ∧ OnlyTrain x s t)) ∧
  (∀ i a h T b s x, branchRule x i = some (a, h, T, b) → Issues i a s x →
     16 ≤ x.train.siding.length → x.split.mask &&& ~~~maskOf x.lanes ≠ 0 → WaitsForEntries i s x 1) ∧
  (∀ a h off r s x, a.dst = .k r → Issues (.loop a h off) a s x → kGet x.train r.toNat - 1 ≠ 0 →
     16 ≤ x.train.siding.length → x.split.mask &&& ~~~maskOf x.lanes ≠ 0 →
     WaitsForEntries (.loop a h off) s x 1)

/-- R48: `nop` changes nothing but the place of its split; its guard, stop bit and length are free as R30,
R35 and R47 permit, every other field of it and its extensions are 0, and the all-zero word is a `nop`
guarded by p0. -/
def Obligations.NopChangesNothing : Prop :=
  (∀ a s x, Issues (.nop a) a s x →
    ∃ t u, exec (.nop a) s = .next t ∧ trainOf t x.uid x.tn = some u ∧ GoesOn x u (nextPc x) ∧
      u = { x.train with
        seq := x.train.seq + 1, siding := u.siding, since := u.since, passed := u.passed } ∧
      OnlyTrain x s t) ∧
  (∀ r : Raw, r.op = 0 → r.pre = none →
    ((∃ i, decodeRaw r = .ok i) ↔ r.len ≠ 3 ∧ ¬ (r.guard = 7 ∧ r.gneg = true) ∧ r.dst = 0 ∧ r.s1 = 0 ∧
      r.s2 = 0 ∧ r.s3 = 0 ∧ r.e1 = false ∧ r.e2 = false ∧ r.e3 = false ∧ r.fn = 0 ∧ r.ext = 0) ∧
    ∀ i, decodeRaw r = .ok i → ∃ a, i = .nop a ∧ a.guard = r.guard ∧ a.gneg = r.gneg ∧ a.stop = r.stop) ∧
  encode (.nop ⟨.f64, false, 7, false, .none, .none, .none, .none, none⟩) = [0, 0x38, 0, 0, 0, 0, 0, 0] ∧
  encode (.nop ⟨.f64, true, 7, false, .none, .none, .none, .none, none⟩) = [4, 0x38, 0, 0, 0, 0, 0, 0] ∧
  decodeUnit [0, 0, 0, 0, 0, 0, 0, 0] =
    some (.nop ⟨.f64, false, 0, false, .none, .none, .none, .none, none⟩)

/-- R81, R82: after `yield` the run has ended, and the train competes as though ready only from the next
cycle. `sleep N` ends the run and waits; N cycles after it was reached its wait ends, on a core that is
not halted, and its next issue completes it. -/
def Obligations.YieldAndSleep : Prop :=
  (∀ a s x, Issues (.yield a) a s x →
    ∃ t u, exec (.yield a) s = .next t ∧ trainOf t x.uid x.tn = some u ∧ GoesOn x u (nextPc x) ∧
      u.since = s.now + 1 ∧ (pipeOf (coreOf t x.core) x.pipe).run = none ∧
      u = { x.train with
        seq := x.train.seq + 1, siding := u.siding, since := u.since, passed := u.passed } ∧
      OnlyTrain x s t) ∧
  (∀ a s x, Issues (.sleep a) a s x → x.split.resume ≠ .slept →
    ∃ t u, exec (.sleep a) s = .next t ∧ trainOf t x.uid x.tn = some u ∧
      (pipeOf (coreOf t x.core) x.pipe).run = none ∧
      u.siding[x.idx]? = some { x.split with
        st := .waiting (.sleep (s.now + srcNat x.train a.s1 1 0)) } ∧
      OnlyTrain x s t) ∧
  (∀ uid tn (s : State) (m : Team) (t : Train) (n : Nat) (p : Split) till, teamOf s uid = some m →
    isResident m = true → (coreOf s (coreOfTeam m)).halted = false → trainOf s uid tn = some t →
    t.siding[n]? = some p → p.st = .waiting (.sleep till) →
    ∃ t' u, exec (.sleepExpire uid tn) s = .next t' ∧ trainOf t' uid tn = some u ∧
      u.siding[n]? = some (if till ≤ s.now then { p with st := .ready, resume := .slept } else p) ∧
      t' = { s with teams := t'.teams }) ∧
  (∀ uid tn (s : State) (m : Team), teamOf s uid = some m →
    isResident m = false ∨ (coreOf s (coreOfTeam m)).halted = true →
    exec (.sleepExpire uid tn) s = .next s) ∧
  (∀ a s x, Issues (.sleep a) a s x → x.split.resume = .slept →
    ∃ t u, exec (.sleep a) s = .next t ∧ trainOf t x.uid x.tn = some u ∧ GoesOn x u (nextPc x) ∧
      u = { x.train with
        seq := x.train.seq + 1, siding := u.siding, since := u.since, passed := u.passed } ∧
      OnlyTrain x s t)

/-- R79, R143 to R145, R201: `exit`, when no producer is outstanding and its scratchpad stores and accumulator
work are done, takes its enabled lanes out of the active lanes, the join masks and the Siding, where the
other lanes of its split go on; a join that is then complete completes. A train with no active lane left
ends. Registers, predicates, `%flags` and `%done` stay. Where every split that is left can no longer go
on, JOIN_DEADLOCK is taken. When the lanes of a handler have all left, the train leaves it (the model's
choice, log entry 41); that the join masks lose lanes whose exit ends the train is the model's choice too
(log entry 117). -/
def Obligations.ExitLeaves : Prop :=
  ∀ a s x, Issues (.exit a) a s x → x.train.prods = [] →
    arrivalReady s x.uid x.tn x.team x.train = true →
    let m := maskOf x.lanes
    let without (l : List Split) : List Split :=
      (l.map fun p => { p with mask := p.mask &&& ~~~m }).filter (·.mask ≠ 0)
    ∃ t u, exec (.exit a) s = .next t ∧ trainOf t x.uid x.tn = some u ∧
      u.active = x.train.active &&& ~~~m ∧ (∀ n, n < 8 → jGet u n = jGet x.train n &&& ~~~m) ∧
      u.v = x.train.v ∧ u.k = x.train.k ∧ u.b = x.train.b ∧ u.p = x.train.p ∧ u.empty = x.train.empty ∧
      u.flags = x.train.flags ∧ u.done = x.train.done ∧
      (u.active = 0 → u.ended = true ∧ u.siding = []) ∧
      (u.active ≠ 0 → x.team.claims = [] → ∃ ls : Nat → List Split,
        ls 0 = without (sidingWith x [wholeAt x (nextPc x)]) ∧
        (∀ n, n < 8 → Rejoins (BitVec.ofNat 3 n) (jGet u n) u.active (ls n) (ls (n + 1))) ∧
        let leaves : Bool := x.train.handler.isSome && (ls 8).all (·.held)
        let L := if leaves then (ls 8).map fun p => { p with held := false } else ls 8
        ∃ t1 u1, trainOf t1 x.uid x.tn = some u1 ∧ OnlyTrain x s t1 ∧
          (pipeOf (coreOf t1 x.core) x.pipe).run = none ∧
          u1 = { x.train with
            active := u.active
            j := u.j
            siding := L
            handler := if leaves then none else x.train.handler
            seq := x.train.seq + 1
            since := u1.since
            passed := u1.passed } ∧
          (¬ Stuck L → t = t1) ∧
          (Stuck L → x.train.pend = none → x.train.trapped = false → ∀ p, L.head? = some p →
            t = takeTrap t1 x.uid x.tn 0 11 [deadlockRecord x p]))

/-! ## The checks before an instruction's effect; traps -/

/-- R11, R31, R32, R13, R25, R29, R234: the enabled lanes are the active lanes of the split in which the
guard reads true; an instruction without one changes nothing but the place of its split. The checks before
an instruction's effect, in their order: placement, then encoding and budget, which trap whether or not a
lane is enabled; no effect without an enabled lane; a place in the store queue; then the empty sources, the
first of which traps or waits. That an instruction that stands until its data come is not checked anew, and
where the manual leaves a point open, this rests on the model's choice, log entry 24. -/
def Obligations.ChecksInOrder : Prop :=
  (∀ i a s x, argsOf i = some a → siteOf s i a = some x → x.split.replay = false →
     (∀ p ∈ x.train.siding, p.mask &&& ~~~x.train.active = 0) → ∀ l, l < 64 →
     (l ∈ x.lanes ↔ x.train.active.getLsbD l = true ∧ x.split.mask.getLsbD l = true ∧
       Bool.xor (pGet x.train a.guard.toNat l) a.gneg = true)) ∧
  (∀ i a s x, argsOf i = some a → siteOf s i a = some x → awaitsData x.split.resume = false →
     x.pc.toNat % 32 + x.len ≤ 32 → wellFormed i = true → inBudget x.train i a = true → x.lanes = [] →
     ∃ t u, exec i s = .next t ∧ trainOf t x.uid x.tn = some u ∧ GoesOn x u (nextPc x) ∧
       KeepsAll x.train u ∧ OnlyTrain x s t) ∧
  (∀ i a s x, argsOf i = some a → siteOf s i a = some x → awaitsData x.split.resume = false →
     (32 < x.pc.toNat % 32 + x.len →
       exec i s = .next (trapHere x 2 [wholeRecord x 2 0 0 x.pc 8 true 0] s)) ∧
     (x.pc.toNat % 32 + x.len ≤ 32 → (wellFormed i = false ∨ inBudget x.train i a = false) →
       exec i s = .next (trapHere x 1 [wholeRecord x 1 0 0 0 0 false 0] s)) ∧
     (x.pc.toNat % 32 + x.len ≤ 32 → wellFormed i = true → inBudget x.train i a = true →
       (x.lanes = [] → exec i s = .next (advance x s)) ∧
       (x.lanes ≠ [] → takesEntry i = true → 16 ≤ x.train.sq.length →
         exec i s = .next (waitFor x .sqRoom s)) ∧
       (x.lanes ≠ [] → (takesEntry i = true → x.train.sq.length < 16) →
         ∀ before k r n e after, vSources x.train i a = before ++ (k, r, n, e) :: after →
           (∀ q ∈ before, groupEmpty x.train q.2.1 q.2.2.1 = false) →
           groupEmpty x.train r n = true →
           exec i s = .next (if e then
               trapHere x 3 [wholeRecord x 3 k (BitVec.ofNat 32 r) 0 0 false 0] s
             else waitFor x (.full ((List.range n).map (r + ·))) s))))

/-- R80, R330: `trap` takes SYS once for the train, with its code in the record's detail and its own
address as the resume address. -/
def Obligations.SystemCall : Prop :=
  ∀ a code s x, Issues (.trap a code) a s x →
    exec (.trap a code) s =
      .next (trapHere x 16 [wholeRecord x 16 0 code 0 0 false 0] s)

/-- R331, R332, R335: once its records are published, a trap writes `%trap` and `%fault`, and its split goes
on at the vector with its lanes, every other split held; in a handler, with its mask bit 0 or without
a vector, the train halts instead. Registers, predicates and empty bits are left. While the fault queue
lacks room, or an earlier claim waits, the entry is pending and the train's claim stands last in the
queue of claims. -/
def Obligations.TrapEntered : Prop :=
  (∀ s uid tn idx code recs s1 addr m m1 t, teamOf s uid = some m →
     (ctxOf s m.ctx).fqWait = [] → writeRecs (endRunOf s uid tn) m.ctx recs = .ok s1 addr →
     teamOf s1 uid = some m1 → m1.ctx = m.ctx → trainOf s1 uid tn = some t → 1 ≤ code →
     let c := ctxOf s1 m.ctx
     ∃ u, trainOf (takeTrap s uid tn idx code recs) uid tn = some u ∧
       u.trap = BitVec.ofNat 32 code ∧ u.fault = addr ∧ u.v = t.v ∧ u.k = t.k ∧ u.b = t.b ∧ u.p = t.p ∧
       u.empty = t.empty ∧ u.done = t.done ∧ u.flags = t.flags ∧ u.pend = none ∧
       (t.handler = none → c.trapmask.getLsbD (code - 1) = true → c.vector ≠ 0 →
         u.trapped = t.trapped ∧ u.siding.length = t.siding.length ∧
         (∀ p, t.siding[idx]? = some p →
           u.handler = some ⟨p.pc, p.resume⟩ ∧
           u.siding[idx]? = some ⟨c.vector, p.mask, .ready, false, .none, false⟩) ∧
         (∀ j p, j ≠ idx → t.siding[j]? = some p → u.siding[j]? = some { p with held := true })) ∧
       (t.handler.isSome = true ∨ c.trapmask.getLsbD (code - 1) = false ∨ c.vector = 0 →
         u.trapped = true ∧ u.siding = t.siding ∧ u.handler = t.handler)) ∧
  (∀ s uid tn idx code recs m t, teamOf s uid = some m → trainOf s uid tn = some t →
     ((ctxOf s m.ctx).fqWait ≠ [] ∨ ∃ r, writeRecs (endRunOf s uid tn) m.ctx recs = .noRoom r) →
     ∃ u, trainOf (takeTrap s uid tn idx code recs) uid tn = some u ∧
       u.pend = some ⟨idx, code, recs⟩ ∧ u.siding = t.siding ∧ u.trap = t.trap ∧ u.fault = t.fault ∧
       (ctxOf (takeTrap s uid tn idx code recs) m.ctx).fqWait =
         (ctxOf s m.ctx).fqWait ++ [.train uid tn] ∧
       (s.partials = [] → s.net = [] → (takeTrap s uid tn idx code recs).mem = s.mem))

/-- R335, R336: where each field of a 64-byte record lies, `seq` being the count produced before it was
claimed; where the fields of the access body lie (R337); and a record that is published stands at its home in
the slot of that number, the last of its trap, with the count produced raised by one. Where the manual leaves
a point open this rests on the model's choice, log entry 37. -/
def Obligations.RecordLayout : Prop :=
  (∀ (r : Rec) (last : Bool) (seq : Nat),
    let b := recBytes r last seq
    let at_ (k n : Nat) : Nat := natLE ((b.drop k).take n)
    b.length = 64 ∧ at_ 0 1 = r.code.toNat ∧ at_ 1 1 = r.source.toNat ∧ at_ 2 1 = r.reason.toNat ∧
    at_ 3 1 = r.write.toNat + 2 * r.atomic.toNat + 4 * r.fetch.toNat + 8 * last.toNat ∧
    at_ 4 2 = r.ctx.toNat ∧ at_ 6 2 = r.core.toNat ∧ at_ 8 4 = r.team.toNat ∧
    at_ 12 4 = r.detail.toNat ∧ at_ 16 10 = r.resume.toNat ∧ at_ 26 1 = r.train.toNat ∧
    at_ 27 1 = r.unit.toNat ∧ at_ 28 4 = seq % 2 ^ 32 ∧
    (∀ addr len lanes done, r.body = accessBody addr len lanes done →
      at_ 32 10 = addr.toNat ∧ at_ 42 2 = 0 ∧ at_ 44 4 = len % 2 ^ 32 ∧ at_ 48 8 = lanes.toNat ∧
      at_ 56 8 = done.toNat)) ∧
  (∀ s ctx r t addr ctl pas s1 cas, s.partials = [] → s.net = [] →
    devLoad s ctx (ctxOf s ctx).fqctl.toNat 16 = .ok ctl → writeRecs s ctx [r] = .ok t addr →
    let produced := natLE (ctl.take 8)
    let slot := (ctxOf s ctx).fqbase.toNat + 64 * (produced % 2 ^ (ctxOf s ctx).fqsize.toNat)
    devXlates s ctx .write 64 slot none = .ok pas → devStore s ctx slot (recBytes r true produced) = .ok s1 →
    devXlates s1 ctx .write 8 (ctxOf s ctx).fqctl.toNat none = .ok cas →
    pas.Nodup → cas.Nodup → (∀ a ∈ cas, a ∉ pas) →
    pas.map (homeByte t) = recBytes r true produced ∧
    cas.map (homeByte t) = natLe 8 ((produced + 1) % 2 ^ 64) ∧ addr = BitVec.ofNat 80 slot)

/-- R334: `rte` reads the record at `%fault`; `%done` takes its done mask (0 for a launch body), the
handler's lanes become one split at the record's resume address, every held split is ready again, and the
train has left the handler; its registers stay. `rte.next` goes on after the unit at that address, with
`%done` 0. Outside a handler both raise ILLEGAL_INSTRUCTION. Where the manual leaves a point open this rests
on the model's choice, log entry 35. -/
def Obligations.ReturnFromHandler : Prop :=
  (∀ (next : Bool) a s x h rec_ len,
     let i : Instr := if next then .rteNext a else .rte a
     Issues i a s x → x.train.handler = some h → x.train.prods = [] →
     ownStores s x.uid x.tn x.train = false → runCount s x = 0 →
     let s1 := touch s x.team.ctx .read x.train.fault.toNat 64
     devLoad s1 x.team.ctx x.train.fault.toNat 64 = .ok rec_ →
     let A : Addr := BitVec.ofNat 80 (natLE ((rec_.drop 16).take 10) / 4 * 4)
     (next = true → unitLength (touch s1 x.team.ctx .fetch A.toNat 12) x.team.ctx A.toNat = .ok len) →
     ∃ t u p, exec i s = .next t ∧ trainOf t x.uid x.tn = some u ∧ u.handler = none ∧
       u.done = (if next = true ∨ natLE (rec_.take 1) = 14 then 0
         else BitVec.ofNat 64 (natLE (rec_.drop 56))) ∧
       p ∈ u.siding ∧ p.pc = (if next then A + BitVec.ofNat 80 len else A) ∧
       p.mask = lanesUnion (x.train.siding.filter (!·.held)) ∧ p.st = .ready ∧ p.replay = !next ∧
       (∀ q ∈ u.siding, q.held = false ∧ (q = p ∨
         ∃ r ∈ x.train.siding, r.held = true ∧ q = { r with held := false })) ∧
       (∀ r ∈ x.train.siding, r.held = true → { r with held := false } ∈ u.siding) ∧
       u.v = x.train.v ∧ u.k = x.train.k ∧ u.b = x.train.b ∧ u.p = x.train.p ∧ u.empty = x.train.empty ∧
       u.flags = x.train.flags ∧ u.trap = x.train.trap ∧ u.fault = x.train.fault ∧
       (s.partials = [] → s.net = [] → t.mem = s.mem)) ∧
  (∀ (next : Bool) a s x,
     let i : Instr := if next then .rteNext a else .rte a
     Issues i a s x → x.train.handler = none →
     exec i s = .next (trapHere x 1 [wholeRecord x 1 0 0 0 0 false 0] s))

/-! ## Join masks, split and fuse -/

/-- R142, R143, R145, R164: the enabled lanes of jN arrive at the `join` and wait in the split's place, the
others go on as the split after it; without an arriving lane nothing changes. The join completes where
every active lane of jN waits at one on jN: then the lanes waiting at one `join` form one split, ready
after it. Where the arriving lanes leave others behind and the Siding is full, the `join` waits for an
entry; where no split of the train can go on, JOIN_DEADLOCK is taken. Reconvergence loses no lane. Where
the manual leaves a point open this rests on the model's choices, log entries 46 and 128. -/
def Obligations.JoinArrives : Prop :=
  (∀ a n s x, Issues (.join a n) a s x →
     let arr := maskOf x.lanes &&& jGet x.train n.toNat
     let cont := x.split.mask &&& ~~~arr
     let here : Split := ⟨x.pc, arr, .atJoin n, false, .none, false⟩
     (arr = 0 → ∃ t u, exec (.join a n) s = .next t ∧ trainOf t x.uid x.tn = some u ∧
       GoesOn x u (nextPc x) ∧ KeepsAll x.train u ∧ OnlyTrain x s t) ∧
     (arr ≠ 0 → (cont = 0 ∨ x.train.siding.length < 16) →
       ∃ l, Rejoins n (jGet x.train n.toNat) x.train.active
           (sidingWith x (if cont = 0 then [here] else [here, readySplit (nextPc x) cont])) l ∧
         LeavesSiding (.join a n) s x true l) ∧
     (arr ≠ 0 → cont ≠ 0 → 16 ≤ x.train.siding.length → WaitsForEntries (.join a n) s x 1)) ∧
  (∀ n (l : List Split),
     let r := mergeJoin n [] l
     lanesUnion r = lanesUnion l ∧ r.length ≤ l.length ∧
     (∀ q ∈ r, q.st ≠ .atJoin n) ∧
     (∀ p ∈ l, p.st = .atJoin n → ∃ q ∈ r, q.pc = p.pc + 8 ∧ q.st = .ready ∧
       q.mask = lanesUnion (l.filter fun k => atJoinOn n k && k.pc == p.pc)) ∧
     (∀ p ∈ l, p.st ≠ .atJoin n → p ∈ r))

/-- R142, R163: `jset` writes jN by its operation, without lanes that are not active. Waiting lanes outside
the new value leave their join: those that leave one `join` form one split after it; and where every active
lane of jN then waits at one on jN, the join completes. While the Siding lacks an entry for each `join` that
lanes leave, the `jset` waits for the entries. Where the manual leaves a point open this rests on the model's
choice, log entry 45. -/
def Obligations.JoinMaskWritten : Prop :=
  ∀ a op n p s x (from_ : List Addr), Issues (.jset a op n p) a s x →
    let v := jsetValue x a op n p
    from_.Nodup → (∀ a, a ∈ from_ ↔ ∃ q ∈ x.train.siding, q.st = .atJoin n ∧ q.mask &&& ~~~v ≠ 0 ∧ q.pc = a) →
    (∀ l, l < 64 → (v.getLsbD l = true ↔
      l < x.train.width ∧ x.train.active.getLsbD l = true ∧ jsetBit x a op n p l = true)) ∧
    (from_.length ≤ 16 - x.train.siding.length →
      ∃ t u l, exec (.jset a op n p) s = .next t ∧ trainOf t x.uid x.tn = some u ∧
        (∀ k, jGet u k = if k = n.toNat then v else jGet x.train k) ∧
        Leaves n v (sidingWith x [wholeAt x (nextPc x)]) l ∧ Rejoins n v x.train.active l u.siding ∧
        u = { x.train with
          j := u.j
          seq := x.train.seq + 1
          siding := u.siding
          since := u.since
          passed := u.passed } ∧
        OnlyTrain x s t) ∧
    (16 - x.train.siding.length < from_.length → WaitsForEntries (.jset a op n p) s x from_.length)

/-- R146, R147: `split` to width n, with no producer and no store outstanding, makes w / n trains of width
n: lane i of part j has the v registers, every one of them full, predicates, `%home`, team lane number,
`%done` and join bits of lane j·n + i; every part has the k and base registers, and status 0 is written;
the numbers are the train's own and the lowest unused ones. It follows the train's own held arrivals
(R175). One that its conditions refuse writes the status and nothing else: 2 when the train holds more
than one split, else 3. Where the manual leaves a point open this rests on the model's choice, log entry
44. -/
def Obligations.SplitsTrain : Prop :=
  (∀ a w r s x, a.dst = .k r → Issues (.split a w) a s x → x.train.prods = [] → x.train.sq = [] →
     heldPoints x.team x.tn = [] → x.train.ended = false → x.train.siding.length = 1 →
     let n := 4 * 2 ^ w.toNat
     let refused : Bool := x.train.width ≤ n ∨ 64 < (liveTrains x.team).length - 1 + x.train.width / n ∨
       128 < coreTrains s x.core - 1 + x.train.width / n ∨
       (freeNumbers x.team).length < x.train.width / n - 1
     refused = false →
     ∃ t, exec (.split a w) s = .next t ∧
       ∀ j, j < x.train.width / n →
         ((x.train.active >>> (j * n)) &&& lowMask n) ≠ 0 →
         ∃ u, trainOf t x.uid (((x.tn :: freeNumbers x.team)[j]?).getD 0) = some u ∧ u.width = n ∧
           u.active = (x.train.active >>> (j * n)) &&& lowMask n ∧
           u.siding = [readySplit (nextPc x) u.active] ∧
           (∀ q l, l < n → vGet u q l = vGet x.train q (j * n + l)) ∧
           (∀ q l, q < 8 → l < n → pGet u q l = pGet x.train q (j * n + l)) ∧
           (∀ q l, q < 8 → l < n → (jGet u q).getLsbD l = (jGet x.train q).getLsbD (j * n + l)) ∧
           u.home = (x.train.home.drop (j * n)).take n ∧ u.lanes = (x.train.lanes.drop (j * n)).take n ∧
           u.empty = [] ∧ u.done = (x.train.done >>> (j * n)) &&& lowMask n ∧
           u.memctl = x.train.memctl ∧ u.trap = x.train.trap ∧ u.fault = x.train.fault ∧
           kGet u r.toNat = 0 ∧ (∀ q, q ≠ r.toNat → kGet u q = kGet x.train q) ∧ u.b = x.train.b ∧
           u.role = x.train.role ∧ u.budget = x.train.budget ∧ u.flags = x.train.flags) ∧
  (∀ a w s x, Issues (.split a w) a s x → x.train.prods = [] → x.train.sq = [] →
     heldPoints x.team x.tn = [] →
     let n := 4 * 2 ^ w.toNat
     let refused : Bool := x.train.width ≤ n ∨ 64 < (liveTrains x.team).length - 1 + x.train.width / n ∨
       128 < coreTrains s x.core - 1 + x.train.width / n ∨
       (freeNumbers x.team).length < x.train.width / n - 1
     (x.train.siding.length ≠ 1 → Writes (.split a w) a s x 1 (fun _ => 2) 0) ∧
     (x.train.siding.length = 1 → refused = true → Writes (.split a w) a s x 1 (fun _ => 3) 0))

/-- R146, R148, R153, R154: a `fuse` whose partner waits at the same `fuse`, with nothing outstanding and no
condition of R146 against it, makes one train of twice the width under the lower number: the partner's
lanes follow the lower train's, with their registers, every one full, predicates, join bits, `%home` and
team lane numbers; its number is unused; and the k and base registers are the lower train's. At a point of
which one is a member the fused train is; at one of which both are, the expected count is one lower, and
so are the arrivals where both had arrived; a phase that this brings to its count completes. A `fuse`
without its partner writes PARTNER_ABSENT; one whose status its partner has decided writes that. Where the
manual leaves a point open this rests on the model's choices, log entries 43 and 44. -/
def Obligations.FusesTrains : Prop :=
  (∀ a r s x p q, a.dst = .k r → Issues (.fuse a) a s x → (∀ st, x.split.resume ≠ .unitDone st) →
     let pn := x.tn ^^^ 1
     trainOf s x.uid pn = some p → p.ended = false → fuseSplit p = some q →
     quietTrain x.train = true → quietTrain p = true → heldPoints x.team x.tn = [] →
     heldPoints x.team pn = [] → x.tn < 64 → risingKeys x.team.rvs = true →
     fuseStatus x.team x.tn pn x.train p x.pc q.pc = 0 → x.train.streams = [] → p.streams = [] →
     mergeOf s x.uid x.tn = none → mergeOf s x.uid pn = none →
     let lo := if x.tn < pn then x.train else p
     let hi := if x.tn < pn then p else x.train
     lo.active ||| (hi.active <<< lo.width) ≠ 0 → 2 * lo.width ≤ 64 →
     ∃ t u m, exec (.fuse a) s = .next t ∧ trainOf t x.uid (min x.tn pn) = some u ∧
       teamOf t x.uid = some m ∧ trainOf t x.uid (max x.tn pn) = none ∧
       numberUsed m (max x.tn pn) = false ∧ u.width = 2 * lo.width ∧
       u.active = lo.active ||| (hi.active <<< lo.width) ∧
       u.siding = [readySplit (nextPc x) u.active] ∧
       (∀ v l, l < lo.width →
         vGet u v l = vGet lo v l ∧ vGet u v (lo.width + l) = vGet hi v l) ∧
       (∀ q l, q < 8 → l < lo.width →
         pGet u q l = pGet lo q l ∧ pGet u q (lo.width + l) = pGet hi q l) ∧
       kGet u r.toNat = 0 ∧ (∀ k, k ≠ r.toNat → kGet u k = kGet lo k) ∧ u.b = lo.b ∧
       u.memctl = lo.memctl ∧ u.trap = lo.trap ∧ u.fault = lo.fault ∧
       u.flags = lo.flags ||| hi.flags ∧ u.done = lo.done ||| (hi.done <<< lo.width) ∧
       u.home = lo.home ++ hi.home ∧ u.lanes = lo.lanes ++ hi.lanes ∧ u.empty = [] ∧
       (∀ q l, q < 8 → l < lo.width → (jGet u q).getLsbD l = (jGet lo q).getLsbD l ∧
         (jGet u q).getLsbD (lo.width + l) = (jGet hi q).getLsbD l) ∧
       ∀ n, let r := rvOf x.team n
         let r' := rvOf m n
         let l := min x.tn pn
         let h := max x.tn pn
         let both : Bool := r.members.getLsbD l && r.members.getLsbD h
         let count := if both then r.expected - 1 else r.expected
         let arrivals := if both && r.arrived.getLsbD l then r.arrivals - 1 else r.arrivals
         (both = false ∨ r.firing.isSome = true ∨ arrivals ≠ count →
           r'.expected = count ∧ r'.arrivals = arrivals ∧ r'.phase = r.phase ∧
           (∀ k, k < 64 → r'.members.getLsbD k = if k = l then r.members.getLsbD l || r.members.getLsbD h
             else k != h && r.members.getLsbD k) ∧
           ((∀ k, r.arrived.getLsbD k = true → r.members.getLsbD k = true) →
             ∀ k, k < 64 → r'.arrived.getLsbD k = if k = l then r.arrived.getLsbD l || r.arrived.getLsbD h
               else k != h && r.arrived.getLsbD k)) ∧
         (both = true → r.firing = none → r.desc = none → arrivals = count →
           r'.phase = r.phase + 1 ∧ r'.arrivals = 0 ∧ r'.arrived = 0)) ∧
  (∀ a s x, Issues (.fuse a) a s x →
     (∀ st, x.split.resume = .unitDone st → Writes (.fuse a) a s x 1 (fun _ => st.toNat) 0) ∧
     ((∀ st, x.split.resume ≠ .unitDone st) →
       (∀ p, trainOf s x.uid (x.tn ^^^ 1) = some p → p.ended = true) →
       Writes (.fuse a) a s x 1 (fun _ => 6) 0))

/-! ## Rendezvous points and register budgets -/

/-- R152, R153, R176: `rvinit` sets a point that nothing uses; `arrive` adds an arrival and the train's bit,
and completes the phase when the count is reached; at a point of expected count 0 it does nothing. Where
the manual leaves a point open this rests on the model's choices, log entries 43 and 126. -/
def Obligations.RendezvousCounts : Prop :=
  (∀ a n s x, Issues (.rvinit a n) a s x → srcNat x.train a.s1 1 0 ≤ 4095 →
    rvBusy x.team n.toNat = false →
    ∃ t u m, exec (.rvinit a n) s = .next t ∧ trainOf t x.uid x.tn = some u ∧ teamOf t x.uid = some m ∧
      GoesOn x u (nextPc x) ∧ KeepsAll x.train u ∧ OnlyTeam x s t ∧
      rvOf m n.toNat = { rvOf x.team n.toNat with
        expected := srcNat x.train a.s1 1 0
        members := (rvOf m n.toNat).members
        arrivals := 0
        arrived := 0
        leaving := 0 } ∧
      (∀ k, k < 64 → ((rvOf m n.toNat).members.getLsbD k = true ↔
        (srcNat x.train a.s2 2 0).testBit k = true ∧ numberUsed x.team k = true)) ∧
      (∀ k, k ≠ n.toNat → rvOf m k = rvOf x.team k)) ∧
  (∀ a n s x, Issues (.arrive a n) a s x → arrivalReady s x.uid x.tn x.team x.train = true →
    let r := rvOf x.team n.toNat
    r.firing = none → r.desc = none →
    ∃ t u m, exec (.arrive a n) s = .next t ∧ trainOf t x.uid x.tn = some u ∧ teamOf t x.uid = some m ∧
      GoesOn x u (nextPc x) ∧ KeepsAll x.train u ∧ OnlyTeam x s t ∧
      (∀ k, k ≠ n.toNat → rvOf m k = rvOf x.team k) ∧
      (r.expected = 0 → rvOf m n.toNat = r) ∧
      (r.expected ≠ 0 → r.arrivals + 1 ≠ r.expected → rvOf m n.toNat = { r with
        arrivals := r.arrivals + 1, arrived := r.arrived ||| (trainBit x.tn &&& r.members) }) ∧
      (r.expected ≠ 0 → r.arrivals + 1 = r.expected →
        (rvOf m n.toNat).arrivals = 0 ∧ (rvOf m n.toNat).arrived = 0 ∧
        (rvOf m n.toNat).phase = r.phase + 1))

/-- R153, R175, R176: `await`, once the train's own held arrivals at the point are performed, goes on at
once at a point of expected count 0 or after its phase is over, and waits for the phase otherwise;
`arrwait` arrives and goes on when that completes the phase, and waits for it otherwise. -/
def Obligations.AwaitsPhase : Prop :=
  (∀ a n s x, Issues (.await a n) a s x →
    let r := rvOf x.team n.toNat
    (x.split.resume = .none → n.toNat ∉ heldPoints x.team x.tn) →
    (r.expected = 0 ∨ (∃ k ph, x.split.resume = .phase k ph ∧ ph ≠ r.phase) →
      ∃ t u, exec (.await a n) s = .next t ∧ trainOf t x.uid x.tn = some u ∧ GoesOn x u (nextPc x) ∧
        KeepsAll x.train u ∧ OnlyTrain x s t) ∧
    (r.expected ≠ 0 → (∀ k ph, x.split.resume = .phase k ph → ph = r.phase) →
      ∃ t u, exec (.await a n) s = .next t ∧ trainOf t x.uid x.tn = some u ∧
        u.siding[x.idx]? = some { x.split with
          st := .waiting (.phase n.toNat r.phase), resume := .phase n.toNat r.phase } ∧
        KeepsAll x.train u ∧ OnlyTrain x s t)) ∧
  (∀ a n s x, Issues (.arrwait a n) a s x → x.split.resume = .none →
    arrivalReady s x.uid x.tn x.team x.train = true →
    let r := rvOf x.team n.toNat
    r.firing = none → r.desc = none →
    ∃ t u m, exec (.arrwait a n) s = .next t ∧ trainOf t x.uid x.tn = some u ∧
      teamOf t x.uid = some m ∧ KeepsAll x.train u ∧ OnlyTeam x s t ∧
      (r.expected = 0 ∨ r.arrivals + 1 = r.expected → GoesOn x u (nextPc x)) ∧
      (r.expected ≠ 0 → r.arrivals + 1 ≠ r.expected →
        (rvOf m n.toNat).arrivals = r.arrivals + 1 ∧
        u.siding[x.idx]? = some { x.split with
          st := .waiting (.phase n.toNat r.phase), resume := .phase n.toNat r.phase }))

/-- R150, R151, R178: `rgive` lowers the budget by 8n, loses those registers and adds n lane-blocks for each
lane to the pool; `rtake` raises it by 8n from a pool that holds them; `rtake.role` does either, for the
role's budget, and writes `%role`; here no other claim waits. A claim that the pool cannot serve, when
every other train of the team waits in `rtake` for more than the pool holds, has each of them take
TAKE_DEADLOCK, and no claim is left. Where the manual leaves a point open this rests on the model's
choice, log entry 42. -/
def Obligations.RegisterBudgets : Prop :=
  (∀ a n s x, Issues (.rgive a n) a s x → 8 * n.toNat + 8 ≤ x.train.budget → x.team.claims = [] →
    (∀ r ∈ x.train.empty, r < x.train.budget - 8 * n.toNat) →
    ∃ t u m, exec (.rgive a n) s = .next t ∧ trainOf t x.uid x.tn = some u ∧ teamOf t x.uid = some m ∧
      u.budget = x.train.budget - 8 * n.toNat ∧ m.pool = x.team.pool + n.toNat * x.train.width ∧
      (∀ r l, l < 64 → vGet u r l = if r < u.budget then vGet x.train r l else 0) ∧
      u.k = x.train.k ∧ u.role = x.train.role ∧ GoesOn x u (nextPc x) ∧ OnlyTeam x s t) ∧
  (∀ a n s x, Issues (.rtake a n) a s x → x.train.budget + 8 * n.toNat ≤ x.team.regs →
    x.split.resume = .none → x.team.claims = [] → n.toNat * x.train.width ≤ x.team.pool →
    (∀ p ∈ x.train.siding, p.resume ≠ .tok s.nextId) →
    (∀ h, x.train.handler = some h → h.resume ≠ .tok s.nextId) →
    ∃ t u m, exec (.rtake a n) s = .next t ∧ trainOf t x.uid x.tn = some u ∧ teamOf t x.uid = some m ∧
      u.budget = x.train.budget + 8 * n.toNat ∧ m.pool = x.team.pool - n.toNat * x.train.width ∧
      u.v = x.train.v ∧ u.k = x.train.k ∧ u.role = x.train.role ∧ GoesOn x u (nextPc x) ∧
      OnlyTeam x s t) ∧
  (∀ a r s x b, Issues (.rtakeRole a r) a s x → x.split.resume = .none →
    x.team.roles[r.toNat]? = some b → x.team.claims = [] → b % 8 = 0 → x.train.budget % 8 = 0 →
    b ≤ x.team.regs → b ≤ x.train.budget + 8 * (x.team.pool / x.train.width) → x.train.width ≠ 0 →
    (∀ q ∈ x.train.empty, q < b) →
    (∀ p ∈ x.train.siding, p.resume ≠ .tok s.nextId) →
    (∀ h, x.train.handler = some h → h.resume ≠ .tok s.nextId) →
    ∃ t u m, exec (.rtakeRole a r) s = .next t ∧ trainOf t x.uid x.tn = some u ∧
      teamOf t x.uid = some m ∧ u.budget = b ∧ u.role = r.toNat ∧
      8 * m.pool + b * x.train.width = 8 * x.team.pool + x.train.budget * x.train.width ∧
      (∀ q l, l < 64 → q < min b x.train.budget → vGet u q l = vGet x.train q l) ∧
      u.k = x.train.k ∧ GoesOn x u (nextPc x) ∧ OnlyTeam x s t) ∧
  (∀ a n s x, Issues (.rtake a n) a s x → x.train.budget + 8 * n.toNat ≤ x.team.regs →
    x.split.resume = .none → x.split.held = false → x.train.ended = false → x.train.trapped = false →
    x.train.pend = none → x.team.pool < n.toNat * x.train.width →
    (∀ c ∈ x.team.claims, x.team.pool < c.blocks) →
    (∀ e ∈ x.team.trains, e.1 ≠ x.tn → e.2.ended = false → e.2.trapped = false ∧ e.2.pend = none ∧
      (∃ p ∈ e.2.siding, p.held = false) ∧
      ∀ p ∈ e.2.siding, p.held = false → p.st = .waiting .claim ∧ ∃ k, p.resume = .tok k) →
    risingKeys x.team.trains = true →
    (∀ (j : Nat) p, j ≠ x.idx → x.train.siding[j]? = some p → p.held = false →
      p.st = .waiting .claim ∧ ∃ k, p.resume = .tok k) →
    ∃ t m, exec (.rtake a n) s = .next t ∧ teamOf t x.uid = some m ∧ m.claims = [] ∧
      ∀ k u, trainOf t x.uid k = some u → u.ended = false →
        u.trap = 12 ∨ u.pend.isSome = true ∨ u.trapped = true)

/-! ## Memory -/

/-- R24, R27, R273, R277, R341: `ld`, `atom`, `cas` and `casl`, once every lane has passed the checks of R269,
issue a producer for the destination, the atomics with their operations in the store queue. Memory is
unchanged. An instruction that stands until its data come waits; when they have come it goes on, or, where
lanes' data were lost, it has completed in the others and takes the trap of the first failure (R270,
R344). Where the manual leaves a point open this rests on the model's choices, log entries 29, 36, 40, 51 and
120. -/
def Obligations.MemoryProducers : Prop :=
  (∀ a size sx m s x, Issues (.ld a size sx m) a s x →
    let n := 2 ^ size.toNat
    let k := ldMods x.train a
    let c := checkLanes s x k.space .read n (accesses x a m (writtenLanes x a.dst))
    (k.space = 3 → n = 4 ∨ n = 8) → (k.space = 4 → x.team.determ = false) → (k.space = 5 → Calm s) →
    c.pages = [] → c.asks = [] → c.fails = [] → partsErr s (c.passed.flatMap (·.parts)) = none →
    workBlocked x (c.passed.flatMap (·.parts)) = false →
    Asks (.ld a size sx m) a s x (sizeRegs size) (.load n sx) k c []
      ((c.passed.flatMap (·.parts)).any (mayFail s true))) ∧
  (∀ i a m n regs k kind op data cmp s x,
    atomRule x i = some (a, m, n, regs, k, kind, op, data, cmp) → Issues i a s x →
    let c := checkLanes s x k.space (atomAccess i) n (accesses x a m (writtenLanes x a.dst))
    (x.team.determ = true → k.space = 2 ∧ ∀ a m, i ≠ .casl a m) → (k.space = 5 → Calm s) →
    (∀ e ∈ accesses x a m x.lanes, e.2.toNat % n = 0) →
    c.pages = [] → c.asks = [] → c.fails = [] → partsErr s (c.passed.flatMap (·.parts)) = none →
    workBlocked x (c.passed.flatMap (·.parts)) = false →
    Asks i a s x regs kind k c (storeOps c (fun p => op p.lane) data cmp)
      ((c.passed.flatMap (·.parts)).any (mayFail s false))) ∧
  (∀ i a s x, argsOf i = some a → siteOf s i a = some x →
    (∀ id fs, x.split.resume = .data id fs →
      ∃ t u, exec i s = .next t ∧ trainOf t x.uid x.tn = some u ∧
        Waits x t u (.data id) (.data id fs) ∧ KeepsAll x.train u ∧ OnlyTrain x s t) ∧
    (∀ ok, x.split.resume = .dataDone ok [] →
      ∃ t u, exec i s = .next t ∧ trainOf t x.uid x.tn = some u ∧ GoesOn x u (nextPc x) ∧
        u = { x.train with
          done := if (laneAccess i).isSome then 0 else x.train.done
          walked := if (laneAccess i).isSome then [] else x.train.walked
          asked := if (laneAccess i).isSome then [] else x.train.asked
          seq := u.seq
          siding := u.siding
          since := u.since
          passed := u.passed } ∧
        OnlyTrain x s t) ∧
    (∀ ok f fs n rmw, x.split.resume = .dataDone ok (f :: fs) → laneAccess i = some (n, rmw) →
      ∃ t u, trainOf t x.uid x.tn = some u ∧
        u = { x.train with
          done := x.train.done ||| ok, walked := [], asked := [], seq := x.train.seq + 1 } ∧
        OnlyTrain x s t ∧
        exec i s = .next (trapHere x f.code (failRecs x n rmw rmw (x.train.done ||| ok) [] (f :: fs)) t)))

/-- R234, R273, R275, R215: a store, once every lane has passed the checks, enters its train's queue, in the
accumulator space too, and changes no memory; a commutative store folds into the ranges of its lanes. Where
the manual leaves a point open this rests on the model's choices, log entries 29 and 36. -/
def Obligations.StoresQueue : Prop :=
  (∀ a size m s x, Issues (.st a size m) a s x →
    let n := 2 ^ size.toNat
    let k := stMods x.train a
    let c := checkLanes s x k.space .write n (accesses x a m x.lanes)
    let ops := storeOps c (fun _ => .store) (fun l => srcNat x.train a.s3 (sizeRegs size) l) (fun _ => 0)
    (k.space = 3 → n = 4 ∨ n = 8) → (k.space = 4 → x.team.determ = false) → (k.space = 5 → Calm s) →
    c.pages = [] → c.asks = [] → c.fails = [] → workBlocked x (c.passed.flatMap (·.parts)) = false →
    Queues (.st a size m) s x k ops) ∧
  (∀ a size m s x, Issues (.stCr a size m) a s x →
    let n := 2 ^ size.toNat
    let k := crMods x.train a
    let c := checkLanes s x k.space .write n (accesses x a m x.lanes)
    let op (p : LanePass) : BitVec 2 := (rangeOp (ctxOf s x.team.ctx) p.va.toNat).getD 0
    (∀ e ∈ accesses x a m x.lanes, e.2.toNat % n = 0) → c.pages = [] → c.asks = [] → c.fails = [] →
    (∀ p ∈ c.passed, (rangeOp (ctxOf s x.team.ctx) p.va.toNat).isSome = true ∧ foldBytes (op p) = n) →
    Queues (.stCr a size m) s x k (storeOps c (fun p => .fold (op p))
      (fun l => srcNat x.train a.s3 (if n = 8 then 2 else 1) l) (fun _ => 0)))

/-- R219, R233, R235, R243: the home serves every access of a load in one line, each with its bytes, lowest
first, where no earlier store of the train or core is on its way to them and the load has promised nothing;
it changes no byte. Where the manual leaves a point open this rests on the model's choices, log entries 16,
17, 18 and 19. -/
def Obligations.HomeServesLoads : Prop :=
  ∀ uid tn id line s m t p n sx, teamOf s uid = some m → trainOf s uid tn = some t →
    mapGet t.prods id = some p → p.kind = .load n sx →
    let mine (q : Part) : Bool := partOpen q && partLine q == some line
    p.parts.any mine = true → loadTurn s uid tn t p.seq = true → line < 2 ^ 60 →
    lineBusy s line = false → s.pick = [] → p.policy ≠ 5 →
    (p.parts.filter mine).all (fun q => (l1Copy s (coreOfTeam m) m.ctx p q).isSome) = false →
    t.ended = false → t.sq = [] → (∀ r ∈ s.net, r.2.core ≠ coreOfTeam m ∧ r.1 ∉ m.owed) → s.errs = [] →
    s.partials = [] →
    ∃ t' u p', exec (.homeRead uid tn id line) s = .next t' ∧ trainOf t' uid tn = some u ∧
      mapGet u.prods id = some p' ∧
      p' = { p with parts := p.parts.map fun q => if mine q then
        { q with got := some (BitVec.ofNat 64 (natLE (q.addrs.map (homeByte s)))) } else q } ∧
      u.v = t.v ∧ u.k = t.k ∧ u.empty = t.empty ∧ u.siding = t.siding ∧ SameBytes s t'

/-- R200, R221, R222, R229, R234, R236, R274: a store that is at the head of its queue passes the port, onto its
own scratchpad or accumulator at once, or beyond as requests, one for each line; a request's operations are
performed at the home in order, last lane last; the update, with the record that a release leaves, reaches
each sharer that holds the line, and the others leave the sharers; then the request is acknowledged, a copy
that its own core holds of a line homed elsewhere takes the bytes, and the request is gone, or goes back with
what it has left. Where the manual leaves a point open this rests on the model's choices, log entries 16 and
17. -/
def Obligations.StoresPerform : Prop :=
  (∀ uid tn s m t e rest, teamOf s uid = some m → trainOf s uid tn = some t → t.sq = e :: rest →
    isResident m = true → portReady s uid (coreOfTeam m) m t e = true → e.prod = none →
    ((∀ o ∈ e.ops, o.place = .scr uid ∧ o.op = .store ∧ o.mayWrite = true) →
      ∃ t' u m', exec (.storePortPass uid tn) s = .next t' ∧ trainOf t' uid tn = some u ∧
        teamOf t' uid = some m' ∧ u = { t with sq := rest } ∧
        (∀ a, scrGet m' a = afterWrites (opBytes e.ops) (scrGet m) a) ∧
        m' = { m with trains := m'.trains, scr := m'.scr } ∧
        t' = { s with teams := t'.teams, errs := t'.errs }) ∧
    ((∀ o ∈ e.ops, o.place = .acc uid ∧ o.op = .store) → accBusy m e = false →
      ∃ t' u m', exec (.storePortPass uid tn) s = .next t' ∧ trainOf t' uid tn = some u ∧
        teamOf t' uid = some m' ∧ u = { t with sq := rest } ∧
        (∀ a, accGet m' a = afterWrites (opBytes e.ops) (accGet m) a) ∧
        m' = { m with trains := m'.trains, acc := m'.acc } ∧
        t' = { s with teams := t'.teams, errs := t'.errs }) ∧
    ((∀ o ∈ e.ops, o.place = .glob ∧ o.op = .store) →
      ∃ t' u, exec (.storePortPass uid tn) s = .next t' ∧ trainOf t' uid tn = some u ∧
        u = { t with sq := rest } ∧ t' = { s with teams := t'.teams, net := t'.net, nextId := t'.nextId } ∧
        (∀ k, k < s.nextId → mapGet t'.net k = mapGet s.net k) ∧
        ∀ o ∈ e.ops, ∃ k r, s.nextId ≤ k ∧ mapGet t'.net k = some r ∧ o ∈ r.ops ∧ r.stage = .toHome ∧
          r.line = headLane o.addrs / 128 ∧ r.place = .glob ∧ r.order = e.order ∧ r.scope = e.scope ∧
          r.seq = e.seq ∧ r.trains = [tn] ∧ (∀ p ∈ r.ops, headLane p.addrs / 128 = r.line))) ∧
  (∀ req s r, mapGet s.net req = some r → r.stage = .toHome → r.place = .glob → r.ops ≠ [] →
    (∀ o ∈ r.ops, o.op = .store ∧ o.lane < 64 ∧ o.mayWrite = true) → r.prod = none →
    reqReady s req r = true → lineBusy s r.line = false → s.pick = [] → s.errs = [] → s.partials = [] →
    ∃ t' r', exec (.homeWrite req) s = .next t' ∧ mapGet t'.net req = some r' ∧
      (∀ pa, homeByte t' pa = afterWrites (opBytes r.ops) (homeByte s) pa) ∧
      r' = { r with
        oks := r.oks ||| maskOf (r.ops.map (·.lane))
        stage := .updating (sharersOf t' r.line)
        wrote := r.ops.flatMap fun o => o.addrs.map fun a => (a % 128, homeByte t' a)
        mark := if r.order ∈ [3, 4, 5] then some ⟨r.scope, r.ctx, r.core, r.uid, headLane r.trains % 64⟩
          else none } ∧
      t'.teams = s.teams ∧ (∀ k, k ≠ req → mapGet t'.net k = mapGet s.net k)) ∧
  (∀ req core s r left, mapGet s.net req = some r → r.stage = .updating left → core ∈ left →
    ∃ t', exec (.sharerUpdate req core) s = .next t' ∧
      mapGet t'.net req = some { r with stage := .updating (setDel left core) } ∧
      SameBytes s t' ∧ t'.teams = s.teams ∧ CopyTakes s t' core r.line r.wrote r.mark ∧
      (mapGet (coreOf s core).l1 r.line = none → core ∉ sharersOf t' r.line)) ∧
  (∀ req s r, mapGet s.net req = some r → r.stage = .updating [] → r.prod = none → r.peer = none →
    ∃ t', exec (.storeAck req) s = .next t' ∧
      mapGet t'.net req = (if r.rest = [] then none else some { r with
        ops := r.rest, rest := [], wrote := [], mark := none, stage := .toHome }) ∧
      (r.wrote ≠ [] → r.core < 256 → homeDie (128 * r.line) ≠ dieOf r.core →
        CopyTakes s t' (l1Holder s r.core (128 * r.line)) r.line r.wrote r.mark) ∧
      (∀ k, k ≠ req → mapGet t'.net k = mapGet s.net k) ∧ SameBytes s t' ∧ t'.teams = s.teams)

/-- R276, R277, R341: at its home an atomic reads the old value and writes the new one in one event, `cas`
only where the old value equals the comparand; a comparison that holds on a page that cannot be written
writes nothing and fails with PROTECTION, reason 1; the acknowledgement gives the old value to the
producer, and whether a `cas` wrote. Where the manual leaves a point open this rests on the model's
choices, log entries 17 and 51. -/
def Obligations.AtomicsPerform : Prop :=
  (∀ req s r o n, mapGet s.net req = some r → r.stage = .toHome → r.place = .glob → r.ops = [o] →
    o.lane < 64 → (∃ b, o.addrs = (List.range n).map (b + ·)) → n = 4 ∨ n = 8 →
    (o.op = .cas ∨ ∃ op, o.op = .atom op) → reqReady s req r = true → lineBusy s r.line = false →
    r.olds = [] → r.oks = 0 → r.bad = [] → s.pick = [] → s.partials = [] → s.errs = [] →
    (∀ c, (ctxOf s c).scopechk = false) →
    let old := natLE (o.addrs.map (homeByte s))
    let new : Option Nat := match o.op with
      | .atom op => some (atomNew (8 * n) op old o.data.toNat)
      | _ => if old = o.cmp.toNat % 2 ^ (8 * n) then some o.data.toNat else none
    ((new.isSome = true → o.mayWrite = true) →
      ∃ t' r', exec (.homeWrite req) s = .next t' ∧ mapGet t'.net req = some r' ∧
        r'.olds = [(o.lane, BitVec.ofNat 128 old)] ∧ r'.bad = [] ∧
        r'.oks = (if new.isSome then maskOf [o.lane] else 0) ∧
        (match new with
          | some x => ∀ pa, homeByte t' pa = afterWrites (o.addrs.zip (natLe n x)) (homeByte s) pa
          | none => SameBytes s t')) ∧
    (new.isSome = true → o.mayWrite = false →
      ∃ t' r', exec (.homeWrite req) s = .next t' ∧ mapGet t'.net req = some r' ∧ r'.olds = [] ∧
        r'.oks = 0 ∧ r'.bad = [(o.lane, BitVec.ofNat 8 (16 * 6 + 1))] ∧ SameBytes s t')) ∧
  (∀ req s r tn id l v t p, mapGet s.net req = some r → r.stage = .updating [] →
    r.prod = some (tn, id) → r.peer = none → r.rest = [] → r.olds = [(l, v)] → r.bad = [] →
    trainOf s r.uid tn = some t → mapGet t.prods id = some p →
    ∃ t' u p', exec (.storeAck req) s = .next t' ∧ trainOf t' r.uid tn = some u ∧
      mapGet u.prods id = some p' ∧ mapGet p'.vals l = some v ∧
      (∀ k, k ≠ l → mapGet p'.vals k = mapGet p.vals k) ∧ p'.oks = p.oks ||| r.oks ∧
      p'.flags = p.flags ||| r.flags ∧ u = { t with prods := u.prods } ∧ mapGet t'.net req = none ∧
      SameBytes s t')

/-- R241, R282 to R284, R119: a fence whose conditions hold goes on, and so does a `waitm` whose word holds
its bits, or has held them; prefetches and invalidations go on and change no byte; `cbld` ends its run, reads
256 words, each of four bytes lowest first, here in one step, and then replaces the context's codebook by
them. Where the manual leaves a point open this rests on the model's choices, log entries 16, 54, 110, 112
and 129. -/
def Obligations.OrderAndHints : Prop :=
  (∀ a sc o s x, Issues (.fence a sc o) a s x → (∀ l, x.split.resume ≠ .fence l) →
    let ord := if o ≠ 0 then o.toNat else if bitsOf x.train.memctl.toNat 0 3 = 0 then 5
      else bitsOf x.train.memctl.toNat 0 3
    let scope := if sc ≠ 0 then sc.toNat else if bitsOf x.train.memctl.toNat 3 3 = 0 then 5
      else bitsOf x.train.memctl.toNat 3 3
    (ord ∈ [2, 4, 5] → ∀ p ∈ x.train.prods, ∀ n sx, p.2.kind = .load n sx → loadDone p.2 = true) →
    (ord ∈ [3, 4, 5] → x.train.sq = [] ∧ (3 ≤ scope → ∀ r ∈ s.net, r.2.core = x.core ∨
        r.1 ∈ x.team.owed ∨ r.2.uid = x.uid ∧ x.tn ∈ r.2.trains →
        (∃ d, r.2.place = .peer d) ∧ scope ≠ 6)) →
    ∃ t u, exec (.fence a sc o) s = .next t ∧ trainOf t x.uid x.tn = some u ∧ GoesOn x u (nextPc x) ∧
      KeepsAll x.train u ∧ t = { s with teams := t.teams, cores := t.cores, errs := t.errs } ∧
      SameBytes s t) ∧
  (∀ i a s x, (∃ l2 m, i = .pref a l2 m) ∨ i = .inval a ∨ i = .invalAll a → Issues i a s x →
    s.partials = [] → s.errs = [] →
    ∃ t u, exec i s = .next t ∧ trainOf t x.uid x.tn = some u ∧ GoesOn x u (nextPc x) ∧
      KeepsAll x.train u ∧ SameBytes s t ∧ t.ctxs = s.ctxs ∧ (i = .invalAll a ∨ s.net = [] → t.net = s.net) ∧
      (i = .invalAll a → ∀ c ∈ l1Cores s x.core, (coreOf t c).l1 = [])) ∧
  (∀ a s x, Issues (.waitm a) a s x →
    let k := memMods x.train a.pre (fun _ => 2) (fun p => if p = 4 then 4 else 2) (fun _ => 1)
    let off := srcNat x.train a.s1 1 0 / 4 * 4
    let M := BitVec.ofNat 32 (srcNat x.train a.s2 1 0)
    k.space = 2 → off + 4 ≤ x.team.scrSize → scrErr s x.uid off 4 = false →
    jobBlocks x.team x.tn [(false, off, 4)] = false →
    (x.split.resume = .seen ∨ (∃ w, wordNow s x.uid x.tn x.train x.uid off = some w ∧
        BitVec.ofNat 32 w &&& M = M) →
      ∃ t u, exec (.waitm a) s = .next t ∧ trainOf t x.uid x.tn = some u ∧ GoesOn x u (nextPc x) ∧
        KeepsAll x.train u ∧ SameBytes s t) ∧
    (∀ w, x.split.resume ≠ .seen → wordNow s x.uid x.tn x.train x.uid off = some w →
      BitVec.ofNat 32 w &&& M ≠ M →
      ∃ t u, exec (.waitm a) s = .next t ∧ trainOf t x.uid x.tn = some u ∧
        Waits x t u (.word x.uid off M) x.split.resume ∧ KeepsAll x.train u ∧ OnlyTrain x s t)) ∧
  (∀ a d s x, Issues (.cbld a d) a s x →
    let ea := BitVec.ofNat 80 (addressOf (srcNat x.train a.s1 1 0)
      (srcNat x.train a.s2 (wide d) 0) d 0)
    let k := memMods x.train a.pre (fun o => if o = 1 then 1 else 2) (fun _ => 1) id
    let c := ctxOf s x.team.ctx
    (x.split.resume = .none → BeginsRun (.cbld a d) s x) ∧
    (∀ home : Nat → Nat, x.split.resume = .begun ∨ x.split.resume = .table [] →
      (∀ q ∈ chunksAt 130 ea.toNat 0 1024, ∃ w, globCheck s x .read q.2.1 q.2.2 =
        .pass .glob ((List.range q.2.2).map fun i => home (q.1 + i)) w) →
      (∀ i, i < 1024 → lineBusy s (home i / 128) = false ∧
        mapGet (coreOf s (l1Holder s x.core (home i))).l1 (home i / 128) = none) →
      loadTurn s x.uid x.tn x.train x.train.seq = true → x.train.sq = [] →
      (∀ r ∈ s.net, r.2.core ≠ x.core ∧ r.1 ∉ x.team.owed) → s.errs = [] → s.partials = [] → s.pick = [] →
      c.scopechk = false → k.policy ≠ 5 →
      ∃ t u n table, exec (.cbld a d) s = .next t ∧ trainOf t x.uid x.tn = some u ∧ s.nextId ≤ n ∧
        u.siding[x.idx]? = some { x.split with resume := .loaded n } ∧
        u = { x.train with
          siding := u.siding, walked := [], since := u.since, passed := u.passed } ∧
        (pipeOf (coreOf t x.core) x.pipe).run = none ∧
        ctxOf t x.team.ctx = { c with loading := mapPut c.loading n table } ∧
        (∀ w, w < 256 → defGet 0 table w = BitVec.ofNat 32 (natLE ((List.range 4).map fun i =>
          homeByte s (home (4 * w + i))))) ∧
        (∀ n, n ≠ x.team.ctx → ctxOf t n = ctxOf s n) ∧ SameBytes s t) ∧
    (∀ n table, x.split.resume = .loaded n → mapGet c.loading n = some table →
      ∃ t u, exec (.cbld a d) s = .next t ∧ trainOf t x.uid x.tn = some u ∧ GoesOn x u (nextPc x) ∧
        KeepsAll x.train u ∧
        ctxOf t x.team.ctx = { c with codebook := table, loading := mapDel c.loading n } ∧
        (∀ n, n ≠ x.team.ctx → ctxOf t n = ctxOf s n) ∧
        t = { s with teams := t.teams, cores := t.cores, ctxs := t.ctxs } ∧ SameBytes s t))

/-- R285, R286, R206, R207: `crdecl`, `crdrop`, `stash` and `unstash` hold their train while the work is
done. The work gives the status of R285 and a range declared or dropped; `stash` sends the scratchpad bytes
to the memory it claimed by advancing `%stash`, as stores of its train, and `unstash` moves the bytes of the
memory that it gives back into the scratchpad, once every `stash` of its team has written them; each in one
step here. Then the instruction completes. Where the manual leaves a point open this rests on the model's
choices, log entries 16, 38, 48 and 111. -/
def Obligations.UnitsWork : Prop :=
  (∀ i a s x, (∃ op d, i = .crdecl a op d) ∨ i = .crdrop a → Issues i a s x →
    (x.split.resume = .none →
      ∃ t u w, exec i s = .next t ∧ trainOf t x.uid x.tn = some u ∧ Waits x t u .unit w ∧
        (∀ op d, i = .crdecl a op d → w = .crWork false op (BitVec.ofNat 80 (srcNat x.train a.s1 1 0))
          (srcNat x.train a.s2 (wide d) (headLane x.lanes))) ∧
        (i = .crdrop a → w = .crWork true 0 (BitVec.ofNat 80 (srcNat x.train a.s1 1 0)) 0) ∧
        KeepsAll x.train u ∧ OnlyTrain x s t) ∧
    (∀ st, x.split.resume = .unitDone st → Writes i a s x 1 (fun _ => st.toNat) 0)) ∧
  (∀ uid tn (s : State) (m : Team) (t : Train) (j : Nat) (p : Split) (drop : Bool) op (start : Addr) (len : Nat),
    teamOf s uid = some m → trainOf s uid tn = some t →
    (∀ (j' : Nat) (q : Split), j' < j → t.siding[j']? = some q → isCrWork q.resume = false) → t.siding[j]? = some p →
    p.resume = .crWork drop op start len → s.partials = [] → foldsPending s m.ctx start = false →
    let c := ctxOf s m.ctx
    let st : Nat := if drop then (if c.ranges.any (·.start == start) then 0 else 4)
      else if start.toNat % 128 ≠ 0 ∨ len % 128 ≠ 0 ∨ len = 0 ∨ 2 ^ 80 < start.toNat + len then 3
      else if 16 ≤ c.ranges.length then 1
      else if ∃ r ∈ c.ranges, r.start.toNat < start.toNat + len ∧ start.toNat < r.start.toNat + r.len
      then 2 else 0
    ∃ t' u, exec (.crdeclCrdropDone uid tn) s = .next t' ∧ trainOf t' uid tn = some u ∧
      u.siding[j]? = some { p with resume := .unitDone (BitVec.ofNat 32 st) } ∧ SameBytes s t' ∧
      (ctxOf t' m.ctx).ranges = (if st ≠ 0 then c.ranges
        else if drop then c.ranges.filter (·.start != start) else c.ranges ++ [⟨start, len, op⟩])) ∧
  (∀ (out : Bool) a s x, let i : Instr := if out then .stash a else .unstash a
    Issues i a s x →
    let off := srcNat x.train a.s1 1 0
    let n := srcNat x.train a.s2 1 0
    (∀ pages, x.split.resume = .none → off % 16 = 0 → n % 256 = 0 → n ≠ 0 → off + n ≤ x.team.scrSize →
      jobBlocks x.team x.tn [(false, off, n)] = false →
      (out = true → Calm s) →
      (if out then x.team.stash.toNat + n ≤ x.team.stHi ∧ scrErr s x.uid off n = false ∧
          rangePages s x.team.ctx .write x.team.stash.toNat n (pagesOf x.team.stash.toNat n) = .ok pages
        else x.team.stLo.toNat + n ≤ x.team.stash.toNat ∧ pages = []) →
      ∃ t u m, exec i s = .next t ∧ trainOf t x.uid x.tn = some u ∧ teamOf t x.uid = some m ∧
        m.stash = (if out then x.team.stash + BitVec.ofNat 80 n else x.team.stash - BitVec.ofNat 80 n) ∧
        Waits x t u .unit (.stashWork out (if out then x.team.stash else m.stash) off n pages
          (stashPolicy x a) (stashPieces n)) ∧
        KeepsAll x.train u ∧ OnlyTeam x s t) ∧
    (x.split.resume = .unitDone 0 →
      ∃ t u, exec i s = .next t ∧ trainOf t x.uid x.tn = some u ∧ GoesOn x u (nextPc x) ∧
        KeepsAll x.train u ∧ OnlyTrain x s t)) ∧
  (∀ uid tn (s : State) (m : Team) (t : Train) (j : Nat) (p : Split) (lo : Addr) (off n : Nat)
      (pages : AMap Nat) policy, teamOf s uid = some m → trainOf s uid tn = some t →
    (∀ (j' : Nat) (q : Split), j' < j → t.siding[j']? = some q → isStashWork q.resume = false) →
    t.siding[j]? = some p → p.resume = .stashWork true lo off n pages policy (stashPieces n) →
    n % 256 = 0 → lo.toNat + n ≤ 2 ^ 80 →
    t.sq = [] → earlierPassed t t.seq = true → s.pick = [] →
    ∃ t' u, exec (.stashTransferDone uid tn) s = .next t' ∧ trainOf t' uid tn = some u ∧
      u.siding[j]? = some { p with resume := .unitDone 0 } ∧ SameBytes s t' ∧
      (∀ k, k < s.nextId → mapGet t'.net k = mapGet s.net k) ∧
      (∀ k r, s.nextId ≤ k → mapGet t'.net k = some r → r.stash = true ∧ r.uid = uid ∧ r.trains = [tn] ∧
        r.core = coreOfTeam m ∧ r.seq = t.seq ∧ r.stage = .toHome ∧ r.place = .glob ∧ r.prod = none ∧
        r.policy = policy ∧ ∀ o ∈ r.ops, o.op = .store ∧ o.mayWrite = true ∧
          headLane o.addrs / 128 = r.line) ∧
      ∀ i, i < n → ∃ k r o, s.nextId ≤ k ∧ mapGet t'.net k = some r ∧ o ∈ r.ops ∧
        (pageAddr pages (lo.toNat + i), scrGet m (off + i)) ∈
          o.addrs.zip (natLe o.addrs.length o.data.toNat)) ∧
  (∀ uid tn (s : State) (m : Team) (t : Train) (j : Nat) (p : Split) (lo : Addr) (off n : Nat)
      (pages : AMap Nat) policy (home : Nat → Nat), teamOf s uid = some m → trainOf s uid tn = some t →
    (∀ (j' : Nat) (q : Split), j' < j → t.siding[j']? = some q → isStashWork q.resume = false) →
    t.siding[j]? = some p → p.resume = .stashWork false lo off n pages policy (stashPieces n) →
    n % 256 = 0 → lo.toNat + n ≤ 2 ^ 80 → policy ≠ 5 →
    (∀ i, i < n → devXlate s m.ctx .read (lo.toNat + i) = .ok (home i)) →
    (∀ i k, i + k < n → (lo.toNat + i) / 8 = (lo.toNat + i + k) / 8 → home (i + k) = home i + k) →
    (∀ i, i < n → lineBusy s (home i / 128) = false ∧
      mapGet (coreOf s (l1Holder s (coreOfTeam m) (home i))).l1 (home i / 128) = none) →
    stashUnwritten s uid m lo.toNat n = false → scrStores uid t = false →
    loadTurn s uid tn t t.seq = true → t.sq = [] →
    (∀ r ∈ s.net, r.2.core ≠ coreOfTeam m ∧ r.1 ∉ m.owed) → s.errs = [] → s.partials = [] → s.pick = [] →
    ∃ t' u m', exec (.stashTransferDone uid tn) s = .next t' ∧ trainOf t' uid tn = some u ∧
      teamOf t' uid = some m' ∧ u.siding[j]? = some { p with resume := .unitDone 0 } ∧ m'.stash = m.stash ∧
      (∀ o, scrGet m' o = afterWrites ((List.range n).map fun i => (off + i, homeByte s (home i)))
        (scrGet m) o) ∧ SameBytes s t')

/-! ## Contractions and the accumulator -/

/-- R190 to R193, R187: `cx` and `cxs` give the array one contraction, with the rows as they stand and the
codebook of their context; `cxt` at a point of expected count 0 does so for its lanes, else it arrives,
and the arrival that completes the count fires one contraction for every lane that has arrived. Where the
manual leaves a point open this rests on the model's choices, log entries 20, 49, 78 and 115. -/
def Obligations.ContractionIssues : Prop :=
  (∀ (rows : Bool) a e s x, let i : Instr := if rows then .cxs a e else .cx a e
    Issues i a s x →
    let w := srcNat x.train a.s3 2 0
    let fmt := BitVec.ofNat 32 w
    let tile := BitVec.ofNat 32 (w / 2 ^ 32)
    let f := cxFmtOf fmt
    let d := descOf x.train fmt tile e
    fmtOk (!rows && a.form == .f64) fmt = true → shapeOk (!rows) f tile = true →
    cxExtOk rows f e = true → (rows = false → cxSrc2Ok a f = true) →
    spansFit x.team.scrSize (x.lanes.flatMap (rowSpans rows d)) →
    spansFit x.team.accSize [tileSpan tile] → storesMeet x.uid x.train (cxSpans rows d x.lanes) = false →
    jobBlocks x.team x.tn (cxSpans rows d x.lanes) = false →
    GivesJob i s x (some x.tn) none (.contract fmt tile e.goff (ctxBook s x.team.ctx)
      (x.lanes.map fun l => fetchRow s x.uid x.team (if rows then none
        else some (srcNat x.train a.s1 1 l, if f.gen = 0 then srcNat x.train a.s2 1 l else 0)) d l))) ∧
  (∀ a (n : BitVec 5) e s x, Issues (.cxt a n e) a s x →
    let w := srcNat x.train a.s3 2 0
    let fmt := BitVec.ofNat 32 w
    let tile := BitVec.ofNat 32 (w / 2 ^ 32)
    let d := descOf x.train fmt tile e
    let ls := x.lanes.map fun l => (x.train.lanes[l]?).getD 0
    let r := rvOf x.team n.toNat
    let d' := if r.expected = 0 then d else r.desc.getD d
    fmtOk false fmt = true → shapeOk false (cxFmtOf fmt) tile = true → cxExtOk true (cxFmtOf fmt) e = true →
    arrivalReady s x.uid x.tn x.team x.train = true → r.firing = none →
    spansFit x.team.scrSize (ls.flatMap (rowSpans true d')) → spansFit x.team.accSize [tileSpan d'.tile] →
    (r.expected = 0 → GivesJob (.cxt a n e) s x none none
      (.contract fmt tile e.goff (ctxBook s x.team.ctx)
        (ls.map (fetchRow s x.uid x.team none d)))) ∧
    (r.expected ≠ 0 →
      ∃ t u m cycles, exec (.cxt a n e) s = .next t ∧ trainOf t x.uid x.tn = some u ∧
        teamOf t x.uid = some m ∧ GoesOn x u (nextPc x) ∧ KeepsAll x.train u ∧ OnlyTeam x s t ∧
        rvOf m n.toNat = { r with
          desc := some d'
          part := setUnion r.part ls
          arrivals := r.arrivals + 1
          arrived := r.arrived ||| (trainBit x.tn &&& r.members)
          firing := if r.arrivals + 1 = r.expected then some s.nextId else none } ∧
        (∀ k, k ≠ n.toNat → rvOf m k = rvOf x.team k) ∧
        m.jobs = if r.arrivals + 1 = r.expected then
            mapPut x.team.jobs s.nextId ⟨none, some n.toNat, .contract d'.fmt d'.tile d'.ext.goff
              (ctxBook s x.team.ctx)
              ((setUnion r.part ls).map (fetchRow s x.uid x.team none d')), 0, 0, 0, s.now, cycles⟩
          else x.team.jobs))

/-- R200, R202 to R204: the accumulator instructions give their unit one job, when the bytes they name lie
within the window and the scratchpad and no earlier store or work of the train uses them; `accrd` issues a
producer that reads the words of its lanes. Where the manual leaves a point open this rests on the model's
choices, log entries 29 and 49. -/
def Obligations.AccumulatorIssues : Prop :=
  (∀ i a legal acc scr kind s x, accRule x i = some (a, legal, acc, scr, kind) → Issues i a s x →
    legal = true → spansFit x.team.accSize acc → spansFit x.team.scrSize scr → s.errs = [] →
    storesMeet x.uid x.train ((acc.map fun p => (true, p.1, p.2)) ++ footprint kind) = false →
    jobBlocks x.team x.tn ((acc.map fun p => (true, p.1, p.2)) ++ footprint kind) = false →
    GivesJob i s x (some x.tn) none kind) ∧
  (∀ a d s x, Issues (.accrd a d) a s x →
    let n := 4 * wide d
    let at_ (l : Nat) : Nat := (srcNat x.train a.s1 1 l + srcNat x.train a.s2 1 l) % 2 ^ 32 / n * n
    spansFit x.team.accSize (x.lanes.map fun l => (at_ l, n)) → s.errs = [] →
    storesMeet x.uid x.train (x.lanes.map fun l => (true, at_ l, n)) = false →
    jobBlocks x.team x.tn (x.lanes.map fun l => (true, at_ l, n)) = false →
    ∃ t u p, exec (.accrd a d) s = .next t ∧ trainOf t x.uid x.tn = some u ∧
      t.nextId = s.nextId + 1 ∧ mapGet u.prods s.nextId = some p ∧ p.kind = .acc n ∧
      p.dst = dstOf a.dst (wide d) ∧ p.lanes = maskOf x.lanes ∧ p.bad = [] ∧ p.held = false ∧
      p.parts = x.lanes.map (fun l => ⟨l, 0, BitVec.ofNat 80 (at_ l), .acc x.uid,
        (List.range n).map (at_ l + ·), true, none, 0⟩) ∧
      (∀ k, k ≠ s.nextId → mapGet u.prods k = mapGet x.train.prods k) ∧
      GoesOnWith x u a.dst s.nextId ∧
      u = { x.train with
        prods := u.prods
        empty := u.empty
        seq := u.seq
        siding := u.siding
        since := u.since
        passed := u.passed } ∧
      OnlyTrain x { s with nextId := s.nextId + 1 } t)

/-- R181, R182, R189, R193, R200, R203, R205: when its turn has come a job does its work once: a contraction,
which has taken its cycles of the array, adds its blocks to each element of its tile, in order of block, and a firing phase completes; the other jobs
do what `accDoes` says. No other word of the accumulator changes. Where the manual leaves a point open this
rests on the model's choices, log entries 22, 50, 89 and 130. -/
def Obligations.AccumulatorWork : Prop :=
  (∀ uid id s (m : Team) (j : Job) fmt tile goff book rows, teamOf s uid = some m →
    mapGet m.jobs id = some j → j.kind = .contract fmt tile goff book rows → isResident m = true →
    (coreOf s (coreOfTeam m)).halted = false → jobHeld m id j = false → arrayHeld s m id = false →
    jobTimed s m j = true → s.errs = [] → (∀ r ∈ rows, r.bad = none) → j.block = 0 → j.row = 0 →
    (∀ n, j.rv = some n → (rvOf m n).held = []) →
    ∃ t m', exec (.contractionComplete uid id) s = .next t ∧ teamOf t uid = some m' ∧
      TileBecomes m m' tile (fun i k => contracted fmt tile goff book rows i k
        (accWord m (tileWord (tileOff tile) (tileN tile) i k))) ∧
      m' = { m with trains := m'.trains, jobs := mapDel m.jobs id, acc := m'.acc, rvs := m'.rvs } ∧
      (∀ n, j.rv = some n → (rvOf m' n).phase = (rvOf m n).phase + 1 ∧ (rvOf m' n).arrivals = 0 ∧
        (rvOf m' n).firing = none ∧ (rvOf m' n).desc = none) ∧
      (∀ n, j.rv ≠ some n → rvOf m' n = rvOf m n) ∧
      (∀ k u, trainOf t uid k = some u → ∃ v, trainOf s uid k = some v ∧
        u = { v with flags := u.flags } ∧ v.flags &&& u.flags = v.flags) ∧
      t = { s with teams := t.teams }) ∧
  (∀ uid id s (m : Team) (j : Job), teamOf s uid = some m → mapGet m.jobs id = some j →
    isContract j.kind = false → isResident m = true → jobHeld m id j = false →
    ∃ t m', exec (.accumulatorInstructionComplete uid id) s = .next t ∧ teamOf t uid = some m' ∧
      accDoes m m' j.kind ∧
      m' = { m with trains := m'.trains, jobs := mapDel m.jobs id, acc := m'.acc, scr := m'.scr } ∧
      (∀ k u, trainOf t uid k = some u → ∃ v, trainOf s uid k = some v ∧
        u = { v with flags := u.flags } ∧ v.flags &&& u.flags = v.flags) ∧
      t = { s with teams := t.teams, errs := t.errs })

/-! ## The engines -/

/-- R308 to R315: `bcopy`, once its lanes have passed the checks of R313, gives the engine one copy for each
lane; a chunk of a copy writes its bytes to the own scratchpad, to memory or to a sibling, and then its bit
of the bitmap; the copy is over with its last chunk. Where the manual leaves a point open this rests on the
model's choices, log entries 66, 67, 70 and 71. -/
def Obligations.CopyEngine : Prop :=
  (∀ a (m : CopyMods) s x (ok : List (Nat × Copy)), Issues (.bcopy a m) a s x → (m.dir = 2 → x.team.determ = false) →
    Calm s → copyChecks s x a m x.lanes = (ok, []) → jobBlocks x.team x.tn (copySpans x.team.sib ok) = false →
    bitmapStores s x ok = false → copiesOn s x.core + x.lanes.length ≤ 64 →
    ∃ t u m', exec (.bcopy a m) s = .next t ∧ trainOf t x.uid x.tn = some u ∧
      teamOf t x.uid = some m' ∧ GoesOn x u (nextPc x) ∧
      u = { x.train with
        done := 0, seq := u.seq, siding := u.siding, since := u.since, passed := u.passed } ∧
      ok.map Prod.fst = x.lanes ∧ t.nextId = s.nextId + x.lanes.length ∧
      (∀ (n : Nat) l (c : Copy), ok[n]? = some (l, c) → mapGet m'.copies (s.nextId + n) = some c ∧
        c.rows = m.rows.toNat + 1 ∧ c.len = 16 * (m.len.toNat + 1) ∧ c.stride = 16 * m.stride.toNat ∧
        c.p = srcNat x.train a.s3 1 l / 16 * 16 ∧ c.dir = m.dir.toNat ∧ c.train = x.tn ∧
        c.core = x.core ∧ c.taken = [] ∧ c.moved = [] ∧
        (c.dir ≠ 2 → c.g = BitVec.ofNat 80 (addressOf (srcNat x.train a.s1 1 0)
          (srcNat x.train a.s2 1 l) false 0 / 16 * 16)) ∧
        c.left = List.range ((c.rows * c.len + 511) / 512)) ∧
      SameBytes s t) ∧
  (∀ uid id chunk s (m : Team) (c : Copy), teamOf s uid = some m → mapGet m.copies id = some c →
    chunk ∈ c.left → s.errs = [] → s.partials = [] → s.pick = [] → c.taken = [] → c.moved = [] →
    let home (va : Nat) : Nat := pageAddr c.pages va
    let os := chunkBytes c chunk
    (c.dir = 0 → (∀ t, trainOf s uid c.train = some t → storesBefore s uid c.train c.seq t.sq = false) ∧
      (trainOf s uid c.train = none → storesBefore s uid c.train c.seq [] = false) ∧
      (linesOf (os.map fun o => home (copyByte c o).1)).any (lineBusy s) = false) →
    (c.dir = 1 → (linesOf (os.map fun o => home (copyByte c o).2)).any (lineUpdating s) = false) →
    (∀ t, trainOf s uid c.train = some t → sourceStores s uid c t.sq os = false) →
    (trainOf s uid c.train = none → sourceStores s uid c [] os = false) →
    (c.left.filter (· ≠ chunk) = [] → c.rv = none) →
    ∃ t m', exec (.copyChunkDone uid id chunk) s = .next t ∧ teamOf t uid = some m' ∧
      mapGet m'.copies id = (if c.left.filter (· ≠ chunk) = [] then none
        else some { c with left := c.left.filter (· ≠ chunk) }) ∧
      (c.dir = 0 → c.bm = none → SameBytes s t ∧
        ∀ o, scrGet m' o = afterWrites (chunkWrites c (fun va => homeByte s (home va)) chunk)
          (scrGet m) o) ∧
      (c.dir = 1 → ∀ pa, homeByte t pa = afterWrites
        ((chunkWrites c (scrGet m) chunk).map fun w => (home w.1, w.2)) (homeByte s) pa) ∧
      (c.dir = 2 → c.bm = none → ∀ v, teamOf s (bitmapTeam s uid c) = some v →
        ∃ v', teamOf t (bitmapTeam s uid c) = some v' ∧
          ∀ o, scrGet v' o = afterWrites (chunkWrites c (scrGet m) chunk) (scrGet v) o) ∧
      (∀ b, c.bm = some b → c.dir < 2 → (scrGet m' (b + chunk / 8)).getLsbD (chunk % 8) = true))

/-- R317 to R322: `sdef` defines a stream and writes its save word and status 0; elements enter the FIFO in
order, here with the reads that are left of an element in one step; `mov` from a stream pops one element for
each enabled lane, ascending, and 0 past the end; `sfree` ends the stream; `sstat`, `qlen` and `mstat` give the
states of the engines. Where the manual leaves a point open this rests on the model's choices, log entries 16,
21, 28, 47, 74 and 79. -/
def Obligations.Streams : Prop :=
  (∀ a m s x pa, Issues (.sdef a m) a s x → mapGet x.train.streams m.q.toNat = none →
    mergeOut s x.uid x.tn m.q.toNat = none → streamsOn s x.core < 256 →
    let save := bGet x.train m.sv.toNat &&& ~~~7
    devXlate s x.team.ctx .write save.toNat = .ok pa → s.partials = [] → NoOwner s →
    ∃ t u k, exec (.sdef a m) s = .next t ∧ trainOf t x.uid x.tn = some u ∧
      Wrote u a.dst 1 x.lanes (fun _ => 0) ∧ GoesOn x u (nextPc x) ∧
      mapGet u.streams m.q.toNat = some k ∧ k.count = srcNat x.train a.s1 1 0 ∧
      k.stride = operandInt 32 false (srcNat x.train a.s2 1 0) ∧ k.limit = srcNat x.train a.s3 1 0 ∧
      k.dir = m.dir ∧ k.isz = 2 ^ m.isz.toNat ∧ k.asz = 2 ^ m.asz.toNat ∧ k.save = save ∧
      k.baseA.toNat = (bGet x.train m.a.toNat).toNat / k.asz * k.asz ∧
      k.baseB.toNat = (bGet x.train m.b.toNat).toNat / k.isz * k.isz ∧
      k.fifo = [] ∧ k.ahead = [] ∧ k.fetched = 0 ∧ k.popped = 0 ∧ k.state = 0 ∧
      (∀ q, q ≠ m.q.toNat → mapGet u.streams q = mapGet x.train.streams q) ∧
      ∀ p, homeByte t p = if pa ≤ p ∧ p < pa + 8 then 0 else homeByte s p) ∧
  (∀ uid tn q s (m : Team) (t : Train) (k : Stream) v, teamOf s uid = some m →
    trainOf s uid tn = some t → q < 8 → mapGet t.streams q = some k → isResident m = true →
    (coreOf s (coreOfTeam m)).halted = false → k.state = 0 → k.fetched < k.count → s.pick = [] →
    k.fifo.length < 64 → (fetchElem s uid tn m.ctx t k).2.1 = .ok v → s.partials = [] → NoOwner s →
    ∃ t' u, exec (.streamFetch uid tn q) s = .next t' ∧ trainOf t' uid tn = some u ∧
      (∃ k' : Stream, k' = { k with
          fetched := k.fetched + 1
          fifo := k.fifo ++ [v]
          ahead := mapDel k.ahead k.fetched
          told := false } ∧
        u = { t with streams := mapPut t.streams q k' }) ∧
      (k.ahead = [] → k.dir = true → k.limit = 0 → ∀ bs, devLoad s m.ctx
        ((k.baseA.toNat + k.fetched * k.stride * k.asz : Int) % 2 ^ 80).toNat k.asz = .ok bs →
        v = BitVec.ofNat 64 (natLE bs)) ∧ SameBytes s t') ∧
  (∀ a m q s x (k : Stream), Issues (.movStream a m) a s x → a.s1 = .q q →
    mergeOut s x.uid x.tn q.toNat = none → mapGet x.train.streams q.toNat = some k →
    (k.asz == 8) = m.d → min x.lanes.length (k.count - k.popped) ≤ k.fifo.length →
    ∃ t u k', exec (.movStream a m) s = .next t ∧ trainOf t x.uid x.tn = some u ∧
      Wrote u a.dst (wide m.d) x.lanes
        (fun l => ((k.fifo[x.lanes.idxOf l]?).getD 0).toNat) ∧ GoesOn x u (nextPc x) ∧
      (∀ r, r ∈ u.empty ↔ r ∈ x.train.empty ∧ ¬ inDestV a.dst (wide m.d) [0] r 0) ∧
      mapGet u.streams q.toNat = some k' ∧ k' = { k with
        fifo := k.fifo.drop x.lanes.length
        popped := k.popped + min x.lanes.length k.fifo.length } ∧
      u.done = 0 ∧ KeepsRegs x.train u a.dst (wide m.d) x.lanes ∧ u.p = x.train.p ∧
      OnlyTrain x s t) ∧
  (∀ a q s x, Issues (.sfree a q) a s x → NoOwner s →
    ∃ t u, exec (.sfree a q) s = .next t ∧ trainOf t x.uid x.tn = some u ∧ GoesOn x u (nextPc x) ∧
      mapGet u.streams q.toNat = none ∧
      (∀ n, n ≠ q.toNat → mapGet u.streams n = mapGet x.train.streams n) ∧ u.v = x.train.v ∧
      (mapGet x.train.streams q.toNat = none → OnlyTrain x s t)) ∧
  (∀ i a n v s x, engineStatus s x i = some (a, n, v) → Issues i a s x →
    Writes i a s x n (fun _ => v) 0)

/-- R323 to R326: `mdef` claims the tree with the inputs of its descriptor and writes status 0; a step emits
the largest head by Ord that reaches the threshold, the lowest input on a tie, and is done when there is
none; the pair enters the FIFO, or the scratchpad list; `mnext` writes the number it emitted and whether the
merge is exhausted, 0x0001_0000 without the tree, here in one step; `mfree` releases the tree. Where the
manual leaves a point open this rests on the model's choices, log entries 16, 75, 76 and 77. -/
def Obligations.MergeTree : Prop :=
  (∀ a m s x, Issues (.mdef a m) a s x → mergeBusy s x = false →
    let o := srcNat x.train a.s1 1 0 / 16 * 16
    let d := (List.range 144).map fun i => scrGet x.team (o + i)
    let out := natLE ((d.drop 4).take 4) / 8 * 8
    o + 144 ≤ x.team.scrSize → storesMeet x.uid x.train [(false, o, 144)] = false →
    jobBlocks x.team x.tn [(false, o, 144)] = false → s.errs = [] → NoOwner s →
    (m.scr = true → out + 8 * m.k.toNat ≤ x.team.scrSize ∧ m.k ≠ 0) → mergeDescOk d = true →
    ∃ t u k, exec (.mdef a m) s = .next t ∧ trainOf t x.uid x.tn = some u ∧
      Wrote u a.dst 1 x.lanes (fun _ => 0) ∧ GoesOn x u (nextPc x) ∧
      (coreOf t x.core).merge = some k ∧ k.uid = x.uid ∧ k.train = x.tn ∧ k.q = m.q.toNat ∧
      k.scr = (if m.scr then some out else none) ∧ k.k = m.k.toNat ∧ k.thr = m.thr ∧ k.emitted = 0 ∧
      k.fifo = [] ∧ k.kept = 0 ∧ k.done = false ∧ k.seq = x.train.seq ∧ k.ins.length = natLE (d.take 4) ∧
      (∀ (n : Nat) i, k.ins[n]? = some i →
        i.base = BitVec.ofNat 80 (natLE ((d.drop (16 + 16 * n)).take 10) / 8 * 8) ∧
        i.count = natLE ((d.drop (16 + 16 * n + 12)).take 4) ∧ i.cursor = 0 ∧ i.ended = false ∧ i.ahead = []) ∧
      (m.scr = false → mapGet u.streams m.q.toNat = none)) ∧
  (∀ fkey (hs : List MergeIn) (n : Nat) (v : DWord), bestHead fkey 0 hs = some (n, v) →
    (∃ i, hs[n]? = some i ∧ headOf i = some v) ∧
    ∀ (k : Nat) i (w : DWord), hs[k]? = some i → headOf i = some w →
      keyOrd fkey (w.setWidth 32) ≤ keyOrd fkey (v.setWidth 32) ∧
      (k < n → keyOrd fkey (w.setWidth 32) < keyOrd fkey (v.setWidth 32))) ∧
  (∀ s ctx (m : Merge) (v : Nat → DWord), Calm s → m.done = false → m.k = 0 ∨ m.emitted ≠ m.k →
    (∀ (n : Nat) i, m.ins[n]? = some i → i.ended = false → i.cursor < i.count →
      mapGet i.ahead i.cursor = some (v n) ∨ mapGet i.ahead i.cursor = none ∧
        engineRead s ctx ((i.base.toNat + 8 * i.cursor) % 2 ^ 80) 8 = .ok (v n)) →
    let key (w : DWord) : Nat := mergeKey m.fkey (w.setWidth 32)
    let has (i : MergeIn) : Bool := !i.ended && decide (i.cursor < i.count)
    let live (n : Nat) : Bool := match m.ins[n]? with
      | some i => has i && decide (mergeKey m.fkey m.thr ≤ key (v n))
      | none => false
    let held (n : Nat) (i : MergeIn) : AMap DWord :=
      if has i && (mapGet i.ahead i.cursor).isNone then mapPut i.ahead i.cursor (v n) else i.ahead
    (∀ k, live k = true →
      (∀ n, live n = true → key (v n) ≤ key (v k) ∧ (n < k → key (v n) < key (v k))) →
      ∃ m', mergeStep ctx m s = (s, .emit m' (v k)) ∧
        m' = { m with ins := m'.ins, emitted := m.emitted + 1 } ∧
        ∀ n : Nat, m'.ins[n]? = (m.ins[n]?).map fun i => { i with
          cursor := if n = k then i.cursor + 1 else i.cursor
          ended := !live n
          ahead := if n = k then mapDel (held n i) i.cursor else held n i }) ∧
    ((∀ n, live n = false) → ∃ m', mergeStep ctx m s = (s, .done m') ∧
      m' = { m with ins := m'.ins, done := true } ∧
      ∀ n : Nat, m'.ins[n]? = (m.ins[n]?).map fun i => { i with ended := true, ahead := held n i })) ∧
  (∀ s (m : Merge) (v : DWord),
    (m.scr = none → mergeOutput s m v = (s, { m with fifo := m.fifo ++ [v] })) ∧
    (∀ o tm, m.scr = some o → teamOf s m.uid = some tm → ∃ s' tm', mergeOutput s m v = (s', m) ∧
      teamOf s' m.uid = some tm' ∧ ∀ a, scrGet tm' a = afterWrites ((List.range 8).map fun i =>
        (o + 8 * (m.emitted - 1) + i, BitVec.ofNat 8 (v.toNat / 256 ^ i))) (scrGet tm) a)) ∧
  (∀ a thr s x, Issues (.mnext a thr) a s x →
    (mergeOf s x.uid x.tn = none → Writes (.mnext a thr) a s x 1 (fun _ => 0x10000) 0) ∧
    (∀ k : Merge, mergeOf s x.uid x.tn = some k →
      let n := min 64 (srcNat x.train a.s1 1 0) - k.kept
      let k0 := if thr then raiseThr k (BitVec.ofNat 32 (srcNat x.train a.s2 1 0)) else k
      let spans : List (Bool × Nat × Nat) := match k.scr with
        | some o => [(false, o + 8 * k.emitted, 8 * n)]
        | none => []
      (x.split.resume = .none → BeginsRun (.mnext a thr) s x) ∧
      (x.split.resume ≠ .none → storesBefore s x.uid x.tn x.train.seq x.train.sq = false → s.pick = [] →
        storesMeet x.uid x.train spans = false → jobBlocks x.team x.tn spans = false →
        (∀ s1 k1, s.partials = [] → mergeRun x.team.ctx n k0 s = (s1, k1, none) →
          ∃ t u, exec (.mnext a thr) s = .next t ∧ trainOf t x.uid x.tn = some u ∧
            Wrote u a.dst 1 x.lanes (fun _ => k1.kept + if k1.done then 0x10000 else 0) ∧
            GoesOn x u (nextPc x) ∧ (coreOf t x.core).merge = some { k1 with kept := 0 } ∧
            SameBytes s t) ∧
        (∀ m' v, Calm s → n = 1 → k.scr = none → k.fifo.length < 64 →
          mergeStep x.team.ctx k0 s = (s, .emit m' v) →
          ∃ t u, exec (.mnext a thr) s = .next t ∧ trainOf t x.uid x.tn = some u ∧
            Wrote u a.dst 1 x.lanes (fun _ => k.kept + 1 + if k.done then 0x10000 else 0) ∧
            GoesOn x u (nextPc x) ∧
            (coreOf t x.core).merge = some { m' with fifo := k.fifo ++ [v], kept := 0 } ∧
            SameBytes s t)))) ∧
  (∀ a s x, Issues (.mfree a) a s x →
    ∃ t u, exec (.mfree a) s = .next t ∧ trainOf t x.uid x.tn = some u ∧ GoesOn x u (nextPc x) ∧
      mergeOf t x.uid x.tn = none ∧ u.v = x.train.v ∧ u.k = x.train.k ∧ u.streams = x.train.streams ∧
      SameBytes s t)

/-! ## Launches and tasks -/

/-- R179, R132, R366, R133, R300, R301: `glaunch` begins a run of its own, releases, reads its record and
writes status 0 where it is accepted, 2 where the context holds 1,024 unstarted launches; a doorbell has
the host's next record taken in, up to the tail that it was rung for; a launch becomes ready when every event it depends on is complete;
`tlaunch` gives a lane's task to the core's Platform with its argument record, or waits for room until its
hold ends before any has come. Where the manual leaves a point open this rests on the model's choices, log
entries 48, 56, 59, 134 and 142. -/
def Obligations.LaunchCommands : Prop :=
  (∀ a d s x, Issues (.glaunch a d) a s x → x.split.resume = .none → BeginsRun (.glaunch a d) s x) ∧
  (∀ a d s x, Issues (.glaunch a d) a s x → x.split.resume ≠ .none → x.train.sq = [] → Calm s →
    NoOwner s → (∀ p ∈ x.train.prods, ∀ n sx, p.2.kind = .load n sx → loadDone p.2 = true) →
    let va := BitVec.ofNat 80 (addressOf (srcNat x.train a.s1 1 0)
      (srcNat x.train a.s2 (wide d) (headLane x.lanes)) d 0)
    (1024 ≤ unstarted s x.team.ctx → ∃ t u, exec (.glaunch a d) s = .next t ∧
      trainOf t x.uid x.tn = some u ∧ Wrote u a.dst 1 x.lanes (fun _ => 2) ∧ GoesOn x u (nextPc x) ∧
      t.launches = s.launches) ∧
    (∀ bs hb (h : Header), unstarted s x.team.ctx < 1024 → devLoad s x.team.ctx va.toNat 160 = .ok bs →
      va.toNat % 32 = 0 → recordOk bs = true →
      devLoad s x.team.ctx (natLE ((bs.drop 16).take 10)) 64 = .ok hb → parseHeader hb = some h →
      h.task = false → natLE ((bs.drop 8).take 4) ≠ 0 →
      ∃ t u l, exec (.glaunch a d) s = .next t ∧ trainOf t x.uid x.tn = some u ∧
        Wrote u a.dst 1 x.lanes (fun _ => 0) ∧ GoesOn x u (nextPc x) ∧
        t.launches = mapPut s.launches s.nextId l ∧ l.ctx = x.team.ctx ∧
        l.prio = natLE (bs.take 4) / 256 % 4 ∧ l.csize = 2 ^ (natLE (bs.take 4) / 65536 % 4) ∧
        l.teams = natLE ((bs.drop 8).take 4) ∧ l.header.toNat = natLE ((bs.drop 16).take 10) ∧
        l.arg.toNat = natLE ((bs.drop 32).take 10) ∧ l.lanes = h.lanes ∧ l.width = h.width ∧
        l.ready = (natLE (bs.take 4) / 2 ^ 18 % 8 == 0) ∧ l.placed = 0 ∧ l.retired = 0 ∧ SameBytes s t)) ∧
  (∀ ctx queue s (q : LqRegs) upto ctl bs s1 ok, (ctxOf s ctx).lq[queue]? = some q →
    (ctxOf s ctx).created = true → bellUpto (ctxOf s ctx) queue = upto →
    (queue, upto) ∈ (ctxOf s ctx).bells → q.size ≠ 0 → Calm s → NoOwner s →
    devLoad s ctx q.ctl.toNat 16 = .ok ctl →
    let head := natLE ((ctl.drop 8).take 8)
    upto.getD (natLE (ctl.take 8)) = (head + 1) % 2 ^ 64 → unstarted s ctx < 1024 →
    let va := (q.base.toNat + 160 * (head % 2 ^ q.size.toNat)) % 2 ^ 80
    devLoad s ctx va 160 = .ok bs → acceptRecord s ctx (BitVec.ofNat 80 va) bs = (s1, ok) →
    ∃ t, exec (.launchDoorbell ctx queue) s = .next t ∧ t.launches = s1.launches ∧
      (ctxOf t ctx).bells = (ctxOf s ctx).bells.filter fun b => b ≠ (queue, upto)) ∧
  (∀ n s (l : Launch), mapGet s.launches n = some l → l.ready = false → Calm s → NoOwner s →
    let evs := l.deps.flatMap fun d => (List.range d.2).map fun i =>
      devLoad s l.ctx ((d.1.toNat + 8 * i) % 2 ^ 80) 8
    ((∀ e ∈ evs, ∃ bs, e = .ok bs ∧ natLE (bs.take 1) = 1) →
      exec (.launchReady n) s = .next { s with launches := mapPut s.launches n { l with ready := true } }) ∧
    ((∃ e ∈ evs, ∃ bs, e = .ok bs ∧ natLE (bs.take 1) = 0) →
      exec (.launchReady n) s = .next s)) ∧
  (∀ a sc s x, Issues (.tlaunch a sc) a s x → x.team.determ = false → x.split.resume = .none →
    BeginsRun (.tlaunch a sc) s x) ∧
  (∀ a s x l h arg prio, Issues (.tlaunch a 0) a s x → x.team.determ = false →
    x.split.resume = .begun → x.lanes = [l] → (coreOf s x.core).forming = [] → Calm s → NoOwner s →
    let task := srcNat x.train a.s3 1 l % 256
    (256 ≤ pendingTasks (coreOf s x.core) →
      ∃ t u, exec (.tlaunch a 0) s = .next t ∧ trainOf t x.uid x.tn = some u ∧
        Waits x t u .unit (.tlaunch [] [l] (s.now + 2048) false) ∧ KeepsAll x.train u ∧ OnlyTrain x s t) ∧
    (pendingTasks (coreOf s x.core) < 256 → (taskEntry s x.team.ctx task).2 = some (h, arg, prio) →
      ∃ t u rec_, exec (.tlaunch a 0) s = .next t ∧ trainOf t x.uid x.tn = some u ∧
        Wrote u a.dst 1 x.lanes (fun _ => 0) ∧ GoesOn x u (nextPc x) ∧
        (coreOf t x.core).forming =
          [⟨[⟨x.team.ctx, BitVec.ofNat 8 task, rec_, h, arg, prio, s.nextId⟩], s.now + 32⟩] ∧
        rec_.toNat = srcNat x.train a.s1 2 l % 2 ^ 64 + 2 ^ 144 * (task + 2 ^ 48 *
          (srcNat x.train a.s2 2 l % 2 ^ 64)) ∧ SameBytes s t)) ∧
  (∀ uid tn s (m : Team) (t : Train) (j : Nat) (p : Split) sts l rest till room, teamOf s uid = some m →
    trainOf s uid tn = some t → t.siding[j]? = some p → p.resume = .tlaunch sts (l :: rest) till room →
    p.st = .waiting .unit →
    ∃ t' u, exec (.tlaunchHoldExpire uid tn) s = .next t' ∧ trainOf t' uid tn = some u ∧
      u.siding[j]? = some (if till ≤ s.now ∧ room = false then { p with
        st := .ready, resume := .tlaunch (mapPut sts l 2) rest (s.now + 2048) false } else p) ∧
      t' = { s with teams := t'.teams })

/-- R127, R134, R155, R214, R291, R296: the highest-ranked launch that fits is placed, its trains starting
after its header with every register 0; a team whose work is done retires and counts; a task train starts
with its lanes' argument records in v0 to v7. Where the manual leaves a point open this rests on the model's
choices, log entries 57 and 58. -/
def Obligations.TeamLife : Prop :=
  (∀ part s k rest (l : Launch) core, ranked s part = k :: rest → mapGet s.launches k = some l →
    firstStand (standing s part) = some (launchStand s part k l) → launchSpot s l = some [core] →
    ∃ t m, exec (.teamPlace part) s = .next t ∧ teamOf t s.nextId = some m ∧ m.loc = .core core ∧
      m.ctx = l.ctx ∧ m.launch = some k ∧ m.team = BitVec.ofNat 32 (l.placed * l.csize) ∧
      m.grid = l.grid ∧ m.arg = l.arg ∧ m.lanes = l.lanes ∧ m.scrSize = l.scrSize ∧ m.scr = [] ∧
      m.acc = [] ∧ m.accSize = 2048 * (l.width * ((l.lanes + l.width - 1) / l.width)) ∧ m.rvs = [] ∧
      mapGet t.launches k = some { l with placed := l.placed + 1 } ∧ SameBytes s t ∧
      ∀ n, n < (l.lanes + l.width - 1) / l.width → ∃ u, trainOf t s.nextId n = some u ∧ u.v = [] ∧
        StartsAs u n l.lanes (if l.lanes = 1 then 4 else l.width) (headLane l.roles) (l.header + 64) (ctxOf s l.ctx).memctl) ∧
  (∀ uid s (m : Team), teamOf s uid = some m → m.loc ≠ .retired (coreOfTeam m) →
    retireReady s uid m = true → (∀ k ∈ closingOf s m, mapGet s.net k = none) → NoOwner s →
    m.launch = none ∨ m.csize = 1 →
    ∃ t, exec (.teamRetire uid) s = .next t ∧ teamOf t uid = none ∧
      (∀ k l, m.launch = some k → mapGet s.launches k = some l → mapGet t.launches k =
        if l.retired + 1 = l.teams then none else some { l with retired := l.retired + 1 }) ∧
      (∀ k l s1, m.launch = some k → mapGet s.launches k = some l → l.retired + 1 ≠ l.teams →
        devStore s m.ctx ((m.events.toNat + 8 * m.team.toNat) % 2 ^ 80)
          (natLe 8 (coreOfTeam m * 256 + if m.aborted then 3 else 1)) = .ok s1 → SameBytes s1 t)) ∧
  (∀ core s (d : Departed) rest (task : Task) tasks, (coreOf s core).departed = d :: rest → d.lost = 0 →
    d.tasks = task :: tasks → d.tasks.length ≤ 32 → taskFits s core d = true →
    ∃ t m u, exec (.taskTrainPlace core 0) s = .next t ∧ teamOf t s.nextId = some m ∧
      m.loc = .core core ∧ m.ctx = task.ctx ∧ m.launch = none ∧ m.arg = task.arg ∧
      trainOf t s.nextId 0 = some u ∧
      StartsAs u 0 d.tasks.length (if d.tasks.length ≤ 4 then 4 else if d.tasks.length ≤ 8 then 8
        else if d.tasks.length ≤ 16 then 16 else 32) d.budget (task.header + 64)
        (ctxOf s task.ctx).memctl ∧
      (∀ (r l : Nat) e, r < 8 → d.tasks[l]? = some e → vGet u r l = e.rec_.extractLsb' (32 * r) 32) ∧
      (coreOf t core).departed = rest ∧ SameBytes s t)

/-- R247, R293, R296, R298: a launch whose `casl` is acknowledged is delivered and opens a forming train at
its Platform, which departs when its gathering window closes; an idle Platform steals a forming train of
its partition; a `casl` is compared, written and enqueued as one event when its slice has an entry for it,
waits for one otherwise, and after its hold answers NO_ROOM with the value as read. Where the manual
leaves a point open this rests on the model's choices, log entries 65, 107 and 119. -/
def Obligations.Continuations : Prop :=
  (∀ slice s (e : LqEntry) rest, slice < 256 → (sliceOf s slice).queue = e :: rest → e.lost = none →
    (∀ k, e.req = some k → mapGet s.net k = none) → (ctxCores s e.task.ctx).contains e.core = true →
    pendingTasks (coreOf s e.core) < 256 →
    (coreOf s e.core).forming.all (fun f => !formsFor s.now e.task f) →
    ∃ t, exec (.platformAccept slice 0) s = .next t ∧ (sliceOf t slice).queue = rest ∧
      (coreOf t e.core).forming = (coreOf s e.core).forming ++
        [⟨[{ e.task with order := s.nextId }], s.now + 32⟩] ∧
      SameBytes s t ∧ t.teams = s.teams) ∧
  (∀ core s (f : Forming) rest, (coreOf s core).forming = f :: rest → f.close ≤ s.now → f.tasks ≠ [] →
    Calm s → NoOwner s → (departedOf s f.tasks).2.lost = 0 →
    ∃ t, exec (.gatherWindowClose core 0) s = .next t ∧ (coreOf t core).forming = rest ∧
      (coreOf t core).departed = (coreOf s core).departed ++ [(departedOf s f.tasks).2] ∧
      (departedOf s f.tasks).2.tasks = f.tasks ∧ SameBytes s t) ∧
  (∀ thief victim s (f : Forming) rest (task : Task) tasks, thief ≠ victim → platformIdle s thief = true →
    (coreOf s victim).departed = [] → (coreOf s victim).forming = f :: rest → f.tasks = task :: tasks →
    sharesPart s thief victim task.ctx = true → Calm s → NoOwner s → (departedOf s f.tasks).2.lost = 0 →
    ∃ t, exec (.platformSteal thief victim) s = .next t ∧ (coreOf t victim).forming = rest ∧
      (coreOf t thief).departed = (coreOf s thief).departed ++ [(departedOf s f.tasks).2] ∧
      SameBytes s t) ∧
  (∀ req s (r : Req) (o : LaneOp) task pay, mapGet s.net req = some r → r.stage = .toHome →
    r.ops = [o] → o.op = .casl task pay → reqReady s req r = true →
    let q := sliceOf s (homeSlice (128 * r.line))
    (¬ (q.queue.length < 64 ∧ q.waiting = []) →
      ∃ t, exec (.caslHome req) s = .next t ∧
        mapGet t.net req = some { r with stage := .holding (s.now + 2048) } ∧
        (sliceOf t (homeSlice (128 * r.line))).waiting = q.waiting ++ [req] ∧ SameBytes s t) ∧
    (∀ n b, q.queue.length < 64 → q.waiting = [] → lineBusy s r.line = false → NoOwner s →
      r.olds = [] → r.oks = 0 → s.partials = [] → s.errs = [] → (∀ c, (ctxOf s c).scopechk = false) →
      o.addrs = (List.range n).map (b + ·) → n = 4 ∨ n = 8 → o.lane < 64 →
      ∃ t, exec (.caslHome req) s = .next t ∧ CaslDone s t req r o task pay)) ∧
  (∀ req s (r : Req) (o : LaneOp) task pay till rest n b, mapGet s.net req = some r →
    r.stage = .holding till → r.ops = [o] → o.op = .casl task pay →
    let q := sliceOf s (homeSlice (128 * r.line))
    q.waiting = req :: rest → lineBusy s r.line = false → NoOwner s → r.olds = [] → r.oks = 0 →
    s.partials = [] → s.errs = [] → (∀ c, (ctxOf s c).scopechk = false) →
    o.addrs = (List.range n).map (b + ·) → n = 4 ∨ n = 8 → o.lane < 64 →
    (q.queue.length < 64 → s.now < till → ∃ t, exec (.caslReserve req) s = .next t ∧
      (sliceOf t (homeSlice (128 * r.line))).waiting = rest ∧
      CaslDone (modSlice s (homeSlice (128 * r.line)) fun q => { q with waiting := rest }) t req r o
        task pay) ∧
    (till ≤ s.now → holdBehind s req r = false →
      ∃ t r', exec (.caslHoldExpire req) s = .next t ∧ mapGet t.net req = some r' ∧
        r'.olds = [(o.lane, BitVec.ofNat 128 (natLE (o.addrs.map (homeByte s)) + 2 ^ (8 * n) * 2))] ∧
        r'.stage = .updating [] ∧ r'.oks = r.oks ∧
        (sliceOf t (homeSlice (128 * r.line))).waiting = rest.filter (· ≠ req) ∧ SameBytes s t))

/-! ## Caches, translation, the host -/

/-- R219, R222, R225, R341, R344, R364, R365: dropping a replica, evicting a line from an L1 or from L2
changes no byte; a walk that finds a leaf puts it into both TLBs; the host writes and reads device memory
at its home, and takes a line of its own region back; an uncorrectable error marks its granule, a
corrected one counts for its die's next sample. Where the manual leaves a point open this rests on the model's choices,
log entries 14, 102, 104 and 120. -/
def Obligations.CachesAndHost : Prop :=
  (∀ line slice s (l : L2Line), mapGet s.l2 line = some l →
    ∃ t, exec (.replicaDrop line slice) s = .next t ∧ SameBytes s t ∧
      mapGet t.l2 line = some { l with replicas := l.replicas.filter (·.slice ≠ slice) } ∧
      ∀ r ∈ l.replicas, r.slice = slice → ∀ c ∈ r.supplied, mapGet (coreOf t c).l1 line = none) ∧
  (∀ core line s, ∃ t, exec (.l1Evict core line) s = .next t ∧ SameBytes s t ∧
    mapGet (coreOf t core).l1 line = none ∧
    (∀ p ∈ t.partials, p.core = core → p.pa / 128 = line → p.atHome = true) ∧
    ∀ k, k ≠ line → mapGet (coreOf t core).l1 k = mapGet (coreOf s core).l1 k) ∧
  (∀ line s (l : L2Line), mapGet s.l2 line = some l → lineUpdating s line = false →
    s.errs = [] → s.partials = [] →
    ∃ t, exec (.l2Evict line) s = .next t ∧ mapGet t.l2 line = none ∧ SameBytes s t ∧
      (∀ i, i < 128 → memGet t.mem (128 * line + i) = lineByte l.data i) ∧
      ∀ c ∈ l.sharers, mapGet (coreOf t c).l1 line = none) ∧
  (∀ core ctx vp s e, tlbFind (dieAt s (dieOf core)).tlb ctx (vp * 2 ^ 18) = none ∨
      (tlbFind (coreOf s core).tlb ctx (vp * 2 ^ 18)).isSome = true → Calm s →
    walk s ctx (vp * 2 ^ 18) = .ok e →
    ∃ t, exec (.translationWalk core ctx vp) s = .next t ∧ e ∈ (coreOf t core).tlb ∧
      e ∈ (dieAt t (dieOf core)).tlb ∧ t = { s with cores := t.cores, dies := t.dies }) ∧
  (∀ pa bytes s, inRequest pa bytes.length = true → answersHost s = true →
    regionOf pa = .hbm ∧ present s pa = true ∧ lineBusy s (pa / 128) = false ∧
        partialWords s (pa / 128) = [] ∨
      regionOf pa = .host ∧ mapGet s.l2 (pa / 128) = none →
    ∃ t, exec (.hostWrite pa bytes) s = .next t ∧
      ∀ a, homeByte t a = afterWrites (bytesAt pa bytes) (homeByte s) a) ∧
  (∀ pa n s, inRequest pa n = true → answersHost s = true → s.errs = [] →
    regionOf pa = .hbm ∧ present s pa = true ∧ lineBusy s (pa / 128) = false ∧
        partialWords s (pa / 128) = [] ∨
      regionOf pa = .host ∧ mapGet s.l2 (pa / 128) = none →
    ∃ t, exec (.hostRead pa n) s = .next t ∧
      t = { s with hostOut := (List.range n).map fun i => homeByte s (pa + i) }) ∧
  (∀ line host s, regionOf (128 * line) = .host → lineBusy s line = false → s.errs = [] →
    s.partials = [] →
    ∃ t, exec (.hostOwnershipRecall line host) s = .next t ∧ mapGet t.l2 line = none ∧
      ∀ a, homeByte t a =
        afterWrites (host.map fun w => (128 * line + w.1 % 128, w.2)) (homeByte s) a) ∧
  (∀ pa s, regionOf pa = .hbm → inFlight s (.hbm pa) = false → ErrPlace.hbm (pa / 8 * 8) ∉ s.errs →
    exec (.memoryError (.hbm pa) false) s = .next { s with errs := .hbm (pa / 8 * 8) :: s.errs }) ∧
  (∀ pa s, regionOf pa = .hbm →
    ∃ t, exec (.memoryError (.hbm pa) true) s = .next t ∧
      defGet 0 (dieAt t (homeDie pa)).pending 0 = defGet 0 (dieAt s (homeDie pa)).pending 0 + 1 ∧
      (dieAt t (homeDie pa)).corrected = (dieAt s (homeDie pa)).corrected ∧
      t = { s with dies := t.dies })

/-! ## Runs, traps between runs, pre-emption -/

/-- R137, R331, R333, R345, R346, R349: a run slot goes to a ready train that none precedes in the order of
R137; a pending entry continues into the handler when the queue has room; a deferred trap is taken between
runs; a pre-emption request ends every run of its core; a team that vacates goes to a save slot and is later
restored with its registers and its bytes. Where the manual leaves a point open this rests on the model's
choices, log entries 8, 61, 62, 90, 91, 92 and 93. -/
def Obligations.RunsAndPreemption : Prop :=
  (∀ core pipe s b, slotOpen s core pipe = true → slotPick (boundTo s core pipe) = some b →
    (b ∈ boundTo s core pipe ∧ b.idx.isSome = true ∧
      ∀ c ∈ boundTo s core pipe, c.idx.isSome = true → listLess (slotKey c) (slotKey b) = false) ∧
    ∃ t, exec (.runSlot core pipe) s = .next t ∧
      (pipeOf (coreOf t core) pipe).run = some ⟨b.uid, b.tn, b.idx.getD 0, 0⟩ ∧ SameBytes s t) ∧
  (∀ uid tn s (m : Team) (t : Train) p rest s1 at_ (sp : Split), teamOf s uid = some m →
    trainOf s uid tn = some t → t.pend = some p → isResident m = true →
    (coreOf s (coreOfTeam m)).halted = false → (ctxOf s m.ctx).fqWait = .train uid tn :: rest →
    writeRecs (modCtx s m.ctx fun c => { c with fqWait := rest }) m.ctx p.recs = .ok s1 at_ →
    t.handler = none → (ctxOf s m.ctx).trapmask.getLsbD (p.code - 1) = true →
    (ctxOf s m.ctx).vector ≠ 0 → t.siding[p.idx]? = some sp →
    ∃ t' u, exec (.trapEntry uid tn) s = .next t' ∧ trainOf t' uid tn = some u ∧
      u.pend = none ∧ u.trap = BitVec.ofNat 32 p.code ∧ u.fault = at_ ∧
      u.handler = some ⟨sp.pc, sp.resume⟩ ∧
      u.siding[p.idx]? = some ⟨(ctxOf s m.ctx).vector, sp.mask, .ready, false, .none, false⟩ ∧
      (∀ (j : Nat) (q : Split), j ≠ p.idx → t.siding[j]? = some q →
        u.siding[j]? = some { q with held := true }) ∧ u.v = t.v ∧ u.k = t.k) ∧
  (∀ uid tn s (m : Team) (t : Train) d rest p tl, teamOf s uid = some m → trainOf s uid tn = some t →
    t.defer = d :: rest → t.siding = p :: tl → mayDefer s uid tn m t = true →
    ∃ t' u, exec (.deferredTrap uid tn) s = .next t' ∧ trainOf t' uid tn = some u ∧
      u.defer = rest ∧ u.v = t.v ∧
      (u.pend.isSome = true ∨ u.trap = BitVec.ofNat 32 d.code ∨ u.trapped = true)) ∧
  (∀ core s, (coreOf s core).halted = false →
    ∃ t, exec (.preemptRequest core) s = .next t ∧ (coreOf t core).halted = true ∧
      (∀ p, p < 4 → (pipeOf (coreOf t core) p).run = none) ∧ SameBytes s t) ∧
  (∀ core uids s u (m : Team) slot more s1, vacateSet s core uids = [u] → teamOf s u = some m →
    m.loc = .core core → (coreOf s core).halted = true → drained s u m = true →
    slotsFor s [u] = true → freeSlots (ctxOf s m.ctx) = slot :: more →
    putImage m.ctx (saveSlot (ctxOf s m.ctx) slot) s.nextId (imageRanges m s.nextId)
      (sendAll { s with nextId := s.nextId + 1 } core) = .ok s1 →
    ∃ t m', exec (.vacate core uids) s = .next t ∧ teamOf t u = some m' ∧
      m'.loc = .saved slot s.nextId ∧
      m' = { m with loc := m'.loc, trains := m'.trains, owed := coreReqs s1 core m.owed true } ∧
      (∀ k v, mapGet m.trains k = some v → ∃ v', mapGet m'.trains k = some v' ∧
        v' = { v with merge := v'.merge, streams := v.streams.map fun q => (q.1, { q.2 with ahead := [] }) }) ∧
      slot ∈ (ctxOf t m.ctx).slots ∧
      (coreOf t core).halted = ((coreOf s core).vacating.any fun k => k != u)) ∧
  (∀ uid core s (m : Team) slot gen, teamOf s uid = some m → m.loc = .saved slot gen →
    savedGroup s uid m = [uid] → restorable s [uid] = true →
    (clustersOf s (ctxOf s m.ctx).partition.toNat).contains (clusterOf core) = true →
    let part := (ctxOf s m.ctx).partition.toNat
    firstStand (standing s part) = some (savedStand s part uid m) → canRestore s core m = true →
    Calm s → imageOf s uid = .ok true →
    ∃ t m', exec (.teamRestore uid core) s = .next t ∧ teamOf t uid = some m' ∧ m'.loc = .core core ∧
      m'.scr = m.scr ∧ m'.acc = m.acc ∧ m'.rvs = m.rvs ∧ m'.stash = m.stash ∧ slot ∉ (ctxOf t m.ctx).slots ∧
      ∀ k v, mapGet m.trains k = some v → v.ended = false → ∃ v', mapGet m'.trains k = some v' ∧
        v'.ended = false ∧ v'.v = v.v ∧ v'.k = v.k ∧ v'.b = v.b ∧ v'.p = v.p ∧ v'.flags = v.flags ∧
        v'.siding.map (fun p => (p.pc, p.mask)) = v.siding.map fun p => (p.pc, p.mask))

/-! ## Reset, power, monitors, registers -/

/-- R376 to R385: a start that finds its image, stacks, dies and first port good waits for its firmware,
which brings the module up; a start that its firmware does not end in time counts as failed and is made again;
the third failure in a row leaves the minimal mode, and a fourth holds the module; a reset keeps stored memory and clears the rest, and a loss of power keeps pooled and host memory
alone; the arbiter's registers, grants and periods, and the monitors. Where the manual leaves a point open
this rests on the model's choices, log entries 9, 12, 81, 86, 95, 96, 97 and 105. -/
def Obligations.PowerAndReset : Prop :=
  (∀ (host : Bool) (x : StartIn) (rest : List StartIn) (s : State),
    (host = true → s.boot.mode ≠ 3) → x.imageOk = true → x.stacksOk = true → x.diesOk = true →
    x.cxl0Ok = true →
    ∃ t, exec (if host then .hostResetRequest (x :: rest) else .powerOnReset (x :: rest)) s = .next t ∧
      t.mem = s.mem ∧ t.teams = [] ∧ t.ctxs = [] ∧ t.cores = [] ∧ t.l2 = [] ∧
      t.net = [] ∧ t.launches = [] ∧ t.parts = [] ∧
      t.boot = { s.boot with
        mode := 0
        stage := 5
        reason := if host then 1 else 0
        till := s.now + 6000000000
        from_ := s.now
        cxlUp := if s.boot.fails = 3 then 1 else x.cxlUp ||| 1
        milern := if s.boot.fails = 3 then 0 else x.milernUp }) ∧
  (∀ windows dev s, s.boot.mode = 0 → s.boot.stage = 5 → s.now < s.boot.till →
    ∃ t, exec (.firmwareUp windows dev) s = .next t ∧ t.boot = { s.boot with
        mode := if s.boot.fails = 3 then 2 else 1
        stage := 6
        fails := if s.boot.fails = 3 then 3 else 0 } ∧
      t = { s with boot := t.boot, device := dev % 8192, windows := t.windows }) ∧
  (∀ starts s, s.boot.mode = 0 → s.boot.stage = 5 → s.boot.till ≤ s.now → s.boot.fails = 3 →
    ∃ t, exec (.bootTimeout starts) s = .next t ∧ t.boot = { s.boot with mode := 3, reason := 2 } ∧
      t.mem = s.mem ∧ t.teams = []) ∧
  (∀ (x : StartIn) rest s, s.boot.mode = 0 → s.boot.stage = 5 → s.boot.till ≤ s.now → s.boot.fails < 3 →
    x.imageOk = true → x.stacksOk = true → x.diesOk = true → x.cxl0Ok = true →
    ∃ t, exec (.bootTimeout (x :: rest)) s = .next t ∧ t.mem = s.mem ∧ t.teams = [] ∧ t.boot.mode = 0 ∧
      t.boot.stage = 5 ∧ t.boot.fails = s.boot.fails + 1 ∧
      t.boot.reason = (if s.boot.fails + 1 = 3 then 7 else 2) ∧ t.boot.till = s.now + 6000000000 ∧
      t.boot.from_ = s.now) ∧
  (∀ s, ∃ t, exec .modulePowerLoss s = .next t ∧ t.teams = [] ∧ t.boot = Boot.reset ∧ t.errs = [] ∧
    t.mem = s.mem.filter fun c => regionOf c.1 = .cxl ∨ regionOf c.1 = .host) ∧
  (∀ w s, s.boot.mode ≠ 3 → exec (.budgetWrite w) s = .next { s with
    budget := if w < 600 then 600 else if 2400 < w then 2400 else w }) ∧
  (∀ p w s, s.boot.mode ≠ 3 → p < 16 → ∃ t, exec (.pweightWrite p w) s = .next t ∧
    (partOf t p).weight = BitVec.ofNat 8 w ∧ (partOf t p).mask = (partOf s p).mask ∧
    (partOf t p).share = (partOf s p).share ∧ (∀ q, q ≠ p → partOf t q = partOf s q) ∧
    t = { s with parts := t.parts }) ∧
  (∀ uncore full s, s.period ≤ s.now → ∃ t, exec (.arbiterPeriod uncore full) s = .next t ∧
    t.period = s.period + 12000 ∧
    (∀ c, c < 256 → ((dieAt s (dieOf c)).throttled = true → (coreOf t c).grant = 8) ∧
      ((dieAt s (dieOf c)).throttled = false → residents s c = [] → (coreOf t c).grant = 0) ∧
      ((dieAt s (dieOf c)).throttled = false → residents s c ≠ [] →
        8 ≤ (coreOf t c).grant ∧ (coreOf t c).grant ≤ 64)) ∧
    t = { s with cores := t.cores, estimate := t.estimate, drawn := t.drawn, period := t.period }) ∧
  (∀ die (x : Sample) starts s, die < 4 → s.boot.mode ≠ 3 → (dieAt s die).sampled ≠ s.period →
    trips x (dieAt s die) = false →
    ∃ t, exec (.monitorSample die x starts) s = .next t ∧ (dieAt t die).sampled = s.period ∧
      (∀ k w, x.thermal = [(k, w)] → k < 32 →
        defGet 0 (dieAt t die).thermal k = w &&& 0x8000FFFF) ∧
      (dieAt t die).throttled = ((dieAt t die).thermal.any (fun e => atLeast 1600 e.2) ||
        (dieAt s die).throttled && (dieAt t die).thermal.any (fun e => atLeast 1520 e.2)) ∧
      (dieAt t die).pending = [] ∧
      (risingKeys (dieAt s die).pending = true → ∀ k, (defGet 0 (dieAt t die).corrected k).toNat =
        min (2 ^ 32 - 1) ((defGet 0 (dieAt s die).corrected k).toNat + defGet 0 (dieAt s die).pending k)) ∧
      t = { s with dies := t.dies }) ∧
  (∀ die k s, die < 4 → k < 16 → s.boot.mode ≠ 3 →
    ∃ t, exec (.monitorClear die (0x100 + 8 * k)) s = .next t ∧
      defGet 0 (dieAt t die).droop k = (if (dieAt s die).newAt = s.now then
        defGet 0 (dieAt s die).newDroop k else 0) ∧
      (∀ j, j ≠ k → defGet 0 (dieAt t die).droop j = defGet 0 (dieAt s die).droop j) ∧
      t = { s with dies := t.dies }) ∧
  (∀ ctx k x s, s.boot.mode ≠ 3 → ctx < 4096 → k ∈ [0, 2, 5, 6, 8, 10, 11, 13, 26] →
    (ctxOf s ctx).created = false →
    ∃ t, exec (.registerWrite (0xFF000000000000 + 0x100000000 + 0x1000 * ctx + 16 * k)
        (if ctxRegWidth k ≤ 32 then 4 else 8) x) s = .next t ∧
      ctxReg (ctxOf t ctx) k = x.toNat % 2 ^ ctxRegWidth k ∧
      (∀ j, j ≠ k → j < 27 → ctxReg (ctxOf t ctx) j = ctxReg (ctxOf s ctx) j) ∧
      (∀ c, c ≠ ctx → ctxOf t c = ctxOf s c) ∧ t = { s with ctxs := t.ctxs })

/-! ## Contexts -/

/-- R329, R332, R343, R368 to R370, R377: a command does its work and leaves its outcome, 2 for done and 3 for
failed, which its completion writes to the status, with a notification for checkpoints and restores; a
notification that waited for the end of its microsecond is sent. Where the manual leaves a point open this
rests on the model's choices, log entries 8, 10, 11, 80, 84, 85, 87, 98, 99, 100, 106, 121 and 122. -/
def Obligations.ContextCommands : Prop :=
  (∀ ctx s, commanded s ctx 1 = true → ∃ t, exec (.createContext ctx) s = .next t ∧
    ctxOf t ctx = { ctxOf s ctx with
      created := (contextOk s (ctxOf s ctx) || (ctxOf s ctx).created)
      outcome := if contextOk s (ctxOf s ctx) = true then 2 else 3 } ∧
    (∀ c, c ≠ ctx → ctxOf t c = ctxOf s c) ∧ t = { s with ctxs := t.ctxs }) ∧
  (∀ ctx s, commanded s ctx 2 = true → ∃ t, exec (.destroyContext ctx) s = .next t ∧
    (ctxOf t ctx).created = false ∧ (ctxOf t ctx).outcome = 2 ∧
    (∀ uid m, teamOf t uid = some m → m.ctx ≠ ctx) ∧
    (∀ c e, e ∈ (coreOf t c).tlb → e.ctx ≠ ctx) ∧ t.mem = s.mem ∧ t.l2 = s.l2 ∧
    (∀ c, c ≠ ctx → ctxOf t c = ctxOf s c)) ∧
  (∀ ctx s, commanded s ctx 3 = true → translatedIn s ctx (argOf s ctx 0) (argOf s ctx 1) = false →
    ∃ t, exec (.invalidateTranslation ctx) s = .next t ∧
    (ctxOf t ctx).outcome = 2 ∧ SameBytes s t ∧
    ∀ e : TlbEntry, ((∃ c, e ∈ (coreOf t c).tlb) ∨ ∃ d, e ∈ (dieAt t d).tlb) →
      e.ctx = ctx → ¬ (e.vpage * 2 ^ e.bits < argOf s ctx 0 + argOf s ctx 1 ∧
        argOf s ctx 0 < (e.vpage + 1) * 2 ^ e.bits)) ∧
  (∀ ctx s, commanded s ctx 4 = true → ctxResidents s ctx = [] → ctxBusy s ctx = false →
    ∃ t, exec (.checkpointPhase1 ctx) s = .next t ∧ (ctxOf t ctx).quiesced = true ∧
      (ctxOf t ctx).outcome = 2 ∧
      ((∀ c ∈ s.cores, c.2.forming = [] ∧ c.2.departed = []) → (∀ q ∈ s.slices, q.2.queue = []) →
        SameBytes s t) ∧
      (∀ c, ∀ f ∈ (coreOf t c).forming, ctxOfTasks f.tasks ≠ ctx) ∧
      ∀ k, ∀ e ∈ (sliceOf t k).queue, e.task.ctx ≠ ctx) ∧
  (∀ ctx s, commanded s ctx 5 = true → (ctxOf s ctx).quiesced = false → Calm s →
    ∃ t, exec (.checkpointPhase2 ctx) s = .next t ∧ (ctxOf t ctx).outcome = 3 ∧
      t = { s with ctxs := t.ctxs }) ∧
  (∀ ctx s rs l, commanded s ctx 5 = true → (ctxOf s ctx).quiesced = true → Calm s →
    rangeList s ctx 64 (argOf s ctx 1) = some rs → argOf s ctx 0 % 4096 = 0 →
    pooled s (argOf s ctx 0) (checkpointSize (ctxOf s ctx) rs) = true →
    readRanges s ctx rs = some l →
    ∃ t k, exec (.checkpointPhase2 ctx) s = .next t ∧ (ctxOf t ctx).outcome = 2 ∧
      (ctxOf t ctx).quiesced = false ∧ k ∈ t.ckpts ∧ k.ctxId = ctx ∧ k.at_ = argOf s ctx 0 ∧
      k.device = s.device ∧ k.ranges = l ∧ k.ctx = ctxOf s ctx ∧ k.teams = s.teams.filter fun t => t.2.ctx == ctx) ∧
  (∀ ctx s, commanded s ctx 6 = true → s.partials = [] → findCheckpoint s (argOf s ctx 0) = none →
    ∃ t, exec (.restore ctx) s = .next t ∧ (ctxOf t ctx).outcome = 3 ∧
      (ctxOf t ctx).created = (ctxOf s ctx).created ∧
      t = { s with ctxs := t.ctxs, drawn := t.drawn }) ∧
  (∀ ctx s k s2 s3, commanded s ctx 6 = true → s.partials = [] →
    findCheckpoint s (argOf s ctx 0) = some k → k.ctxId = ctx →
    putRanges ctx k.ranges (modCtx { s with drawn := s.drawn + 1 } ctx (restoredCtx s.nextId k.ctx))
      = some s2 → putImages ctx k.teams s2 = some s3 →
    ∃ t, exec (.restore ctx) s = .next t ∧ (ctxOf t ctx).created = true ∧
      (ctxOf t ctx).outcome = 2 ∧ (ctxOf t ctx).ptroot = k.ctx.ptroot ∧
      (ctxOf t ctx).ranges = k.ctx.ranges ∧ (ctxOf t ctx).codebook = k.ctx.codebook ∧
      (risingKeys k.teams = true → ∀ uid m, mapGet k.teams uid = some m → isResident m = false →
        ∃ m', teamOf t (uid + s3.nextId) = some m' ∧ m'.ctx = m.ctx ∧ m'.loc = m.loc ∧
          m'.scr = m.scr ∧ m'.acc = m.acc)) ∧
  (∀ ctx s uid (m : Team) (t : Train) s', commanded s ctx 7 = true →
    findTeam s ctx (argOf s ctx 0) (argOf s ctx 1) = some (uid, m) → teamOf s uid = some m →
    mapGet m.trains (argOf s ctx 2) = some t → t.trapped = true → t.ended = false → t.prods = [] →
    ownStores s uid (argOf s ctx 2) t = false →
    resumeFrom s uid (argOf s ctx 2) m t (argOf s ctx 3 % 2 == 1) = (s', true) →
    ∃ t' u, exec (.resumeTrappedTrain ctx) s = .next t' ∧ trainOf t' uid (argOf s ctx 2) = some u ∧
      u.trapped = false ∧ (ctxOf t' ctx).outcome = 2 ∧ u.v = t.v ∧ u.k = t.k) ∧
  (∀ ctx s uid m, commanded s ctx 8 = true →
    findTeam s ctx (argOf s ctx 0) (argOf s ctx 1) = some (uid, m) → teamOf s uid = some m →
    (∀ k j, mapGet m.jobs k = some j → k < s.nextId) →
    ∃ t m', exec (.endTeam ctx) s = .next t ∧ teamOf t uid = some m' ∧ m'.aborted = true ∧
      m'.copies = [] ∧ (∀ k j, mapGet m.jobs k = some j → mapGet m'.jobs k = some j) ∧
      (∀ k v, mapGet m'.trains k = some v → v.ended = true) ∧
      (ctxOf t ctx).outcome = 2) ∧
  (∀ ctx s, (ctxOf s ctx).command ≠ 0 → (ctxOf s ctx).outcome ≠ 0 →
    ∃ t, exec (.commandComplete ctx) s = .next t ∧
      (ctxOf t ctx).cmdStatus = (ctxOf s ctx).outcome ∧ (ctxOf t ctx).command = 0 ∧
      (ctxOf t ctx).outcome = 0 ∧
      t.msix = (if 4 ≤ (ctxOf s ctx).command.toNat ∧ (ctxOf s ctx).command.toNat ≤ 6 then
        [((ctxOf s ctx).nvec.toNat, Config.causeCode 3)] else []) ++ s.msix) ∧
  (∀ ctx s, (ctxOf s ctx).noteTill ≤ s.now → (ctxOf s ctx).noteDue = true →
    ∃ t, exec (.notificationWindowEnd ctx) s = .next t ∧ (ctxOf t ctx).noteDue = false ∧
      (ctxOf t ctx).noteTill = s.now + 600 ∧
      t.msix = ((ctxOf s ctx).nvec.toNat, Config.causeCode 1) :: s.msix)

/-! ## Links -/

/-- R357, R358, R361, R362, R368: a peer's access is refused with PROTECTION, reason 6, unless its context
exists and allows peers; a load is answered with its bytes, a store or an atomic goes to its home, a check
is answered. This device's own store leaves for the peer, to be answered within 10 ms, or at once by one that
counts as silent; one that is not answered traps its train, the lanes of a load fail, each with PROTECTION,
reason 6, a check whose time is over lets its access go on to the same end, and the device counts as one that
has stopped responding, of which every context is told; a good flit is taken in, sixteen bad ones in a row or
1 ms of silence take the link down, and a device that sends no flit for 1 ms is silent too. Where the manual
leaves a point open this rests on the model's choices, log entries 39, 40, 88, 101 and 103. -/
def Obligations.PeerLinks : Prop :=
  (∀ (r : PeerIn) s, peerFits r = true → s.boot.milern ≠ 0 → Calm s → portUp s (routeTo s r.src) = true →
    let answers (code reason : Nat) (v : Line) : List (Nat × FlitItem) :=
      s.outbox ++ [(r.src, .answer r.tag code reason v [])]
    ((ctxOf s r.ctx).created = false ∨ (ctxOf s r.ctx).peerok = false →
      exec (.peerRequest r) s = .next { s with
        silent := setDel s.silent r.src
        lastHeard := mapPut s.lastHeard r.src s.now
        outbox := answers 6 6 0 }) ∧
    (∀ e pa, (ctxOf s r.ctx).created = true → (ctxOf s r.ctx).peerok = true →
      leafOf s r.ctx r.va.toNat = .ok e →
      useLeaf s (match r.kind, r.op.toNat with
        | 0, _ => .read
        | 1, _ => .write
        | 2, _ => .both
        | 3, _ => .test
        | _, 0 => .read
        | _, 1 => .write
        | _, 2 => .both
        | _, _ => .test) r.va.toNat e = .ok pa →
      (r.kind = 0 → lineBusy s (pa / 128) = false → s.errs = [] →
        ∃ t, exec (.peerRequest r) s = .next t ∧ t.outbox = answers 0 0
            (BitVec.ofNat 1024 (natLE ((List.range r.n).map fun i => homeByte s (pa + i)))) ∧
          t.silent = setDel s.silent r.src ∧ t.teams = s.teams ∧ SameBytes s t) ∧
      (r.kind = 4 → exec (.peerRequest r) s = .next { s with
        silent := setDel s.silent r.src
        lastHeard := mapPut s.lastHeard r.src s.now
        outbox := answers 0 (if e.w then 0 else 1) 0 }) ∧
      (r.kind ∈ [1, 2, 3] → ∃ t q, exec (.peerRequest r) s = .next t ∧ mapGet t.net s.nextId = some q ∧
        q.line = pa / 128 ∧ q.stage = .toHome ∧ q.peer = some (r.src, r.tag) ∧ q.place = .glob ∧
        (∀ o ∈ q.ops, o.mayWrite = e.w) ∧
        (r.kind = 1 → pa % 128 = r.va.toNat % 128 → ∀ f a, afterWrites (opBytes q.ops) f a =
          afterWrites (r.ws.map fun w => (pa + w.1, w.2)) f a) ∧
        (2 ≤ r.kind → ∃ o, q.ops = [o] ∧ o.addrs = (List.range r.n).map (pa + ·) ∧
          o.data.toNat = r.data.toNat ∧ o.op = if r.kind = 2 then .atom r.op else .cas)))) ∧
  (∀ req s (r : Req) dev, mapGet s.net req = some r → r.stage = .toHome → r.place = .peer dev →
    (∀ o ∈ r.ops, o.op = .store) → r.ops ≠ [] → reqReady s req r = true →
    ∃ t p, exec (.homeWrite req) s = .next t ∧
      mapGet t.net req = some { r with
        stage := .atPeer (s.now + if dev ∈ s.silent then 0 else 6000000) } ∧
      t.outbox = (s.outbox ++ if portUp s (routeTo s dev) then [(dev, .request p)] else []) ∧
      p.src = s.device ∧ p.ctx = r.ctx ∧ p.kind = 1 ∧ p.tag = req ∧
      p.va = BitVec.ofNat 64 (128 * r.line) ∧
      p.ws = (opBytes r.ops).map (fun w => (w.1 - 128 * r.line, w.2)) ∧
      SameBytes s t ∧ t.teams = s.teams) ∧
  (∀ tag s (r : Req) dev tn (t : Train) till, mapGet s.peerLoads tag = none →
    mapGet s.probes tag = none → mapGet s.net tag = some r → r.stage = .atPeer till → till ≤ s.now →
    r.place = .peer dev → r.prod = none → r.trains = [tn] → trainOf s r.uid tn = some t →
    t.ended = false →
    ∃ t' u d, exec (.peerTimeout tag) s = .next t' ∧ mapGet t'.net tag = none ∧
      trainOf t' r.uid tn = some u ∧ u = { t with defer := t.defer ++ [d] } ∧ d.code = 6 ∧
      d.reason = 6 ∧ d.lanes = maskOf (r.ops.map (·.lane)) ∧ dev ∈ t'.silent ∧
      (dev ∉ s.silent → ∀ c k, mapGet s.ctxs c = some k → k.created = true →
        (k.nvec.toNat, Config.causeCode 4) ∈ t'.msix)) ∧
  (∀ tag s (l : PeerLoad) m t p, mapGet s.peerLoads tag = some l → l.till ≤ s.now →
    teamOf s l.uid = some m → trainOf s l.uid l.train = some t → mapGet t.prods l.prod = some p →
    let mine (q : Part) : Bool := q.got.isNone && q.bad == 0 && q.place == .peer l.dev &&
      q.addrs.all fun a => l.addr ≤ a && a < l.addr + l.n
    ∃ t' u p', exec (.peerTimeout tag) s = .next t' ∧ mapGet t'.peerLoads tag = none ∧
      trainOf t' l.uid l.train = some u ∧ mapGet u.prods l.prod = some p' ∧
      p'.parts = (p.parts.map fun q => if mine q then { q with bad := BitVec.ofNat 8 (16 * 6 + 6) } else q) ∧
      u.v = t.v ∧ u.k = t.k ∧ l.dev ∈ t'.silent) ∧
  (∀ tag s (b : Probe) t, mapGet s.peerLoads tag = none → mapGet s.probes tag = some b → b.till ≤ s.now →
    trainOf s b.uid b.train = some t →
    ∃ t' u, exec (.peerTimeout tag) s = .next t' ∧ mapGet t'.probes tag = none ∧
      trainOf t' b.uid b.train = some u ∧ u = { t with asked := mapPut t.asked b.ea (0, 0) } ∧
      b.dev ∈ t'.silent) ∧
  (∀ port items s s1, portUp s port = true → takeItems items s = some s1 →
    exec (.flitReceive port true items) s =
      .next { s1 with ports := mapPut s1.ports port ⟨0, s1.now⟩ }) ∧
  (∀ port items s, portUp s port = true →
    ∃ t, exec (.flitReceive port false items) s = .next t ∧
      ((portOf s port).fails + 1 < 16 →
        portOf t port = ⟨(portOf s port).fails + 1, s.now⟩ ∧ t.boot = s.boot) ∧
      (16 ≤ (portOf s port).fails + 1 → portUp t port = false)) ∧
  (∀ port s, portUp s port = true → (portOf s port).last + 600000 ≤ s.now →
    ∃ t, exec (.linkSilenceTimeout port) s = .next t ∧ portUp t port = false ∧
      (∀ q, q ≠ port → portUp t q = portUp s q) ∧ SameBytes s t) ∧
  (∀ port dev from_ s, mapGet s.lastHeard dev = some from_ → from_ + 600000 ≤ s.now →
    routeTo s dev = port → ∃ t, exec (.linkSilenceTimeout port) s = .next t ∧ dev ∈ t.silent ∧
      (dev ∉ s.silent → ∀ c k, mapGet s.ctxs c = some k → k.created = true →
        (k.nvec.toNat, Config.causeCode 4) ∈ t.msix) ∧ SameBytes s t)
end

