-- ==== Sys2Proof/Laws/Map.lean ====
section
/-!
SUPPORT. What the finite maps, the maps with a default and stored memory do: reading after writing, and
the canonical form.
-/
namespace Sys2Proof.Machine

variable {α : Type}

/-! ## Reading after writing -/

@[simp] theorem mapGet_nil (k : Nat) : mapGet ([] : AMap α) k = none := rfl

@[simp] theorem mapGet_mapPut_self (m : AMap α) (k : Nat) (x : α) :
    mapGet (mapPut m k x) k = some x := by
  induction m with
  | nil => simp [mapPut, mapGet]
  | cons e t ih =>
    obtain ⟨k', y⟩ := e
    unfold mapPut
    split
    · simp [mapGet]
    · split
      · simp [mapGet]
      · rename_i h1 h2
        simp [mapGet, Ne.symm h2, ih]

theorem mapGet_mapPut_ne (m : AMap α) {k j : Nat} (x : α) (h : j ≠ k) :
    mapGet (mapPut m k x) j = mapGet m j := by
  induction m with
  | nil => simp [mapPut, mapGet, Ne.symm h]
  | cons e t ih =>
    obtain ⟨k', y⟩ := e
    unfold mapPut
    split
    · simp [mapGet, Ne.symm h]
    · split
      · rename_i h2
        subst h2
        simp [mapGet, Ne.symm h]
      · simp [mapGet, ih]

theorem mapGet_mapPut (m : AMap α) (k j : Nat) (x : α) :
    mapGet (mapPut m k x) j = if j = k then some x else mapGet m j := by
  by_cases h : j = k
  · subst h; simp
  · simp [h, mapGet_mapPut_ne m x h]

@[simp] theorem mapGet_mapDel_self (m : AMap α) (k : Nat) : mapGet (mapDel m k) k = none := by
  induction m with
  | nil => rfl
  | cons e t ih =>
    obtain ⟨k', y⟩ := e
    unfold mapDel
    split
    · exact ih
    · rename_i h; simp [mapGet, h, ih]

theorem mapGet_mapDel_ne (m : AMap α) {k j : Nat} (h : j ≠ k) :
    mapGet (mapDel m k) j = mapGet m j := by
  induction m with
  | nil => rfl
  | cons e t ih =>
    obtain ⟨k', y⟩ := e
    unfold mapDel
    split
    · rename_i h1; subst h1; simp [mapGet, Ne.symm h, ih]
    · simp [mapGet, ih]

theorem mapGet_mapDel (m : AMap α) (k j : Nat) :
    mapGet (mapDel m k) j = if j = k then none else mapGet m j := by
  by_cases h : j = k
  · subst h; simp
  · simp [h, mapGet_mapDel_ne m h]

theorem mapGet_mapMod (m : AMap α) (k j : Nat) (f : α → α) :
    mapGet (mapMod m k f) j = if j = k then (mapGet m k).map f else mapGet m j := by
  unfold mapMod
  by_cases h : j = k
  · subst h
    cases hm : mapGet m j <;> simp [hm]
  · cases hm : mapGet m k <;> simp [h, mapGet_mapPut_ne _ _ h]

@[simp] theorem mapGet_mapMod_self (m : AMap α) (k : Nat) (f : α → α) :
    mapGet (mapMod m k f) k = (mapGet m k).map f := by simp [mapGet_mapMod]

@[simp] theorem defGet_nil (d : α) (k : Nat) : defGet d [] k = d := rfl

theorem defGet_defPut [DecidableEq α] (d : α) (m : AMap α) (k j : Nat) (x : α) :
    defGet d (defPut d m k x) j = if j = k then x else defGet d m j := by
  unfold defGet defPut
  by_cases hx : x = d
  · by_cases h : j = k
    · subst h; simp [hx]
    · simp [hx, h, mapGet_mapDel_ne m h]
  · by_cases h : j = k
    · subst h; simp [hx]
    · simp [hx, h, mapGet_mapPut_ne m x h]

@[simp] theorem defGet_defPut_self [DecidableEq α] (d : α) (m : AMap α) (k : Nat) (x : α) :
    defGet d (defPut d m k x) k = x := by simp [defGet_defPut]

theorem memGet_memPut (m : Memory) (a b : Nat) (x : Byte) :
    memGet (memPut m a x) b = if b = a then x else memGet m b := defGet_defPut _ _ _ _ _

/-- A write of bytes is read back at its addresses, and leaves every other address alone. -/
theorem memGet_memPutBytes (xs : List Byte) (m : Memory) (a b : Nat) :
    memGet (memPutBytes m a xs) b =
      if a ≤ b ∧ b < a + xs.length then (xs[b - a]?).getD 0 else memGet m b := by
  induction xs generalizing m a with
  | nil =>
    have h : ¬ (a ≤ b ∧ b < a + ([] : List Byte).length) := by simp
    rw [if_neg h]; rfl
  | cons x t ih =>
    rw [memPutBytes, ih]
    by_cases h : a + 1 ≤ b ∧ b < a + 1 + t.length
    · have h2 : a ≤ b ∧ b < a + (x :: t).length := by simp; omega
      have h3 : b - a = (b - (a + 1)) + 1 := by omega
      rw [if_pos h, if_pos h2, h3]; rfl
    · rw [if_neg h, memGet_memPut]
      by_cases h4 : b = a
      · subst h4; simp
      · have h5 : ¬ (a ≤ b ∧ b < a + (x :: t).length) := by simp; omega
        rw [if_neg h4, if_neg h5]

/-! ## The canonical form -/

/-- Every key of the map is above `k`. -/
def keysAbove (k : Nat) (m : AMap α) : Prop := ∀ e ∈ m, k < e.1

theorem risingKeys_cons {e : Nat × α} {t : AMap α} :
    risingKeys (e :: t) = true ↔ keysAbove e.1 t ∧ risingKeys t = true := by
  induction t generalizing e with
  | nil => simp [risingKeys, keysAbove]
  | cons f t ih =>
    obtain ⟨k, x⟩ := e
    obtain ⟨k', y⟩ := f
    simp only [risingKeys, Bool.and_eq_true, decide_eq_true_eq]
    constructor
    · rintro ⟨h1, h2⟩
      refine ⟨?_, h2⟩
      intro g hg
      rcases List.mem_cons.1 hg with rfl | hg
      · exact h1
      · exact Nat.lt_trans h1 ((ih.1 h2).1 g hg)
    · rintro ⟨h1, h2⟩
      exact ⟨h1 _ (List.mem_cons_self ..), h2⟩

theorem mem_mapPut {m : AMap α} {k : Nat} {x : α} {e : Nat × α} (h : e ∈ mapPut m k x) :
    e = (k, x) ∨ e ∈ m := by
  induction m with
  | nil => simpa [mapPut] using h
  | cons f t ih =>
    obtain ⟨k', y⟩ := f
    unfold mapPut at h
    split at h
    · simpa using h
    · split at h
      · rcases List.mem_cons.1 h with h | h
        · exact Or.inl h
        · exact Or.inr (List.mem_cons_of_mem _ h)
      · rcases List.mem_cons.1 h with h | h
        · exact Or.inr (h ▸ List.mem_cons_self ..)
        · rcases ih h with h | h
          · exact Or.inl h
          · exact Or.inr (List.mem_cons_of_mem _ h)

theorem mem_mapDel {m : AMap α} {k : Nat} {e : Nat × α} (h : e ∈ mapDel m k) : e ∈ m := by
  induction m with
  | nil => exact h
  | cons f t ih =>
    obtain ⟨k', y⟩ := f
    unfold mapDel at h
    split at h
    · exact List.mem_cons_of_mem _ (ih h)
    · rcases List.mem_cons.1 h with h | h
      · exact h ▸ List.mem_cons_self ..
      · exact List.mem_cons_of_mem _ (ih h)

theorem risingKeys_mapPut {m : AMap α} (h : risingKeys m = true) (k : Nat) (x : α) :
    risingKeys (mapPut m k x) = true := by
  induction m with
  | nil => rfl
  | cons f t ih =>
    obtain ⟨k', y⟩ := f
    have ht := risingKeys_cons.1 h
    unfold mapPut
    split
    · rename_i hk
      refine risingKeys_cons.2 ⟨?_, h⟩
      intro e he
      rcases List.mem_cons.1 he with rfl | he
      · exact hk
      · exact Nat.lt_trans hk (ht.1 e he)
    · split
      · rename_i h2
        subst h2
        exact risingKeys_cons.2 ⟨ht.1, ht.2⟩
      · refine risingKeys_cons.2 ⟨?_, ih ht.2⟩
        intro e he
        rcases mem_mapPut he with rfl | he
        · show k' < k
          omega
        · exact ht.1 e he

theorem risingKeys_mapDel {m : AMap α} (h : risingKeys m = true) (k : Nat) :
    risingKeys (mapDel m k) = true := by
  induction m with
  | nil => rfl
  | cons f t ih =>
    obtain ⟨k', y⟩ := f
    have ht := risingKeys_cons.1 h
    unfold mapDel
    split
    · exact ih ht.2
    · exact risingKeys_cons.2 ⟨fun e he => ht.1 e (mem_mapDel he), ih ht.2⟩

theorem risingKeys_filter {m : AMap α} (h : risingKeys m = true) (p : Nat × α → Bool) :
    risingKeys (m.filter p) = true := by
  induction m with
  | nil => rfl
  | cons f t ih =>
    have ht := risingKeys_cons.1 h
    by_cases hp : p f = true
    · rw [List.filter_cons_of_pos hp]
      exact risingKeys_cons.2 ⟨fun e he => ht.1 e (List.mem_filter.1 he).1, ih ht.2⟩
    · rw [List.filter_cons_of_neg hp]
      exact ih ht.2

theorem memWf_iff (m : Memory) :
    memWf m = true ↔ risingKeys m = true ∧ ∀ e ∈ m, e.2 ≠ memDefault := by
  simp [memWf]

/-- A write of one byte keeps the canonical form. -/
theorem memWf_memPut {m : Memory} (h : memWf m = true) (a : Nat) (x : Byte) :
    memWf (memPut m a x) = true := by
  rw [memWf_iff] at *
  unfold memPut defPut
  split
  · exact ⟨risingKeys_mapDel h.1 a, fun e he => h.2 e (mem_mapDel he)⟩
  · rename_i hx
    refine ⟨risingKeys_mapPut h.1 a x, ?_⟩
    intro e he
    rcases mem_mapPut he with rfl | he
    · exact hx
    · exact h.2 e he

/-- A write of bytes keeps the canonical form. -/
theorem memWf_memPutBytes (xs : List Byte) {m : Memory} (h : memWf m = true) (a : Nat) :
    memWf (memPutBytes m a xs) = true := by
  induction xs generalizing m a with
  | nil => exact h
  | cons x t ih => exact ih (memWf_memPut h a x) (a + 1)

/-- Keeping some of the listed bytes keeps the canonical form. -/
theorem memWf_filter {m : Memory} (h : memWf m = true) (p : Nat × Byte → Bool) :
    memWf (m.filter p) = true := by
  rw [memWf_iff] at *
  exact ⟨risingKeys_filter h.1 p, fun e he => h.2 e (List.mem_filter.1 he).1⟩

/-- Two memories in canonical form that read alike everywhere are the same list. -/
theorem mem_ext_aux : ∀ (m n : Memory), memWf m = true → memWf n = true →
    (∀ a, memGet m a = memGet n a) → m = n
  | [], [], _, _, _ => rfl
  | [], (k, y) :: t, _, hn, h => by
    have := h k
    have hy := ((memWf_iff _).1 hn).2 (k, y) (List.mem_cons_self ..)
    simp [memGet, defGet, mapGet] at this hy
    exact absurd this.symm hy
  | (k, y) :: t, [], hm, _, h => by
    have := h k
    have hy := ((memWf_iff _).1 hm).2 (k, y) (List.mem_cons_self ..)
    simp [memGet, defGet, mapGet] at this hy
    exact absurd this hy
  | (k, y) :: t, (k', y') :: t', hm, hn, h => by
    have hm' := (memWf_iff _).1 hm
    have hn' := (memWf_iff _).1 hn
    have hr := risingKeys_cons.1 hm'.1
    have hr' := risingKeys_cons.1 hn'.1
    have hy := hm'.2 (k, y) (List.mem_cons_self ..)
    have hy' := hn'.2 (k', y') (List.mem_cons_self ..)
    have above : ∀ (u : Memory) (j c : Nat), keysAbove j u → c ≤ j → mapGet u c = none := by
      intro u
      induction u with
      | nil => intros; rfl
      | cons e u ih =>
        intro j c hj hc
        have := hj e (List.mem_cons_self ..)
        obtain ⟨q, z⟩ := e
        have hq : ¬ q = c := by simp at this; omega
        simp only [mapGet, hq, if_false]
        exact ih j c (fun e he => hj e (List.mem_cons_of_mem _ he)) hc
    have hk : k = k' := by
      rcases Nat.lt_trichotomy k k' with hlt | heq | hgt
      · have h1 := h k
        have h2 : mapGet t' k = none := above t' k' k hr'.1 (by omega)
        have hne : ¬ k' = k := by omega
        simp [memGet, defGet, mapGet, h2, hne] at h1
        exact absurd h1 hy
      · exact heq
      · have h1 := h k'
        have h2 : mapGet t k' = none := above t k k' hr.1 (by omega)
        have hne : ¬ k = k' := by omega
        simp [memGet, defGet, mapGet, h2, hne] at h1
        exact absurd h1.symm hy'
    subst hk
    have hyy : y = y' := by
      have := h k
      simpa [memGet, defGet, mapGet] using this
    subst hyy
    congr 1
    refine mem_ext_aux t t' ?_ ?_ ?_
    · exact (memWf_iff _).2 ⟨hr.2, fun e he => hm'.2 e (List.mem_cons_of_mem _ he)⟩
    · exact (memWf_iff _).2 ⟨hr'.2, fun e he => hn'.2 e (List.mem_cons_of_mem _ he)⟩
    · intro a
      by_cases ha : k = a
      · subst ha
        have h1 : mapGet t k = none := above t k k hr.1 (Nat.le_refl _)
        have h2 : mapGet t' k = none := above t' k k hr'.1 (Nat.le_refl _)
        simp [memGet, defGet, h1, h2]
      · have := h a
        simpa [memGet, defGet, mapGet, ha] using this

end Sys2Proof.Machine
end

