-- ==== Sys2Proof/Laws/Operands.lean ====
section
/-!
SUPPORT. Read-after-write laws of registers, register groups and predicates, and what writing a
destination can do to a train.
-/
namespace Sys2Proof.Machine

/-! ## Single registers -/

theorem vGet_vPut (t : Train) {r l q m : Nat} (x : Word) (hl : l < 64) (hm : m < 64) :
    vGet (vPut t r l x) q m = if q = r ∧ m = l then x else vGet t q m := by
  unfold vGet vPut
  simp only [defGet_defPut]
  have : 64 * q + m = 64 * r + l ↔ q = r ∧ m = l := by omega
  simp only [this]

theorem kGet_kPut (t : Train) (r q : Nat) (x : Word) :
    kGet (kPut t r x) q = if q = r then x else kGet t q := defGet_defPut ..

theorem bGet_bPut (t : Train) (r q : Nat) (x : Addr) :
    bGet (bPut t r x) q = if q = r then x else bGet t q := defGet_defPut ..

theorem jGet_jPut (t : Train) (r q : Nat) (x : LaneMask) :
    jGet (jPut t r x) q = if q = r then x else jGet t q := defGet_defPut ..

@[simp] theorem vGet_kPut (t : Train) (r : Nat) (x : Word) : vGet (kPut t r x) = vGet t := rfl
@[simp] theorem vGet_bPut (t : Train) (r : Nat) (x : Addr) : vGet (bPut t r x) = vGet t := rfl
@[simp] theorem kGet_vPut (t : Train) (r l : Nat) (x : Word) : kGet (vPut t r l x) = kGet t := rfl
@[simp] theorem kGet_bPut (t : Train) (r : Nat) (x : Addr) : kGet (bPut t r x) = kGet t := rfl
@[simp] theorem bGet_vPut (t : Train) (r l : Nat) (x : Word) : bGet (vPut t r l x) = bGet t := rfl
@[simp] theorem bGet_kPut (t : Train) (r : Nat) (x : Word) : bGet (kPut t r x) = bGet t := rfl

/-- p7 reads true (R12). -/
@[simp] theorem pGet_seven (t : Train) (l : Nat) : pGet t 7 l = true := rfl

theorem getLsbD_pow (n l : Nat) (h : l < 64) :
    (BitVec.ofNat 64 (2 ^ n)).getLsbD l = decide (l = n) := by
  rw [BitVec.getLsbD_ofNat]
  simp [h, Nat.testBit_two_pow, eq_comm]

/-- A predicate after a write; a write to p7 is discarded (R12). -/
theorem pGet_pPut (t : Train) {i l q m : Nat} (x : Bool) (hm : m < 64) :
    pGet (pPut t i l x) q m = if i ≠ 7 ∧ q = i ∧ m = l then x else pGet t q m := by
  unfold pGet pPut
  by_cases h7 : i = 7
  · simp [h7]
  · simp only [h7, if_false, defGet_defPut]
    by_cases hq : q = i
    · subst hq
      by_cases hml : m = l
      · subst hml
        have hb := getLsbD_pow m m hm
        cases x <;> simp_all
      · have hb := getLsbD_pow l m hm
        cases x <;> simp_all
    · simp [hq]

/-! ## Groups of registers -/

theorem vGet_vGroupPut (n : Nat) (t : Train) (r x : Nat) {l m : Nat} (q : Nat) (hl : l < 64)
    (hm : m < 64) :
    vGet (vGroupPut t r l n x) q m =
      if r ≤ q ∧ q < r + n ∧ m = l then BitVec.ofNat 32 (x / 2 ^ (32 * (q - r))) else vGet t q m := by
  induction n generalizing t r x with
  | zero =>
    have : ¬ (r ≤ q ∧ q < r + 0 ∧ m = l) := by omega
    rw [if_neg this]; rfl
  | succ n ih =>
    rw [vGroupPut, ih, vGet_vPut t _ hl hm]
    by_cases h : m = l
    · by_cases h0 : q = r
      · subst h0
        have a : ¬ (q + 1 ≤ q ∧ q < q + 1 + n ∧ m = l) := by omega
        have b : q ≤ q ∧ q < q + (n + 1) ∧ m = l := by omega
        rw [if_neg a, if_pos ⟨rfl, h⟩, if_pos b]
        simp
      · by_cases hr : r ≤ q ∧ q < r + (n + 1)
        · have a : r + 1 ≤ q ∧ q < r + 1 + n ∧ m = l := by omega
          have b : r ≤ q ∧ q < r + (n + 1) ∧ m = l := by omega
          rw [if_pos a, if_pos b, Nat.div_div_eq_div_mul, ← pow_add]
          congr 3; omega
        · have a : ¬ (r + 1 ≤ q ∧ q < r + 1 + n ∧ m = l) := by omega
          have b : ¬ (r ≤ q ∧ q < r + (n + 1) ∧ m = l) := by omega
          have c : ¬ (q = r ∧ m = l) := by omega
          rw [if_neg a, if_neg b, if_neg c]
    · have a : ¬ (r + 1 ≤ q ∧ q < r + 1 + n ∧ m = l) := fun hh => h hh.2.2
      have b : ¬ (r ≤ q ∧ q < r + (n + 1) ∧ m = l) := fun hh => h hh.2.2
      have c : ¬ (q = r ∧ m = l) := fun hh => h hh.2
      rw [if_neg a, if_neg b, if_neg c]

theorem kGet_kGroupPut (n : Nat) (t : Train) (r x q : Nat) :
    kGet (kGroupPut t r n x) q =
      if r ≤ q ∧ q < r + n then BitVec.ofNat 32 (x / 2 ^ (32 * (q - r))) else kGet t q := by
  induction n generalizing t r x with
  | zero =>
    have : ¬ (r ≤ q ∧ q < r + 0) := by omega
    rw [if_neg this]; rfl
  | succ n ih =>
    rw [kGroupPut, ih, kGet_kPut]
    by_cases h0 : q = r
    · subst h0
      have a : ¬ (q + 1 ≤ q ∧ q < q + 1 + n) := by omega
      have b : q ≤ q ∧ q < q + (n + 1) := by omega
      rw [if_neg a, if_pos rfl, if_pos b]
      simp
    · by_cases hr : r ≤ q ∧ q < r + (n + 1)
      · have a : r + 1 ≤ q ∧ q < r + 1 + n := by omega
        rw [if_pos a, if_pos hr, Nat.div_div_eq_div_mul, ← pow_add]
        congr 3; omega
      · have a : ¬ (r + 1 ≤ q ∧ q < r + 1 + n) := by omega
        rw [if_neg a, if_neg hr, if_neg h0]

/-- The number a group holds, from its registers. -/
theorem vGroup_eq (n : Nat) (t : Train) (r l x : Nat)
    (h : ∀ j, j < n → vGet t (r + j) l = BitVec.ofNat 32 (x / 2 ^ (32 * j))) :
    vGroup t r l n = x % 2 ^ (32 * n) := by
  induction n generalizing r x with
  | zero => simp [vGroup, Nat.mod_one]
  | succ n ih =>
    have h0 := h 0 (by omega)
    have hs := ih (r + 1) (x / 2 ^ 32) (by
      intro j hj
      have := h (j + 1) (by omega)
      rw [show r + 1 + j = r + (j + 1) by omega, this, Nat.div_div_eq_div_mul, ← pow_add]
      congr 3; omega)
    rw [vGroup, hs]
    simp only [Nat.add_zero, Nat.mul_zero, pow_zero, Nat.div_one] at h0
    rw [h0, BitVec.toNat_ofNat, show 32 * (n + 1) = 32 + 32 * n by omega, pow_add, Nat.mod_mul]

theorem kGroup_eq (n : Nat) (t : Train) (r x : Nat)
    (h : ∀ j, j < n → kGet t (r + j) = BitVec.ofNat 32 (x / 2 ^ (32 * j))) :
    kGroup t r n = x % 2 ^ (32 * n) := by
  induction n generalizing r x with
  | zero => simp [kGroup, Nat.mod_one]
  | succ n ih =>
    have h0 := h 0 (by omega)
    have hs := ih (r + 1) (x / 2 ^ 32) (by
      intro j hj
      have := h (j + 1) (by omega)
      rw [show r + 1 + j = r + (j + 1) by omega, this, Nat.div_div_eq_div_mul, ← pow_add]
      congr 3; omega)
    rw [kGroup, hs]
    simp only [Nat.add_zero, Nat.mul_zero, pow_zero, Nat.div_one] at h0
    rw [h0, BitVec.toNat_ofNat, show 32 * (n + 1) = 32 + 32 * n by omega, pow_add, Nat.mod_mul]

/-- A group that is written reads back the low bits of what was written. -/
theorem vGroup_vGroupPut (n : Nat) (t : Train) (r x : Nat) {l : Nat} (hl : l < 64) :
    vGroup (vGroupPut t r l n x) r l n = x % 2 ^ (32 * n) := by
  apply vGroup_eq
  intro j hj
  rw [vGet_vGroupPut n t r x (r + j) hl hl, if_pos (by omega)]
  congr 3; omega

theorem kGroup_kGroupPut (n : Nat) (t : Train) (r x : Nat) :
    kGroup (kGroupPut t r n x) r n = x % 2 ^ (32 * n) := by
  apply kGroup_eq
  intro j hj
  rw [kGet_kGroupPut, if_pos (by omega)]
  congr 3; omega

/-! ## What writing registers leaves of a train -/

/-- Nothing but registers of one kind has changed. -/
theorem vPut_frame (t : Train) (r l : Nat) (x : Word) : vPut t r l x = { t with v := (vPut t r l x).v } :=
  rfl

theorem vGroupPut_frame (n : Nat) (t : Train) (r l x : Nat) :
    vGroupPut t r l n x = { t with v := (vGroupPut t r l n x).v } := by
  induction n generalizing t r x with
  | zero => rfl
  | succ n ih => rw [vGroupPut, ih]; rfl

theorem kGroupPut_frame (n : Nat) (t : Train) (r x : Nat) :
    kGroupPut t r n x = { t with k := (kGroupPut t r n x).k } := by
  induction n generalizing t r x with
  | zero => rfl
  | succ n ih => rw [kGroupPut, ih]; rfl

theorem vLanesPut_frame (t : Train) (r n : Nat) (vals : List (Nat × Nat)) :
    vLanesPut t r n vals = { t with v := (vLanesPut t r n vals).v } := by
  induction vals generalizing t with
  | nil => rfl
  | cons e vals ih =>
    obtain ⟨l, x⟩ := e
    rw [vLanesPut, ih, vGroupPut_frame]

theorem predPut_frame (t : Train) (i : Nat) (vals : List (Nat × Bool)) :
    predPut t i vals = { t with p := (predPut t i vals).p } := by
  induction vals generalizing t with
  | nil => rfl
  | cons e vals ih =>
    obtain ⟨l, x⟩ := e
    rw [predPut, ih]
    unfold pPut
    split <;> rfl

theorem dstPut_frame (t : Train) (d : Opnd) (n : Nat) (vals : List (Nat × Nat)) :
    dstPut t d n vals =
      { t with v := (dstPut t d n vals).v, k := (dstPut t d n vals).k, b := (dstPut t d n vals).b } := by
  unfold dstPut
  cases d with
  | v r e tt => simp only; rw [vLanesPut_frame]
  | k r =>
    cases vals with
    | nil => rfl
    | cons e _ => simp only; rw [kGroupPut_frame]
  | b r => cases vals <;> rfl
  | _ => rfl

/-! ## Destinations -/

theorem vGet_vLanesPut (lanes : List Nat) (f : Nat → Nat) (t : Train) (r n q : Nat) {m : Nat}
    (hl : ∀ l ∈ lanes, l < 64) (hm : m < 64) :
    vGet (vLanesPut t r n (lanes.map fun l => (l, f l))) q m =
      if r ≤ q ∧ q < r + n ∧ m ∈ lanes then BitVec.ofNat 32 (f m / 2 ^ (32 * (q - r)))
      else vGet t q m := by
  induction lanes generalizing t with
  | nil => simp [vLanesPut]
  | cons l lanes ih =>
    rw [List.map_cons, vLanesPut, ih _ fun k hk => hl k (List.mem_cons_of_mem _ hk),
      vGet_vGroupPut n t r (f l) q (hl l (List.mem_cons_self ..)) hm]
    by_cases hr : r ≤ q ∧ q < r + n
    · by_cases h1 : m ∈ lanes
      · simp [hr, h1]
      · by_cases h2 : m = l
        · subst h2; simp [hr, h1]
        · simp [h1, h2]
    · have a : ¬ (r ≤ q ∧ q < r + n ∧ m ∈ lanes) := fun h => hr ⟨h.1, h.2.1⟩
      have b : ¬ (r ≤ q ∧ q < r + n ∧ m = l) := fun h => hr ⟨h.1, h.2.1⟩
      have c : ¬ (r ≤ q ∧ q < r + n ∧ m ∈ l :: lanes) := fun h => hr ⟨h.1, h.2.1⟩
      rw [if_neg a, if_neg b, if_neg c]

theorem vGroup_congr {t u : Train} (h : u.v = t.v) (r l n : Nat) : vGroup u r l n = vGroup t r l n := by
  induction n generalizing r with
  | zero => rfl
  | succ n ih => simp only [vGroup, ih, vGet, h]

theorem kGroup_congr {t u : Train} (h : u.k = t.k) (r n : Nat) : kGroup u r n = kGroup t r n := by
  induction n generalizing r with
  | zero => rfl
  | succ n ih => simp only [kGroup, ih, kGet, h]

theorem wrote_congr {t u : Train} {d : Opnd} {n : Nat} {lanes : List Nat} {f : Nat → Nat}
    (hv : u.v = t.v) (hk : u.k = t.k) (hb : u.b = t.b) (h : Wrote t d n lanes f) :
    Wrote u d n lanes f := by
  cases d with
  | v r e tt => exact fun l hl => (vGroup_congr hv ..).trans (h l hl)
  | k r => exact (kGroup_congr hk ..).trans h
  | b r =>
    refine Eq.trans ?_ h
    unfold bGet
    rw [hb]
  | _ => trivial

/-- A k or base register takes the first of the values passed (R15). -/
theorem dstPut_written (t : Train) (d : Opnd) (n : Nat) (lanes : List Nat) (f : Nat → Nat) :
    dstPut t d n (lanes.map fun l => (l, f l)) =
      dstPut t d n ((if d.isV then lanes else lanes.take 1).map fun l => (l, f l)) := by
  cases d <;> cases lanes <;> simp [dstPut, Opnd.isV]

/-- The lanes an instruction writes hold the value afterwards (R15). -/
theorem wrote_dstPut (t : Train) (d : Opnd) (n : Nat) (lanes : List Nat) (f : Nat → Nat)
    (hl : ∀ l ∈ lanes, l < 64) (h0 : lanes ≠ []) :
    Wrote (dstPut t d n ((if d.isV then lanes else lanes.take 1).map fun l => (l, f l))) d n lanes f := by
  cases d with
  | v r e tt =>
    intro l h
    simp only [Opnd.isV, dstPut, if_true]
    apply vGroup_eq
    intro j hj
    rw [vGet_vLanesPut lanes f t _ n _ hl (hl l h), if_pos ⟨by omega, by omega, h⟩]
    congr 3; omega
  | k r =>
    cases lanes with
    | nil => exact absurd rfl h0
    | cons l lanes => exact kGroup_kGroupPut n t r.toNat (f l)
  | b r =>
    cases lanes with
    | nil => exact absurd rfl h0
    | cons l lanes => simp [Wrote, dstPut, headLane, bGet_bPut, Opnd.isV]
  | _ => trivial

/-- Writing a destination leaves every other register. -/
theorem keepsRegs_dstPut (t : Train) (d : Opnd) (n : Nat) (lanes : List Nat) (f : Nat → Nat)
    (hl : ∀ l ∈ lanes, l < 64) :
    KeepsRegs t (dstPut t d n ((if d.isV then lanes else lanes.take 1).map fun l => (l, f l))) d n
      lanes := by
  cases d with
  | v r e tt =>
    refine ⟨?_, fun q _ => ?_, fun q _ => ?_⟩
    · intro q l h hd
      simp only [Opnd.isV, dstPut, if_true]
      rw [vGet_vLanesPut lanes f t _ n _ hl h]
      exact if_neg hd
    · simp only [dstPut]; rw [vLanesPut_frame]; rfl
    · simp only [dstPut]; rw [vLanesPut_frame]; rfl
  | k r =>
    cases lanes with
    | nil => exact ⟨fun _ _ _ _ => rfl, fun _ _ => rfl, fun _ _ => rfl⟩
    | cons l lanes =>
      simp only [dstPut, Opnd.isV, List.take]
      refine ⟨fun q l h hd => ?_, fun q hd => ?_, fun q _ => ?_⟩
      · simp only [Bool.false_eq_true, if_false, List.map]; rw [kGroupPut_frame]; rfl
      · simp only [Bool.false_eq_true, if_false, List.map]
        rw [kGet_kGroupPut]; exact if_neg hd
      · simp only [Bool.false_eq_true, if_false, List.map]; rw [kGroupPut_frame]; rfl
  | b r =>
    cases lanes with
    | nil => exact ⟨fun _ _ _ _ => rfl, fun _ _ => rfl, fun _ _ => rfl⟩
    | cons l lanes =>
      refine ⟨fun _ _ _ _ => rfl, fun _ _ => rfl, fun q hd => ?_⟩
      simp only [dstPut, Opnd.isV, List.take, List.map, Bool.false_eq_true, if_false]
      rw [bGet_bPut]; exact if_neg hd
  | _ => exact ⟨fun _ _ _ _ => rfl, fun _ _ => rfl, fun _ _ => rfl⟩

/-- Predicates after a write in a list of lanes. -/
theorem pGet_predPut (lanes : List Nat) (f : Nat → Bool) (t : Train) (i q : Nat) {m : Nat}
    (hm : m < 64) :
    pGet (predPut t i (lanes.map fun l => (l, f l))) q m =
      if i ≠ 7 ∧ q = i ∧ m ∈ lanes then f m else pGet t q m := by
  induction lanes generalizing t with
  | nil => simp [predPut]
  | cons l lanes ih =>
    rw [List.map_cons, predPut, ih, pGet_pPut t (f l) hm]
    by_cases h1 : m ∈ lanes
    · by_cases h3 : i ≠ 7 ∧ q = i
      · simp [h1, h3.1, h3.2]
      · have a : ¬ (i ≠ 7 ∧ q = i ∧ m ∈ lanes) := fun h => h3 ⟨h.1, h.2.1⟩
        have b : ¬ (i ≠ 7 ∧ q = i ∧ m ∈ l :: lanes) := fun h => h3 ⟨h.1, h.2.1⟩
        have c : ¬ (i ≠ 7 ∧ q = i ∧ m = l) := fun h => h3 ⟨h.1, h.2.1⟩
        rw [if_neg a, if_neg b, if_neg c]
    · by_cases h2 : m = l
      · subst h2; simp [h1]
      · simp [h1, h2]

theorem mem_lanesOf {m : LaneMask} {l : Nat} : l ∈ lanesOf m ↔ l < 64 ∧ m.getLsbD l = true := by
  simp [lanesOf]

theorem enabledLanes_lt {t : Train} {p : Split} {i : Instr} {g : BitVec 3} {n : Bool} {l : Nat}
    (h : l ∈ enabledLanes t p i g n) : l < 64 :=
  (mem_lanesOf.1 (List.mem_filter.1 h).1).1

end Sys2Proof.Machine
end

