-- ==== Sys2Proof/Laws/State.lean ====
section
/-!
SUPPORT. What each named update leaves of the device's state: one lemma for each field it does not write.
-/
namespace Sys2Proof.Machine

section

variable (s : State) (n : Nat) (c : Core)

@[simp] theorem setCore_now : (setCore s n c).now = s.now := rfl
@[simp] theorem setCore_agenda : (setCore s n c).agenda = s.agenda := rfl
@[simp] theorem setCore_pick : (setCore s n c).pick = s.pick := rfl
@[simp] theorem setCore_turn : (setCore s n c).turn = s.turn := rfl
@[simp] theorem setCore_nextId : (setCore s n c).nextId = s.nextId := rfl
@[simp] theorem setCore_drawn : (setCore s n c).drawn = s.drawn := rfl
@[simp] theorem setCore_mem : (setCore s n c).mem = s.mem := rfl
@[simp] theorem setCore_l2 : (setCore s n c).l2 = s.l2 := rfl
@[simp] theorem setCore_partials : (setCore s n c).partials = s.partials := rfl
@[simp] theorem setCore_net : (setCore s n c).net = s.net := rfl
@[simp] theorem setCore_peerLoads : (setCore s n c).peerLoads = s.peerLoads := rfl
@[simp] theorem setCore_probes : (setCore s n c).probes = s.probes := rfl
@[simp] theorem setCore_inv : (setCore s n c).inv = s.inv := rfl
@[simp] theorem setCore_fused : (setCore s n c).fused = s.fused := rfl
@[simp] theorem setCore_teams : (setCore s n c).teams = s.teams := rfl
@[simp] theorem setCore_slices : (setCore s n c).slices = s.slices := rfl
@[simp] theorem setCore_launches : (setCore s n c).launches = s.launches := rfl
@[simp] theorem setCore_ctxs : (setCore s n c).ctxs = s.ctxs := rfl
@[simp] theorem setCore_parts : (setCore s n c).parts = s.parts := rfl
@[simp] theorem setCore_dies : (setCore s n c).dies = s.dies := rfl
@[simp] theorem setCore_boot : (setCore s n c).boot = s.boot := rfl
@[simp] theorem setCore_budget : (setCore s n c).budget = s.budget := rfl
@[simp] theorem setCore_estimate : (setCore s n c).estimate = s.estimate := rfl
@[simp] theorem setCore_period : (setCore s n c).period = s.period := rfl
@[simp] theorem setCore_ports : (setCore s n c).ports = s.ports := rfl
@[simp] theorem setCore_routes : (setCore s n c).routes = s.routes := rfl
@[simp] theorem setCore_windows : (setCore s n c).windows = s.windows := rfl
@[simp] theorem setCore_device : (setCore s n c).device = s.device := rfl
@[simp] theorem setCore_outbox : (setCore s n c).outbox = s.outbox := rfl
@[simp] theorem setCore_lastHeard : (setCore s n c).lastHeard = s.lastHeard := rfl
@[simp] theorem setCore_silent : (setCore s n c).silent = s.silent := rfl
@[simp] theorem setCore_errs : (setCore s n c).errs = s.errs := rfl
@[simp] theorem setCore_msix : (setCore s n c).msix = s.msix := rfl
@[simp] theorem setCore_hostOut : (setCore s n c).hostOut = s.hostOut := rfl
@[simp] theorem setCore_ckpts : (setCore s n c).ckpts = s.ckpts := rfl

end

section

variable (s : State) (n : Nat) (f : Core → Core)

@[simp] theorem modCore_now : (modCore s n f).now = s.now := rfl
@[simp] theorem modCore_agenda : (modCore s n f).agenda = s.agenda := rfl
@[simp] theorem modCore_pick : (modCore s n f).pick = s.pick := rfl
@[simp] theorem modCore_turn : (modCore s n f).turn = s.turn := rfl
@[simp] theorem modCore_nextId : (modCore s n f).nextId = s.nextId := rfl
@[simp] theorem modCore_drawn : (modCore s n f).drawn = s.drawn := rfl
@[simp] theorem modCore_mem : (modCore s n f).mem = s.mem := rfl
@[simp] theorem modCore_l2 : (modCore s n f).l2 = s.l2 := rfl
@[simp] theorem modCore_partials : (modCore s n f).partials = s.partials := rfl
@[simp] theorem modCore_net : (modCore s n f).net = s.net := rfl
@[simp] theorem modCore_peerLoads : (modCore s n f).peerLoads = s.peerLoads := rfl
@[simp] theorem modCore_probes : (modCore s n f).probes = s.probes := rfl
@[simp] theorem modCore_inv : (modCore s n f).inv = s.inv := rfl
@[simp] theorem modCore_fused : (modCore s n f).fused = s.fused := rfl
@[simp] theorem modCore_teams : (modCore s n f).teams = s.teams := rfl
@[simp] theorem modCore_slices : (modCore s n f).slices = s.slices := rfl
@[simp] theorem modCore_launches : (modCore s n f).launches = s.launches := rfl
@[simp] theorem modCore_ctxs : (modCore s n f).ctxs = s.ctxs := rfl
@[simp] theorem modCore_parts : (modCore s n f).parts = s.parts := rfl
@[simp] theorem modCore_dies : (modCore s n f).dies = s.dies := rfl
@[simp] theorem modCore_boot : (modCore s n f).boot = s.boot := rfl
@[simp] theorem modCore_budget : (modCore s n f).budget = s.budget := rfl
@[simp] theorem modCore_estimate : (modCore s n f).estimate = s.estimate := rfl
@[simp] theorem modCore_period : (modCore s n f).period = s.period := rfl
@[simp] theorem modCore_ports : (modCore s n f).ports = s.ports := rfl
@[simp] theorem modCore_routes : (modCore s n f).routes = s.routes := rfl
@[simp] theorem modCore_windows : (modCore s n f).windows = s.windows := rfl
@[simp] theorem modCore_device : (modCore s n f).device = s.device := rfl
@[simp] theorem modCore_outbox : (modCore s n f).outbox = s.outbox := rfl
@[simp] theorem modCore_lastHeard : (modCore s n f).lastHeard = s.lastHeard := rfl
@[simp] theorem modCore_silent : (modCore s n f).silent = s.silent := rfl
@[simp] theorem modCore_errs : (modCore s n f).errs = s.errs := rfl
@[simp] theorem modCore_msix : (modCore s n f).msix = s.msix := rfl
@[simp] theorem modCore_hostOut : (modCore s n f).hostOut = s.hostOut := rfl
@[simp] theorem modCore_ckpts : (modCore s n f).ckpts = s.ckpts := rfl

end

section

variable (s : State) (c p : Nat) (x : Pipe)

@[simp] theorem setPipe_now : (setPipe s c p x).now = s.now := rfl
@[simp] theorem setPipe_agenda : (setPipe s c p x).agenda = s.agenda := rfl
@[simp] theorem setPipe_pick : (setPipe s c p x).pick = s.pick := rfl
@[simp] theorem setPipe_turn : (setPipe s c p x).turn = s.turn := rfl
@[simp] theorem setPipe_nextId : (setPipe s c p x).nextId = s.nextId := rfl
@[simp] theorem setPipe_drawn : (setPipe s c p x).drawn = s.drawn := rfl
@[simp] theorem setPipe_mem : (setPipe s c p x).mem = s.mem := rfl
@[simp] theorem setPipe_l2 : (setPipe s c p x).l2 = s.l2 := rfl
@[simp] theorem setPipe_partials : (setPipe s c p x).partials = s.partials := rfl
@[simp] theorem setPipe_net : (setPipe s c p x).net = s.net := rfl
@[simp] theorem setPipe_peerLoads : (setPipe s c p x).peerLoads = s.peerLoads := rfl
@[simp] theorem setPipe_probes : (setPipe s c p x).probes = s.probes := rfl
@[simp] theorem setPipe_inv : (setPipe s c p x).inv = s.inv := rfl
@[simp] theorem setPipe_fused : (setPipe s c p x).fused = s.fused := rfl
@[simp] theorem setPipe_teams : (setPipe s c p x).teams = s.teams := rfl
@[simp] theorem setPipe_slices : (setPipe s c p x).slices = s.slices := rfl
@[simp] theorem setPipe_launches : (setPipe s c p x).launches = s.launches := rfl
@[simp] theorem setPipe_ctxs : (setPipe s c p x).ctxs = s.ctxs := rfl
@[simp] theorem setPipe_parts : (setPipe s c p x).parts = s.parts := rfl
@[simp] theorem setPipe_dies : (setPipe s c p x).dies = s.dies := rfl
@[simp] theorem setPipe_boot : (setPipe s c p x).boot = s.boot := rfl
@[simp] theorem setPipe_budget : (setPipe s c p x).budget = s.budget := rfl
@[simp] theorem setPipe_estimate : (setPipe s c p x).estimate = s.estimate := rfl
@[simp] theorem setPipe_period : (setPipe s c p x).period = s.period := rfl
@[simp] theorem setPipe_ports : (setPipe s c p x).ports = s.ports := rfl
@[simp] theorem setPipe_routes : (setPipe s c p x).routes = s.routes := rfl
@[simp] theorem setPipe_windows : (setPipe s c p x).windows = s.windows := rfl
@[simp] theorem setPipe_device : (setPipe s c p x).device = s.device := rfl
@[simp] theorem setPipe_outbox : (setPipe s c p x).outbox = s.outbox := rfl
@[simp] theorem setPipe_lastHeard : (setPipe s c p x).lastHeard = s.lastHeard := rfl
@[simp] theorem setPipe_silent : (setPipe s c p x).silent = s.silent := rfl
@[simp] theorem setPipe_errs : (setPipe s c p x).errs = s.errs := rfl
@[simp] theorem setPipe_msix : (setPipe s c p x).msix = s.msix := rfl
@[simp] theorem setPipe_hostOut : (setPipe s c p x).hostOut = s.hostOut := rfl
@[simp] theorem setPipe_ckpts : (setPipe s c p x).ckpts = s.ckpts := rfl

end

section

variable (s : State) (u : Nat) (t : Team)

@[simp] theorem setTeam_now : (setTeam s u t).now = s.now := rfl
@[simp] theorem setTeam_agenda : (setTeam s u t).agenda = s.agenda := rfl
@[simp] theorem setTeam_pick : (setTeam s u t).pick = s.pick := rfl
@[simp] theorem setTeam_turn : (setTeam s u t).turn = s.turn := rfl
@[simp] theorem setTeam_nextId : (setTeam s u t).nextId = s.nextId := rfl
@[simp] theorem setTeam_drawn : (setTeam s u t).drawn = s.drawn := rfl
@[simp] theorem setTeam_mem : (setTeam s u t).mem = s.mem := rfl
@[simp] theorem setTeam_l2 : (setTeam s u t).l2 = s.l2 := rfl
@[simp] theorem setTeam_partials : (setTeam s u t).partials = s.partials := rfl
@[simp] theorem setTeam_net : (setTeam s u t).net = s.net := rfl
@[simp] theorem setTeam_peerLoads : (setTeam s u t).peerLoads = s.peerLoads := rfl
@[simp] theorem setTeam_probes : (setTeam s u t).probes = s.probes := rfl
@[simp] theorem setTeam_inv : (setTeam s u t).inv = s.inv := rfl
@[simp] theorem setTeam_cores : (setTeam s u t).cores = s.cores := rfl
@[simp] theorem setTeam_fused : (setTeam s u t).fused = s.fused := rfl
@[simp] theorem setTeam_slices : (setTeam s u t).slices = s.slices := rfl
@[simp] theorem setTeam_launches : (setTeam s u t).launches = s.launches := rfl
@[simp] theorem setTeam_ctxs : (setTeam s u t).ctxs = s.ctxs := rfl
@[simp] theorem setTeam_parts : (setTeam s u t).parts = s.parts := rfl
@[simp] theorem setTeam_dies : (setTeam s u t).dies = s.dies := rfl
@[simp] theorem setTeam_boot : (setTeam s u t).boot = s.boot := rfl
@[simp] theorem setTeam_budget : (setTeam s u t).budget = s.budget := rfl
@[simp] theorem setTeam_estimate : (setTeam s u t).estimate = s.estimate := rfl
@[simp] theorem setTeam_period : (setTeam s u t).period = s.period := rfl
@[simp] theorem setTeam_ports : (setTeam s u t).ports = s.ports := rfl
@[simp] theorem setTeam_routes : (setTeam s u t).routes = s.routes := rfl
@[simp] theorem setTeam_windows : (setTeam s u t).windows = s.windows := rfl
@[simp] theorem setTeam_device : (setTeam s u t).device = s.device := rfl
@[simp] theorem setTeam_outbox : (setTeam s u t).outbox = s.outbox := rfl
@[simp] theorem setTeam_lastHeard : (setTeam s u t).lastHeard = s.lastHeard := rfl
@[simp] theorem setTeam_silent : (setTeam s u t).silent = s.silent := rfl
@[simp] theorem setTeam_errs : (setTeam s u t).errs = s.errs := rfl
@[simp] theorem setTeam_msix : (setTeam s u t).msix = s.msix := rfl
@[simp] theorem setTeam_hostOut : (setTeam s u t).hostOut = s.hostOut := rfl
@[simp] theorem setTeam_ckpts : (setTeam s u t).ckpts = s.ckpts := rfl

end

section

variable (s : State) (u : Nat) (f : Team → Team)

@[simp] theorem modTeam_now : (modTeam s u f).now = s.now := rfl
@[simp] theorem modTeam_agenda : (modTeam s u f).agenda = s.agenda := rfl
@[simp] theorem modTeam_pick : (modTeam s u f).pick = s.pick := rfl
@[simp] theorem modTeam_turn : (modTeam s u f).turn = s.turn := rfl
@[simp] theorem modTeam_nextId : (modTeam s u f).nextId = s.nextId := rfl
@[simp] theorem modTeam_drawn : (modTeam s u f).drawn = s.drawn := rfl
@[simp] theorem modTeam_mem : (modTeam s u f).mem = s.mem := rfl
@[simp] theorem modTeam_l2 : (modTeam s u f).l2 = s.l2 := rfl
@[simp] theorem modTeam_partials : (modTeam s u f).partials = s.partials := rfl
@[simp] theorem modTeam_net : (modTeam s u f).net = s.net := rfl
@[simp] theorem modTeam_peerLoads : (modTeam s u f).peerLoads = s.peerLoads := rfl
@[simp] theorem modTeam_probes : (modTeam s u f).probes = s.probes := rfl
@[simp] theorem modTeam_inv : (modTeam s u f).inv = s.inv := rfl
@[simp] theorem modTeam_cores : (modTeam s u f).cores = s.cores := rfl
@[simp] theorem modTeam_fused : (modTeam s u f).fused = s.fused := rfl
@[simp] theorem modTeam_slices : (modTeam s u f).slices = s.slices := rfl
@[simp] theorem modTeam_launches : (modTeam s u f).launches = s.launches := rfl
@[simp] theorem modTeam_ctxs : (modTeam s u f).ctxs = s.ctxs := rfl
@[simp] theorem modTeam_parts : (modTeam s u f).parts = s.parts := rfl
@[simp] theorem modTeam_dies : (modTeam s u f).dies = s.dies := rfl
@[simp] theorem modTeam_boot : (modTeam s u f).boot = s.boot := rfl
@[simp] theorem modTeam_budget : (modTeam s u f).budget = s.budget := rfl
@[simp] theorem modTeam_estimate : (modTeam s u f).estimate = s.estimate := rfl
@[simp] theorem modTeam_period : (modTeam s u f).period = s.period := rfl
@[simp] theorem modTeam_ports : (modTeam s u f).ports = s.ports := rfl
@[simp] theorem modTeam_routes : (modTeam s u f).routes = s.routes := rfl
@[simp] theorem modTeam_windows : (modTeam s u f).windows = s.windows := rfl
@[simp] theorem modTeam_device : (modTeam s u f).device = s.device := rfl
@[simp] theorem modTeam_outbox : (modTeam s u f).outbox = s.outbox := rfl
@[simp] theorem modTeam_lastHeard : (modTeam s u f).lastHeard = s.lastHeard := rfl
@[simp] theorem modTeam_silent : (modTeam s u f).silent = s.silent := rfl
@[simp] theorem modTeam_errs : (modTeam s u f).errs = s.errs := rfl
@[simp] theorem modTeam_msix : (modTeam s u f).msix = s.msix := rfl
@[simp] theorem modTeam_hostOut : (modTeam s u f).hostOut = s.hostOut := rfl
@[simp] theorem modTeam_ckpts : (modTeam s u f).ckpts = s.ckpts := rfl

end

section

variable (s : State) (u n : Nat) (f : Train → Train)

@[simp] theorem modTrain_now : (modTrain s u n f).now = s.now := rfl
@[simp] theorem modTrain_agenda : (modTrain s u n f).agenda = s.agenda := rfl
@[simp] theorem modTrain_pick : (modTrain s u n f).pick = s.pick := rfl
@[simp] theorem modTrain_turn : (modTrain s u n f).turn = s.turn := rfl
@[simp] theorem modTrain_nextId : (modTrain s u n f).nextId = s.nextId := rfl
@[simp] theorem modTrain_drawn : (modTrain s u n f).drawn = s.drawn := rfl
@[simp] theorem modTrain_mem : (modTrain s u n f).mem = s.mem := rfl
@[simp] theorem modTrain_l2 : (modTrain s u n f).l2 = s.l2 := rfl
@[simp] theorem modTrain_partials : (modTrain s u n f).partials = s.partials := rfl
@[simp] theorem modTrain_net : (modTrain s u n f).net = s.net := rfl
@[simp] theorem modTrain_peerLoads : (modTrain s u n f).peerLoads = s.peerLoads := rfl
@[simp] theorem modTrain_probes : (modTrain s u n f).probes = s.probes := rfl
@[simp] theorem modTrain_inv : (modTrain s u n f).inv = s.inv := rfl
@[simp] theorem modTrain_cores : (modTrain s u n f).cores = s.cores := rfl
@[simp] theorem modTrain_fused : (modTrain s u n f).fused = s.fused := rfl
@[simp] theorem modTrain_slices : (modTrain s u n f).slices = s.slices := rfl
@[simp] theorem modTrain_launches : (modTrain s u n f).launches = s.launches := rfl
@[simp] theorem modTrain_ctxs : (modTrain s u n f).ctxs = s.ctxs := rfl
@[simp] theorem modTrain_parts : (modTrain s u n f).parts = s.parts := rfl
@[simp] theorem modTrain_dies : (modTrain s u n f).dies = s.dies := rfl
@[simp] theorem modTrain_boot : (modTrain s u n f).boot = s.boot := rfl
@[simp] theorem modTrain_budget : (modTrain s u n f).budget = s.budget := rfl
@[simp] theorem modTrain_estimate : (modTrain s u n f).estimate = s.estimate := rfl
@[simp] theorem modTrain_period : (modTrain s u n f).period = s.period := rfl
@[simp] theorem modTrain_ports : (modTrain s u n f).ports = s.ports := rfl
@[simp] theorem modTrain_routes : (modTrain s u n f).routes = s.routes := rfl
@[simp] theorem modTrain_windows : (modTrain s u n f).windows = s.windows := rfl
@[simp] theorem modTrain_device : (modTrain s u n f).device = s.device := rfl
@[simp] theorem modTrain_outbox : (modTrain s u n f).outbox = s.outbox := rfl
@[simp] theorem modTrain_lastHeard : (modTrain s u n f).lastHeard = s.lastHeard := rfl
@[simp] theorem modTrain_silent : (modTrain s u n f).silent = s.silent := rfl
@[simp] theorem modTrain_errs : (modTrain s u n f).errs = s.errs := rfl
@[simp] theorem modTrain_msix : (modTrain s u n f).msix = s.msix := rfl
@[simp] theorem modTrain_hostOut : (modTrain s u n f).hostOut = s.hostOut := rfl
@[simp] theorem modTrain_ckpts : (modTrain s u n f).ckpts = s.ckpts := rfl

end

section

variable (s : State) (n : Nat) (f : Ctx → Ctx)

@[simp] theorem modCtx_now : (modCtx s n f).now = s.now := rfl
@[simp] theorem modCtx_agenda : (modCtx s n f).agenda = s.agenda := rfl
@[simp] theorem modCtx_pick : (modCtx s n f).pick = s.pick := rfl
@[simp] theorem modCtx_turn : (modCtx s n f).turn = s.turn := rfl
@[simp] theorem modCtx_nextId : (modCtx s n f).nextId = s.nextId := rfl
@[simp] theorem modCtx_drawn : (modCtx s n f).drawn = s.drawn := rfl
@[simp] theorem modCtx_mem : (modCtx s n f).mem = s.mem := rfl
@[simp] theorem modCtx_l2 : (modCtx s n f).l2 = s.l2 := rfl
@[simp] theorem modCtx_partials : (modCtx s n f).partials = s.partials := rfl
@[simp] theorem modCtx_net : (modCtx s n f).net = s.net := rfl
@[simp] theorem modCtx_peerLoads : (modCtx s n f).peerLoads = s.peerLoads := rfl
@[simp] theorem modCtx_probes : (modCtx s n f).probes = s.probes := rfl
@[simp] theorem modCtx_inv : (modCtx s n f).inv = s.inv := rfl
@[simp] theorem modCtx_cores : (modCtx s n f).cores = s.cores := rfl
@[simp] theorem modCtx_fused : (modCtx s n f).fused = s.fused := rfl
@[simp] theorem modCtx_teams : (modCtx s n f).teams = s.teams := rfl
@[simp] theorem modCtx_slices : (modCtx s n f).slices = s.slices := rfl
@[simp] theorem modCtx_launches : (modCtx s n f).launches = s.launches := rfl
@[simp] theorem modCtx_parts : (modCtx s n f).parts = s.parts := rfl
@[simp] theorem modCtx_dies : (modCtx s n f).dies = s.dies := rfl
@[simp] theorem modCtx_boot : (modCtx s n f).boot = s.boot := rfl
@[simp] theorem modCtx_budget : (modCtx s n f).budget = s.budget := rfl
@[simp] theorem modCtx_estimate : (modCtx s n f).estimate = s.estimate := rfl
@[simp] theorem modCtx_period : (modCtx s n f).period = s.period := rfl
@[simp] theorem modCtx_ports : (modCtx s n f).ports = s.ports := rfl
@[simp] theorem modCtx_routes : (modCtx s n f).routes = s.routes := rfl
@[simp] theorem modCtx_windows : (modCtx s n f).windows = s.windows := rfl
@[simp] theorem modCtx_device : (modCtx s n f).device = s.device := rfl
@[simp] theorem modCtx_outbox : (modCtx s n f).outbox = s.outbox := rfl
@[simp] theorem modCtx_lastHeard : (modCtx s n f).lastHeard = s.lastHeard := rfl
@[simp] theorem modCtx_silent : (modCtx s n f).silent = s.silent := rfl
@[simp] theorem modCtx_errs : (modCtx s n f).errs = s.errs := rfl
@[simp] theorem modCtx_msix : (modCtx s n f).msix = s.msix := rfl
@[simp] theorem modCtx_hostOut : (modCtx s n f).hostOut = s.hostOut := rfl
@[simp] theorem modCtx_ckpts : (modCtx s n f).ckpts = s.ckpts := rfl

end

section

variable (s : State) (n : Nat) (f : Die → Die)

@[simp] theorem modDie_now : (modDie s n f).now = s.now := rfl
@[simp] theorem modDie_agenda : (modDie s n f).agenda = s.agenda := rfl
@[simp] theorem modDie_pick : (modDie s n f).pick = s.pick := rfl
@[simp] theorem modDie_turn : (modDie s n f).turn = s.turn := rfl
@[simp] theorem modDie_nextId : (modDie s n f).nextId = s.nextId := rfl
@[simp] theorem modDie_drawn : (modDie s n f).drawn = s.drawn := rfl
@[simp] theorem modDie_mem : (modDie s n f).mem = s.mem := rfl
@[simp] theorem modDie_l2 : (modDie s n f).l2 = s.l2 := rfl
@[simp] theorem modDie_partials : (modDie s n f).partials = s.partials := rfl
@[simp] theorem modDie_net : (modDie s n f).net = s.net := rfl
@[simp] theorem modDie_peerLoads : (modDie s n f).peerLoads = s.peerLoads := rfl
@[simp] theorem modDie_probes : (modDie s n f).probes = s.probes := rfl
@[simp] theorem modDie_inv : (modDie s n f).inv = s.inv := rfl
@[simp] theorem modDie_cores : (modDie s n f).cores = s.cores := rfl
@[simp] theorem modDie_fused : (modDie s n f).fused = s.fused := rfl
@[simp] theorem modDie_teams : (modDie s n f).teams = s.teams := rfl
@[simp] theorem modDie_slices : (modDie s n f).slices = s.slices := rfl
@[simp] theorem modDie_launches : (modDie s n f).launches = s.launches := rfl
@[simp] theorem modDie_ctxs : (modDie s n f).ctxs = s.ctxs := rfl
@[simp] theorem modDie_parts : (modDie s n f).parts = s.parts := rfl
@[simp] theorem modDie_boot : (modDie s n f).boot = s.boot := rfl
@[simp] theorem modDie_budget : (modDie s n f).budget = s.budget := rfl
@[simp] theorem modDie_estimate : (modDie s n f).estimate = s.estimate := rfl
@[simp] theorem modDie_period : (modDie s n f).period = s.period := rfl
@[simp] theorem modDie_ports : (modDie s n f).ports = s.ports := rfl
@[simp] theorem modDie_routes : (modDie s n f).routes = s.routes := rfl
@[simp] theorem modDie_windows : (modDie s n f).windows = s.windows := rfl
@[simp] theorem modDie_device : (modDie s n f).device = s.device := rfl
@[simp] theorem modDie_outbox : (modDie s n f).outbox = s.outbox := rfl
@[simp] theorem modDie_lastHeard : (modDie s n f).lastHeard = s.lastHeard := rfl
@[simp] theorem modDie_silent : (modDie s n f).silent = s.silent := rfl
@[simp] theorem modDie_errs : (modDie s n f).errs = s.errs := rfl
@[simp] theorem modDie_msix : (modDie s n f).msix = s.msix := rfl
@[simp] theorem modDie_hostOut : (modDie s n f).hostOut = s.hostOut := rfl
@[simp] theorem modDie_ckpts : (modDie s n f).ckpts = s.ckpts := rfl

end

section

variable (s : State) (n : Nat) (f : Slice → Slice)

@[simp] theorem modSlice_now : (modSlice s n f).now = s.now := rfl
@[simp] theorem modSlice_agenda : (modSlice s n f).agenda = s.agenda := rfl
@[simp] theorem modSlice_pick : (modSlice s n f).pick = s.pick := rfl
@[simp] theorem modSlice_turn : (modSlice s n f).turn = s.turn := rfl
@[simp] theorem modSlice_nextId : (modSlice s n f).nextId = s.nextId := rfl
@[simp] theorem modSlice_drawn : (modSlice s n f).drawn = s.drawn := rfl
@[simp] theorem modSlice_mem : (modSlice s n f).mem = s.mem := rfl
@[simp] theorem modSlice_l2 : (modSlice s n f).l2 = s.l2 := rfl
@[simp] theorem modSlice_partials : (modSlice s n f).partials = s.partials := rfl
@[simp] theorem modSlice_net : (modSlice s n f).net = s.net := rfl
@[simp] theorem modSlice_peerLoads : (modSlice s n f).peerLoads = s.peerLoads := rfl
@[simp] theorem modSlice_probes : (modSlice s n f).probes = s.probes := rfl
@[simp] theorem modSlice_inv : (modSlice s n f).inv = s.inv := rfl
@[simp] theorem modSlice_cores : (modSlice s n f).cores = s.cores := rfl
@[simp] theorem modSlice_fused : (modSlice s n f).fused = s.fused := rfl
@[simp] theorem modSlice_teams : (modSlice s n f).teams = s.teams := rfl
@[simp] theorem modSlice_launches : (modSlice s n f).launches = s.launches := rfl
@[simp] theorem modSlice_ctxs : (modSlice s n f).ctxs = s.ctxs := rfl
@[simp] theorem modSlice_parts : (modSlice s n f).parts = s.parts := rfl
@[simp] theorem modSlice_dies : (modSlice s n f).dies = s.dies := rfl
@[simp] theorem modSlice_boot : (modSlice s n f).boot = s.boot := rfl
@[simp] theorem modSlice_budget : (modSlice s n f).budget = s.budget := rfl
@[simp] theorem modSlice_estimate : (modSlice s n f).estimate = s.estimate := rfl
@[simp] theorem modSlice_period : (modSlice s n f).period = s.period := rfl
@[simp] theorem modSlice_ports : (modSlice s n f).ports = s.ports := rfl
@[simp] theorem modSlice_routes : (modSlice s n f).routes = s.routes := rfl
@[simp] theorem modSlice_windows : (modSlice s n f).windows = s.windows := rfl
@[simp] theorem modSlice_device : (modSlice s n f).device = s.device := rfl
@[simp] theorem modSlice_outbox : (modSlice s n f).outbox = s.outbox := rfl
@[simp] theorem modSlice_lastHeard : (modSlice s n f).lastHeard = s.lastHeard := rfl
@[simp] theorem modSlice_silent : (modSlice s n f).silent = s.silent := rfl
@[simp] theorem modSlice_errs : (modSlice s n f).errs = s.errs := rfl
@[simp] theorem modSlice_msix : (modSlice s n f).msix = s.msix := rfl
@[simp] theorem modSlice_hostOut : (modSlice s n f).hostOut = s.hostOut := rfl
@[simp] theorem modSlice_ckpts : (modSlice s n f).ckpts = s.ckpts := rfl

end

end Sys2Proof.Machine
end

