-- ==== Sys2Proof/Laws/Ops.lean ====
section
/-!
SUPPORT. What the operations on cores, pipes, teams and trains can do: reads after updates, and the one
relation that says an operation has touched a train and a pipe only.
-/
namespace Sys2Proof.Machine

/-! ## Reads after updates -/

theorem coreOf_setCore (s : State) (n m : Nat) (c : Core) :
    coreOf (setCore s n c) m = if m = n then c else coreOf s m := by
  unfold coreOf setCore
  simp only [mapGet_mapPut]
  split <;> rfl

theorem coreOf_modCore (s : State) (n m : Nat) (f : Core → Core) :
    coreOf (modCore s n f) m = if m = n then f (coreOf s n) else coreOf s m :=
  coreOf_setCore s n m _

theorem pipeOf_put (c : Core) (n m : Nat) (p : Pipe) :
    pipeOf { c with pipes := mapPut c.pipes n p } m = if m = n then p else pipeOf c m := by
  unfold pipeOf
  simp only [mapGet_mapPut]
  split <;> rfl

theorem coreOf_setPipe (s : State) (c n m : Nat) (p : Pipe) :
    coreOf (setPipe s c n p) m =
      if m = c then { coreOf s c with pipes := mapPut (coreOf s c).pipes n p } else coreOf s m :=
  coreOf_modCore s c m _

theorem pipeOf_setPipe (s : State) (c n d m : Nat) (p : Pipe) :
    pipeOf (coreOf (setPipe s c n p) d) m =
      if d = c ∧ m = n then p else pipeOf (coreOf s d) m := by
  rw [coreOf_setPipe]
  by_cases h : d = c
  · subst h; simp [pipeOf_put]
  · simp [h]

theorem teamOf_modTeam (s : State) (u v : Nat) (f : Team → Team) :
    teamOf (modTeam s u f) v = if v = u then (teamOf s u).map f else teamOf s v :=
  mapGet_mapMod s.teams u v f

theorem teamOf_modTrain (s : State) (u k v : Nat) (f : Train → Train) :
    teamOf (modTrain s u k f) v =
      if v = u then (teamOf s u).map fun t => { t with trains := mapMod t.trains k f }
      else teamOf s v :=
  teamOf_modTeam s u v _

theorem trainOf_modTrain (s : State) (u k v j : Nat) (f : Train → Train) :
    trainOf (modTrain s u k f) v j =
      if v = u ∧ j = k then (trainOf s u k).map f else trainOf s v j := by
  unfold trainOf
  rw [teamOf_modTrain]
  by_cases h : v = u
  · subst h
    cases teamOf s v with
    | none => simp
    | some t => simp [mapGet_mapMod]
  · simp [h]

theorem trainOf_modTrain_self {s : State} {u k : Nat} {f : Train → Train} {t : Train}
    (h : trainOf s u k = some t) : trainOf (modTrain s u k f) u k = some (f t) := by
  simp [trainOf_modTrain, h]

@[simp] theorem coreOf_modTrain (s : State) (u k c : Nat) (f : Train → Train) :
    coreOf (modTrain s u k f) c = coreOf s c := rfl

@[simp] theorem teamOf_setPipe (s : State) (c n u : Nat) (p : Pipe) :
    teamOf (setPipe s c n p) u = teamOf s u := rfl

@[simp] theorem trainOf_setPipe (s : State) (c n u k : Nat) (p : Pipe) :
    trainOf (setPipe s c n p) u k = trainOf s u k := rfl

/-- What a byte reads depends on memory, the home slices and the partials. -/
theorem viewByte_congr {s t : State} (hl : t.l2 = s.l2) (hm : t.mem = s.mem)
    (hp : t.partials = s.partials) (pa : Nat) : viewByte t pa = viewByte s pa := by
  have hh : ∀ a, homeByte t a = homeByte s a := by
    intro a; unfold homeByte; rw [hl, hm]
  unfold viewByte partialVals
  simp only [hh, hp]

/-! ## One train and one pipe -/

/-- From `s` to `t` nothing has changed but train `k` of team `u` and pipe `p` of core `c`. -/
def Touches (u k c p : Nat) (s t : State) : Prop :=
  t = { s with teams := t.teams, cores := t.cores } ∧
  (∀ v, v ≠ u → teamOf t v = teamOf s v) ∧
  (∀ m, teamOf s u = some m → ∃ n, teamOf t u = some n ∧ n = { m with trains := n.trains }) ∧
  (∀ j, j ≠ k → trainOf t u j = trainOf s u j) ∧
  (∀ d, coreOf t d = { coreOf s d with pipes := (coreOf t d).pipes }) ∧
  ∀ d q, ¬ (d = c ∧ q = p) → pipeOf (coreOf t d) q = pipeOf (coreOf s d) q

theorem Touches.refl (u k c p : Nat) (s : State) : Touches u k c p s s :=
  ⟨rfl, fun _ _ => rfl, fun m h => ⟨m, h, rfl⟩, fun _ _ => rfl, fun _ => rfl, fun _ _ _ => rfl⟩

theorem Touches.trans {u k c p : Nat} {s t w : State} (h : Touches u k c p s t)
    (g : Touches u k c p t w) : Touches u k c p s w := by
  obtain ⟨h1, h2, h3, h4, h5, h6⟩ := h
  obtain ⟨g1, g2, g3, g4, g5, g6⟩ := g
  refine ⟨?_, fun v hv => (g2 v hv).trans (h2 v hv), ?_, fun j hj => (g4 j hj).trans (h4 j hj),
    ?_, fun d q hd => (g6 d q hd).trans (h6 d q hd)⟩
  · rw [g1, h1]
  · intro m hm
    obtain ⟨n, hn, en⟩ := h3 m hm
    obtain ⟨n', hn', en'⟩ := g3 n hn
    exact ⟨n', hn', by rw [en', en]⟩
  · intro d
    rw [g5 d, h5 d]

theorem touches_modTrain (u k c p : Nat) (s : State) (f : Train → Train) :
    Touches u k c p s (modTrain s u k f) := by
  refine ⟨rfl, ?_, ?_, ?_, fun _ => rfl, fun _ _ _ => rfl⟩
  · intro v hv; rw [teamOf_modTrain, if_neg hv]
  · intro m hm
    exact ⟨_, by rw [teamOf_modTrain, if_pos rfl, hm]; rfl, rfl⟩
  · intro j hj; rw [trainOf_modTrain, if_neg (by simp [hj])]

theorem touches_setPipe (u k c p : Nat) (s : State) (q : Pipe) :
    Touches u k c p s (setPipe s c p q) := by
  refine ⟨rfl, fun _ _ => rfl, fun m h => ⟨m, h, rfl⟩, fun _ _ => rfl, ?_, ?_⟩
  · intro d
    rw [coreOf_setPipe]
    split
    · rename_i h; rw [h]
    · rfl
  · intro d q' h; rw [pipeOf_setPipe, if_neg h]

/-- The run of pipe `p` of core `c` is of train `k` of team `u`, or there is none. -/
def RunOf (s : State) (c p u k : Nat) : Prop :=
  ∀ r, (pipeOf (coreOf s c) p).run = some r → r.uid = u ∧ r.train = k

theorem touches_endRun {u k c p : Nat} {s : State} (h : RunOf s c p u k) :
    Touches u k c p s (endRun s c p) := by
  unfold endRun
  simp only
  cases hr : (pipeOf (coreOf s c) p).run with
  | none => simp only; exact touches_setPipe ..
  | some r =>
    obtain ⟨rfl, rfl⟩ := h r hr
    simp only
    exact (touches_setPipe ..).trans (touches_modTrain ..)

theorem runOf_setPipe {s : State} {c p u k : Nat} {q : Pipe}
    (h : ∀ r, q.run = some r → r.uid = u ∧ r.train = k) : RunOf (setPipe s c p q) c p u k := by
  intro r hr
  rw [pipeOf_setPipe, if_pos ⟨rfl, rfl⟩] at hr
  exact h r hr

theorem runOf_modTrain {s : State} {c p u k : Nat} (h : RunOf s c p u k) (v j : Nat)
    (f : Train → Train) : RunOf (modTrain s v j f) c p u k := h

/-- Ending the run leaves of the train all but what counts its turns of the pipe. -/
theorem trainOf_endRun {u k c p : Nat} {s : State} (h : RunOf s c p u k) {t : Train}
    (ht : trainOf s u k = some t) :
    ∃ a b, trainOf (endRun s c p) u k = some { t with since := a, passed := b } := by
  unfold endRun
  simp only
  cases hr : (pipeOf (coreOf s c) p).run with
  | none => exact ⟨t.since, t.passed, by simpa using ht⟩
  | some r =>
    obtain ⟨rfl, rfl⟩ := h r hr
    exact ⟨s.now, 0, trainOf_modTrain_self ht⟩

theorem run_endRun (s : State) (c p : Nat) : (pipeOf (coreOf (endRun s c p) c) p).run = none := by
  unfold endRun
  simp only
  cases (pipeOf (coreOf s c) p).run <;> simp [pipeOf_setPipe]

theorem runOf_countPasses {s : State} {c p u k w : Nat} (h : RunOf s c p u k) :
    RunOf (countPasses s c p w) c p u k := by
  unfold countPasses
  simp only
  apply runOf_setPipe
  intro r hr
  apply h r
  split at hr <;> exact hr

theorem touches_countPasses (u k c p w : Nat) (s : State) :
    Touches u k c p s (countPasses s c p w) := touches_setPipe ..

/-- What counting an instruction of a run touches. -/
theorem touches_countIssue {x : Site} {s : State} (h : RunOf s x.core x.pipe x.uid x.tn) :
    Touches x.uid x.tn x.core x.pipe s (countIssue x s) := by
  have h1 := runOf_countPasses (w := x.train.width) h
  refine (touches_countPasses x.uid x.tn x.core x.pipe x.train.width s).trans ?_
  unfold countIssue
  simp only
  cases hr : (pipeOf (coreOf (countPasses s x.core x.pipe x.train.width) x.core) x.pipe).run with
  | none => exact Touches.refl ..
  | some r =>
    simp only
    split
    · exact touches_endRun h1
    · exact touches_setPipe ..

theorem trainOf_countIssue {x : Site} {s : State} (h : RunOf s x.core x.pipe x.uid x.tn) {t : Train}
    (ht : trainOf s x.uid x.tn = some t) :
    ∃ a b, trainOf (countIssue x s) x.uid x.tn = some { t with since := a, passed := b } := by
  have h1 := runOf_countPasses (w := x.train.width) h
  have ht' : trainOf (countPasses s x.core x.pipe x.train.width) x.uid x.tn = some t := ht
  unfold countIssue
  simp only
  cases hr : (pipeOf (coreOf (countPasses s x.core x.pipe x.train.width) x.core) x.pipe).run with
  | none => exact ⟨t.since, t.passed, ht'⟩
  | some r =>
    simp only
    split
    · exact trainOf_endRun h1 ht'
    · exact ⟨t.since, t.passed, ht'⟩

theorem runOf_countIssue {x : Site} {s : State} (h : RunOf s x.core x.pipe x.uid x.tn) :
    RunOf (countIssue x s) x.core x.pipe x.uid x.tn := by
  have h1 := runOf_countPasses (w := x.train.width) h
  unfold countIssue
  simp only
  cases hr : (pipeOf (coreOf (countPasses s x.core x.pipe x.train.width) x.core) x.pipe).run with
  | none => exact h1
  | some r =>
    simp only
    split
    · intro r' hr'; rw [run_endRun] at hr'; cases hr'
    · apply runOf_setPipe
      intro r' hr'
      obtain rfl := Option.some.inj hr'
      exact h1 r hr

end Sys2Proof.Machine
end

