-- ==== Sys2Proof/Laws/Issue.lean ====
section
/-!
SUPPORT. What every instruction's frame can do: when it issues, where its split goes, and the effects
of the shared shapes (a destination written, a predicate written), each in one lemma.
-/
namespace Sys2Proof.Machine

/-! ## Lists of splits -/

theorem listMod_getElem? {α : Type} (l : List α) (n j : Nat) (f : α → α) :
    (listMod l n f)[j]? = if j = n then l[j]?.map f else l[j]? := by
  induction l generalizing n j with
  | nil => simp [listMod]
  | cons a t ih =>
    cases n with
    | zero => cases j <;> simp [listMod]
    | succ n =>
      cases j with
      | zero => simp [listMod]
      | succ j => simp [listMod, ih]

theorem listMod_length {α : Type} (l : List α) (n : Nat) (f : α → α) :
    (listMod l n f).length = l.length := by
  induction l generalizing n with
  | nil => rfl
  | cons a t ih => cases n <;> simp [listMod, ih]

/-! ## The issuing place -/

/-- What the issuing place is, in the state it is of. -/
theorem siteOf_spec {s : State} {i : Instr} {a : Args} {x : Site} (h : siteOf s i a = some x) :
    teamOf s x.uid = some x.team ∧ trainOf s x.uid x.tn = some x.train ∧
    x.train.siding[x.idx]? = some x.split ∧ RunOf s x.core x.pipe x.uid x.tn ∧
    x.lanes = enabledLanes x.train x.split i a.guard a.gneg ∧ x.pc = x.split.pc ∧
    x.len = unitBytes a ∧ x.stop = a.stop ∧ (x.core, x.pipe) = s.turn ∧
    ∃ r, (pipeOf (coreOf s x.core) x.pipe).run = some r ∧ r.idx = x.idx := by
  unfold siteOf at h
  simp only at h
  cases hr : (pipeOf (coreOf s s.turn.1) s.turn.2).run with
  | none => simp [hr] at h
  | some r =>
    cases ht : teamOf s r.uid with
    | none => simp [hr, ht] at h
    | some m =>
      cases hu : trainOf s r.uid r.train with
      | none => simp [hr, ht, hu] at h
      | some t =>
        cases hp : t.siding[r.idx]? with
        | none => simp [hr, ht, hu, hp] at h
        | some p =>
          simp only [hr, ht, hu, hp, Option.some.injEq] at h
          subst h
          refine ⟨ht, hu, hp, ?_, rfl, rfl, rfl, rfl, rfl, r, hr, rfl⟩
          intro r' hr'
          rw [hr] at hr'
          obtain rfl := Option.some.inj hr'
          exact ⟨rfl, rfl⟩

theorem Issues.site {i : Instr} {a : Args} {s : State} {x : Site} (h : Issues i a s x) :
    siteOf s i a = some x := h.1

theorem Issues.lanes_lt {i : Instr} {a : Args} {s : State} {x : Site} (h : Issues i a s x) :
    ∀ l ∈ x.lanes, l < 64 := by
  intro l hl
  rw [(siteOf_spec h.site).2.2.2.2.1] at hl
  exact enabledLanes_lt hl

theorem Issues.lanes_ne {i : Instr} {a : Args} {s : State} {x : Site} (h : Issues i a s x) :
    x.lanes ≠ [] := h.2.2.2.2.2.1

/-- An instruction whose checks pass has its own effect. -/
theorem front_go {i : Instr} {a : Args} {s : State} {x : Site} (h : Issues i a s x) :
    front i a s = .go x := by
  obtain ⟨h1, h0, h2, h3, h4, h5, h6, h7, h8, h9⟩ := h
  unfold front
  simp only [h1]
  split
  · rename_i hr; rw [hr] at h0; cases h0
  · rename_i hr; rw [hr] at h0; cases h0
  rw [if_neg (by omega), if_neg (by simp [h3, h4]), if_neg (by simpa using h5), if_neg]
  · unfold sourceCheck
    have hf : (vSources x.train i a).find? (fun e => groupEmpty x.train e.2.1 e.2.2.1) = none := by
      rw [List.find?_eq_none]
      intro e he
      simp [h7 e he]
    simp only
    rw [hf]
    simp only [h8, Bool.false_eq_true, if_false]
    cases hd : vDest i a with
    | none => rfl
    | some d =>
      have := h9 d (by simp [hd])
      simp only
      rw [if_neg]
      rintro hh
      simp only [Bool.and_eq_true, bne_iff_ne] at hh
      rcases this with hg | hg
      · rw [hg] at hh; exact Bool.false_ne_true hh.1
      · exact hh.2 hg
  · intro hh
    simp only [Bool.and_eq_true, decide_eq_true_eq] at hh
    have := h6 hh.1
    omega

theorem issue_go {i : Instr} {a : Args} {s : State} {x : Site} {body : Site → State → State}
    (h : Issues i a s x) : issue i a s body = .next (clearRegs i a x (body x s)) := by
  unfold issue
  rw [front_go h]

/-- Without a train at the issuing place there is the one fault; with one, a next state. -/
theorem issue_cases (i : Instr) (a : Args) (s : State) (body : Site → State → State) :
    issue i a s body = .fault .noTrain ∨ ∃ t, issue i a s body = .next t := by
  unfold issue
  cases front i a s <;> simp

/-! ## Where the split goes -/

/-- The train after an instruction has issued and its split goes on at `pc`. -/
theorem trainOf_advanceTo {x : Site} {s : State} {pc : Addr} {t : Train}
    (hr : RunOf s x.core x.pipe x.uid x.tn) (ht : trainOf s x.uid x.tn = some t) :
    ∃ n k, trainOf (advanceTo x pc s) x.uid x.tn = some
      { t with
        seq := t.seq + 1
        siding := listMod t.siding x.idx fun p =>
          { p with pc := pc, st := .ready, replay := false, resume := .none }
        since := n
        passed := k } := by
  unfold advanceTo
  exact trainOf_countIssue (x := x) (runOf_modTrain hr _ _ _) (trainOf_modTrain_self ht)

theorem touches_advanceTo {x : Site} {s : State} {pc : Addr}
    (hr : RunOf s x.core x.pipe x.uid x.tn) :
    Touches x.uid x.tn x.core x.pipe s (advanceTo x pc s) := by
  unfold advanceTo
  exact (touches_modTrain x.uid x.tn x.core x.pipe s _).trans
    (touches_countIssue (x := x) (runOf_modTrain hr _ _ _))

theorem touches_modIssuer (x : Site) (s : State) (f : Train → Train) :
    Touches x.uid x.tn x.core x.pipe s (modIssuer x s f) := touches_modTrain ..

/-- Clearing the errors of a rewritten destination changes the errors alone (R344). -/
theorem clearRegs_frame (i : Instr) (a : Args) (x : Site) (s : State) :
    clearRegs i a x s = { s with errs := (clearRegs i a x s).errs } ∧
    ∀ e, e ∈ (clearRegs i a x s).errs → e ∈ s.errs := by
  unfold clearRegs
  split
  · exact ⟨rfl, fun _ h => h⟩
  · split
    · split
      · exact ⟨rfl, fun e h => (List.mem_filter.1 h).1⟩
      · exact ⟨rfl, fun _ h => h⟩
    · exact ⟨rfl, fun _ h => h⟩

theorem trainOf_clearRegs (i : Instr) (a : Args) (x : Site) (s : State) (u k : Nat) :
    trainOf (clearRegs i a x s) u k = trainOf s u k := by
  rw [(clearRegs_frame i a x s).1]; rfl

/-- An operation that touches the issuing train and pipe changes nothing else of the device. -/
theorem onlyTrain_of_touches {i : Instr} {a : Args} {x : Site} {s t : State}
    (h : siteOf s i a = some x) (ht : Touches x.uid x.tn x.core x.pipe s t) :
    OnlyTrain x s (clearRegs i a x t) := by
  obtain ⟨hm, -⟩ := siteOf_spec h
  obtain ⟨h1, h2, h3, h4, h5, h6⟩ := ht
  obtain ⟨c1, c2⟩ := clearRegs_frame i a x t
  have he : t.errs = s.errs := by rw [h1]
  rw [c1]
  refine ⟨?_, ?_, h2, h3 _ hm, h4, h5, h6, ?_⟩
  · rw [h1]
  · intro e hh
    rw [← he]
    exact c2 e hh
  · exact viewByte_congr (by rw [h1]) (by rw [h1]) (by rw [h1])

/-- An instruction that changes its train by `f`, and whose split then goes on at `pc`. -/
theorem advance_spec {i : Instr} {a : Args} {x : Site} {s : State} {pc : Addr}
    {f : Train → Train} (h : siteOf s i a = some x)
    (hf : (f x.train).siding = x.train.siding) (hq : (f x.train).seq = x.train.seq) :
    ∃ u n k, trainOf (clearRegs i a x (advanceTo x pc (modIssuer x s f))) x.uid x.tn = some u ∧
      u = { f x.train with
            seq := x.train.seq + 1
            siding := listMod x.train.siding x.idx fun p =>
              { p with pc := pc, st := .ready, replay := false, resume := .none }
            since := n
            passed := k } ∧
      GoesOn x u pc ∧ OnlyTrain x s (clearRegs i a x (advanceTo x pc (modIssuer x s f))) := by
  obtain ⟨-, hu, hp, hr, -⟩ := siteOf_spec h
  have hr' : RunOf (modIssuer x s f) x.core x.pipe x.uid x.tn := runOf_modTrain hr _ _ _
  obtain ⟨n, k, ht⟩ := trainOf_advanceTo (pc := pc) hr' (trainOf_modTrain_self (f := f) hu)
  refine ⟨_, n, k, by rw [trainOf_clearRegs]; exact ht, by rw [hf, hq], ?_, ?_⟩
  · refine ⟨by simp [hq], by simp [listMod_length, hf], ?_, ?_⟩
    · simp [listMod_getElem?, hf, hp]
    · intro j hj; simp [listMod_getElem?, hf, hj]
  · exact onlyTrain_of_touches h ((touches_modIssuer x s f).trans (touches_advanceTo hr'))

/-! ## The shared shapes -/

/-- A destination written, flags ORed, the split gone on at `pc`. -/
theorem dst_writes {i : Instr} {a : Args} {s : State} {x : Site} {n : Nat} {val : Nat → Nat}
    {fl : FlagSet} {pc : Addr} (h : Issues i a s x)
    (he : exec i s = .next (clearRegs i a x (advanceTo x pc (modIssuer x s fun t =>
      orFlags (dstPut t a.dst n ((writtenLanes x a.dst).map fun l => (l, val l))) fl)))) :
    WritesTo i a s x n val fl pc := by
  obtain ⟨u, c, k, hu, hu', hg, ho⟩ := advance_spec (i := i) (a := a) (pc := pc)
    (f := fun t => orFlags (dstPut t a.dst n ((writtenLanes x a.dst).map fun l => (l, val l))) fl)
    h.site (by simp only [orFlags]; rw [dstPut_frame]) (by simp only [orFlags]; rw [dstPut_frame])
  have w := wrote_dstPut x.train a.dst n x.lanes val h.lanes_lt h.lanes_ne
  have r := keepsRegs_dstPut x.train a.dst n x.lanes val h.lanes_lt
  have fr := dstPut_frame x.train a.dst n ((writtenLanes x a.dst).map fun l => (l, val l))
  refine ⟨_, u, he, hu, ?_, ?_, hg, ?_, ?_, ?_, ho⟩
  · rw [hu']; refine wrote_congr ?_ ?_ ?_ w <;> rfl
  · rw [hu']; simp only [orFlags]; rw [fr]
  · rw [hu']; exact r
  · intro q l; rw [hu']; unfold pGet; simp only [orFlags]; rw [fr]
  · rw [hu']; unfold KeepsTrain; simp only [orFlags]; rw [fr]

/-- What `aluWrite` does: the destination holds the value in every written lane, the flags are ORed
over those lanes, and nothing else has changed. -/
theorem aluWrite_writes {i : Instr} {a : Args} {s : State} {x : Site}
    {f : Nat → Nat → Nat → Nat → Nat × FlagSet} (h : Issues i a s x)
    (he : exec i s = issue i a s (aluWrite i a f)) :
    Writes i a s x (sigOf i).dst.n
      (fun l => (onSources i a x f l).1)
      (orLanes (writtenLanes x a.dst) fun l => (onSources i a x f l).2) := by
  rw [issue_go h] at he
  apply dst_writes h
  rw [he]
  unfold aluWrite advance orLanes onSources
  simp only [List.map_map, Function.comp_def, List.foldr_map]

/-- The same value in every lane. -/
theorem uniformWrite_writes {i : Instr} {a : Args} {s : State} {x : Site} {v : Nat}
    (h : Issues i a s x) (he : exec i s = issue i a s (uniformWrite i a v)) :
    Writes i a s x (sigOf i).dst.n (fun _ => v) 0 := by
  rw [issue_go h] at he
  apply dst_writes h
  rw [he]
  unfold uniformWrite advance
  have hx : modIssuer x s (fun t => dstPut t a.dst (sigOf i).dst.n (x.lanes.map fun l => (l, v))) =
      modIssuer x s fun t =>
        orFlags (dstPut t a.dst (sigOf i).dst.n ((writtenLanes x a.dst).map fun l => (l, v))) 0 := by
    congr 1
    funext t
    rw [dstPut_written]
    simp [orFlags, writtenLanes]
  simp only [hx]

/-- A predicate written in every enabled lane. -/
theorem predWrite_writes {i : Instr} {a : Args} {s : State} {x : Site} {pd : Nat} {f : Nat → Bool}
    (h : Issues i a s x)
    (he : exec i s = issue i a s (predWrite pd f)) : WritesPred i s x pd f 0 := by
  rw [issue_go h] at he
  obtain ⟨u, c, k, hu, hu', hg, ho⟩ := advance_spec (i := i) (a := a) (pc := nextPc x)
    (f := fun t => predPut t pd (x.lanes.map fun l => (l, f l))) h.site
    (by rw [predPut_frame]) (by rw [predPut_frame])
  have fr := predPut_frame x.train pd (x.lanes.map fun l => (l, f l))
  refine ⟨_, u, he, hu, ?_, ?_, hg, ?_, ?_, ?_, ?_, ?_, ho⟩
  · intro h7 l hl
    have := pGet_predPut x.lanes f x.train pd pd (h.lanes_lt l hl)
    rw [hu']
    exact this.trans (if_pos ⟨h7, rfl, hl⟩)
  · rw [hu']; simp only; rw [fr]; simp
  · intro q l hl hn
    have := pGet_predPut x.lanes f x.train pd q hl
    rw [hu']
    exact this.trans (if_neg fun hh => hn hh.2)
  · rw [hu']; simp only; rw [fr]
  · rw [hu']; simp only; rw [fr]
  · rw [hu']; simp only; rw [fr]
  · rw [hu']; unfold KeepsTrain; simp only; rw [fr]

end Sys2Proof.Machine
end

