-- ==== Sys2Proof/Laws/Memory.lean ====
section
/-!
SUPPORT. Stored memory keeps its canonical form under the shared operations: those that write bytes,
those that write fault records, taking a trap and returning from one, and an instruction's frame.
-/
namespace Sys2Proof.Machine

/-! ## Operations that leave stored memory as it is -/

@[simp] theorem homeAlloc_mem (s : State) (ln : Nat) (b : Bool) (w : Nat) :
    (homeAlloc s ln b w).mem = s.mem := by
  unfold homeAlloc; split <;> rfl

@[simp] theorem setScopeRec_mem (s : State) (ln : Nat) (r : Option ScopeRec) :
    (setScopeRec s ln r).mem = s.mem := rfl

@[simp] theorem l1Apply_mem (s : State) (c ln : Nat) (ws : List (Nat × Byte)) (r : Option ScopeRec) :
    (l1Apply s c ln ws r).mem = s.mem := by
  unfold l1Apply; split <;> rfl

@[simp] theorem l1Drop_mem (s : State) (c ln : Nat) : (l1Drop s c ln).mem = s.mem := rfl

@[simp] theorem l1DropAll_mem (cs : List Nat) (s : State) (ln : Nat) :
    (l1DropAll s cs ln).mem = s.mem := by
  induction cs generalizing s with
  | nil => rfl
  | cons c cs ih => rw [l1DropAll, ih, l1Drop_mem]

@[simp] theorem dropReplicaList_mem (rs : List Replica) (s : State) (ln : Nat) :
    (dropReplicaList s ln rs).mem = s.mem := by
  induction rs generalizing s with
  | nil => rfl
  | cons r rs ih => rw [dropReplicaList, ih, l1DropAll_mem]

@[simp] theorem dropReplicas_mem (s : State) (ln : Nat) : (dropReplicas s ln).mem = s.mem := by
  unfold dropReplicas; split <;> simp

@[simp] theorem updateSharer_mem (s : State) (ln : Nat) (ws : List (Nat × Byte)) (r : Option ScopeRec)
    (c : Nat) : (updateSharer s ln ws r c).mem = s.mem := by
  unfold updateSharer; split <;> simp

@[simp] theorem pushUpdates_mem (cs : List Nat) (s : State) (ln : Nat) (ws : List (Nat × Byte))
    (r : Option ScopeRec) : (pushUpdates s ln ws r cs).mem = s.mem := by
  induction cs generalizing s with
  | nil => rfl
  | cons c cs ih => rw [pushUpdates, ih, updateSharer_mem]

@[simp] theorem settleReqs_mem (l : List (Nat × Req)) (s : State) (ln : Nat) :
    (settleReqs s ln l).mem = s.mem := by
  induction l generalizing s with
  | nil => rfl
  | cons e l ih =>
    rw [settleReqs, ih]
    split
    · unfold settleReq; split <;> simp
    · rfl

@[simp] theorem settleLine_mem (s : State) (ln : Nat) : (settleLine s ln).mem = s.mem := settleReqs_mem ..

@[simp] theorem settleLines_mem (l : List Nat) (s : State) : (settleLines s l).mem = s.mem := by
  induction l generalizing s with
  | nil => rfl
  | cons ln l ih => rw [settleLines, ih, settleLine_mem]

@[simp] theorem noteWrite_mem (s t : State) (l : List Nat) : (noteWrite s t l).mem = t.mem := by
  unfold noteWrite; split <;> rfl

@[simp] theorem queueWriter_mem (s : State) (c : Nat) (w : FqWriter) : (queueWriter s c w).mem = s.mem := rfl

@[simp] theorem clearErrs_mem (s : State) (l : List Nat) : (clearErrs s l).mem = s.mem := by
  unfold clearErrs; split <;> rfl

@[simp] theorem notify_mem (s : State) (c e : Nat) : (notify s c e).mem = s.mem := rfl

@[simp] theorem notifyQueue_mem (s : State) (c : Nat) : (notifyQueue s c).mem = s.mem := by
  unfold notifyQueue; split <;> rfl

@[simp] theorem endRun_mem (s : State) (c p : Nat) : (endRun s c p).mem = s.mem := by
  unfold endRun; simp only; split <;> rfl

@[simp] theorem endRunOf_mem (s : State) (u k : Nat) : (endRunOf s u k).mem = s.mem := by
  unfold endRunOf
  split
  · split
    · split <;> simp
    · rfl
  · rfl

@[simp] theorem haltTrain_mem (s : State) (u k : Nat) : (haltTrain s u k).mem = s.mem := by
  unfold haltTrain; simp only; split <;> simp

@[simp] theorem haltTrains_mem (l : List (Nat × Nat)) (s : State) : (haltTrains s l).mem = s.mem := by
  induction l generalizing s with
  | nil => rfl
  | cons e l ih => obtain ⟨u, t⟩ := e; rw [haltTrains, ih]; simp

@[simp] theorem fqFault_mem (s : State) (c : Nat) : (fqFault s c).mem = s.mem := by
  unfold fqFault; simp

@[simp] theorem enterTrap_mem (s : State) (u k i c : Nat) (a : Addr) :
    (enterTrap s u k i c a).mem = s.mem := by
  unfold enterTrap
  split
  · simp only; split <;> simp
  · rfl

@[simp] theorem returnFrom_mem (s : State) (u k : Nat) (a : Addr) (d : LaneMask) (n : Bool) (l : Nat) :
    (returnFrom s u k a d n l).mem = s.mem := rfl

@[simp] theorem countPasses_mem (s : State) (c p w : Nat) : (countPasses s c p w).mem = s.mem := rfl

@[simp] theorem countIssue_mem (x : Site) (s : State) : (countIssue x s).mem = s.mem := by
  unfold countIssue
  simp only
  split
  · rfl
  · split <;> simp

@[simp] theorem modSplit_mem (x : Site) (s : State) (f : Split → Split) :
    (modSplit x s f).mem = s.mem := rfl

@[simp] theorem modIssuer_mem (x : Site) (s : State) (f : Train → Train) :
    (modIssuer x s f).mem = s.mem := rfl

@[simp] theorem advanceTo_mem (x : Site) (pc : Addr) (s : State) : (advanceTo x pc s).mem = s.mem := by
  unfold advanceTo; simp

@[simp] theorem advance_mem (x : Site) (s : State) : (advance x s).mem = s.mem := advanceTo_mem ..

@[simp] theorem waitFor_mem (x : Site) (w : Wait) (s : State) : (waitFor x w s).mem = s.mem := by
  unfold waitFor; simp

@[simp] theorem waitWith_mem (x : Site) (w : Wait) (r : Resume) (s : State) :
    (waitWith x w r s).mem = s.mem := by
  unfold waitWith; simp

@[simp] theorem holdData_mem (x : Site) (id : Nat) (fs : List Failure) (s : State) :
    (holdData x id fs s).mem = s.mem := by
  unfold holdData; simp

@[simp] theorem advanceEnd_mem (x : Site) (s : State) : (advanceEnd x s).mem = s.mem := by
  unfold advanceEnd; simp

@[simp] theorem clearRegs_mem (i : Instr) (a : Args) (x : Site) (s : State) :
    (clearRegs i a x s).mem = s.mem := by
  rw [(clearRegs_frame i a x s).1]

@[simp] theorem addProducer_mem (x : Site) (p : Producer) (s : State) :
    (addProducer x p s).mem = s.mem := rfl

@[simp] theorem advanceProducer_mem (x : Site) (d : Dst) (id : Nat) (s : State) :
    (advanceProducer x d id s).mem = s.mem := by
  unfold advanceProducer; split <;> simp

@[simp] theorem issueProducer_mem (x : Site) (p : Producer) (s : State) :
    (issueProducer x p s).mem = s.mem := by
  unfold issueProducer; simp

@[simp] theorem aluWrite_mem (i : Instr) (a : Args) (f : Nat → Nat → Nat → Nat → Nat × FlagSet)
    (x : Site) (s : State) : (aluWrite i a f x s).mem = s.mem := by
  unfold aluWrite; simp

@[simp] theorem aluLater_mem (i : Instr) (a : Args) (n : Nat) (f : Nat → Nat → Nat → Nat → Nat × FlagSet)
    (x : Site) (s : State) : (aluLater i a n f x s).mem = s.mem := by
  unfold aluLater; simp

@[simp] theorem predWrite_mem (pd : Nat) (f : Nat → Bool) (x : Site) (s : State) :
    (predWrite pd f x s).mem = s.mem := by
  unfold predWrite; simp

@[simp] theorem uniformWrite_mem (i : Instr) (a : Args) (v : Nat) (x : Site) (s : State) :
    (uniformWrite i a v x s).mem = s.mem := by
  unfold uniformWrite; simp

/-! ## Operations that write bytes -/

theorem inv_of_mem {s t : State} (h : t.mem = s.mem) (hs : Inv s) : Inv t := by
  unfold Inv; rw [h]; exact hs

theorem inv_homePut {s : State} (h : Inv s) (pa : Nat) (b : Byte) : Inv (homePut s pa b) := by
  unfold homePut
  split
  · exact h
  · exact memWf_memPut h pa b

theorem inv_homePuts (l : List (Nat × Byte)) {s : State} (h : Inv s) : Inv (homePuts s l) := by
  induction l generalizing s with
  | nil => exact h
  | cons e l ih => obtain ⟨a, b⟩ := e; exact ih (inv_homePut h a b)

theorem inv_coherentLines (l : List Nat) {s : State} (h : Inv s) (ws : List (Nat × Byte)) :
    Inv (coherentLines s ws l) := by
  induction l generalizing s with
  | nil => exact h
  | cons ln l ih =>
    rw [coherentLines]
    apply ih
    apply inv_of_mem (pushUpdates_mem ..)
    apply inv_of_mem (setScopeRec_mem ..)
    exact inv_homePuts _ (inv_of_mem (dropReplicas_mem ..) (inv_of_mem (settleLine_mem ..) h))

theorem inv_coherentStore {s : State} (h : Inv s) (ws : List (Nat × Byte)) :
    Inv (coherentStore s ws) := inv_of_mem (noteWrite_mem ..) (inv_coherentLines _ h ws)

theorem inv_combineWords (l : List Nat) {s : State} (h : Inv s) : Inv (combineWords s l) := by
  induction l generalizing s with
  | nil => exact h
  | cons pa l ih =>
    rw [combineWords]
    exact ih (inv_coherentStore (s := { s with partials := s.partials.filter (·.pa != pa) }) h _)

theorem inv_combineLine {s : State} (h : Inv s) (ln : Nat) : Inv (combineLine s ln) :=
  inv_combineWords _ h

theorem inv_combineLines (l : List Nat) {s : State} (h : Inv s) : Inv (combineLines s l) := by
  induction l generalizing s with
  | nil => exact h
  | cons ln l ih => exact ih (inv_combineLine h ln)

theorem inv_touchLines {s : State} (h : Inv s) (l : List Nat) : Inv (touchLines s l) :=
  inv_combineLines _ (inv_of_mem (settleLines_mem ..) h)

theorem inv_touchLeaf {s : State} (h : Inv s) (c va : Nat) : Inv (touchLeaf s c va) := by
  unfold touchLeaf
  split
  · exact h
  · exact inv_touchLines h _

theorem inv_touchPages (c : Nat) (l : List Nat) {s : State} (h : Inv s) : Inv (touchPages s c l) := by
  induction l generalizing s with
  | nil => exact h
  | cons p l ih => exact ih (inv_touchLeaf h _ _)

theorem inv_walkTouch {s : State} (h : Inv s) (c va n : Nat) : Inv (walkTouch s c va n) := by
  unfold walkTouch
  split
  · exact h
  · exact inv_touchPages _ _ h

/-- What the homes do before the device's own access keeps the canonical form. -/
theorem inv_touch {s : State} (h : Inv s) (c : Nat) (a : Access) (va n : Nat) : Inv (touch s c a va n) := by
  unfold touch
  split
  · exact h
  · exact inv_touchLines (inv_touchPages _ _ h) _

theorem inv_devStore {s t : State} {c va : Nat} {bs : List Byte} (h : Inv s)
    (e : devStore s c va bs = .ok t) : Inv t := by
  unfold devStore at e
  have h' := inv_walkTouch h c va bs.length
  simp only at e
  split at e
  · cases e
  · injection e with e
    subst e
    apply inv_of_mem (clearErrs_mem ..)
    exact inv_coherentStore (inv_combineLines _ h') _

/-! ## Fault records and traps -/

theorem inv_putRecs (l : List (Rec × Bool)) {s t : State} {c q : Nat} (h : Inv s)
    (e : putRecs s c q l = .ok t) : Inv t := by
  induction l generalizing s q with
  | nil => rw [putRecs] at e; injection e with e; exact e ▸ h
  | cons r l ih =>
    obtain ⟨r, last⟩ := r
    rw [putRecs] at e
    split at e
    · cases e
    · rename_i s' hs
      exact ih (inv_devStore h hs) e

theorem inv_putRecs_error (l : List (Rec × Bool)) {s t : State} {c q : Nat} {k : TrapCause} (h : Inv s)
    (e : putRecs s c q l = .error (t, k)) : Inv t := by
  induction l generalizing s q with
  | nil => rw [putRecs] at e; cases e
  | cons r l ih =>
    obtain ⟨r, last⟩ := r
    rw [putRecs] at e
    split at e
    · injection e with e
      injection e with e
      exact e ▸ inv_walkTouch h ..
    · rename_i s' hs
      exact ih (inv_devStore h hs) e

/-- The state after a claim of fault-queue slots. -/
def Claimed.after : Claimed → State
  | .ok s _ => s
  | .noRoom s => s
  | .fault s _ _ => s

theorem inv_writeRecs {s : State} {c : Nat} {rs : List Rec} {r : Claimed} (h : Inv s)
    (e : writeRecs s c rs = r) : Inv r.after := by
  subst e
  unfold writeRecs
  simp only
  have ht := inv_touch h c .read (ctxOf s c).fqctl.toNat 16
  split
  · exact ht
  · split
    · exact ht
    · split
      · rename_i h1; exact inv_putRecs_error _ ht h1
      · rename_i h1
        split
        · exact inv_walkTouch (inv_putRecs _ ht h1) ..
        · rename_i h2
          exact inv_of_mem (notifyQueue_mem ..) (inv_devStore (inv_putRecs _ ht h1) h2)

/-- A claim of fault-queue slots keeps the canonical form. -/
theorem inv_claimRecs {s : State} {c : Nat} {rs : List Rec} {w : FqWriter} (h : Inv s) :
    Inv (claimRecs s c rs w).1 := by
  unfold claimRecs
  split
  · exact h
  · split
    · rename_i hw; exact inv_writeRecs h hw
    · rename_i hw; exact inv_writeRecs h hw
    · rename_i hw; exact inv_of_mem (fqFault_mem ..) (inv_writeRecs h hw)

theorem inv_claimRec {s : State} (h : Inv s) (c : Nat) (r : Rec) : Inv (claimRec s c r).1 := by
  unfold claimRec
  have hc : Inv (claimRecs { s with nextId := s.nextId + 1 } c [r] (.rec_ s.nextId r)).1 :=
    inv_claimRecs (s := { s with nextId := s.nextId + 1 }) h
  split <;> rename_i hr <;> rw [hr] at hc <;> exact hc

theorem inv_reportHeld {s : State} (h : Inv s) (c : Nat) (r : Rec) : Inv (reportHeld s c r) :=
  inv_claimRec h c r

theorem inv_pumpHead {s : State} (h : Inv s) (c : Nat) : Inv (pumpHead s c) := by
  unfold pumpHead
  simp only
  split
  · split
    · rename_i hw; exact inv_of_mem (modCtx_mem ..) (inv_writeRecs h hw)
    · rename_i hw; exact inv_writeRecs h hw
    · rename_i hw; exact inv_of_mem (modCtx_mem ..) (inv_of_mem (fqFault_mem ..) (inv_writeRecs h hw))
  · split
    · rename_i hw; exact inv_of_mem (modCtx_mem ..) (inv_of_mem (modTrain_mem ..) (inv_writeRecs h hw))
    · rename_i hw; exact inv_writeRecs h hw
    · rename_i hw
      exact inv_of_mem (modCtx_mem ..) (inv_of_mem (modTrain_mem ..) (inv_of_mem (fqFault_mem ..)
        (inv_writeRecs h hw)))
  · exact h

theorem inv_pumpQueue (c n : Nat) {s : State} (h : Inv s) : Inv (pumpQueue c n s) := by
  induction n generalizing s with
  | zero => exact h
  | succ n ih => exact ih (inv_pumpHead h c)

theorem inv_takeTrap {s : State} (h : Inv s) (u k i c : Nat) (rs : List Rec) :
    Inv (takeTrap s u k i c rs) := by
  unfold takeTrap
  have he : Inv (endRunOf s u k) := inv_of_mem (endRunOf_mem ..) h
  split
  · exact h
  · simp only
    split
    · exact he
    · split
      · rename_i hw; exact inv_of_mem (enterTrap_mem ..) (inv_writeRecs he hw)
      · rename_i hw; exact inv_writeRecs he hw
      · rename_i hw; exact inv_of_mem (fqFault_mem ..) (inv_writeRecs he hw)

theorem inv_continueTrap {s : State} (h : Inv s) (u k : Nat) : Inv (continueTrap s u k) := by
  unfold continueTrap
  split
  · split
    · split
      · simp only
        split
        · rename_i hw
          refine inv_of_mem (enterTrap_mem ..) (inv_writeRecs ?_ hw)
          exact h
        · rename_i hw
          refine inv_of_mem (modCtx_mem ..) (inv_writeRecs ?_ hw)
          exact h
        · rename_i hw
          refine inv_of_mem (fqFault_mem ..) (inv_of_mem (modTrain_mem ..) (inv_writeRecs ?_ hw))
          exact h
      · exact h
    · exact h
  · exact h

theorem inv_trapHere {s : State} (h : Inv s) (x : Site) (c : Nat) (rs : List Rec) : Inv (trapHere x c rs s) :=
  inv_takeTrap (inv_of_mem (modSplit_mem ..) h) ..

theorem inv_trapAt {s : State} (h : Inv s) (x : Site) (c r : Nat) (d : Word) :
    Inv (trapAt x c r d s) := inv_trapHere h ..

theorem inv_trapAddr {s : State} (h : Inv s) (x : Site) (c r : Nat) (a : Addr) (n : Nat) (w : Bool) :
    Inv (trapAddr x c r a n w s) := inv_trapHere h ..

theorem inv_rteFrom {s t : State} {u k : Nat} {n : Bool} (h : Inv s)
    (e : rteFrom s u k n = .ok t) : Inv t := by
  unfold rteFrom at e
  split at e
  · simp only at e
    split at e
    · cases e
    · split at e
      · split at e
        · cases e
        · injection e with e; exact e ▸ inv_of_mem (returnFrom_mem ..) (inv_touch (inv_touch h ..) ..)
      · injection e with e; exact e ▸ inv_of_mem (returnFrom_mem ..) (inv_touch h ..)
  · injection e with e; exact e ▸ h

theorem lanesEnd_inv {x : Site} {n : Nat} {rmw w : Bool} {m : LaneMask} {fs : List Failure}
    {go : State → State} {s : State} (h : Inv s) (hg : ∀ t, Inv t → Inv (go t)) :
    Inv (lanesEnd x n rmw w m fs go s) := by
  unfold lanesEnd
  split
  · exact hg _ h
  · refine inv_takeTrap ?_ ..
    exact h

theorem inv_endData {s : State} (h : Inv s) (i : Instr) (x : Site) (m : LaneMask) (fs : List Failure) :
    Inv (endData i x m fs s) := by
  unfold endData
  split
  · exact lanesEnd_inv h fun t ht => inv_of_mem (advance_mem ..) ht
  · exact inv_of_mem (advance_mem ..) h

/-- An instruction keeps the canonical form where its own effect does. -/
theorem inv_issue {s t : State} {i : Instr} {a : Args} {body : Site → State → State} (h : Inv s)
    (hb : ∀ x, Inv (body x s)) (e : issue i a s body = .next t) : Inv t := by
  unfold issue at e
  split at e
  · cases e
  · injection e with e; exact e ▸ inv_trapHere h ..
  · injection e with e; exact e ▸ inv_trapHere h ..
  · injection e with e; exact e ▸ inv_of_mem (advance_mem ..) h
  · injection e with e; exact e ▸ inv_of_mem (waitFor_mem ..) h
  · injection e with e; exact e ▸ inv_trapHere h ..
  · injection e with e; exact e ▸ inv_trapHere h ..
  · injection e with e; exact e ▸ inv_of_mem (waitFor_mem ..) h
  · injection e with e; exact e ▸ inv_of_mem (waitWith_mem ..) h
  · injection e with e; exact e ▸ inv_endData h ..
  · injection e with e; exact e ▸ inv_of_mem (clearRegs_mem ..) (hb _)

/-- The device after reset keeps the canonical form. -/
theorem inv_reset_mem : State.reset.mem = [] := rfl

end Sys2Proof.Machine
end

