-- ==== Sys2Proof/Laws/Homes.lean ====
section
/-!
SUPPORT. What reading a byte at its home gives after each operation that writes bytes; that the device's
own write changes memory, L2 and the L1s alone; and what a translation depends on.
-/
namespace Sys2Proof.Machine

/-! ## Lines -/

theorem lineByte_lineSet (x : Line) (i j : Nat) (b : Byte) (hi : i < 128) (hj : j < 128) :
    lineByte (lineSet x i b) j = if j = i then b else lineByte x j := by
  apply BitVec.eq_of_getLsbD_eq
  intro k hk
  have hb : ∀ n, (0xFF#1024).getLsbD n = decide (n < 8) := by
    intro n
    rw [BitVec.getLsbD_ofNat, show (255 : Nat) = 2 ^ 8 - 1 from rfl, Nat.testBit_two_pow_sub_one]
    by_cases hn : n < 8
    · have : n < 1024 := by omega
      simp [hn, this]
    · simp [hn]
  by_cases h : j = i
  · subst h
    simp only [lineByte, lineSet, BitVec.getLsbD_extractLsb', BitVec.getLsbD_or, BitVec.getLsbD_and,
      BitVec.getLsbD_not, BitVec.getLsbD_shiftLeft, BitVec.getLsbD_setWidth, hb, if_true]
    have h1 : 8 * j + k - 8 * j = k := by omega
    have h2 : ¬ (8 * j + k < 8 * j) := by omega
    have h3 : 8 * j + k < 1024 := by omega
    have h4 : k < 1024 := by omega
    simp [h1, h3, hk, h4]
  · simp only [lineByte, lineSet, BitVec.getLsbD_extractLsb', BitVec.getLsbD_or, BitVec.getLsbD_and,
      BitVec.getLsbD_not, BitVec.getLsbD_shiftLeft, BitVec.getLsbD_setWidth, hb, if_neg h]
    have h3 : 8 * j + k < 1024 := by omega
    by_cases h5 : 8 * j + k < 8 * i
    · simp [h5, h3, hk]
    · have h6 : ¬ (8 * j + k - 8 * i < 8) := by omega
      have h7 : b.getLsbD (8 * j + k - 8 * i) = false := BitVec.getLsbD_of_ge _ _ (by omega)
      simp [h5, h3, hk, h6, h7]

/-! ## Writes at home -/

theorem homeByte_congr {s t : State} (hl : t.l2 = s.l2) (hm : t.mem = s.mem) (q : Nat) :
    homeByte t q = homeByte s q := by
  unfold homeByte; rw [hl, hm]

theorem homeByte_homePut (s : State) (pa : Nat) (b : Byte) (q : Nat) :
    homeByte (homePut s pa b) q = if q = pa then b else homeByte s q := by
  unfold homePut
  cases h : mapGet s.l2 (pa / 128) with
  | none =>
    unfold homeByte
    cases hq : mapGet s.l2 (q / 128) with
    | none => simp only [memGet_memPut]
    | some l =>
      have : q ≠ pa := by rintro rfl; simp [h] at hq
      simp [this]
  | some l =>
    unfold homeByte
    simp only [mapGet_mapPut]
    by_cases hq : q / 128 = pa / 128
    · rw [if_pos hq]
      simp only
      rw [lineByte_lineSet _ _ _ _ (Nat.mod_lt _ (by omega)) (Nat.mod_lt _ (by omega)), hq, h]
      by_cases e : q = pa
      · subst e; simp
      · have : q % 128 ≠ pa % 128 := by omega
        simp [e, this]
    · rw [if_neg hq]
      have : q ≠ pa := by rintro rfl; exact hq rfl
      simp [this]

/-- The byte last written to an address, or `d`. -/
def lastWrite (ws : List (Nat × Byte)) (q : Nat) (d : Byte) : Byte :=
  match (ws.filter (·.1 = q)).getLast? with
  | some w => w.2
  | none => d

@[simp] theorem lastWrite_nil (q : Nat) (d : Byte) : lastWrite [] q d = d := rfl

theorem lastWrite_cons (a : Nat) (b : Byte) (ws : List (Nat × Byte)) (q : Nat) (d : Byte) :
    lastWrite ((a, b) :: ws) q d = lastWrite ws q (if q = a then b else d) := by
  unfold lastWrite
  by_cases h : a = q
  · subst h
    simp only [List.filter_cons, decide_true, if_true]
    cases hl : ws.filter (fun w => decide (w.1 = a)) with
    | nil => simp
    | cons x l => simp [List.getLast?_cons]
  · simp only [List.filter_cons, h, decide_false, if_neg (Ne.symm h)]
    rfl

theorem lastWrite_append (xs ws : List (Nat × Byte)) (q : Nat) (d : Byte) :
    lastWrite (xs ++ ws) q d = lastWrite ws q (lastWrite xs q d) := by
  induction xs generalizing d with
  | nil => rfl
  | cons x xs ih => obtain ⟨a, b⟩ := x; rw [List.cons_append, lastWrite_cons, lastWrite_cons, ih]

theorem lastWrite_of_notMem {ws : List (Nat × Byte)} {q : Nat} (h : ∀ w ∈ ws, w.1 ≠ q) (d : Byte) :
    lastWrite ws q d = d := by
  unfold lastWrite
  rw [List.filter_eq_nil_iff.2 (by simpa using h)]
  rfl

theorem homeByte_homePuts (ws : List (Nat × Byte)) (s : State) (q : Nat) :
    homeByte (homePuts s ws) q = lastWrite ws q (homeByte s q) := by
  induction ws generalizing s with
  | nil => rfl
  | cons w ws ih =>
    obtain ⟨a, b⟩ := w
    rw [homePuts, ih, homeByte_homePut, lastWrite_cons]

/-! ## Operations that keep every byte -/

theorem homeByte_modLine {s t : State} {ln : Nat} {f : L2Line → L2Line} (hf : ∀ l, (f l).data = l.data)
    (hl : t.l2 = mapMod s.l2 ln f) (hm : t.mem = s.mem) (q : Nat) : homeByte t q = homeByte s q := by
  unfold homeByte
  rw [hl, hm, mapGet_mapMod]
  by_cases h : q / 128 = ln
  · subst h
    cases mapGet s.l2 (q / 128) <;> simp [hf]
  · rw [if_neg h]

theorem homeByte_setScopeRec (s : State) (ln : Nat) (r : Option ScopeRec) (q : Nat) :
    homeByte (setScopeRec s ln r) q = homeByte s q :=
  homeByte_modLine (s := s) (t := setScopeRec s ln r) (ln := ln) (f := fun l => { l with scope := r }) (fun _ => rfl) rfl rfl q

@[simp] theorem l1Apply_l2 (s : State) (c ln : Nat) (ws : List (Nat × Byte)) (r : Option ScopeRec) :
    (l1Apply s c ln ws r).l2 = s.l2 := by
  unfold l1Apply; split <;> rfl

@[simp] theorem l1DropAll_l2 (cs : List Nat) (s : State) (ln : Nat) : (l1DropAll s cs ln).l2 = s.l2 := by
  induction cs generalizing s with
  | nil => rfl
  | cons c cs ih => rw [l1DropAll, ih]; rfl

theorem homeByte_updateSharer (s : State) (ln : Nat) (ws : List (Nat × Byte)) (r : Option ScopeRec)
    (c q : Nat) : homeByte (updateSharer s ln ws r c) q = homeByte s q := by
  unfold updateSharer
  split
  · exact homeByte_congr (l1Apply_l2 ..) (l1Apply_mem ..) q
  · exact homeByte_modLine (s := s) (t := { s with l2 := mapMod s.l2 ln fun l =>
        { l with sharers := setDel l.sharers c } }) (ln := ln)
      (f := fun l => { l with sharers := setDel l.sharers c }) (fun _ => rfl) rfl rfl q

theorem homeByte_pushUpdates (cs : List Nat) (s : State) (ln : Nat) (ws : List (Nat × Byte))
    (r : Option ScopeRec) (q : Nat) : homeByte (pushUpdates s ln ws r cs) q = homeByte s q := by
  induction cs generalizing s with
  | nil => rfl
  | cons c cs ih => rw [pushUpdates, ih, homeByte_updateSharer]

/-- The sharers' taking in of an update leaves every byte at its home. -/
theorem homeByte_settleReqs (l : List (Nat × Req)) (s : State) (ln q : Nat) :
    homeByte (settleReqs s ln l) q = homeByte s q := by
  induction l generalizing s with
  | nil => rfl
  | cons e l ih =>
    rw [settleReqs, ih]
    split
    · unfold settleReq
      split
      · exact (homeByte_congr rfl rfl q).trans (homeByte_pushUpdates ..)
      · rfl
    · rfl

theorem homeByte_dropReplicaList (rs : List Replica) (s : State) (ln q : Nat) :
    homeByte (dropReplicaList s ln rs) q = homeByte s q := by
  induction rs generalizing s with
  | nil => rfl
  | cons r rs ih =>
    rw [dropReplicaList, ih]
    rw [homeByte_congr (l1DropAll_l2 ..) (l1DropAll_mem ..)]
    exact homeByte_modLine (s := s) (t := { s with l2 := mapMod s.l2 ln fun l =>
        { l with replicas := l.replicas.filter (· != r) } }) (ln := ln)
      (f := fun l => { l with replicas := l.replicas.filter (· != r) }) (fun _ => rfl) rfl rfl q

theorem homeByte_dropReplicas (s : State) (ln q : Nat) :
    homeByte (dropReplicas s ln) q = homeByte s q := by
  unfold dropReplicas
  split
  · rfl
  · exact homeByte_dropReplicaList _ s ln q

theorem homeByte_homeAlloc (s : State) (ln : Nat) (b : Bool) (w : Nat) (q : Nat) :
    homeByte (homeAlloc s ln b w) q = homeByte s q := by
  unfold homeAlloc
  cases h : mapGet s.l2 ln with
  | some l => rfl
  | none =>
    unfold homeByte
    simp only [mapGet_mapPut]
    by_cases hq : q / 128 = ln
    · subst hq
      rw [if_pos rfl, h]
      simp only [homeLine, h]
      exact lineByte_lineOf_mem s.mem q
    · rw [if_neg hq]
where
  /-- A line made of memory's bytes has them. -/
  lineByte_lineOf_mem (m : Memory) (q : Nat) :
      lineByte (lineOf ((List.range 128).map fun i => memGet m (128 * (q / 128) + i))) (q % 128) =
        memGet m q := by
    have key : ∀ (l : List Byte) (i : Nat), l.length ≤ 128 → i < l.length →
        lineByte (lineOf l) i = (l[i]?).getD 0 := by
      intro l i hl hi
      apply BitVec.eq_of_toNat_eq
      have hs : ∀ (l : List Byte) (i : Nat), i < l.length →
          leNat l / 2 ^ (8 * i) % 256 = ((l[i]?).getD 0).toNat := by
        intro l
        induction l with
        | nil => intro i hi; simp at hi
        | cons x l ih =>
          intro i hi
          cases i with
          | zero =>
            simp only [leNat, Nat.mul_zero, Nat.pow_zero, Nat.div_one, List.getElem?_cons_zero,
              Option.getD_some]
            have := x.isLt
            omega
          | succ i =>
            have h2 : (2 : Nat) ^ (8 * (i + 1)) = 256 * 2 ^ (8 * i) := by
              rw [Nat.mul_add, Nat.pow_add]; norm_num; ring
            simp only [leNat, List.getElem?_cons_succ]
            rw [h2, ← Nat.div_div_eq_div_mul]
            have h3 : (x.toNat + 256 * leNat l) / 256 = leNat l := by
              have := x.isLt
              omega
            rw [h3]
            exact ih i (by simpa using hi)
      have hlt : ∀ l : List Byte, leNat l < 2 ^ (8 * l.length) := by
        intro l
        induction l with
        | nil => simp [leNat]
        | cons x l ih =>
          simp only [leNat, List.length_cons]
          have h2 : (2 : Nat) ^ (8 * (l.length + 1)) = 256 * 2 ^ (8 * l.length) := by
            rw [Nat.mul_add, Nat.pow_add]; norm_num; ring
          have := x.isLt
          omega
      rw [lineByte, lineOf, BitVec.extractLsb'_toNat, BitVec.toNat_ofNat,
        Nat.shiftRight_eq_div_pow]
      have h4 : leNat l < 2 ^ (8 * 128) :=
        Nat.lt_of_lt_of_le (hlt l) (Nat.pow_le_pow_right (by omega) (by omega))
      rw [show (1024 : Nat) = 8 * 128 from rfl]
      rw [Nat.mod_eq_of_lt h4]
      exact hs l i hi
    rw [key _ _ (by simp) (by simp; omega)]
    have h5 : q % 128 < 128 := Nat.mod_lt _ (by omega)
    simp only [List.getElem?_map, List.getElem?_range h5, Option.map_some, Option.getD_some]
    congr 1
    omega

/-! ## The device's own write -/

theorem homeByte_coherentLines (lns : List Nat) (s : State) (ws : List (Nat × Byte)) (q : Nat)
    (hn : lns.Nodup) : homeByte (coherentLines s ws lns) q =
      if q / 128 ∈ lns then lastWrite ws q (homeByte s q) else homeByte s q := by
  induction lns generalizing s with
  | nil => simp [coherentLines]
  | cons ln lns ih =>
    rw [coherentLines, ih _ (List.nodup_cons.1 hn).2]
    rw [homeByte_pushUpdates, homeByte_setScopeRec, homeByte_homePuts, homeByte_dropReplicas, settleLine,
      homeByte_settleReqs]
    have hw : lastWrite ((inLine ln ws).map fun p => (128 * ln + p.1, p.2)) q (homeByte s q) =
        if q / 128 = ln then lastWrite ws q (homeByte s q) else homeByte s q := by
      unfold inLine
      rw [List.map_map]
      clear ih
      generalize homeByte s q = d
      induction ws generalizing d with
      | nil => simp
      | cons w ws ihw =>
        obtain ⟨a, b⟩ := w
        by_cases ha : a / 128 = ln
        · have hc : ((a, b) :: ws).filter (fun w => w.1 / 128 == ln) =
              (a, b) :: ws.filter (fun w => w.1 / 128 == ln) := by simp [ha]
          rw [hc, List.map_cons]
          have e : 128 * ln + a % 128 = a := by omega
          simp only [Function.comp] at ihw ⊢
          simp only [e]
          rw [lastWrite_cons, ihw, lastWrite_cons]
          by_cases hq : q / 128 = ln
          · simp [hq]
          · have : q ≠ a := by rintro rfl; exact hq ha
            simp [hq, this]
        · have hc : ((a, b) :: ws).filter (fun w => w.1 / 128 == ln) =
              ws.filter (fun w => w.1 / 128 == ln) := by simp [ha]
          rw [hc, ihw, lastWrite_cons]
          by_cases hq : q / 128 = ln
          · have : q ≠ a := by rintro rfl; exact ha hq
            simp [hq, this]
          · simp [hq]
    rw [hw]
    by_cases hq : q / 128 = ln
    · have : q / 128 ∉ lns := by rw [hq]; exact (List.nodup_cons.1 hn).1
      simp [hq]
      intro h
      exact absurd (hq ▸ h) (hq ▸ this)
    · simp [hq]

theorem mem_setAdd (l : List Nat) (x y : Nat) : y ∈ setAdd l x ↔ y = x ∨ y ∈ l := by
  induction l with
  | nil => simp [setAdd]
  | cons z l ih =>
    unfold setAdd
    split
    · simp
    · split
      · rename_i h; subst h; simp
      · simp [ih]; tauto

theorem mem_linesOf (as : List Nat) (ln : Nat) : ln ∈ linesOf as ↔ ∃ a ∈ as, a / 128 = ln := by
  induction as with
  | nil => simp [linesOf]
  | cons a as ih => simp [linesOf, mem_setAdd, ih, eq_comm]

theorem rising_setAdd (l : List Nat) (x : Nat) (h : l.Pairwise (· < ·)) :
    (setAdd l x).Pairwise (· < ·) := by
  induction l with
  | nil => simp [setAdd]
  | cons z l ih =>
    unfold setAdd
    rw [List.pairwise_cons] at h
    split
    · rename_i hx
      refine List.pairwise_cons.2 ⟨?_, List.pairwise_cons.2 h⟩
      intro y hy
      rcases List.mem_cons.1 hy with rfl | hy
      · exact hx
      · exact Nat.lt_trans hx (h.1 y hy)
    · split
      · exact List.pairwise_cons.2 h
      · refine List.pairwise_cons.2 ⟨?_, ih h.2⟩
        intro y hy
        rcases (mem_setAdd l x y).1 hy with rfl | hy
        · omega
        · exact h.1 y hy

theorem rising_linesOf (as : List Nat) : (linesOf as).Pairwise (· < ·) := by
  induction as with
  | nil => exact List.Pairwise.nil
  | cons a as ih => exact rising_setAdd _ _ ih

@[simp] theorem noteWrite_l2 (s t : State) (l : List Nat) : (noteWrite s t l).l2 = t.l2 := by
  unfold noteWrite; split <;> rfl

/-- A write of no train is read back at its home, and leaves every other byte alone. -/
theorem homeByte_coherentStore (s : State) (ws : List (Nat × Byte)) (q : Nat) :
    homeByte (coherentStore s ws) q = lastWrite ws q (homeByte s q) := by
  unfold coherentStore
  rw [homeByte_congr (noteWrite_l2 ..) (noteWrite_mem ..),
    homeByte_coherentLines _ s ws q ((rising_linesOf _).imp (fun h => Nat.ne_of_lt h))]
  split
  · rfl
  · rename_i h
    rw [lastWrite_of_notMem]
    rintro w hw rfl
    exact h ((mem_linesOf _ _).2 ⟨w.1, List.mem_map_of_mem hw, rfl⟩)

/-- From `s` to `t` nothing has changed but memory, L2 and the L1s, the requests whose updates have been
taken in, the promises of invariant loads, and errors that have gone. -/
def HomesOnly (s t : State) : Prop :=
  t = { s with mem := t.mem, l2 := t.l2, cores := t.cores, net := t.net, inv := t.inv, errs := t.errs } ∧
  (∀ c, coreOf t c = { coreOf s c with l1 := (coreOf t c).l1 }) ∧
  (∀ e, e ∈ t.errs → e ∈ s.errs) ∧ (s.net = [] → t.net = [])

theorem HomesOnly.refl (s : State) : HomesOnly s s := ⟨rfl, fun _ => rfl, fun _ h => h, fun h => h⟩

theorem HomesOnly.trans {s t u : State} (h : HomesOnly s t) (g : HomesOnly t u) : HomesOnly s u := by
  obtain ⟨h1, h2, h3, h4⟩ := h
  obtain ⟨g1, g2, g3, g4⟩ := g
  refine ⟨?_, fun c => ?_, fun e he => h3 e (g3 e he), fun hn => g4 (h4 hn)⟩
  · rw [g1, h1]
  · rw [g2 c, h2 c]

theorem HomesOnly.errs_nil {s t : State} (h : HomesOnly s t) (he : s.errs = []) : t.errs = [] := by
  rw [List.eq_nil_iff_forall_not_mem]
  intro e hm
  have := h.2.2.1 e hm
  rw [he] at this
  exact absurd this (List.not_mem_nil)

theorem homesOnly_core (s : State) (n : Nat) (f : Core → AMap L1Line) :
    HomesOnly s (modCore s n fun c => { c with l1 := f c }) := by
  refine ⟨rfl, fun c => ?_, fun _ h => h, fun h => h⟩
  rw [coreOf_modCore]
  split
  · rename_i h; subst h; rfl
  · rfl

theorem homesOnly_mem {s t : State} (h : t = { s with mem := t.mem, l2 := t.l2, inv := t.inv }) :
    HomesOnly s t :=
  ⟨by rw [h], fun c => by rw [h]; rfl, fun e he => by rw [h] at he; exact he, fun hn => by rw [h]; exact hn⟩

theorem homesOnly_errs (s : State) (p : ErrPlace → Bool) : HomesOnly s { s with errs := s.errs.filter p } :=
  ⟨rfl, fun _ => rfl, fun _ he => (List.mem_filter.1 he).1, fun h => h⟩

theorem homesOnly_l1Drop (s : State) (c ln : Nat) : HomesOnly s (l1Drop s c ln) :=
  (homesOnly_core s c fun k => mapDel k.l1 ln).trans (homesOnly_errs _ _)

theorem homesOnly_l1DropAll (cs : List Nat) (s : State) (ln : Nat) :
    HomesOnly s (l1DropAll s cs ln) := by
  induction cs generalizing s with
  | nil => exact .refl s
  | cons c cs ih => exact (homesOnly_l1Drop s c ln).trans (ih _)

theorem homesOnly_dropReplicaList (rs : List Replica) (s : State) (ln : Nat) :
    HomesOnly s (dropReplicaList s ln rs) := by
  induction rs generalizing s with
  | nil => exact .refl s
  | cons r rs ih =>
    rw [dropReplicaList]
    exact (homesOnly_mem rfl).trans ((homesOnly_l1DropAll r.supplied _ ln).trans (ih _))

theorem homesOnly_dropReplicas (s : State) (ln : Nat) : HomesOnly s (dropReplicas s ln) := by
  unfold dropReplicas
  split
  · exact .refl s
  · exact homesOnly_dropReplicaList _ s ln

theorem homesOnly_homePuts (ws : List (Nat × Byte)) (s : State) : HomesOnly s (homePuts s ws) := by
  induction ws generalizing s with
  | nil => exact .refl s
  | cons w ws ih =>
    obtain ⟨a, b⟩ := w
    refine HomesOnly.trans ?_ (ih _)
    unfold homePut
    split <;> exact homesOnly_mem rfl

theorem homesOnly_updateSharer (s : State) (ln : Nat) (ws : List (Nat × Byte)) (r : Option ScopeRec)
    (c : Nat) : HomesOnly s (updateSharer s ln ws r c) := by
  unfold updateSharer
  split
  · unfold l1Apply
    split
    · exact .refl s
    · exact (homesOnly_core s c _).trans (homesOnly_errs _ _)
  · exact homesOnly_mem rfl

theorem homesOnly_pushUpdates (cs : List Nat) (s : State) (ln : Nat) (ws : List (Nat × Byte))
    (r : Option ScopeRec) : HomesOnly s (pushUpdates s ln ws r cs) := by
  induction cs generalizing s with
  | nil => exact .refl s
  | cons c cs ih => exact (homesOnly_updateSharer ..).trans (ih _)

theorem homesOnly_settleReqs (l : List (Nat × Req)) (s : State) (ln : Nat)
    (hl : s.net = [] → l = []) : HomesOnly s (settleReqs s ln l) := by
  induction l generalizing s with
  | nil => exact .refl s
  | cons e l ih =>
    have hne : s.net ≠ [] := fun h => by simpa using hl h
    rw [settleReqs]
    refine HomesOnly.trans ?_ (ih _ ?_)
    · split
      · unfold settleReq
        split
        · refine (homesOnly_pushUpdates _ s e.2.line e.2.wrote e.2.mark).trans
            ⟨rfl, fun _ => rfl, fun _ h => h, fun h => ?_⟩
          rename_i left _
          have := (homesOnly_pushUpdates left s e.2.line e.2.wrote e.2.mark).1
          have hk : (pushUpdates s e.2.line e.2.wrote e.2.mark left).net = s.net := pushUpdates_net ..
          exact absurd (hk ▸ h) hne
        · exact .refl s
      · exact .refl s
    · intro hn
      exfalso
      revert hn
      split
      · unfold settleReq
        split
        · exact mapPut_ne_nil _ _ _
        · exact hne
      · exact hne
where
  pushUpdates_net (cs : List Nat) (s : State) (ln : Nat) (ws : List (Nat × Byte)) (r : Option ScopeRec) :
      (pushUpdates s ln ws r cs).net = s.net := by
    induction cs generalizing s with
    | nil => rfl
    | cons c cs ih =>
      rw [pushUpdates, ih]
      unfold updateSharer
      split
      · unfold l1Apply; split <;> rfl
      · rfl
  mapPut_ne_nil {α : Type} (m : AMap α) (k : Nat) (x : α) : mapPut m k x ≠ [] := by
    cases m with
    | nil => simp [mapPut]
    | cons e m =>
      unfold mapPut
      split
      · simp
      · split <;> simp

theorem homesOnly_settleLine (s : State) (ln : Nat) : HomesOnly s (settleLine s ln) :=
  homesOnly_settleReqs s.net s ln fun h => h

theorem homesOnly_coherentLines (lns : List Nat) (s : State) (ws : List (Nat × Byte)) :
    HomesOnly s (coherentLines s ws lns) := by
  induction lns generalizing s with
  | nil => exact .refl s
  | cons ln lns ih =>
    rw [coherentLines]
    exact (homesOnly_settleLine s ln).trans ((homesOnly_dropReplicas _ ln).trans
      ((homesOnly_homePuts _ _).trans ((homesOnly_mem rfl).trans
        ((homesOnly_pushUpdates ..).trans (ih _)))))

theorem homesOnly_coherentStore (s : State) (ws : List (Nat × Byte)) :
    HomesOnly s (coherentStore s ws) := by
  refine (homesOnly_coherentLines (linesOf (ws.map Prod.fst)) s ws).trans ?_
  unfold coherentStore noteWrite
  split
  · exact .refl _
  · exact homesOnly_mem rfl

theorem homesOnly_combineWords {s : State} (h : s.partials = []) (ln : Nat) : combineLine s ln = s := by
  unfold combineLine partialWords
  rw [h]
  rfl

theorem combineLines_of_noPartials {s : State} (h : s.partials = []) (lns : List Nat) :
    combineLines s lns = s := by
  induction lns with
  | nil => rfl
  | cons ln lns ih => rw [combineLines, homesOnly_combineWords h, ih]

theorem viewByte_of_noPartials {s : State} (h : s.partials = []) (q : Nat) :
    viewByte s q = homeByte s q := by
  unfold viewByte; rw [h]; rfl

/-! ## Translation -/

/-- The addresses of the table entries that a walk from table `a` may read. -/
def walkEntries (s : State) (va a : Nat) : List (Nat × Nat × Nat) → List Nat
  | [] => []
  | (_, lo, w) :: rest =>
    let at_ := a + 8 * bitsOf va lo w
    at_ :: walkEntries s va (bitsOf (entryAt s at_) 20 38 * 2 ^ 18) rest

/-- A walk depends on the entries it reads and on what memory is present. -/
theorem walkFrom_congr {s t : State} (hb : t.boot = s.boot) (hw : t.windows = s.windows) (ctx va : Nat)
    (l : List (Nat × Nat × Nat)) (a : Nat)
    (hv : ∀ e ∈ walkEntries s va a l, entryAt t e = entryAt s e) :
    walkFrom t ctx va a l = walkFrom s ctx va a l := by
  induction l generalizing a with
  | nil => rfl
  | cons e l ih =>
    obtain ⟨L, lo, w⟩ := e
    have hp : ∀ a, present t a = present s a := by intro a; unfold present; rw [hb, hw]
    rw [walkEntries, List.forall_mem_cons] at hv
    rw [walkFrom, walkFrom]
    simp only [hp, hv.1, ih _ hv.2]

theorem entryAt_congr {s t : State} {a : Nat}
    (h : ∀ q, a ≤ q → q < a + 8 → viewByte t q = viewByte s q) : entryAt t a = entryAt s a := by
  unfold entryAt
  congr 1
  apply List.map_congr_left
  intro i hi
  rw [List.mem_range] at hi
  exact h _ (by omega) (by omega)

/-- A translation by the device depends on the dies' TLBs, the entries it reads, its context and what is
present. -/
theorem devXlate_congr {s t : State} (hc : t.ctxs = s.ctxs) (hb : t.boot = s.boot)
    (hw : t.windows = s.windows) (hd : t.dies = s.dies) (ctx : Nat) (acc : Access) (va : Nat)
    (hv : ∀ e ∈ walkEntries s va (ctxOf s ctx).ptroot.toNat walkLevels, entryAt t e = entryAt s e) :
    devXlate t ctx acc va = devXlate s ctx acc va := by
  have hp : ∀ a, present t a = present s a := by intro a; unfold present; rw [hb, hw]
  have hr : ctxOf t ctx = ctxOf s ctx := by unfold ctxOf; rw [hc]
  unfold devXlate leafOf dieEntry walk useLeaf
  rw [hr, hd, walkFrom_congr hb hw ctx va walkLevels _ hv]
  simp only [hp]

/-- Within one page the bytes follow the first. -/
theorem devXlates_inPage (s : State) (ctx : Nat) (acc : Access) (n va pb : Nat)
    (hp : va % 2 ^ 18 + n ≤ 2 ^ 18) (ht : va + n ≤ 2 ^ 80) :
    devXlates s ctx acc n va (some (va / 2 ^ 18, pb)) =
      .ok ((List.range n).map fun i => pb + va % 2 ^ 18 + i) := by
  induction n generalizing va with
  | zero => rfl
  | succ n ih =>
    have hva : va % 2 ^ 80 = va := Nat.mod_eq_of_lt (by omega)
    rw [devXlates]
    simp only [hva, if_true]
    have e : pb + va % 2 ^ 18 - va % 2 ^ 18 = pb := by omega
    rw [e]
    cases n with
    | zero => rfl
    | succ n =>
      have h1 : (va + 1) / 2 ^ 18 = va / 2 ^ 18 := by omega
      have h2 : (va + 1) % 2 ^ 18 = va % 2 ^ 18 + 1 := by omega
      have := ih (va + 1) (by omega) (by omega)
      rw [h1] at this
      rw [this]
      simp only [h2]
      rw [List.range_succ_eq_map (n := n + 1), List.map_cons, List.map_map]
      congr 2
      apply List.map_congr_left
      intro i _
      simp only [Function.comp]
      omega

theorem devXlates_page (s : State) (ctx : Nat) (acc : Access) (n va pa : Nat)
    (h : devXlate s ctx acc va = .ok pa) (hl : va % 2 ^ 18 ≤ pa)
    (hp : va % 2 ^ 18 + n ≤ 2 ^ 18) (ht : va + n ≤ 2 ^ 80) :
    devXlates s ctx acc n va none = .ok ((List.range n).map (pa + ·)) := by
  cases n with
  | zero => rfl
  | succ n =>
    have hva : va % 2 ^ 80 = va := Nat.mod_eq_of_lt (by omega)
    rw [devXlates]
    simp only [hva, h]
    cases n with
    | zero => rfl
    | succ n =>
      have h1 : (va + 1) / 2 ^ 18 = va / 2 ^ 18 := by omega
      have h2 : (va + 1) % 2 ^ 18 = va % 2 ^ 18 + 1 := by omega
      have := devXlates_inPage s ctx acc (n + 1) (va + 1) (pa - va % 2 ^ 18) (by omega) (by omega)
      rw [h1] at this
      rw [this]
      simp only [h2]
      rw [List.range_succ_eq_map (n := n + 1), List.map_cons, List.map_map]
      congr 2
      apply List.map_congr_left
      intro i _
      simp only [Function.comp]
      omega

/-- A store of the device within one page, where nothing is on its way or to be combined and no byte has an
error. -/
theorem devStore_page (s : State) (ctx va pa : Nat) (bs : List Byte)
    (h : devXlate s ctx .write va = .ok pa) (hl : va % 2 ^ 18 ≤ pa)
    (hp : va % 2 ^ 18 + bs.length ≤ 2 ^ 18) (ht : va + bs.length ≤ 2 ^ 80)
    (hq : s.partials = []) (hn : s.net = []) (he : s.errs = []) :
    devStore s ctx va bs = .ok (coherentStore s (((List.range bs.length).map (pa + ·)).zip bs)) := by
  unfold devStore walkTouch
  rw [if_pos (by simp [hq, hn])]
  simp only
  rw [devXlates_page s ctx .write bs.length va pa h hl hp ht]
  simp only [combineLines_of_noPartials hq]
  have : (coherentStore s (((List.range bs.length).map (pa + ·)).zip bs)).errs = [] :=
    (homesOnly_coherentStore s _).errs_nil he
  unfold clearErrs
  rw [this]
  rfl

/-- A load of the device within one page. -/
theorem devLoad_page (s : State) (ctx va pa n : Nat)
    (h : devXlate s ctx .read va = .ok pa) (hl : va % 2 ^ 18 ≤ pa)
    (hp : va % 2 ^ 18 + n ≤ 2 ^ 18) (ht : va + n ≤ 2 ^ 80) (hq : s.partials = []) (he : s.errs = []) :
    devLoad s ctx va n = .ok ((List.range n).map fun i => homeByte s (pa + i)) := by
  unfold devLoad
  rw [devXlates_page s ctx .read n va pa h hl hp ht]
  have h0 : ∀ a, errAt s a = 0 := by intro a; unfold errAt; rw [he]; rfl
  have h1 : ((List.range n).map (pa + ·)).findIdx? (fun a => errAt s a != 0) = none := by
    rw [List.findIdx?_eq_none_iff]
    intro a _
    simp [h0]
  simp only [h1, List.map_map]
  exact congrArg _ (List.map_congr_left fun i _ => viewByte_of_noPartials hq _)

end Sys2Proof.Machine
end

