-- ==== Sys2Proof/Laws/PerInstr.lean ====
section
/-!
SUPPORT. Facts about every instruction as syntax, one lemma for each constructor.
-/
namespace Sys2Proof

theorem bytesLE_length (n x : Nat) : (bytesLE n x).length = n := by
  induction n generalizing x with
  | zero => rfl
  | succ n ih => simp [bytesLE, ih]

/-- The bytes an instruction is encoded in are as many as its form and its prefix say (R30, R31, R41); a
step of the device has none. -/
def Laws.UnitLength.Statement (i : Instr) : Prop :=
  match argsOf i with
  | some a => (encode i).length = unitBytes a
  | none => encode i = []

theorem Laws.UnitLength.holds (i : Instr) : Laws.UnitLength.Statement i := by
  unfold Laws.UnitLength.Statement encode rawInstr unitBytes
  cases argsOf i with
  | none => rfl
  | some a =>
    have h : 8 ≤ a.form.bytes := by cases a.form <;> decide
    cases hp : a.pre <;> simp [bytesLE_length, hp] <;> omega

theorem Laws.UnitLength.nop (a : Args) : Laws.UnitLength.Statement (.nop a) :=
  holds _
theorem Laws.UnitLength.trap (a : Args) (code : Word) : Laws.UnitLength.Statement (.trap a code) :=
  holds _
theorem Laws.UnitLength.exit (a : Args) : Laws.UnitLength.Statement (.exit a) :=
  holds _
theorem Laws.UnitLength.br (a : Args) (h : Bool) (off : Word) : Laws.UnitLength.Statement (.br a h off) :=
  holds _
theorem Laws.UnitLength.bri (a : Args) (h : Bool) : Laws.UnitLength.Statement (.bri a h) :=
  holds _
theorem Laws.UnitLength.call (a : Args) (off : Word) : Laws.UnitLength.Statement (.call a off) :=
  holds _
theorem Laws.UnitLength.calli (a : Args) : Laws.UnitLength.Statement (.calli a) :=
  holds _
theorem Laws.UnitLength.ret (a : Args) : Laws.UnitLength.Statement (.ret a) :=
  holds _
theorem Laws.UnitLength.rte (a : Args) : Laws.UnitLength.Statement (.rte a) :=
  holds _
theorem Laws.UnitLength.rteNext (a : Args) : Laws.UnitLength.Statement (.rteNext a) :=
  holds _
theorem Laws.UnitLength.rds (a : Args) (d : Bool) : Laws.UnitLength.Statement (.rds a d) :=
  holds _
theorem Laws.UnitLength.wrs (a : Args) (d : Bool) : Laws.UnitLength.Statement (.wrs a d) :=
  holds _
theorem Laws.UnitLength.yield (a : Args) : Laws.UnitLength.Statement (.yield a) :=
  holds _
theorem Laws.UnitLength.sleep (a : Args) : Laws.UnitLength.Statement (.sleep a) :=
  holds _
theorem Laws.UnitLength.loop (a : Args) (h : Bool) (off : Word) : Laws.UnitLength.Statement (.loop a h off) :=
  holds _
theorem Laws.UnitLength.mov (a : Args) (m : Mods) : Laws.UnitLength.Statement (.mov a m) :=
  holds _
theorem Laws.UnitLength.movStream (a : Args) (m : Mods) : Laws.UnitLength.Statement (.movStream a m) :=
  holds _
theorem Laws.UnitLength.li (a : Args) (m : Mods) : Laws.UnitLength.Statement (.li a m) :=
  holds _
theorem Laws.UnitLength.bset (a : Args) (m : Mods) : Laws.UnitLength.Statement (.bset a m) :=
  holds _
theorem Laws.UnitLength.bget (a : Args) : Laws.UnitLength.Statement (.bget a) :=
  holds _
theorem Laws.UnitLength.bgetHi (a : Args) : Laws.UnitLength.Statement (.bgetHi a) :=
  holds _
theorem Laws.UnitLength.badd (a : Args) (m : Mods) : Laws.UnitLength.Statement (.badd a m) :=
  holds _
theorem Laws.UnitLength.sel (a : Args) (m : Mods) : Laws.UnitLength.Statement (.sel a m) :=
  holds _
theorem Laws.UnitLength.pand (a : Args) (m : PredMods) : Laws.UnitLength.Statement (.pand a m) :=
  holds _
theorem Laws.UnitLength.por (a : Args) (m : PredMods) : Laws.UnitLength.Statement (.por a m) :=
  holds _
theorem Laws.UnitLength.pxor (a : Args) (m : PredMods) : Laws.UnitLength.Statement (.pxor a m) :=
  holds _
theorem Laws.UnitLength.pnot (a : Args) (m : PredMods) : Laws.UnitLength.Statement (.pnot a m) :=
  holds _
theorem Laws.UnitLength.pget (a : Args) : Laws.UnitLength.Statement (.pget a) :=
  holds _
theorem Laws.UnitLength.pset (a : Args) (mask : BitVec 7) : Laws.UnitLength.Statement (.pset a mask) :=
  holds _
theorem Laws.UnitLength.lea (a : Args) (m : Mods) : Laws.UnitLength.Statement (.lea a m) :=
  holds _
theorem Laws.UnitLength.bcmp (a : Args) (m : Mods) : Laws.UnitLength.Statement (.bcmp a m) :=
  holds _
theorem Laws.UnitLength.iadd (a : Args) (m : Mods) : Laws.UnitLength.Statement (.iadd a m) :=
  holds _
theorem Laws.UnitLength.isub (a : Args) (m : Mods) : Laws.UnitLength.Statement (.isub a m) :=
  holds _
theorem Laws.UnitLength.imul (a : Args) (m : Mods) : Laws.UnitLength.Statement (.imul a m) :=
  holds _
theorem Laws.UnitLength.imulh (a : Args) (m : Mods) : Laws.UnitLength.Statement (.imulh a m) :=
  holds _
theorem Laws.UnitLength.imad (a : Args) (m : Mods) : Laws.UnitLength.Statement (.imad a m) :=
  holds _
theorem Laws.UnitLength.ineg (a : Args) (m : Mods) : Laws.UnitLength.Statement (.ineg a m) :=
  holds _
theorem Laws.UnitLength.iabs (a : Args) (m : Mods) : Laws.UnitLength.Statement (.iabs a m) :=
  holds _
theorem Laws.UnitLength.imin (a : Args) (m : Mods) : Laws.UnitLength.Statement (.imin a m) :=
  holds _
theorem Laws.UnitLength.imax (a : Args) (m : Mods) : Laws.UnitLength.Statement (.imax a m) :=
  holds _
theorem Laws.UnitLength.div (a : Args) (m : Mods) : Laws.UnitLength.Statement (.div a m) :=
  holds _
theorem Laws.UnitLength.rem (a : Args) (m : Mods) : Laws.UnitLength.Statement (.rem a m) :=
  holds _
theorem Laws.UnitLength.icmp (a : Args) (m : Mods) : Laws.UnitLength.Statement (.icmp a m) :=
  holds _
theorem Laws.UnitLength.imulw (a : Args) (m : Mods) : Laws.UnitLength.Statement (.imulw a m) :=
  holds _
theorem Laws.UnitLength.iaddx (a : Args) (m : Mods) : Laws.UnitLength.Statement (.iaddx a m) :=
  holds _
theorem Laws.UnitLength.isubx (a : Args) (m : Mods) : Laws.UnitLength.Statement (.isubx a m) :=
  holds _
theorem Laws.UnitLength.isad (a : Args) (m : Mods) : Laws.UnitLength.Statement (.isad a m) :=
  holds _
theorem Laws.UnitLength.and (a : Args) (m : Mods) : Laws.UnitLength.Statement (.and a m) :=
  holds _
theorem Laws.UnitLength.or (a : Args) (m : Mods) : Laws.UnitLength.Statement (.or a m) :=
  holds _
theorem Laws.UnitLength.xor (a : Args) (m : Mods) : Laws.UnitLength.Statement (.xor a m) :=
  holds _
theorem Laws.UnitLength.not (a : Args) (m : Mods) : Laws.UnitLength.Statement (.not a m) :=
  holds _
theorem Laws.UnitLength.andn (a : Args) (m : Mods) : Laws.UnitLength.Statement (.andn a m) :=
  holds _
theorem Laws.UnitLength.shl (a : Args) (m : Mods) : Laws.UnitLength.Statement (.shl a m) :=
  holds _
theorem Laws.UnitLength.shr (a : Args) (m : Mods) : Laws.UnitLength.Statement (.shr a m) :=
  holds _
theorem Laws.UnitLength.sar (a : Args) (m : Mods) : Laws.UnitLength.Statement (.sar a m) :=
  holds _
theorem Laws.UnitLength.rotl (a : Args) (m : Mods) : Laws.UnitLength.Statement (.rotl a m) :=
  holds _
theorem Laws.UnitLength.bfx (a : Args) (m : Mods) : Laws.UnitLength.Statement (.bfx a m) :=
  holds _
theorem Laws.UnitLength.bfi (a : Args) (m : Mods) : Laws.UnitLength.Statement (.bfi a m) :=
  holds _
theorem Laws.UnitLength.popc (a : Args) (m : Mods) : Laws.UnitLength.Statement (.popc a m) :=
  holds _
theorem Laws.UnitLength.clz (a : Args) (m : Mods) : Laws.UnitLength.Statement (.clz a m) :=
  holds _
theorem Laws.UnitLength.ctz (a : Args) (m : Mods) : Laws.UnitLength.Statement (.ctz a m) :=
  holds _
theorem Laws.UnitLength.brev (a : Args) (m : Mods) : Laws.UnitLength.Statement (.brev a m) :=
  holds _
theorem Laws.UnitLength.lop3 (a : Args) (table : BitVec 8) (d : Bool) : Laws.UnitLength.Statement (.lop3 a table d) :=
  holds _
theorem Laws.UnitLength.fadd (a : Args) (m : Mods) : Laws.UnitLength.Statement (.fadd a m) :=
  holds _
theorem Laws.UnitLength.fsub (a : Args) (m : Mods) : Laws.UnitLength.Statement (.fsub a m) :=
  holds _
theorem Laws.UnitLength.fmul (a : Args) (m : Mods) : Laws.UnitLength.Statement (.fmul a m) :=
  holds _
theorem Laws.UnitLength.ffma (a : Args) (m : Mods) : Laws.UnitLength.Statement (.ffma a m) :=
  holds _
theorem Laws.UnitLength.fmin (a : Args) (m : Mods) : Laws.UnitLength.Statement (.fmin a m) :=
  holds _
theorem Laws.UnitLength.fmax (a : Args) (m : Mods) : Laws.UnitLength.Statement (.fmax a m) :=
  holds _
theorem Laws.UnitLength.fabs (a : Args) (m : Mods) : Laws.UnitLength.Statement (.fabs a m) :=
  holds _
theorem Laws.UnitLength.fneg (a : Args) (m : Mods) : Laws.UnitLength.Statement (.fneg a m) :=
  holds _
theorem Laws.UnitLength.fcmp (a : Args) (m : Mods) : Laws.UnitLength.Statement (.fcmp a m) :=
  holds _
theorem Laws.UnitLength.fclass (a : Args) (m : Mods) : Laws.UnitLength.Statement (.fclass a m) :=
  holds _
theorem Laws.UnitLength.fscale (a : Args) (m : Mods) : Laws.UnitLength.Statement (.fscale a m) :=
  holds _
theorem Laws.UnitLength.fround (a : Args) (m : Mods) : Laws.UnitLength.Statement (.fround a m) :=
  holds _
theorem Laws.UnitLength.frcp (a : Args) (m : Mods) : Laws.UnitLength.Statement (.frcp a m) :=
  holds _
theorem Laws.UnitLength.fsqrt (a : Args) (m : Mods) : Laws.UnitLength.Statement (.fsqrt a m) :=
  holds _
theorem Laws.UnitLength.frsqrt (a : Args) (m : Mods) : Laws.UnitLength.Statement (.frsqrt a m) :=
  holds _
theorem Laws.UnitLength.fexp2 (a : Args) (m : Mods) : Laws.UnitLength.Statement (.fexp2 a m) :=
  holds _
theorem Laws.UnitLength.flog2 (a : Args) (m : Mods) : Laws.UnitLength.Statement (.flog2 a m) :=
  holds _
theorem Laws.UnitLength.fsin (a : Args) (m : Mods) : Laws.UnitLength.Statement (.fsin a m) :=
  holds _
theorem Laws.UnitLength.fcos (a : Args) (m : Mods) : Laws.UnitLength.Statement (.fcos a m) :=
  holds _
theorem Laws.UnitLength.ftanh (a : Args) (m : Mods) : Laws.UnitLength.Statement (.ftanh a m) :=
  holds _
theorem Laws.UnitLength.fdp2 (a : Args) (m : Mods) : Laws.UnitLength.Statement (.fdp2 a m) :=
  holds _
theorem Laws.UnitLength.fdp4 (a : Args) (m : Mods) : Laws.UnitLength.Statement (.fdp4 a m) :=
  holds _
theorem Laws.UnitLength.idp4 (a : Args) (m : Mods) : Laws.UnitLength.Statement (.idp4 a m) :=
  holds _
theorem Laws.UnitLength.cvt (a : Args) (rm dt st : BitVec 3) : Laws.UnitLength.Statement (.cvt a rm dt st) :=
  holds _
theorem Laws.UnitLength.pack (a : Args) (rm : BitVec 3) (ov : Bool) (f : BitVec 4) (int : Bool) : Laws.UnitLength.Statement (.pack a rm ov f int) :=
  holds _
theorem Laws.UnitLength.unpack (a : Args) (f : BitVec 4) (int : Bool) : Laws.UnitLength.Statement (.unpack a f int) :=
  holds _
theorem Laws.UnitLength.cbdec (a : Args) (hi e4m3 : Bool) : Laws.UnitLength.Statement (.cbdec a hi e4m3) :=
  holds _
theorem Laws.UnitLength.rnd (a : Args) (f : Bool) : Laws.UnitLength.Statement (.rnd a f) :=
  holds _
theorem Laws.UnitLength.hadd2 (a : Args) (m : Mods) : Laws.UnitLength.Statement (.hadd2 a m) :=
  holds _
theorem Laws.UnitLength.hmul2 (a : Args) (m : Mods) : Laws.UnitLength.Statement (.hmul2 a m) :=
  holds _
theorem Laws.UnitLength.hfma2 (a : Args) (m : Mods) : Laws.UnitLength.Statement (.hfma2 a m) :=
  holds _
theorem Laws.UnitLength.hmax2 (a : Args) (m : Mods) : Laws.UnitLength.Statement (.hmax2 a m) :=
  holds _
theorem Laws.UnitLength.join (a : Args) (n : BitVec 3) : Laws.UnitLength.Statement (.join a n) :=
  holds _
theorem Laws.UnitLength.jset (a : Args) (op n p : BitVec 3) : Laws.UnitLength.Statement (.jset a op n p) :=
  holds _
theorem Laws.UnitLength.jget (a : Args) (n : BitVec 3) : Laws.UnitLength.Statement (.jget a n) :=
  holds _
theorem Laws.UnitLength.split (a : Args) (w : BitVec 3) : Laws.UnitLength.Statement (.split a w) :=
  holds _
theorem Laws.UnitLength.fuse (a : Args) : Laws.UnitLength.Statement (.fuse a) :=
  holds _
theorem Laws.UnitLength.elect (a : Args) (pd : BitVec 3) (wr : Bool) : Laws.UnitLength.Statement (.elect a pd wr) :=
  holds _
theorem Laws.UnitLength.vote (a : Args) (inv : Bool) (pd op p : BitVec 3) : Laws.UnitLength.Statement (.vote a inv pd op p) :=
  holds _
theorem Laws.UnitLength.perm (a : Args) (z d : Bool) : Laws.UnitLength.Statement (.perm a z d) :=
  holds _
theorem Laws.UnitLength.redx (a : Args) (m : RedMods) : Laws.UnitLength.Statement (.redx a m) :=
  holds _
theorem Laws.UnitLength.scan (a : Args) (m : RedMods) : Laws.UnitLength.Statement (.scan a m) :=
  holds _
theorem Laws.UnitLength.rvinit (a : Args) (n : BitVec 5) : Laws.UnitLength.Statement (.rvinit a n) :=
  holds _
theorem Laws.UnitLength.arrive (a : Args) (n : BitVec 5) : Laws.UnitLength.Statement (.arrive a n) :=
  holds _
theorem Laws.UnitLength.await (a : Args) (n : BitVec 5) : Laws.UnitLength.Statement (.await a n) :=
  holds _
theorem Laws.UnitLength.arrwait (a : Args) (n : BitVec 5) : Laws.UnitLength.Statement (.arrwait a n) :=
  holds _
theorem Laws.UnitLength.rgive (a : Args) (n : BitVec 5) : Laws.UnitLength.Statement (.rgive a n) :=
  holds _
theorem Laws.UnitLength.rtake (a : Args) (n : BitVec 5) : Laws.UnitLength.Statement (.rtake a n) :=
  holds _
theorem Laws.UnitLength.rtakeRole (a : Args) (r : BitVec 4) : Laws.UnitLength.Statement (.rtakeRole a r) :=
  holds _
theorem Laws.UnitLength.glaunch (a : Args) (d : Bool) : Laws.UnitLength.Statement (.glaunch a d) :=
  holds _
theorem Laws.UnitLength.tlaunch (a : Args) (scope : BitVec 3) : Laws.UnitLength.Statement (.tlaunch a scope) :=
  holds _
theorem Laws.UnitLength.rvget (a : Args) (f : BitVec 2) (n : BitVec 5) : Laws.UnitLength.Statement (.rvget a f n) :=
  holds _
theorem Laws.UnitLength.matchLanes (a : Args) (d : Bool) : Laws.UnitLength.Statement (.matchLanes a d) :=
  holds _
theorem Laws.UnitLength.actv (a : Args) (which : BitVec 2) : Laws.UnitLength.Statement (.actv a which) :=
  holds _
theorem Laws.UnitLength.ld (a : Args) (size : BitVec 3) (sx : Bool) (m : AddrMods) : Laws.UnitLength.Statement (.ld a size sx m) :=
  holds _
theorem Laws.UnitLength.st (a : Args) (size : BitVec 3) (m : AddrMods) : Laws.UnitLength.Statement (.st a size m) :=
  holds _
theorem Laws.UnitLength.stCr (a : Args) (size : BitVec 3) (m : AddrMods) : Laws.UnitLength.Statement (.stCr a size m) :=
  holds _
theorem Laws.UnitLength.atom (a : Args) (op : BitVec 4) (m : AddrMods) (d : Bool) : Laws.UnitLength.Statement (.atom a op m d) :=
  holds _
theorem Laws.UnitLength.cas (a : Args) (ps : BitVec 3) (m : AddrMods) (d : Bool) : Laws.UnitLength.Statement (.cas a ps m d) :=
  holds _
theorem Laws.UnitLength.casl (a : Args) (m : CaslMods) : Laws.UnitLength.Statement (.casl a m) :=
  holds _
theorem Laws.UnitLength.fence (a : Args) (scope order : BitVec 3) : Laws.UnitLength.Statement (.fence a scope order) :=
  holds _
theorem Laws.UnitLength.pref (a : Args) (l2 : Bool) (m : AddrMods) : Laws.UnitLength.Statement (.pref a l2 m) :=
  holds _
theorem Laws.UnitLength.inval (a : Args) : Laws.UnitLength.Statement (.inval a) :=
  holds _
theorem Laws.UnitLength.invalAll (a : Args) : Laws.UnitLength.Statement (.invalAll a) :=
  holds _
theorem Laws.UnitLength.crdecl (a : Args) (op : BitVec 2) (d : Bool) : Laws.UnitLength.Statement (.crdecl a op d) :=
  holds _
theorem Laws.UnitLength.crdrop (a : Args) : Laws.UnitLength.Statement (.crdrop a) :=
  holds _
theorem Laws.UnitLength.cbld (a : Args) (d : Bool) : Laws.UnitLength.Statement (.cbld a d) :=
  holds _
theorem Laws.UnitLength.stash (a : Args) : Laws.UnitLength.Statement (.stash a) :=
  holds _
theorem Laws.UnitLength.unstash (a : Args) : Laws.UnitLength.Statement (.unstash a) :=
  holds _
theorem Laws.UnitLength.waitm (a : Args) : Laws.UnitLength.Statement (.waitm a) :=
  holds _
theorem Laws.UnitLength.cx (a : Args) (x : CxExt) : Laws.UnitLength.Statement (.cx a x) :=
  holds _
theorem Laws.UnitLength.cxs (a : Args) (x : CxExt) : Laws.UnitLength.Statement (.cxs a x) :=
  holds _
theorem Laws.UnitLength.cxt (a : Args) (n : BitVec 5) (x : CxExt) : Laws.UnitLength.Statement (.cxt a n x) :=
  holds _
theorem Laws.UnitLength.accrd (a : Args) (d : Bool) : Laws.UnitLength.Statement (.accrd a d) :=
  holds _
theorem Laws.UnitLength.accwr (a : Args) (d : Bool) : Laws.UnitLength.Statement (.accwr a d) :=
  holds _
theorem Laws.UnitLength.accclr (a : Args) : Laws.UnitLength.Statement (.accclr a) :=
  holds _
theorem Laws.UnitLength.accpk (a : Args) (x : PkExt) : Laws.UnitLength.Statement (.accpk a x) :=
  holds _
theorem Laws.UnitLength.accmv (a : Args) : Laws.UnitLength.Statement (.accmv a) :=
  holds _
theorem Laws.UnitLength.accup (a : Args) (x : PkExt) : Laws.UnitLength.Statement (.accup a x) :=
  holds _
theorem Laws.UnitLength.bcopy (a : Args) (m : CopyMods) : Laws.UnitLength.Statement (.bcopy a m) :=
  holds _
theorem Laws.UnitLength.sdef (a : Args) (m : SdefMods) : Laws.UnitLength.Statement (.sdef a m) :=
  holds _
theorem Laws.UnitLength.sfree (a : Args) (q : BitVec 3) : Laws.UnitLength.Statement (.sfree a q) :=
  holds _
theorem Laws.UnitLength.sstat (a : Args) (q : BitVec 3) : Laws.UnitLength.Statement (.sstat a q) :=
  holds _
theorem Laws.UnitLength.mdef (a : Args) (m : MdefMods) : Laws.UnitLength.Statement (.mdef a m) :=
  holds _
theorem Laws.UnitLength.mnext (a : Args) (thr : Bool) : Laws.UnitLength.Statement (.mnext a thr) :=
  holds _
theorem Laws.UnitLength.mfree (a : Args) : Laws.UnitLength.Statement (.mfree a) :=
  holds _
theorem Laws.UnitLength.qlen (a : Args) (q : BitVec 3) : Laws.UnitLength.Statement (.qlen a q) :=
  holds _
theorem Laws.UnitLength.mstat (a : Args) : Laws.UnitLength.Statement (.mstat a) :=
  holds _
theorem Laws.UnitLength.sleepExpire (uid train : Nat) : Laws.UnitLength.Statement (.sleepExpire uid train) :=
  holds _
theorem Laws.UnitLength.tlaunchHoldExpire (uid train : Nat) : Laws.UnitLength.Statement (.tlaunchHoldExpire uid train) :=
  holds _
theorem Laws.UnitLength.contractionComplete (uid job : Nat) : Laws.UnitLength.Statement (.contractionComplete uid job) :=
  holds _
theorem Laws.UnitLength.copyChunkDone (uid copy chunk : Nat) : Laws.UnitLength.Statement (.copyChunkDone uid copy chunk) :=
  holds _
theorem Laws.UnitLength.streamFetch (uid train q : Nat) : Laws.UnitLength.Statement (.streamFetch uid train q) :=
  holds _
theorem Laws.UnitLength.longLatencyFill (uid train prod : Nat) : Laws.UnitLength.Statement (.longLatencyFill uid train prod) :=
  holds _
theorem Laws.UnitLength.runSlot (core pipe : Nat) : Laws.UnitLength.Statement (.runSlot core pipe) :=
  holds _
theorem Laws.UnitLength.storePortPass (uid train : Nat) : Laws.UnitLength.Statement (.storePortPass uid train) :=
  holds _
theorem Laws.UnitLength.homeWrite (req : Nat) : Laws.UnitLength.Statement (.homeWrite req) :=
  holds _
theorem Laws.UnitLength.sharerUpdate (req core : Nat) : Laws.UnitLength.Statement (.sharerUpdate req core) :=
  holds _
theorem Laws.UnitLength.storeAck (req : Nat) : Laws.UnitLength.Statement (.storeAck req) :=
  holds _
theorem Laws.UnitLength.homeRead (uid train prod line : Nat) : Laws.UnitLength.Statement (.homeRead uid train prod line) :=
  holds _
theorem Laws.UnitLength.replicaDrop (line slice : Nat) : Laws.UnitLength.Statement (.replicaDrop line slice) :=
  holds _
theorem Laws.UnitLength.l1Evict (core line : Nat) : Laws.UnitLength.Statement (.l1Evict core line) :=
  holds _
theorem Laws.UnitLength.l2Evict (line : Nat) : Laws.UnitLength.Statement (.l2Evict line) :=
  holds _
theorem Laws.UnitLength.translationWalk (core ctx vpage : Nat) : Laws.UnitLength.Statement (.translationWalk core ctx vpage) :=
  holds _
theorem Laws.UnitLength.caslHome (req : Nat) : Laws.UnitLength.Statement (.caslHome req) :=
  holds _
theorem Laws.UnitLength.caslReserve (req : Nat) : Laws.UnitLength.Statement (.caslReserve req) :=
  holds _
theorem Laws.UnitLength.caslHoldExpire (req : Nat) : Laws.UnitLength.Statement (.caslHoldExpire req) :=
  holds _
theorem Laws.UnitLength.platformAccept (slice n : Nat) : Laws.UnitLength.Statement (.platformAccept slice n) :=
  holds _
theorem Laws.UnitLength.gatherWindowClose (core idx : Nat) : Laws.UnitLength.Statement (.gatherWindowClose core idx) :=
  holds _
theorem Laws.UnitLength.taskTrainPlace (core idx : Nat) : Laws.UnitLength.Statement (.taskTrainPlace core idx) :=
  holds _
theorem Laws.UnitLength.platformSteal (thief victim : Nat) : Laws.UnitLength.Statement (.platformSteal thief victim) :=
  holds _
theorem Laws.UnitLength.launchDoorbell (ctx queue : Nat) : Laws.UnitLength.Statement (.launchDoorbell ctx queue) :=
  holds _
theorem Laws.UnitLength.launchReady (launch : Nat) : Laws.UnitLength.Statement (.launchReady launch) :=
  holds _
theorem Laws.UnitLength.teamPlace (partition : Nat) : Laws.UnitLength.Statement (.teamPlace partition) :=
  holds _
theorem Laws.UnitLength.teamRetire (uid : Nat) : Laws.UnitLength.Statement (.teamRetire uid) :=
  holds _
theorem Laws.UnitLength.trapEntry (uid train : Nat) : Laws.UnitLength.Statement (.trapEntry uid train) :=
  holds _
theorem Laws.UnitLength.deferredTrap (uid train : Nat) : Laws.UnitLength.Statement (.deferredTrap uid train) :=
  holds _
theorem Laws.UnitLength.preemptRequest (core : Nat) : Laws.UnitLength.Statement (.preemptRequest core) :=
  holds _
theorem Laws.UnitLength.vacate (core : Nat) (uids : List Nat) : Laws.UnitLength.Statement (.vacate core uids) :=
  holds _
theorem Laws.UnitLength.teamRestore (uid core : Nat) : Laws.UnitLength.Statement (.teamRestore uid core) :=
  holds _
theorem Laws.UnitLength.arbiterPeriod (uncore : Nat) (full : List (Nat × Nat)) : Laws.UnitLength.Statement (.arbiterPeriod uncore full) :=
  holds _
theorem Laws.UnitLength.monitorSample (die : Nat) (x : Sample) (starts : List StartIn) : Laws.UnitLength.Statement (.monitorSample die x starts) :=
  holds _
theorem Laws.UnitLength.monitorClear (die off : Nat) : Laws.UnitLength.Statement (.monitorClear die off) :=
  holds _
theorem Laws.UnitLength.powerOnReset (starts : List StartIn) : Laws.UnitLength.Statement (.powerOnReset starts) :=
  holds _
theorem Laws.UnitLength.hostResetRequest (starts : List StartIn) : Laws.UnitLength.Statement (.hostResetRequest starts) :=
  holds _
theorem Laws.UnitLength.firmwareUp (windows : List (Nat × Nat)) (device : Nat) : Laws.UnitLength.Statement (.firmwareUp windows device) :=
  holds _
theorem Laws.UnitLength.bootTimeout (starts : List StartIn) : Laws.UnitLength.Statement (.bootTimeout starts) :=
  holds _
theorem Laws.UnitLength.budgetWrite (w : Nat) : Laws.UnitLength.Statement (.budgetWrite w) :=
  holds _
theorem Laws.UnitLength.pweightWrite (partition w : Nat) : Laws.UnitLength.Statement (.pweightWrite partition w) :=
  holds _
theorem Laws.UnitLength.registerWrite (pa size : Nat) (x : DWord) : Laws.UnitLength.Statement (.registerWrite pa size x) :=
  holds _
theorem Laws.UnitLength.createContext (ctx : Nat) : Laws.UnitLength.Statement (.createContext ctx) :=
  holds _
theorem Laws.UnitLength.destroyContext (ctx : Nat) : Laws.UnitLength.Statement (.destroyContext ctx) :=
  holds _
theorem Laws.UnitLength.invalidateTranslation (ctx : Nat) : Laws.UnitLength.Statement (.invalidateTranslation ctx) :=
  holds _
theorem Laws.UnitLength.checkpointPhase1 (ctx : Nat) : Laws.UnitLength.Statement (.checkpointPhase1 ctx) :=
  holds _
theorem Laws.UnitLength.checkpointPhase2 (ctx : Nat) : Laws.UnitLength.Statement (.checkpointPhase2 ctx) :=
  holds _
theorem Laws.UnitLength.restore (ctx : Nat) : Laws.UnitLength.Statement (.restore ctx) :=
  holds _
theorem Laws.UnitLength.resumeTrappedTrain (ctx : Nat) : Laws.UnitLength.Statement (.resumeTrappedTrain ctx) :=
  holds _
theorem Laws.UnitLength.endTeam (ctx : Nat) : Laws.UnitLength.Statement (.endTeam ctx) :=
  holds _
theorem Laws.UnitLength.commandComplete (ctx : Nat) : Laws.UnitLength.Statement (.commandComplete ctx) :=
  holds _
theorem Laws.UnitLength.flitReceive (port : Nat) (good : Bool) (items : List FlitItem) : Laws.UnitLength.Statement (.flitReceive port good items) :=
  holds _
theorem Laws.UnitLength.linkSilenceTimeout (port : Nat) : Laws.UnitLength.Statement (.linkSilenceTimeout port) :=
  holds _
theorem Laws.UnitLength.peerRequest (r : PeerIn) : Laws.UnitLength.Statement (.peerRequest r) :=
  holds _
theorem Laws.UnitLength.peerTimeout (tag : Nat) : Laws.UnitLength.Statement (.peerTimeout tag) :=
  holds _
theorem Laws.UnitLength.hostWrite (pa : Nat) (bytes : List Byte) : Laws.UnitLength.Statement (.hostWrite pa bytes) :=
  holds _
theorem Laws.UnitLength.hostRead (pa n : Nat) : Laws.UnitLength.Statement (.hostRead pa n) :=
  holds _
theorem Laws.UnitLength.accumulatorInstructionComplete (uid job : Nat) : Laws.UnitLength.Statement (.accumulatorInstructionComplete uid job) :=
  holds _
theorem Laws.UnitLength.crdeclCrdropDone (uid train : Nat) : Laws.UnitLength.Statement (.crdeclCrdropDone uid train) :=
  holds _
theorem Laws.UnitLength.stashTransferDone (uid train : Nat) : Laws.UnitLength.Statement (.stashTransferDone uid train) :=
  holds _
theorem Laws.UnitLength.modulePowerLoss : Laws.UnitLength.Statement (.modulePowerLoss) :=
  holds _
theorem Laws.UnitLength.memoryError (place : ErrPlace) (corrected : Bool) : Laws.UnitLength.Statement (.memoryError place corrected) :=
  holds _
theorem Laws.UnitLength.hostOwnershipRecall (line : Nat) (host : List (Nat × Byte)) : Laws.UnitLength.Statement (.hostOwnershipRecall line host) :=
  holds _
theorem Laws.UnitLength.notificationWindowEnd (ctx : Nat) : Laws.UnitLength.Statement (.notificationWindowEnd ctx) :=
  holds _

end Sys2Proof
end

