-- ==== Sys2Proof/Tests/Slice0.lean ====
section
/-!
SUPPORT. The tests: ill-formed instructions that `wellFormed` refuses, the manual's worked encodings, states
that meet the hypotheses of each statement, and small runs whose results are worked out from the rules.
-/
namespace Sys2Proof.Tests
open Sys2Proof Sys2Proof.Machine
set_option Elab.async false

/-! ## Small states -/

/-- A train of four lanes at 0x200000: v4 holds 10 + lane, v5 holds 3, k2 5, k3 0xFFFFFFFE, b1 0x100000,
and p1 is true in lanes 1 and 3. -/
def train4 : Train :=
  { newTrain 4 64 0 [0, 1, 2, 3] 0xF 0x200000 0 0 0 0 with
    v := [(256, 10), (257, 11), (258, 12), (259, 13), (320, 3), (321, 3), (322, 3), (323, 3)]
    k := [(2, 5), (3, 0xFFFFFFFE)]
    b := [(1, 0x100000), (2, 0x200040)]
    p := [(1, 0xA)] }

def team4 (t : Train) : Team :=
  { newTeam placeLaunch 0 0 0 0 0 with
    lanes := 4
    width := 4
    roles := [64, 32]
    pool := 64
    trains := [(0, t)] }

/-- A core that runs train 0 of team 0, its TLB mapping the first 8 GiB of context 0 as they stand. -/
def core4 : Core :=
  { coreInit with
    grant := 64
    tlb := [⟨0, 33, 0, 0, true, true, true⟩]
    pipes := [(0, ⟨some ⟨0, 0, 0, 0⟩, 0, 0, 0⟩)] }

def ctx4 : Ctx := { ctxInit with created := true }

def stateOf (m : Team) : State :=
  { State.reset with
    nextId := 10
    teams := [(0, m)]
    cores := [(0, core4)]
    ctxs := [(0, ctx4)]
    boot := { Boot.reset with mode := 1, stage := 6 } }

def state4 : State := stateOf (team4 train4)

/-- The state with its train changed. -/
def withTrain (f : Train → Train) : State := stateOf (team4 (f train4))

/-- The state with its team changed. -/
def withTeam (f : Team → Team) : State := stateOf (f (team4 train4))

/-- The instruction issues, at a place of which `p` holds. -/
def issuesWith (s : State) (i : Instr) (p : Args → Site → Bool) : Bool :=
  match argsOf i with
  | none => false
  | some a => (siteOf s i a).any fun x => decide (Issues i a s x) && p a x

def issuesIn (s : State) (i : Instr) : Bool := issuesWith s i fun _ _ => true

/-- The train after an instruction or a step, where it answers a next state. -/
def after (i : Instr) (s : State) : Option Train :=
  match exec i s with
  | .next t => trainOf t 0 0
  | _ => none

/-- The state after it. -/
def next (i : Instr) (s : State) : State :=
  match exec i s with
  | .next t => t
  | _ => s

def args (dst s1 s2 s3 : Opnd) : Args := bareArgs .f64 dst s1 s2 s3
def bare : Args := args .none .none .none .none
def mods (px py : BitVec 3) (s u d : Bool) : Mods := ⟨px, py, s, u, d⟩
/-! ## Every instruction issues somewhere -/

def dab : Args := args (vReg 9) (vReg 4) (vReg 5) .none
def da : Args := args (vReg 9) (vReg 4) .none .none
def dabc : Args := args (vReg 9) (vReg 4) (vReg 5) (.k 2)
def pab : Args := args .none (vReg 4) (vReg 5) .none

def someArith : List Instr :=
  [.iadd dab noMods, .isub dab noMods, .imul dab noMods, .imulh dab noMods, .imad dabc noMods,
   .ineg da noMods, .iabs da noMods, .imin dab noMods, .imax dab noMods, .div dab noMods,
   .rem dab noMods, .icmp pab noMods, .imulw (args (vReg 10) (vReg 4) (vReg 5) .none) noMods,
   .iaddx dab (mods 1 0 false false false), .isubx dab (mods 1 1 true false false), .isad dabc noMods,
   .and dab noMods, .or dab noMods, .xor dab noMods, .not da noMods, .andn dab noMods,
   .shl dab noMods, .shr dab noMods, .sar dab noMods, .rotl dab noMods, .bfx dab noMods,
   .bfi dabc noMods, .popc da noMods, .clz da noMods, .ctz da noMods, .brev da noMods,
   .lop3 dabc 0x96 false]

def someFloat : List Instr :=
  [.fadd dab noMods, .fsub dab noMods, .fmul dab noMods, .ffma dabc noMods, .fmin dab noMods,
   .fmax dab noMods, .fabs da noMods, .fneg da noMods, .fcmp pab noMods, .fclass da noMods,
   .fscale dab noMods, .fround da noMods, .frcp da noMods, .fsqrt da noMods, .frsqrt da noMods,
   .fexp2 da noMods, .flog2 da noMods, .fsin da noMods, .fcos da noMods, .ftanh da noMods,
   .fdp2 dabc noMods, .fdp4 dabc noMods, .idp4 dabc noMods, .cvt da 0 0 1, .pack dab 0 false 1 false,
   .unpack dab 1 false, .cbdec (args (vReg 10) (vReg 4) .none .none) false false,
   .rnd (args (vReg 9) (vReg 4) (.k 2) .none) false, .hadd2 dab noMods, .hmul2 dab noMods,
   .hfma2 dabc noMods, .hmax2 dab noMods]

def someMoves : List Instr :=
  [.mov da noMods, .li (bareArgs .f96i (vReg 9) (.imm 100000) .none .none) noMods,
   .bset (args (.b 3) (.k 2) (.imm 0) .none) noMods, .bget (args (vReg 10) (.b 1) .none .none),
   .bgetHi (args (vReg 9) (.b 1) .none .none), .badd (args (.b 3) (.b 1) (.imm 8) .none) noMods,
   .sel dab noMods, .pand bare ⟨2, 1, 7, false⟩, .por bare ⟨2, 1, 0, true⟩, .pxor bare ⟨2, 1, 1, false⟩,
   .pnot bare ⟨1, 1, 0, false⟩, .pget (args (vReg 9) .none .none .none),
   .pset (args .none (vReg 4) .none .none) 5, .lea (args (.b 3) (.b 1) (.k 2) .none) (mods 0 2 false false false),
   .bcmp (args .none (.b 1) (.b 2) .none) (mods 2 2 false false false),
   .rds (args (vReg 9) (.sreg 1) .none .none) false, .wrs (args (.sreg 15) (.k 2) .none .none) false]

def someControl : List Instr :=
  [.nop bare, .trap bare 7, .exit bare, .br { bare with guard := 1 } false 4,
   .bri (args .none (.b 1) (vReg 4) .none) false, .call (args (.b 3) .none .none .none) (-4),
   .calli (args (.b 3) (.b 2) .none .none), .ret (args .none (.b 2) .none .none), .rte bare, .rteNext bare,
   .yield { bare with stop := true }, .sleep (args .none (.imm 5) .none .none),
   .loop (args (.k 3) .none .none .none) false (-4), .join bare 2, .jset bare 3 0 0,
   .jget (args (vReg 10) .none .none .none) 1, .split (args (.k 4) .none .none .none) 0,
   .fuse (args (.k 4) .none .none .none), .elect bare 2 false,
   .vote bare false 2 0 1, .perm dab false false, .redx da ⟨false, 0, false, false, false⟩,
   .scan da ⟨true, 0, false, false, false⟩, .rvinit (args .none (.imm 2) (.imm 1) .none) 5, .arrive bare 5,
   .await bare 5, .arrwait bare 5, .rgive bare 1, .rtake bare 1, .rtakeRole bare 1,
   .glaunch (args (.k 4) (.b 1) (.imm 0) .none) false,
   .tlaunch (args (vReg 9) (.k 2) (.k 2) (.imm 3)) 0, .rvget (args (vReg 9) .none .none .none) 0 5,
   .matchLanes (args (vReg 10) (vReg 4) .none .none) false, .actv (args (vReg 10) .none .none .none) 1]

def loadArgs : Args := args (vReg 9) (.b 1) (.imm 0) .none
def storeArgs : Args := args .none (.b 1) (.imm 0) (vReg 4)

def someMemory : List Instr :=
  [.ld loadArgs 2 false ⟨0, false⟩, .st storeArgs 2 ⟨0, false⟩,
   .stCr { storeArgs with pre := some ⟨false, true, 0, 0, 0, 0⟩ } 2 ⟨0, false⟩,
   .atom (args (vReg 9) (.b 1) (.imm 0) (vReg 4)) 0 ⟨0, false⟩ false,
   .cas (args (vReg 9) (.b 1) (.imm 0) (vReg 4)) 2 ⟨0, false⟩ false,
   .casl (args (vReg 10) (.b 1) (.imm 0) (vReg 4)) ⟨5, false, 0, false, .none⟩, .fence bare 5 5,
   .pref (args .none (.b 1) (.imm 0) .none) false ⟨0, false⟩, .inval (args .none (.b 1) (.imm 0) .none),
   .invalAll bare, .crdecl (args (.k 4) (.b 1) (.k 2) .none) 0 false, .crdrop (args (.k 4) (.b 1) .none .none),
   .cbld (args .none (.b 1) (.imm 0) .none) false, .stash (args .none (.imm 0) (.k 2) .none),
   .unstash (args .none (.imm 0) (.k 2) .none), .waitm (args .none (.imm 0) (.imm 1) .none)]

def someUnits : List Instr :=
  [.cx (args .none (vReg 4) (vReg 5) (.k 4)) ⟨0, 0, 0, 0, 0, 0, 0, 0, 0⟩,
   .cxs (bareArgs .f128 .none .none .none (.k 4)) ⟨4, 4, 0, 0, 0, 0, 0, 3, 2⟩,
   .cxt (bareArgs .f128 .none .none .none (.k 4)) 3 ⟨4, 4, 0, 0, 0, 0, 0, 3, 2⟩,
   .accrd (args (vReg 9) (.k 0) (vReg 5) .none) false, .accwr (args .none (.k 0) (vReg 5) (vReg 4)) false,
   .accclr (args .none (.k 2) .none .none), .accpk (bareArgs .f128 .none .none .none (.k 4)) ⟨0, 0, 0, 0⟩,
   .accmv (args .none (.k 2) (.imm 0) .none), .accup (bareArgs .f128 .none .none .none (.k 4)) ⟨0, 0, 0, 0⟩,
   .bcopy (bareArgs .f128 .none (.b 1) (.k 2) (.k 3)) ⟨0, true, 3, 64, false, 4, 512, true, 3, 15, 0, 0, 0⟩,
   .sdef (bareArgs .f128 (.k 4) (.k 2) (.imm 1) (.k 3)) ⟨false, true, 0, 0, 1, 1, 0, 2⟩, .sfree bare 1,
   .sstat (args (vReg 10) .none .none .none) 1, .mdef (bareArgs .f128 (.k 4) (.imm 0) .none .none) ⟨1, false, false, 0, 0⟩,
   .mnext (args (.k 4) (.imm 1) .none .none) false, .mfree bare, .qlen (args (vReg 9) .none .none .none) 1,
   .mstat (args (vReg 10) .none .none .none)]

/-- A stream that holds two words. -/
def stream4 : Stream := ⟨true, false, 4, 4, 0x100000, 0, 0, 6, 1, 0, 2, 0, [7, 9], [], 0, 0, false, 0⟩

def streamState : State := withTrain fun t => { t with streams := [(1, stream4)] }

theorem witness_Issues_arith : someArith.all (issuesIn state4) = true := by decide
theorem witness_Issues_float : someFloat.all (issuesIn state4) = true := by decide
theorem witness_Issues_moves : someMoves.all (issuesIn state4) = true := by decide
theorem witness_Issues_control : someControl.all (issuesIn state4) = true := by decide
theorem witness_Issues_memory : someMemory.all (issuesIn state4) = true := by decide
theorem witness_Issues_units : someUnits.all (issuesIn state4) = true := by decide
theorem witness_Issues_movStream :
    issuesIn streamState (.movStream (args (vReg 9) (.q 1) .none .none) noMods) = true := by decide
/-! ## Words and the whole machine -/

/-- Ill-formed instructions, one for each check. -/
def illFormed : List Instr :=
  [.homeWrite 0,                                                     -- a step of the device
   .iadd (bareArgs .f128 (vReg 9) (vReg 4) (vReg 5) .none) noMods,   -- a form the opcode does not allow (R47)
   .iadd { dab with gneg := true } noMods,                           -- guard 7 negated (R35)
   .iadd (args (.b 3) (vReg 4) (vReg 5) .none) noMods,               -- an operand kind (R56)
   .iadd (args (vReg 9) (vReg 4) .none .none) noMods,                -- an operand left out
   .iadd (args (vReg 9) (vReg 4) (vReg 5) (.k 2)) noMods,            -- an operand too many
   .iadd (args (vReg 9) (vReg 4) (vReg 5) .none) (mods 0 0 false false true),   -- an odd pair (R14)
   .iadd (args (.v 9 true Turn.id) (vReg 4) (vReg 5) .none) noMods,  -- an empty bit on a destination (R33)
   .iadd (args (vReg 9) (.v 4 false ⟨1, 1⟩) (vReg 5) .none) noMods,  -- a pattern in F64 (R38)
   .iadd (bareArgs .f96t (vReg 9) (.v 4 false ⟨6, 0⟩) (vReg 5) .none) noMods,   -- a reserved pattern (R39)
   .iadd (args (vReg 9) (vReg 4) (.imm 100000) .none) noMods,        -- an immediate of 6 bits (R36)
   .iadd (bareArgs .f96i (vReg 9) (.imm 1) (.imm 2) .none) noMods,   -- two immediates in F96 (R38)
   .iadd { dab with pre := some ⟨false, false, 0, 0, 0, 0⟩ } noMods, -- a prefix on another class (R43)
   .iadd dab (mods 0 0 false true false),                            -- `.u` without `.sat` (R59)
   .icmp pab (mods 0 6 false false false),                           -- a reserved condition (R62)
   .yield bare,                                                      -- `yield` without its stop bit (R81)
   .ld loadArgs 5 false ⟨0, false⟩,                                  -- a reserved size (R272)
   .ld { loadArgs with pre := some ⟨false, false, 0, 0, 0, 6⟩ } 2 false ⟨0, false⟩,  -- a reserved order (R42)
   .st { storeArgs with pre := some ⟨false, false, 0, 0, 0, 2⟩ } 2 ⟨0, false⟩]       -- acquire on a store (R271)

theorem test_illFormed_refused : illFormed.all (fun i => wellFormed i == false) = true := by decide

theorem test_words_1 : (wordTable.take 10).all (fun e =>
    decodeUnit (bytesLE e.1 e.2.1) == some e.2.2 && encode e.2.2 == bytesLE e.1 e.2.1) = true := by decide
theorem test_words_2 : ((wordTable.drop 10).take 10).all (fun e =>
    decodeUnit (bytesLE e.1 e.2.1) == some e.2.2 && encode e.2.2 == bytesLE e.1 e.2.1) = true := by decide
theorem test_words_3 : (wordTable.drop 20).all (fun e =>
    decodeUnit (bytesLE e.1 e.2.1) == some e.2.2 && encode e.2.2 == bytesLE e.1 e.2.1) = true := by decide

/-- The all-zero word is a `nop` guarded by p0 (R48); 0x0E is no opcode (R47). -/
theorem test_words_edges : (decodeTableWord 64 0 ==
      some (.nop ⟨.f64, false, 0, false, .none, .none, .none, .none, none⟩)) = true ∧
    decodeTableWord 64 0x3870 = none ∧ decodeTableWord 64 (0x3800 + 2 ^ 15) = none := by decide

def roundTrips (i : Instr) : Bool :=
  wellFormed i && match decode (encode i ++ [1, 2]) with
    | .ok (j, rest) => j == i && rest == [1, 2]
    | .error _ => false

theorem witness_EncodeThenDecode_1 : (someArith ++ someMoves).all roundTrips = true := by decide
theorem witness_EncodeThenDecode_2 : (someFloat ++ someControl).all roundTrips = true := by decide
theorem witness_EncodeThenDecode_3 : (someMemory ++ someUnits).all roundTrips = true := by decide

def nopState : State := State.reset.withFetchWord 64 0x3800

/-- Nothing is on its way, and no copy writes global memory. -/
def calm (s : State) : Bool := s.net == [] && s.partials == []
def noOwner (s : State) : Bool := s.teams.all fun m => m.2.copies.all fun c => c.2.dir != 1

/-- The state with other bytes, or with its train 0 begun on its instruction's own run (R46). -/
def setMem (s : State) (m : Memory) : State := { s with mem := m }
def begins (s : State) : State := modTrain s 0 0 fun t => { t with
  siding := t.siding.map fun p => { p with resume := .begun } }

/-- The state with the tables of a placed program, for what the device translates itself. -/
def withTables (s : State) : State := { s with
  mem := nopState.mem
  ctxs := [(0, placeCtx ctx4)] }

/-- A placed word, as the fetch of its step leaves the state. -/
def fetching (w : Nat) : State :=
  touchFetch (beginIssue { State.reset.withFetchWord 64 w with agenda := [] } 0 0 4) 0 0 0x200000

theorem witness_StepRunsDecoded : nopState.agenda = [.issue 0 0] ∧
    (pipeOf (coreOf nopState 0) 0).run = some ⟨0, 0, 0, 0⟩ ∧ (teamOf nopState 0).isSome = true ∧
    (trainOf nopState 0 0).any (fun t => (t.siding[0]?).any (fun p => p.pc == 0x200000) &&
      passesOf t.width ≤ passesLeft nopState 0 0) = true ∧
    (coreOf nopState 0).halted = false ∧ (fetching 0x3800).errs = [] ∧ nopState.partials = [] ∧
    nopState.net = [] ∧
    (match fetchXlate (fetching 0x3800) 0 0 0x200000 with
      | .ok pa => (match decode (blockBytes (fetching 0x3800) pa) with
        | .ok (i, _) => i == .nop bare
        | .error _ => false)
      | .error _ => false) = true := by decide +kernel

theorem witness_StepRunsDecoded_illegal : (fetching 0x3870).errs = [] ∧
    (match fetchXlate (fetching 0x3870) 0 0 0x200000 with
      | .ok pa => (match decode (blockBytes (fetching 0x3870) pa) with
        | .ok _ => false
        | .error e => e == .unassigned)
      | .error _ => false) = true := by decide +kernel

/-- With no agenda the default schedule issues the run too. -/
theorem witness_StepRunsDecoded_default : ({ nopState with agenda := [] } : State).agenda = [] ∧
    defaultAction { nopState with agenda := [] } = .issue 0 0 ∧
    (∀ e ∈ nopState.teams, e.2.claims = []) := by decide +kernel

/-- The placed word runs as the first step after reset. -/
theorem test_step_nop : (match step nopState with
    | .next t => (trainOf t 0 0).any fun t => (t.siding[0]?).any fun p => p.pc == 0x200008
    | _ => false) = true := by decide

theorem witness_StepRunsDecoded_event :
    ({ State.reset with agenda := [.ev (.powerOnReset [])] } : State).agenda = .ev (.powerOnReset []) :: [] ∧
    argsOf (.powerOnReset []) = none := by decide

theorem witness_MemoryFormKept : Machine.Inv state4 ∧ (match step { state4 with agenda := [.tick 1] } with
    | .next t => t.now == 1
    | _ => false) = true := by decide

/-! ## Arithmetic -/

theorem witness_IntegerArithmetic :
    (exactInt (.iadd dab noMods)).any (fun r => r.1 == dab && r.2.1 == (32, false)) = true ∧
    issuesIn state4 (.iadd dab noMods) = true := by decide
/-- 0x7FFFFFFF + 1 held to the range, with SAT; a source that is the destination. -/
theorem test_iadd_sat : (after (.iadd (args (.k 2) (.k 2) (.imm 1) .none) (mods 0 0 true false false))
    (withTrain fun t => { t with k := [(2, 0x7FFFFFFF)] })).any
    (fun t => kGet t 2 == 0x7FFFFFFF && t.flags == fSat) = true := by decide
theorem test_iadd_wraps : (after (.iadd (args (.k 2) (.k 2) (.imm 1) .none) noMods)
    (withTrain fun t => { t with k := [(2, 0xFFFFFFFF)] })).any
    (fun t => kGet t 2 == 0 && t.flags == 0) = true := by decide
theorem test_isub : (after (.isub dab noMods) state4).any (fun t => vGet t 9 0 == 7 && vGet t 9 3 == 10)
    = true := by decide
theorem test_imul_d : (after (.imul (args (vReg 10) (.k 2) (.k 2) .none) (mods 0 0 false false true))
    (withTrain fun t => { t with k := [(2, 0x80000000), (3, 1)] })).any
    (fun t => vGet t 10 2 == 0 && vGet t 11 2 == 0x40000000) = true := by decide
theorem test_imulh : (after (.imulh (args (vReg 9) (.k 3) (.k 3) .none) (mods 0 0 false true false))
    state4).any (fun t => vGet t 9 1 == 0xFFFFFFFC) = true := by decide
/-- R59: `iabs` of −2³¹. -/
theorem test_iabs : (after (.iabs (args (.k 2) (.k 2) .none .none) noMods)
    (withTrain fun t => { t with k := [(2, 0x80000000)] })).any (fun t => kGet t 2 == 0x80000000)
    = true := by decide
theorem test_ineg_sat : (after (.ineg (args (.k 2) (.k 2) .none .none) (mods 0 0 true false false))
    (withTrain fun t => { t with k := [(2, 0x80000000)] })).any
    (fun t => kGet t 2 == 0x7FFFFFFF && t.flags == fSat) = true := by decide
theorem test_imulw : (after (.imulw (args (vReg 10) (.imm (-1)) (.k 2) .none) noMods) state4).any
    (fun t => vGet t 10 0 == 0xFFFFFFFB && vGet t 11 0 == 0xFFFFFFFF) = true := by decide
theorem test_isad : (after (.isad (args (vReg 9) (vReg 5) (vReg 4) (.k 2)) noMods) state4).any
    (fun t => vGet t 9 3 == 15) = true := by decide

theorem witness_BitwiseResults : (bitRule (.shl dab noMods)).any (fun r => r.1 == dab && r.2.1 == 32) = true ∧
    issuesIn state4 (.shl dab noMods) = true := by decide
theorem witness_BitCounts : (countRule (.clz da noMods)).any (fun r => r.1 == da && r.2.1 == 32) = true ∧
    issuesIn state4 (.clz da noMods) = true := by decide
/-- R64: a count of −1 is 255. -/
theorem test_shl_255 : (after (.shl (args (vReg 9) (vReg 4) (.imm (-1)) .none) noMods) state4).any
    (fun t => vGet t 9 0 == 0) = true := by decide
theorem test_sar : (after (.sar (args (vReg 9) (.k 3) (.imm 31) .none) noMods) state4).any
    (fun t => vGet t 9 0 == 0xFFFFFFFF) = true := by decide
theorem test_rotl : (after (.rotl (args (vReg 9) (.k 3) (.imm 4) .none) noMods) state4).any
    (fun t => vGet t 9 0 == 0xFFFFFFEF) = true := by decide
/-- R65: an 8-bit field from bit 0 of 0xFFFFFFFE, sign-extended. -/
theorem test_bfx : (after (.bfx (args (vReg 9) (.k 3) (.k 2) .none) noMods)
    (withTrain fun t => { t with k := [(2, 0x0800), (3, 0x0000008E)] })).any
    (fun t => vGet t 9 0 == 0xFFFFFF8E) = true := by decide
theorem test_bfi : (after (.bfi (args (vReg 9) (.imm 0) (.imm (-1)) (.k 2)) noMods)
    (withTrain fun t => { t with k := [(2, 0x0408)] })).any (fun t => vGet t 9 0 == 0xF00) = true := by decide
/-- R66: table 0xE8 gives the majority. -/
theorem test_lop3 : (after (.lop3 (args (vReg 9) (.imm 12) (.imm 10) (.imm 6)) 0xE8 false) state4).any
    (fun t => vGet t 9 0 == 14) = true := by decide
theorem test_clz_zero : (after (.clz (args (vReg 9) (.k 8) .none .none) (mods 0 0 false false true))
    state4).any (fun t => vGet t 9 0 == 64) = true := by decide
theorem test_popc : (after (.popc (args (vReg 9) (.k 3) .none .none) noMods) state4).any
    (fun t => vGet t 9 0 == 31) = true := by decide
theorem test_brev : (after (.brev (args (vReg 9) (.k 2) .none .none) noMods) state4).any
    (fun t => vGet t 9 0 == 0xA0000000) = true := by decide

theorem witness_CarryChain : issuesIn state4 (.iaddx dab (mods 1 0 false false false)) = true ∧
    issuesIn state4 (.isubx dab (mods 1 1 true false false)) = true := by decide
/-- A carry out of 0xFFFFFFFE + 5, and with carry in (p1 is true in lane 1). -/
theorem test_iaddx : (after (.iaddx (args (vReg 9) (.k 3) (.k 2) .none) (mods 2 1 true false false))
    state4).any (fun t => vGet t 9 0 == 3 && vGet t 9 1 == 4 && pGet t 2 0 && pGet t 2 1) = true := by decide
theorem test_isubx : (after (.isubx (args (vReg 9) (.imm 0) (.imm 0) .none) (mods 2 1 true false false))
    state4).any (fun t => vGet t 9 1 == 0xFFFFFFFF && pGet t 2 1 && !pGet t 2 0) = true := by decide

theorem witness_PredicateResults :
    (siteOf state4 (.icmp pab noMods) pab).any (fun x => (predRule x (.icmp pab noMods)).any fun r =>
      r.1 == pab && r.2.1 == 0) = true ∧ issuesIn state4 (.icmp pab noMods) = true ∧
    issuesIn state4 (.vote bare false 2 0 1) = true := by decide
theorem test_icmp : (after (.icmp (args .none (vReg 4) (.imm 11) .none) (mods 2 3 false false false))
    state4).any (fun t => pGet t 2 0 && pGet t 2 1 && !pGet t 2 2) = true := by decide
theorem test_pand : (after (.pand bare ⟨2, 7, 1, true⟩) state4).any
    (fun t => pGet t 2 0 && !pGet t 2 1 && pGet t 2 2) = true := by decide
theorem test_vote_all : (after (.vote bare false 2 1 1) state4).any (fun t => !pGet t 2 1) = true := by decide

/-! ## Floats -/

theorem witness_FloatArithmetic : (fp32Rule train4 (.fadd dab noMods)).any (·.1 == dab) = true ∧
    issuesIn state4 (.fadd dab noMods) = true := by decide
/-- The edge results of 06: −0 from 1 − 1 towards −∞; the largest of a signalling NaN and 3. -/
theorem test_fadd_rm : (after (.fadd (args (.k 2) (.k 2) (.k 3) .none) (mods 0 3 false false false))
    (withTrain fun t => { t with k := [(2, 0x3F800000), (3, 0xBF800000)] })).any
    (fun t => kGet t 2 == 0x80000000 && t.flags == 0) = true := by decide
theorem test_fmul_invalid : (after (.fmul (args (.k 2) (.k 2) (.k 3) .none) noMods)
    (withTrain fun t => { t with k := [(2, 0x80000000), (3, 0x7F800000)] })).any
    (fun t => kGet t 2 == 0x7FC00000 && t.flags == fInvalid) = true := by decide
theorem test_fmax_snan : (after (.fmax (args (.k 2) (.k 2) (.k 3) .none) noMods)
    (withTrain fun t => { t with k := [(2, 0x7F800001), (3, 0x40400000)] })).any
    (fun t => kGet t 2 == 0x40400000 && t.flags == fInvalid) = true := by decide
/-- 2⁶⁴ × 2⁶⁴ − ∞ is −∞, without a flag. -/
theorem test_ffma_inf : (after (.ffma (args (.k 2) (.k 2) (.k 2) (.k 3)) noMods)
    (withTrain fun t => { t with k := [(2, 0x5F800000), (3, 0xFF800000)] })).any
    (fun t => kGet t 2 == 0xFF800000 && t.flags == 0) = true := by decide
theorem test_fclass : (after (.fclass (args (.k 2) (.k 3) .none .none) noMods)
    (withTrain fun t => { t with k := [(3, 0x80000001)] })).any (fun t => kGet t 2 == 4) = true := by decide
theorem witness_PackedArithmetic : (packedRule train4 (.idp4 dabc noMods)).any (·.1 == dabc) = true ∧
    issuesIn state4 (.idp4 dabc noMods) = true := by decide
theorem test_idp4 : (after (.idp4 (args (.k 4) (.k 2) (.k 3) (.imm 1)) noMods)
    (withTrain fun t => { t with k := [(2, 0x01FF0203), (3, 0x01010102)] })).any
    (fun t => kGet t 4 == 9) = true := by decide
theorem witness_Conversions : (convertRule train4 (.cvt da 0 0 1)).any (·.1 == da) = true ∧
    issuesIn state4 (.cvt da 0 0 1) = true := by decide
theorem test_cvt : (after (.cvt (args (.k 4) (.k 2) .none .none) 0 0 1) state4).any
    (fun t => kGet t 4 == 0x40A00000) = true := by decide
theorem witness_FloatFormats : 0 ≤ 5 ∧ (0x3F800000 : Nat) < 2 ^ elemBits 0 ∧
    isNan (decodeFloat 0 0x3F800000) = false ∧ 0xF < 2 ^ elemBits 5 ∧
    isNan (decodeFloat 5 0) = false := by decide
/-- 1 + 2 = 3 and 2 · 3 = 6, exactly; 5/2 lies within the range of a rounding to an integer. -/
theorem witness_FloatFormats_values : (∀ y ∈ [Num.fin false 1 0, Num.fin false 1 1], finite y = true) ∧
    finite (.fin false 3 0) = true ∧ valueOf (.fin false 3 0) ≠ 0 ∧
    valueOf (.fin false 3 0) = ([Num.fin false 1 0, Num.fin false 1 1].map valueOf).sum ∧
    valueOf (.fin false 6 0) = valueOf (.fin false 1 1) * valueOf (.fin false 3 0) ∧
    (toInt (-2 ^ 31) (2 ^ 31 - 1) 0 0 (.fin false 5 (-1))).2.getLsbD 0 = false := by
  refine ⟨by decide, by decide, ?_, ?_, ?_, by decide⟩ <;> norm_num [valueOf]
/-- A signalling and a quiet NaN; 1 lies below 2, in FP32 and in E2M1. -/
theorem witness_FloatFormats_order : isNan (decodeFloat 0 0x7F800001) = true ∧
    isNan (decodeFloat 0 0x7FC00000) = true ∧ isNan (decodeFloat 0 0x3F800000) = false ∧
    decodeFloat 0 0x3F800000 = .fin false 8388608 (-23) ∧ decodeFloat 0 0x40000000 = .fin false 8388608 (-22) ∧
    below (.fin false 8388608 (-23)) (.fin false 8388608 (-22)) ∧
    below (decodeFloat 5 2) (decodeFloat 5 4) := by
  refine ⟨by decide, by decide, by decide, by decide, by decide, ?_, ?_⟩
  · norm_num [below, valueOf]
  · have h : decodeFloat 5 2 = .fin false 2 (-1) ∧ decodeFloat 5 4 = .fin false 2 0 := by decide
    rw [h.1, h.2]
    norm_num [below, valueOf]
/-- 2.5 goes to the even 2; 3.5 to 4 (R94). -/
theorem test_roundEven : (toInt (-8) 7 0 0 (.fin false 5 (-1))).1 = 2 ∧
  (toInt (-8) 7 0 0 (.fin false 7 (-1))).1 = 4 := by
  decide
theorem witness_FloatCompare : issuesIn state4 (.fcmp pab noMods) = true := by decide
theorem witness_LaterProducers : (laterRule (.div dab noMods)).any (fun r => r.1 == dab && r.2.1 == 1) = true ∧
    issuesIn state4 (.div dab noMods) = true ∧ issuesIn state4 (.frcp da noMods) = true := by decide
/-- `div` by zero: its fill gives all ones and the divide-by-zero flag (R61). -/
theorem test_div_zero : (after (.longLatencyFill 0 0 10)
    (next (.div (args (vReg 9) (vReg 4) (.imm 0) .none) noMods) state4)).any
    (fun t => vGet t 9 0 == 0xFFFFFFFF && t.flags == fDivzero && t.empty == [] && t.prods == []) = true := by
  decide
def fillProd : Producer :=
  ⟨0, 0x200000, .alu, .v 9 1, 1, 0, 0, 0, false, [], [], 0, 0, [], false, 0⟩
def fillState : State := next (.div dab noMods) state4
theorem witness_ProducerFill : (teamOf fillState 0).isSome = true ∧
    (trainOf fillState 0 0).any (fun t => (mapGet t.prods 10).any fun p =>
      p.bad == [] && p.parts == [] && p.kind == .alu) = true := by decide
/-- A load's part on the scratchpad, and accumulator parts of a load and of `accrd`, not yet read. -/
def unreadProd (k : ProdKind) (pl : Place) : Producer :=
  { fillProd with kind := k, parts := [⟨0, 0, 8, pl, [8, 9], true, none, 0⟩] }
def unread (k : ProdKind) (pl : Place) : State := withTrain fun t => { t with
  prods := [(10, unreadProd k pl)]
  empty := [9] }
theorem witness_ProducerFill_unread :
    ([(.load 4 false, .scr 0), (.load 2 true, .acc 0), (.acc 4, .acc 0)] : List (ProdKind × Place)).all (fun e =>
      (trainOf (unread e.1 e.2) 0 0).any (fun t => (mapGet t.prods 10).any (fun p => p.bad == [] &&
        p.kind == e.1 && p.parts.all fun q => q.bad == 0 && q.place == e.2) &&
        loadTurn (unread e.1 e.2) 0 0 t 0 && t.sq == []) &&
      (unread e.1 e.2).net == [] && (unread e.1 e.2).errs == [] &&
      (teamOf (unread e.1 e.2) 0).any fun m => m.jobs == []) = true := by decide
/-- Two bytes of accumulator space, sign-extended (R272). -/
theorem test_fill_acc : (trainOf (next (.longLatencyFill 0 0 10) (stateOf { team4 { train4 with
    prods := [(10, unreadProd (.load 2 true) (.acc 0))]
    empty := [9] } with acc := [(2, 0x8000)] })) 0 0).any (fun t => vGet t 9 0 == 0xFFFF8000 &&
      t.empty == []) = true := by
  decide
theorem witness_ProducerFill_load :
    (trainOf (next (.homeRead 0 0 10 0x2000) (next (.ld loadArgs 2 false ⟨0, false⟩) state4)) 0 0).any
      (fun t => (mapGet t.prods 10).any fun p => p.bad == [] && p.kind == .load 4 false &&
        p.parts.all fun q => q.bad == 0 && q.got.isSome) = true := by decide

/-! ## Moves, lanes, special registers -/

theorem witness_Moves : (moveRule train4 (.mov da noMods)).any (fun r => r.1 == da && r.2.1 == 1) = true ∧
    issuesIn state4 (.mov da noMods) = true ∧
    issuesIn state4 (.pset (args .none (vReg 4) .none .none) 5) = true := by decide
theorem test_lea : (after (.lea (args (.b 3) (.b 1) (.k 3) .none) (mods 0 3 false false false)) state4).any
    (fun t => bGet t 3 == 0xFFFF0) = true := by decide
theorem test_pset : (after (.pset (args .none (vReg 4) .none .none) 5) state4).any
    (fun t => !pGet t 0 0 && pGet t 0 1 && !pGet t 2 0 && pGet t 1 1) = true := by decide
theorem test_sel : (after (.sel (args (vReg 10) (.imm 1) (.imm 0) .none) (mods 0 1 false false false))
    state4).any (fun t => vGet t 10 0 == 0 && vGet t 10 1 == 1) = true := by decide
theorem witness_LaneMaskReads : issuesIn state4 (.jget (args (vReg 10) .none .none .none) 1) = true ∧
    issuesWith state4 (.actv (args (vReg 10) .none .none .none) 1)
      (fun _ x => x.split.mask &&& ~~~x.train.active == 0) = true := by decide
/-- The reads across lanes; no table is being loaded. -/
def someReads : List Instr := [.perm dab false false, .redx da ⟨false, 0, false, false, false⟩,
  .scan da ⟨true, 0, false, false, false⟩, .rvget (args (vReg 9) .none .none .none) 0 5,
  .matchLanes (args (vReg 10) (vReg 4) .none .none) false, .cbdec (args (vReg 10) (vReg 4) .none .none) false false,
  .jget (args (vReg 10) .none .none .none) 1, .actv (args (vReg 10) .none .none .none) 1,
  .vote (args (.k 4) .none .none .none) true 0 3 1]
theorem witness_LaneReads : someReads.all (fun i => issuesWith state4 i fun a x =>
      (laneRule state4 x i).any (·.1 == a) && (ctxOf state4 x.team.ctx).loading == []) = true := by decide
/-- The example of R121. -/
theorem test_cbdec : (after (.cbdec (args (vReg 10) (vReg 4) .none .none) false false)
    { withTrain (fun t => { t with v := [(256, 0x2A5B)] }) with ctxs := [(0, { ctx4 with codebook := [(42, 0xF51870E3)] })] }).any
    (fun t => (vGet t 10 0, vGet t 11 0) == (0xF1FFFDF9, 0xFF0BFDF1)) = true := by decide +kernel
theorem test_perm : (after (.perm dab false false) state4).any (fun t => vGet t 9 0 == 13) = true := by decide
theorem test_scan_excl : (after (.scan da ⟨true, 0, false, false, false⟩) state4).any
    (fun t => vGet t 9 0 == 0 && vGet t 9 3 == 33) = true := by decide
theorem test_redx : (after (.redx da ⟨false, 0, false, false, false⟩) state4).any
    (fun t => vGet t 9 0 == 46) = true := by decide
theorem test_matchLanes : (after (.matchLanes (args (vReg 10) (vReg 5) .none .none) false) state4).any
    (fun t => vGet t 10 2 == 15 && vGet t 11 2 == 0) = true := by decide
theorem test_vote_ballot : (after (.vote (args (.k 4) .none .none .none) true 0 3 1) state4).any
    (fun t => kGet t 4 == 5 && kGet t 5 == 0) = true := by decide
theorem witness_ElectsLowest : issuesIn state4 (.elect bare 2 false) = true := by decide
theorem test_elect : (after (.elect { args (.k 4) .none .none .none with guard := 1 } 2 true) state4).any
    (fun t => kGet t 4 == 1 && pGet t 2 1 && !pGet t 2 3) = true := by decide
theorem witness_SpecialRegisterRead : issuesIn state4 (.rds (args (vReg 9) (.sreg 1) .none .none) false) = true ∧
    issuesWith state4 (.rds (args (vReg 9) (.sreg 10) .none .none) false)
      (fun _ x => flagsReady x.team x.tn x.train) = true := by decide
theorem test_rds_home : (after (.rds (args (vReg 9) (.sreg 1) .none .none) false) state4).any
    (fun t => vGet t 9 3 == 3) = true := by decide
theorem witness_SpecialRegisterWrite :
    issuesWith state4 (.wrs (args (.sreg 11) (.imm 5) .none .none) false)
      (fun _ x => memctlLegal (srcNat x.train (.imm 5) 1 (headLane x.lanes))) = true ∧
    issuesWith state4 (.wrs (args (.sreg 10) (.k 2) .none .none) false)
      (fun _ x => flagsReady x.team x.tn x.train) = true ∧
    issuesWith state4 (.wrs (args (.sreg 11) (.imm 6) .none .none) false)
      (fun _ x => !memctlLegal (srcNat x.train (.imm 6) 1 (headLane x.lanes))) = true := by decide
theorem test_wrs : (after (.wrs (args (.sreg 15) (.k 2) .none .none) false) state4).any
    (fun t => t.trap == 5) = true := by decide
/-! ## Control flow -/

/-- The pc and the lanes of each split. -/
def splits (t : Train) : List (Addr × LaneMask) := t.siding.map fun p => (p.pc, p.mask)

theorem witness_Branches :
    issuesWith state4 (.br { bare with guard := 1 } false 4) (fun a x =>
      (branchRule x (.br a false 4)).any (fun r => r.1 == a) && x.train.siding.length < 16) = true ∧
    issuesWith state4 (.call (args (.b 3) .none .none .none) (-4)) (fun a x =>
      (branchRule x (.call a (-4))).any (fun r => r.1 == a)) = true ∧
    issuesWith state4 (.loop (args (.k 3) .none .none .none) false (-4))
      (fun a x => a.dst == .k 3 && x.train.siding.length < 16) = true ∧
    issuesWith state4 (.bri (args .none (.b 1) (vReg 4) .none) false)
      (fun _ x => x.train.siding.length + x.lanes.length ≤ 17) = true := by decide
/-- Without `.tk` the fall-through side runs first (R141). -/
theorem test_br : (after (.br { bare with guard := 1 } false 4) state4).any
    (fun t => splits t == [(0x200008, 5), (0x200010, 10)]) = true := by decide
theorem test_loop_wraps : (after (.loop (args (.k 7) .none .none .none) false (-4)) state4).any
    (fun t => kGet t 7 == 0xFFFFFFFF && splits t == [(0x1FFFF0, 15)]) = true := by decide
theorem test_call : (after (.call (args (.b 3) .none .none .none) (-4)) state4).any
    (fun t => bGet t 3 == 0x200008 && splits t == [(0x1FFFF0, 15)]) = true := by decide
/-- R76: one split per target, in the order of their lowest lanes. -/
theorem test_bri : (after (.bri (args .none (.b 1) (vReg 4) .none) false) state4).any
    (fun t => splits t == [(0x100008, 3), (0x10000C, 12)]) = true := by decide

/-- Sixteen splits, of which the first has two lanes. -/
def fullWith (f : Train → Train) (p : Split) : State := withTrain fun t =>
  { f t with siding := readySplit 0x200000 3 :: List.replicate 15 p }
def fullSiding : State := fullWith id (readySplit 0x200040 0)

theorem witness_Branches_waits :
    issuesWith fullSiding (.br { bare with guard := 1 } false 4) (fun a x =>
      (branchRule x (.br a false 4)).any (fun r => r.1 == a) && x.train.siding.length == 16 &&
      x.split.mask &&& ~~~maskOf x.lanes != 0 &&
      (x.train.siding[1]?).any (fun p => p.st == .ready)) = true ∧
    issuesWith (fullWith (fun t => { t with k := [(3, 2)] }) (readySplit 0x200040 0))
      (.loop { args (.k 3) .none .none .none with guard := 1 } false (-4)) (fun _ x =>
        x.train.siding.length == 16 && kGet x.train 3 - 1 != 0 && x.split.mask &&& ~~~maskOf x.lanes != 0) = true ∧
    issuesWith (withTrain fun t => { t with
      siding := readySplit 0x200000 6 :: List.replicate 15 (readySplit 0x200040 0) })
      (.bri (args .none (.b 1) (vReg 4) .none) false) (fun _ x => 16 - x.train.siding.length == 0 &&
        x.lanes == [1, 2] && x.split.mask &&& ~~~maskOf x.lanes == 0) = true := by decide
/-- No split can go on once the branch waits: the others wait at a join. -/
theorem witness_Branches_deadlock : issuesWith (fullWith id ⟨0x200040, 0, .atJoin 2, false, .none, false⟩)
    (.br { bare with guard := 1 } false 4) (fun _ x => x.train.pend == none && !x.train.trapped &&
      (sidingWith x [{ x.split with st := .waiting (.siding 1) }]).all fun p =>
        p.st == .atJoin 2 || p.st == .waiting (.siding 1)) = true := by decide
/-- JOIN_DEADLOCK (R145): the branch waits for an entry, and no split can go on. -/
theorem test_branch_deadlock : (after (.br { bare with guard := 1 } false 4)
    (withTables (fullWith id ⟨0x200040, 0, .atJoin 2, false, .none, false⟩))).any (fun t => t.trap == 11) = true := by
  decide +kernel

theorem witness_NopChangesNothing : issuesIn state4 (.nop bare) = true ∧
    (match decodeRaw (rawOf 0x3800 0 none) with
      | .ok i => i == .nop bare
      | .error _ => false) = true := by decide

def sleepArgs : Args := args .none (.imm 5) .none .none
def sleeping (st : SplitSt) (r : Resume) : State :=
  withTrain fun t => { t with siding := [⟨0x200000, 15, st, false, r, false⟩] }
theorem witness_YieldAndSleep : issuesIn state4 (.yield { bare with stop := true }) = true ∧
    issuesWith state4 (.sleep sleepArgs) (fun _ x => x.split.resume != .slept) = true ∧
    (trainOf (sleeping (.waiting (.sleep 5)) .none) 0 0).any (fun t =>
      (t.siding[0]?).any fun p => p.st == .waiting (.sleep 5)) = true ∧
    issuesWith (sleeping .ready .slept) (.sleep sleepArgs) (fun _ x => x.split.resume == .slept) = true := by
  decide

/-- A sleep on a halted core stays as it is. -/
theorem witness_YieldAndSleep_halted : ([true, false] : List Bool).all (fun h =>
    let s := modCore (sleeping (.waiting (.sleep 5)) .none) 0 fun c => { c with halted := h }
    (teamOf s 0).any fun m => isResident m && (coreOf s (coreOfTeam m)).halted == h) = true := by decide
theorem witness_ExitLeaves :
    issuesWith state4 (.exit bare) (fun _ x => x.train.prods == [] &&
      arrivalReady state4 x.uid x.tn x.team x.train) = true ∧
    (trainOf state4 0 0).any (fun t => t.defer == [] && (exitLanes t 15).active == 0) = true ∧
    (teamOf state4 0).any (fun m => m.claims == []) = true := by decide
/-- The lanes that stay: of the same split; each waiting for the other at a join; and, held, as the handler's
lanes leave. -/
def exitState (j : AMap LaneMask) (h : Option Handler) (sd : List Split) : State :=
  withTrain fun t => { t with j := j, handler := h, siding := sd }
def exitStuck : State := exitState [(2, 12), (3, 12)] none [readySplit 0x200000 3,
  ⟨0x200000, 4, .atJoin 2, false, .none, false⟩, ⟨0x200020, 8, .atJoin 3, false, .none, false⟩]
def exitHandler : State := exitState [] (some ⟨0x200000, .none⟩) [readySplit 0x200000 3,
  { readySplit 0x200040 12 with held := true }]
theorem witness_ExitLeaves_rest : ([(state4, 1), (exitStuck, 7), (exitHandler, 7)] : List (State × BitVec 3)).all (fun e =>
    issuesWith e.1 (.exit { bare with guard := e.2 }) fun _ x => x.train.prods == [] &&
      arrivalReady e.1 x.uid x.tn x.team x.train && x.train.active &&& ~~~maskOf x.lanes != 0 &&
      x.team.claims == [] && x.train.pend == none && !x.train.trapped) = true := by decide
/-- What is left cannot go on (R145); the lanes that a handler's end releases go on. -/
theorem test_exit_rest : (after (.exit bare) (withTables exitStuck)).any (fun t => t.active == 12 &&
  t.trap == 11) = true ∧
    (after (.exit bare) exitHandler).any (fun t => t.handler == none &&
      t.siding == [readySplit 0x200040 12]) = true := by
  decide +kernel
theorem test_exit : (after (.exit { bare with guard := 1 }) state4).any
    (fun t => t.active == 5 && !t.ended && splits t == [(0x200008, 5)]) = true := by decide

/-! ## Checks and traps -/

def atPc (pc : Addr) : State := withTrain fun t => { t with siding := [readySplit pc 15] }
def siteIn (s : State) (i : Instr) (p : Args → Site → Bool) : Bool :=
  match argsOf i with
  | none => false
  | some a => (siteOf s i a).any (p a)

def entry4 : SqEntry := ⟨0, 0x200000, 1, 5, 1, [], none⟩

theorem witness_ChecksInOrder :
    siteIn (atPc 0x20001C) (.nop bare) (fun _ x => 32 < x.pc.toNat % 32 + x.len) = true ∧
    siteIn state4 (.iadd dab (mods 0 0 false true false)) (fun a x => !awaitsData x.split.resume &&
      x.pc.toNat % 32 + x.len ≤ 32 &&
      !wellFormed (.iadd a (mods 0 0 false true false))) = true ∧
    siteIn state4 (.iadd (args (vReg 99) (vReg 4) (vReg 5) .none) noMods)
      (fun a x => wellFormed (.iadd a noMods) && !inBudget x.train (.iadd a noMods) a) = true ∧
    siteIn state4 (.iadd { dab with guard := 0 } noMods) (fun a x => x.lanes == [] &&
      wellFormed (.iadd a noMods) && inBudget x.train (.iadd a noMods) a && !x.split.replay &&
      x.train.siding.all fun p => p.mask &&& ~~~x.train.active == 0) = true ∧
    siteIn (withTrain fun t => { t with sq := List.replicate 16 entry4 }) (.st storeArgs 2 ⟨0, false⟩)
      (fun a x => x.lanes != [] && wellFormed (.st a 2 ⟨0, false⟩) && takesEntry (.st a 2 ⟨0, false⟩) &&
        inBudget x.train (.st a 2 ⟨0, false⟩) a && 16 ≤ x.train.sq.length) = true ∧
    siteIn (withTrain fun t => { t with empty := [5] }) (.iadd dab noMods) (fun a x => x.lanes != [] &&
      (match vSources x.train (.iadd a noMods) a with
        | p :: q :: _ => !groupEmpty x.train p.2.1 p.2.2.1 && groupEmpty x.train q.2.1 q.2.2.1
        | _ => false)) = true := by decide

theorem witness_SystemCall : issuesIn state4 (.trap bare 7) = true := by decide

/-- The tables of a placed program, mapped; its fault queue has 128 slots. -/
def mapped : State := nopState
def someRec : Rec := timetableRec 0 1 0 0 0 false 0 0
def writesOk (s : State) (recs : List Rec) (p : State → Addr → Bool) : Bool :=
  match writeRecs (endRunOf s 0 0) 0 recs with
  | .ok t a => p t a
  | _ => false

theorem witness_TrapEntered_halts : (teamOf mapped 0).isSome = true ∧ (ctxOf mapped 0).fqWait = [] ∧
    (ctxOf mapped 0).vector = 0 ∧
    writesOk mapped [someRec] (fun t _ => (trainOf t 0 0).any fun u => u.handler == none) = true := by decide +kernel
def vectored (s : State) : State := modCtx s 0 fun c => { c with vector := 0x200100, trapmask := 0x1FFFF }
theorem witness_TrapEntered_enters : (ctxOf (vectored mapped) 0).fqWait = [] ∧
    writesOk (vectored mapped) [someRec] (fun t _ => (trainOf t 0 0).any (fun u => u.handler == none &&
      (u.siding[0]?).isSome) && (ctxOf t 0).trapmask.getLsbD 0 && (ctxOf t 0).vector != 0) = true := by decide +kernel
/-- The queue full: 128 records produced, none consumed. -/
def fullQueue : State := { mapped with mem := memPut mapped.mem 0x2FF000 128 }
theorem witness_TrapEntered_waits : (match writeRecs (endRunOf fullQueue 0 0) 0 [someRec] with
      | .noRoom _ => true
      | _ => false) = true ∧
    (ctxOf (modCtx mapped 0 fun c => { c with fqWait := [.train 0 1] }) 0).fqWait ≠ [] := by decide +kernel
/-- A trap enters at the vector, and its record says SYS. -/
theorem test_trap_enters : (after (.trap bare 7) (vectored mapped)).any (fun t =>
    splits t == [(0x200100, 0xFFFFFFFF)] && t.trap == 16 && t.fault == 0x300000 && t.handler.isSome) = true ∧
    homeByte (next (.trap bare 7) (vectored mapped)) 0x300000 = 16 ∧
    homeByte (next (.trap bare 7) (vectored mapped)) 0x30000C = 7 := by decide +kernel
theorem witness_RecordLayout : someRec.body = accessBody 0 0 0 0 := by decide +kernel
/-- The first slot and the count produced, each in its place. -/
theorem witness_RecordLayout_published : mapped.partials = [] ∧ mapped.net = [] ∧
    (match devLoad mapped 0 (ctxOf mapped 0).fqctl.toNat 16, writeRecs mapped 0 [someRec] with
      | .ok ctl, .ok _ _ =>
        let produced := natLE (ctl.take 8)
        let slot := (ctxOf mapped 0).fqbase.toNat + 64 * (produced % 2 ^ (ctxOf mapped 0).fqsize.toNat)
        match devXlates mapped 0 .write 64 slot none, devStore mapped 0 slot (recBytes someRec true produced) with
        | .ok pas, .ok s1 => match devXlates s1 0 .write 8 (ctxOf mapped 0).fqctl.toNat none with
          | .ok cas => decide pas.Nodup && decide cas.Nodup && cas.all fun a => !pas.contains a
          | .error _ => false
        | _, _ => false
      | _, _ => false) = true := by decide +kernel

/-- A train in a handler whose record, all zero, resumes it at 0. -/
def handling : State := modTrain mapped 0 0 fun t =>
  { t with handler := some ⟨0x200000, .none⟩, fault := 0x100000 }
theorem witness_ReturnFromHandler : issuesWith handling (.rte bare) (fun _ x => x.train.handler.isSome &&
      x.train.prods == [] && !ownStores handling x.uid x.tn x.train && runCount handling x == 0 &&
      (match devLoad (touch handling x.team.ctx .read x.train.fault.toNat 64) x.team.ctx x.train.fault.toNat 64 with
        | .ok _ => true
        | .error _ => false) &&
      (match unitLength (touch (touch handling x.team.ctx .read x.train.fault.toNat 64) x.team.ctx .fetch 0 12)
          x.team.ctx 0 with
        | .ok _ => true
        | .error _ => false)) = true ∧
    issuesIn handling (.rteNext bare) = true ∧
    issuesWith state4 (.rte bare) (fun _ x => x.train.handler.isNone) = true ∧
    issuesWith state4 (.rteNext bare) (fun _ x => x.train.handler.isNone) = true := by decide +kernel

/-! ## Splits, trains, points -/

def joinState (j : LaneMask) (sd : List Split) : State :=
  withTrain fun t => { t with j := [(2, j)], siding := sd }
theorem witness_JoinArrives :
    issuesWith state4 (.join bare 2) (fun _ x => maskOf x.lanes &&& jGet x.train 2 == 0) = true ∧
    issuesWith (joinState 3 [readySplit 0x200000 15]) (.join bare 2) (fun _ x =>
      maskOf x.lanes &&& jGet x.train 2 != 0 && x.split.mask &&& ~~~(maskOf x.lanes &&& jGet x.train 2) != 0 &&
      x.train.siding.length < 16) = true ∧
    issuesWith (joinState 15 [readySplit 0x200000 15]) (.join bare 2) (fun _ x =>
      maskOf x.lanes &&& jGet x.train 2 != 0 &&
      x.split.mask &&& ~~~(maskOf x.lanes &&& jGet x.train 2) == 0) = true ∧
    issuesWith (joinState 1 (readySplit 0x200000 3 :: List.replicate 15 (readySplit 0x200040 0))) (.join bare 2)
      (fun _ x => maskOf x.lanes &&& jGet x.train 2 != 0 &&
        x.split.mask &&& ~~~(maskOf x.lanes &&& jGet x.train 2) != 0 && 16 ≤ x.train.siding.length) = true := by decide
/-- Every lane then waits, for lanes that wait at another join. -/
def joinStuck : State := withTrain fun t => { t with
  j := [(2, 15), (3, 15)]
  siding := [readySplit 0x200000 3, ⟨0x200040, 12, .atJoin 3, false, .none, false⟩] }
theorem witness_JoinArrives_deadlock : issuesWith joinStuck (.join bare 2) (fun _ x =>
    x.train.pend == none && !x.train.trapped && x.split.mask &&& ~~~(maskOf x.lanes &&& jGet x.train 2) == 0 &&
    (x.train.siding.drop 1).all fun p => p.st == .atJoin 3) = true := by decide
/-- JOIN_DEADLOCK (R145). -/
theorem test_join_deadlock : (after (.join bare 2) (withTables joinStuck)).any (fun t => t.trap == 11) = true := by
  decide +kernel
/-- R164: the arriving lanes keep the split's place and the others go on after them. -/
theorem test_join_waits : (after (.join bare 2) (joinState 13 [readySplit 0x200000 3, readySplit 0x200040 12])).any
    (fun t => splits t == [(0x200000, 1), (0x200008, 2), (0x200040, 12)]) = true := by decide
theorem test_join_completes : (after (.join bare 2)
    (joinState 15 [readySplit 0x200000 3, ⟨0x200000, 12, .atJoin 2, false, .none, false⟩])).any
    (fun t => splits t == [(0x200008, 15)] && jGet t 2 == 15) = true := by decide

/-- The addresses of the joins that lanes leave, each once. -/
def leftJoins (n : BitVec 3) (v : LaneMask) (l : List Split) : List Addr :=
  ((l.filter fun q => q.st == .atJoin n && q.mask &&& ~~~v != 0).map (·.pc)).eraseDups
/-- Lanes 2 and 3 wait at a join on j0, besides splits of no lanes. -/
def jsetState (n : Nat) : State := withTrain fun t => { t with siding := readySplit 0x200000 3 ::
  ⟨0x200040, 12, .atJoin 0, false, .none, false⟩ :: List.replicate n (readySplit 0x200080 0) }
theorem witness_JoinMaskWritten : ([(state4, 0, 1), (jsetState 13, 1, 15), (jsetState 14, 1, 16)] :
    List (State × Nat × Nat)).all (fun e => issuesWith e.1 (.jset bare 3 0 0) fun a x =>
      (leftJoins 0 (jsetValue x a 3 0 0) x.train.siding).length == e.2.1 && x.train.siding.length == e.2.2) = true := by
  decide
/-- Lanes that a new j0 leaves out go on after their join. -/
theorem test_jset_leaves : (after (.jset bare 3 0 0) (jsetState 13)).any
    (fun t => (splits t).contains (0x200048, 12)) = true := by decide
theorem test_jset_split : (after (.jset bare 3 0 0) state4).any (fun t => jGet t 0 == 15) = true := by decide

/-- A train of eight lanes. -/
def state8 : State := stateOf { team4 { newTrain 8 64 0 (List.range 8) 0xFF 0x200000 0 0 0 0 with
    v := [(256, 10), (261, 15)] } with lanes := 8, width := 8 }
def splitArgs : Args := args (.k 4) .none .none .none
theorem witness_SplitsTrain : issuesWith state8 (.split splitArgs 0) (fun _ x => x.train.prods == [] &&
      x.train.sq == [] && heldPoints x.team x.tn == [] && !x.train.ended && x.train.siding.length == 1 &&
      !(x.train.width ≤ 4 || 64 < (liveTrains x.team).length - 1 + 2 || 128 < coreTrains state8 x.core - 1 + 2 ||
        (freeNumbers x.team).length < 2 - 1) &&
      (x.train.active >>> 4) &&& lowMask 4 != 0) = true ∧
    issuesWith state4 (.split splitArgs 0) (fun _ x => x.train.siding.length == 1 && x.train.width ≤ 4 &&
      x.train.prods == [] && x.train.sq == [] && heldPoints x.team x.tn == []) = true ∧
    issuesWith fullSiding (.split splitArgs 0) (fun _ x => x.train.siding.length != 1 &&
      x.train.prods == [] && x.train.sq == [] && heldPoints x.team x.tn == []) = true := by decide
theorem test_split : (trainOf (next (.split splitArgs 0) state8) 0 1).any
    (fun t => t.width == 4 && vGet t 4 1 == 15 && t.home == [4, 5, 6, 7] && splits t == [(0x200008, 15)]) = true := by
  decide
theorem test_split_refused : (after (.split splitArgs 0) state4).any (fun t => kGet t 4 == 3) = true := by decide

/-- Two trains of four lanes, the second waiting at the same `fuse`. -/
def fuseState : State := withTeam fun m => { m with trains := [(0, train4), (1, { train4 with
    lanes := [4, 5, 6, 7]
    siding := [⟨0x200000, 15, .waiting .partner, false, .none, false⟩] })] }
/-- At point 5 both are members and have arrived; at 6 both, neither yet, and two others have; at 7 one. -/
def fusePoints : AMap Rv := [(5, ⟨4, 2, 3, 3, 0, 4, none, [], none, []⟩), (6, ⟨3, 2, 3, 0, 0, 4, none, [], none, []⟩),
  (7, ⟨2, 1, 2, 2, 0, 4, none, [], none, []⟩)]
def fuseAt : State := { fuseState with teams := fuseState.teams.map fun e => (e.1, { e.2 with rvs := fusePoints }) }
theorem witness_FusesTrains : ([fuseState, fuseAt] : List State).all (fun s => issuesWith s (.fuse splitArgs) fun _ x =>
      (trainOf s 0 1).any (fun p => (fuseSplit p).any (fun q =>
        fuseStatus x.team 0 1 x.train p x.pc q.pc == 0) && !p.ended && quietTrain p && p.streams == [] &&
          x.train.active ||| (p.active <<< x.train.width) != 0) &&
      quietTrain x.train && x.train.streams == [] && mergeOf s 0 0 == none && 2 * x.train.width ≤ 64 &&
      heldPoints x.team 0 == [] && heldPoints x.team 1 == [] && risingKeys x.team.rvs &&
      mergeOf s 0 1 == none && x.split.resume == .none && x.tn == 0) = true ∧
    issuesWith state4 (.fuse splitArgs) (fun _ x => (trainOf state4 0 1).isNone && x.split.resume == .none)
      = true ∧
    issuesWith (sleeping .ready (.unitDone 4)) (.fuse splitArgs) (fun _ x => x.split.resume == .unitDone 4)
      = true := by decide
/-- R154: one less expected, one less arrived; the phase that this completes; one member as before. -/
theorem test_fuse_points : (teamOf (next (.fuse splitArgs) fuseAt) 0).any (fun m =>
    [5, 6, 7].map (fun n => let r := rvOf m n; (r.expected, r.arrivals, r.members.toNat, r.phase)) ==
      [(3, 1, 1, 4), (2, 0, 1, 5), (2, 1, 1, 4)]) = true := by decide
theorem test_fuse : (after (.fuse splitArgs) fuseState).any (fun t => t.width == 8 && kGet t 4 == 0 &&
    vGet t 4 7 == 13 && splits t == [(0x200008, 0xFF)]) = true := by decide

def pointState (expected arrivals : Nat) : State :=
  withTeam fun m => { m with rvs := [(5, ⟨expected, arrivals, 1, 0, 0, 4, none, [], none, []⟩)] }
theorem witness_RendezvousCounts :
    issuesWith state4 (.rvinit (args .none (.imm 2) (.imm 1) .none) 5) (fun a x =>
      srcNat x.train a.s1 1 0 ≤ 4095 && !rvBusy x.team 5) = true ∧
    ([(0, 0), (3, 1), (2, 1)] : List (Nat × Nat)).all (fun e =>
      issuesWith (pointState e.1 e.2) (.arrive bare 5) fun _ x =>
        arrivalReady (pointState e.1 e.2) x.uid x.tn x.team x.train && (rvOf x.team 5).firing == none &&
        (rvOf x.team 5).desc == none && (rvOf x.team 5).expected == e.1) = true := by decide
/-- The point of `pointState`, the train standing at its instruction for a phase of it. -/
def pointResume (ph : Nat) : State :=
  withTeam fun m => { m with
    rvs := [(5, ⟨2, 1, 1, 0, 0, 4, none, [], none, []⟩)]
    trains := [(0, { train4 with siding := [⟨0x200000, 15, .ready, false, .phase 5 ph, false⟩] })] }
theorem test_arrive_completes : (teamOf (next (.arrive bare 5) (pointState 2 1)) 0).any
    (fun m => (rvOf m 5).arrivals == 0 && (rvOf m 5).phase == 5) = true := by decide
theorem witness_AwaitsPhase :
    issuesWith (pointState 0 0) (.await bare 5) (fun _ x => (rvOf x.team 5).expected == 0 &&
      !(heldPoints x.team x.tn).contains 5) = true ∧
    issuesWith (pointState 2 1) (.await bare 5) (fun _ x => (rvOf x.team 5).expected != 0 &&
      !(heldPoints x.team x.tn).contains 5 && x.split.resume == .none) = true ∧
    ([3, 4] : List Nat).all (fun ph => issuesWith (pointResume ph) (.await bare 5) fun _ x =>
      (rvOf x.team 5).expected != 0 && (rvOf x.team 5).phase == 4 && x.split.resume == .phase 5 ph) = true ∧
    issuesWith (pointState 2 1) (.arrwait bare 5) (fun _ x => x.split.resume == .none &&
      arrivalReady (pointState 2 1) x.uid x.tn x.team x.train && (rvOf x.team 5).firing == none &&
      (rvOf x.team 5).desc == none) = true ∧
    issuesWith (pointState 3 1) (.arrwait bare 5) (fun _ x => (rvOf x.team 5).arrivals + 1 != 3 &&
      arrivalReady (pointState 3 1) x.uid x.tn x.team x.train && (rvOf x.team 5).desc == none) = true := by decide
theorem witness_RegisterBudgets :
    issuesWith state4 (.rgive bare 1) (fun _ x => 8 * 1 + 8 ≤ x.train.budget && x.team.claims == [] &&
      x.train.empty == []) = true ∧
    issuesWith state4 (.rtake bare 1) (fun _ x => x.train.budget + 8 ≤ x.team.regs &&
      x.split.resume == .none && x.train.width ≤ x.team.pool && x.train.handler == none) = true ∧
    issuesWith state4 (.rtakeRole bare 1) (fun _ x => x.team.roles[1]? == some 32 &&
      x.train.budget % 8 == 0 && 32 ≤ x.train.budget + 8 * (x.team.pool / x.train.width) &&
      32 ≤ x.team.regs && x.train.empty == []) = true := by decide
/-- A second train waits in `rtake` for 80 blocks; the pool holds 64, and train 0 asks for 68. -/
def takers : State := withTeam fun m => { m with
  claims := [⟨3, 1, 80, 160, none⟩]
  trains := [(0, train4), (1, { train4 with siding := [⟨0x200000, 15, .waiting .claim, false, .tok 3, false⟩] })] }
theorem witness_RegisterBudgets_deadlock : ([state4, takers] : List State).all (fun s =>
    issuesWith s (.rtake bare 17) fun _ x => x.train.budget + 8 * 17 ≤ x.team.regs && x.split.resume == .none &&
      !x.split.held && !x.train.ended && !x.train.trapped && x.train.pend == none && x.team.pool < 17 * x.train.width &&
      x.team.claims.all (fun c => x.team.pool < c.blocks) && risingKeys x.team.trains && x.train.siding.length == 1 &&
      x.team.trains.all fun e => e.1 == x.tn || !e.2.ended && !e.2.trapped && e.2.pend == none &&
        e.2.siding.any (fun p => !p.held) && e.2.siding.all fun p => inClaim p) = true := by decide
/-- Each of the two takes TAKE_DEADLOCK (R151). -/
theorem test_takeDeadlock : [0, 1].all (fun n => (trainOf (next (.rtake bare 17) (withTables takers)) 0 n).any
    fun t => t.trap == 12) = true := by decide +kernel
theorem test_rgive : (after (.rgive bare 1) state4).any (fun t => t.budget == 56) = true ∧
    (teamOf (next (.rgive bare 1) state4) 0).any (fun m => m.pool == 68) = true := by decide
theorem test_rtakeRole : (after (.rtakeRole bare 1) state4).any (fun t => t.budget == 32 && t.role == 1)
    = true := by decide
/-! ## Memory -/

def deepOf (m : Team) : State := withTables (stateOf m)
def deep : State := deepOf (team4 train4)
def deepWith (f : Train → Train) : State := deepOf (team4 (f train4))
def scrPre : Option Prefix := some ⟨false, false, 0, 2, 0, 0⟩
def accPre : Option Prefix := some ⟨false, false, 0, 3, 0, 0⟩
/-- b1 as a small offset. -/
def low : State := withTrain fun t => { t with b := [(1, 0x40)] }

def atomArgs : Args := args (vReg 9) (.b 1) (.imm 0) (vReg 4)
theorem witness_MemoryProducers :
    issuesWith state4 (.ld loadArgs 2 false ⟨0, false⟩) (fun a x =>
      let k := ldMods x.train a
      let c := checkLanes state4 x k.space .read 4 (accesses x a ⟨0, false⟩ (writtenLanes x a.dst))
      k.space == 1 && c.pages == [] && c.asks == [] && c.fails == [] &&
        (partsErr state4 (c.passed.flatMap (·.parts))).isNone &&
        !workBlocked x (c.passed.flatMap (·.parts))) = true ∧
    ([.atom atomArgs 0 ⟨0, false⟩ false, .cas atomArgs 2 ⟨0, false⟩ false,
      .casl { atomArgs with dst := vReg 10 } ⟨5, false, 0, false, .none⟩] : List Instr).all (fun i =>
      issuesWith state4 i fun _ x => (atomRule x i).any fun r =>
        let c := checkLanes state4 x r.2.2.2.2.1.space (atomAccess i) r.2.2.1
          (accesses x r.1 r.2.1 (writtenLanes x r.1.dst))
        !x.team.determ && (accesses x r.1 r.2.1 x.lanes).all (fun e => e.2.toNat % r.2.2.1 == 0) &&
        c.pages == [] && c.asks == [] && c.fails == [] && (partsErr state4 (c.passed.flatMap (·.parts))).isNone &&
        !workBlocked x (c.passed.flatMap (·.parts))) = true := by decide
/-- Two and four registers (R272). -/
theorem witness_MemoryProducers_wide : ([(3, 8), (4, 16)] : List (BitVec 3 × Nat)).all (fun e =>
    issuesWith state4 (.ld { loadArgs with dst := vReg 8 } e.1 false ⟨0, false⟩) fun a x =>
      let k := ldMods x.train a
      let c := checkLanes state4 x k.space .read e.2 (accesses x a ⟨0, false⟩ (writtenLanes x a.dst))
      k.space == 1 && c.pages == [] && c.asks == [] && c.fails == [] && 2 ^ e.1.toNat == e.2 &&
        (partsErr state4 (c.passed.flatMap (·.parts))).isNone &&
        !workBlocked x (c.passed.flatMap (·.parts))) = true := by decide
/-- The group of four is empty until its data come, each register with its own four bytes. -/
theorem test_load_quad : (after (.ld { loadArgs with dst := vReg 8 } 4 false ⟨0, false⟩) state4).any
      (fun t => t.empty == [8, 9, 10, 11]) = true ∧
    (after (.longLatencyFill 0 0 10) (next (.homeRead 0 0 10 0x2000) (next (.ld { loadArgs with dst := vReg 8 } 4 false
      ⟨0, false⟩) { state4 with mem := [(0x100000, 1), (0x100004, 2), (0x10000F, 3)] }))).any (fun t =>
        (vGet t 8 3, vGet t 9 3, vGet t 10 3, vGet t 11 3) == (1, 2, 0, 0x03000000) && t.empty == []) = true := by
  decide +kernel
/-- The accumulator space, in words; and a load that an error in its line may lose (R344). -/
def errLine : State := { state4 with errs := [.hbm 0x100040] }
theorem witness_MemoryProducers_spaces : issuesWith low (.ld { loadArgs with pre := accPre } 2 false ⟨0, false⟩) (fun a x =>
      let k := ldMods x.train a
      let c := checkLanes low x k.space .read 4 (accesses x a ⟨0, false⟩ (writtenLanes x a.dst))
      k.space == 3 && c.pages == [] && c.asks == [] && c.fails == [] &&
        (partsErr low (c.passed.flatMap (·.parts))).isNone && !workBlocked x (c.passed.flatMap (·.parts))) = true ∧
    issuesWith errLine (.ld loadArgs 2 false ⟨0, false⟩) (fun a x =>
      let c := checkLanes errLine x 1 .read 4 (accesses x a ⟨0, false⟩ (writtenLanes x a.dst))
      c.pages == [] && c.asks == [] && c.fails == [] && (partsErr errLine (c.passed.flatMap (·.parts))).isNone &&
        !workBlocked x (c.passed.flatMap (·.parts)) &&
          (c.passed.flatMap (·.parts)).any (mayFail errLine true)) = true := by
  decide
/-- The load stands until its data come; they have come; they have, but for lane 2. -/
theorem witness_MemoryProducers_data :
    ([.data 10 [], .dataDone 15 [], .dataDone 11 [⟨2, 15, 1, 0, 0x100008⟩]] : List Resume).all (fun r =>
      siteIn (sleeping .ready r) (.ld loadArgs 2 false ⟨0, false⟩) fun _ x => x.split.resume == r) = true ∧
    laneAccess (.ld loadArgs 2 false ⟨0, false⟩) = some (4, false) := by decide

def ranged : State := { state4 with ctxs := [(0, { ctx4 with ranges := [⟨0x100000, 4096, 0⟩] })] }
def crArgs : Args := { storeArgs with pre := some ⟨false, true, 0, 0, 0, 0⟩ }
theorem witness_StoresQueue :
    issuesWith state4 (.st storeArgs 2 ⟨0, false⟩) (fun a x =>
      let k := stMods x.train a
      let c := checkLanes state4 x k.space .write 4 (accesses x a ⟨0, false⟩ x.lanes)
      k.space == 1 && c.pages == [] && c.asks == [] && c.fails == [] &&
        !workBlocked x (c.passed.flatMap (·.parts))) = true ∧
    issuesWith low (.st { storeArgs with pre := accPre } 2 ⟨0, false⟩) (fun a x =>
      let k := stMods x.train a
      let c := checkLanes low x k.space .write 4 (accesses x a ⟨0, false⟩ x.lanes)
      k.space == 3 && c.pages == [] && c.asks == [] && c.fails == [] &&
        !workBlocked x (c.passed.flatMap (·.parts))) = true ∧
    issuesWith ranged (.stCr crArgs 2 ⟨0, false⟩) (fun a x =>
      let k := crMods x.train a
      let c := checkLanes ranged x k.space .write 4 (accesses x a ⟨0, false⟩ x.lanes)
      (accesses x a ⟨0, false⟩ x.lanes).all (fun e => e.2.toNat % 4 == 0) && c.pages == [] && c.asks == [] &&
      c.fails == [] &&
        c.passed.all fun p => (rangeOp (ctxOf ranged x.team.ctx) p.va.toNat).any fun o => foldBytes o == 4) = true := by
  decide

theorem witness_StoresQueue_wide : ([(3, 8), (4, 16)] : List (BitVec 3 × Nat)).all (fun e =>
    issuesWith state4 (.st storeArgs e.1 ⟨0, false⟩) fun a x =>
      let k := stMods x.train a
      let c := checkLanes state4 x k.space .write e.2 (accesses x a ⟨0, false⟩ x.lanes)
      k.space == 1 && c.pages == [] && c.asks == [] && c.fails == [] && 2 ^ e.1.toNat == e.2 &&
        !workBlocked x (c.passed.flatMap (·.parts))) = true := by decide
/-- The fourth register of the group lies at byte 12 (R272): v7 of lane 3. -/
theorem test_store_quad : homeByte (next (.homeWrite 10) (next (.storePortPass 0 0) (next (.st storeArgs 4 ⟨0, false⟩)
    (withTrain fun t => { t with v := [(259, 1), (451, 0x55)] })))) 0x10000C = 0x55 := by decide +kernel

def loaded : State := next (.ld loadArgs 2 false ⟨0, false⟩) state4
theorem witness_HomeServesLoads : (teamOf loaded 0).any (fun m => (trainOf loaded 0 0).any fun t =>
    (mapGet t.prods 10).any fun p => p.kind == .load 4 false &&
      (p.parts.any fun q => partOpen q && partLine q == some 0x2000) && loadTurn loaded 0 0 t p.seq &&
      !((p.parts.filter fun q => partOpen q && partLine q == some 0x2000).all fun q =>
        (l1Copy loaded (coreOfTeam m) m.ctx p q).isSome) && !t.ended && t.sq == [] && p.policy != 5) = true ∧
    loaded.pick = [] ∧
    lineBusy loaded 0x2000 = false ∧ loaded.net = [] ∧ loaded.errs = [] ∧ loaded.partials = [] := by decide
theorem test_load : (after (.longLatencyFill 0 0 10) (next (.homeRead 0 0 10 0x2000)
    (next (.ld loadArgs 2 false ⟨0, false⟩) { state4 with mem := [(0x100000, 0x78), (0x100001, 0x56)] }))).any
    (fun t => vGet t 9 3 == 0x5678 && t.empty == []) = true := by decide +kernel

def stored : State := next (.st storeArgs 2 ⟨0, false⟩) state4
def scrStored : State := next (.st { storeArgs with pre := scrPre } 2 ⟨0, false⟩) low
def accStored : State := next (.st { storeArgs with pre := accPre } 2 ⟨0, false⟩) low
def passed : State := next (.storePortPass 0 0) stored
def written : State := next (.homeWrite 10) passed
theorem witness_StoresPerform_pass : (teamOf stored 0).any (fun m => (trainOf stored 0 0).any fun t =>
      (t.sq.head?).any fun e => isResident m && portReady stored 0 (coreOfTeam m) m t e && e.prod == none &&
        e.ops.all fun o => o.place == .glob && o.op == .store) = true ∧
    (teamOf scrStored 0).any (fun m => (trainOf scrStored 0 0).any fun t => (t.sq.head?).any fun e =>
      isResident m && portReady scrStored 0 (coreOfTeam m) m t e && e.prod == none &&
        e.ops.all fun o => o.place == .scr 0 && o.op == .store && o.mayWrite) = true ∧
    (teamOf accStored 0).any (fun m => (trainOf accStored 0 0).any fun t => (t.sq.head?).any fun e =>
      isResident m && portReady accStored 0 (coreOfTeam m) m t e && e.prod == none && !accBusy m e &&
        e.ops.all fun o => o.place == .acc 0 && o.op == .store) = true := by decide
theorem test_store_acc : (teamOf (next (.storePortPass 0 0) accStored) 0).any (fun m => accWord m 16 == 13) = true := by
  decide +kernel
theorem witness_StoresPerform_home : (mapGet passed.net 10).any (fun r => r.stage == .toHome &&
      r.place == .glob && r.ops != [] && (r.ops.all fun o => o.op == .store && o.lane < 64 && o.mayWrite) &&
        r.prod == none &&
      reqReady passed 10 r && !lineBusy passed r.line) = true ∧ passed.pick = [] ∧ passed.errs = [] ∧
    passed.partials = [] := by decide
def noReq : Req := ⟨0, 0, 0, [], 0, 0, 0, 0, 0, .glob, 0, [], none, none, false, [], 0, 0, [], .toHome, [], [], [], none, 0⟩
/-- Core 3 holds the line whose store has been made and takes it; core 4, named as a sharer too, holds none. -/
def sharing (left : List Nat) (rest : List LaneOp) : State := { state4 with
  cores := [(0, core4), (3, { coreInit with l1 := [(0x2000, ⟨0, 15, none, none, false, false⟩)] })]
  net := [(10, { noReq with
    core := 200
    line := 0x2000
    ops := [⟨0, 0x100004, .glob, [0x100004], .store, 7, 0, true⟩]
    stage := .updating left
    rest := rest
    wrote := [(4, 7)] })] }
theorem witness_StoresPerform_update : ([3, 4] : List Nat).all (fun _ => (mapGet (sharing [3, 4] []).net 10).any fun r =>
      r.stage == .updating [3, 4] && r.line == 0x2000 && r.wrote.all fun w => w.1 < 128) = true ∧
    (mapGet (coreOf (sharing [3, 4] []) 3).l1 0x2000).isSome = true ∧
    mapGet (coreOf (sharing [3, 4] []) 4).l1 0x2000 = none := by decide
theorem witness_StoresPerform_ack : ([[], [⟨0, 0x100004, .glob, [0x100004], .store, 7, 0, true⟩]] :
    List (List LaneOp)).all (fun rest => (mapGet (sharing [] rest).net 10).any fun r => r.stage == .updating [] &&
      r.prod == none && r.peer == none && r.rest == rest && r.wrote != [] && r.core < 256 &&
      homeDie (128 * r.line) != dieOf r.core) = true := by decide
theorem test_sharerUpdate : (mapGet (coreOf (next (.sharerUpdate 10 3) (sharing [3, 4] [])) 3).l1 0x2000).any
    (fun l => lineByte l.data 4 == 7 && lineByte l.data 5 == 0) = true := by decide +kernel
/-- R274: of several lanes that write one word, the highest stays; v4 is 13 in lane 3. -/
theorem test_store_last_lane : (homeByte written 0x100000, homeByte written 0x100001) = (13, 0) := by decide +kernel
theorem test_store_ack : (next (.storeAck 10) written).net = [] := by decide

def atomSent : State := next (.storePortPass 0 0) (next (.atom { atomArgs with guard := 1, gneg := false } 0 ⟨0, false⟩ false)
  (withTrain fun t => { t with p := [(1, 2)] }))
def atomDone : State := next (.homeWrite 11) atomSent
theorem witness_AtomicsPerform : (∃ r o, mapGet atomSent.net 11 = some r ∧ r.stage = .toHome ∧ r.place = .glob ∧
      r.ops = [o] ∧ o.lane < 64 ∧ o.addrs = (List.range 4).map (0x100000 + ·) ∧ o.op = .atom 0 ∧
      o.mayWrite = true ∧ reqReady atomSent 11 r = true ∧ lineBusy atomSent r.line = false ∧ r.olds = [] ∧
      r.oks = 0 ∧ r.bad = []) ∧
    atomSent.partials = [] ∧ atomSent.pick = [] ∧ atomSent.errs = [] ∧ (∀ c, (ctxOf atomSent c).scopechk = false) := by
  refine ⟨?_, by decide, by decide, by decide, fun c => ?_⟩
  · exact ⟨(mapGet atomSent.net 11).getD noReq,
      ⟨1, 0x100000, .glob, (List.range 4).map (0x100000 + ·), .atom 0, 11, 0, true⟩, by decide⟩
  · have h : atomSent.ctxs = [(0, ctx4)] := by decide
    rw [ctxOf, h]
    by_cases hc : c = 0
    · subst hc; rfl
    · have : mapGet [(0, ctx4)] c = none := by simp [mapGet, Ne.symm hc]
      rw [this]; rfl
/-- A `cas` whose comparand is met, of a page that cannot be written, and one that is not met. -/
def casSent (cmp : DWord) : State := { atomSent with net := atomSent.net.map fun e => (e.1, { e.2 with
  ops := e.2.ops.map fun o => { o with
    op := .cas
    cmp := cmp
    mayWrite := false } }) }
theorem witness_AtomicsPerform_cas : ([0, 1] : List DWord).all (fun c => (mapGet (casSent c).net 11).any fun r =>
    r.stage == .toHome && r.olds == [] && r.oks == 0 && r.bad == [] && reqReady (casSent c) 11 r &&
    r.ops.map (fun o => (o.addrs, o.op, o.mayWrite)) == [((List.range 4).map (0x100000 + ·), .cas, false)] &&
    !lineBusy (casSent c) r.line) = true ∧
    natLE (((List.range 4).map (0x100000 + ·)).map (homeByte (casSent 0))) = 0 := by decide +kernel
/-- The comparison that holds is refused; the one that fails gives the old value (R341). -/
theorem test_cas_readOnly : [0, 1].map (fun c => ((mapGet (next (.homeWrite 11) (casSent c)).net 11).map fun r =>
    (r.olds, r.bad))) = [some ([], [(1, 0x61)]), some ([(1, 0)], [])] := by decide +kernel
theorem witness_AtomicsPerform_ack : (mapGet atomDone.net 11).any (fun r => r.stage == .updating [] && r.rest == [] &&
    r.prod == some (0, 10) && r.peer == none && r.olds == [(1, 0)] && r.bad == [] &&
    (trainOf atomDone r.uid 0).any fun t => (mapGet t.prods 10).isSome) = true := by decide +kernel
theorem test_atom : homeByte atomDone 0x100000 = 11 ∧
    (after (.longLatencyFill 0 0 10) (next (.storeAck 11) atomDone)).any
      (fun t => vGet t 9 1 == 0 && t.prods == []) = true := by decide +kernel

theorem witness_OrderAndHints :
    issuesWith state4 (.fence bare 5 5) (fun _ x => x.split.resume == .none && x.train.prods == [] &&
      x.train.sq == []) = true ∧ state4.net = [] ∧ state4.partials = [] ∧ state4.errs = [] ∧
    ([.pref (args .none (.b 1) (.imm 0) .none) true ⟨0, false⟩, .inval (args .none (.b 1) (.imm 0) .none),
      .invalAll bare] : List Instr).all (issuesIn state4) = true ∧
    ([.imm 0, .imm 1] : List Opnd).all (fun o =>
      issuesWith state4 (.waitm (args .none (.imm 0) o .none)) fun a x =>
        (memMods x.train a.pre (fun _ => 2) (fun p => if p = 4 then 4 else 2) (fun _ => 1)).space == 2 &&
        4 ≤ x.team.scrSize && !scrErr state4 x.uid 0 4 && !jobBlocks x.team x.tn [(false, 0, 4)] &&
        wordNow state4 x.uid x.tn x.train x.uid 0 == some 0) = true := by decide
def cbArgs : Args := args .none (.b 1) (.imm 0) .none
theorem witness_OrderAndHints_seen : issuesWith (sleeping .ready .seen) (.waitm (args .none (.imm 0) (.imm 1) .none))
    (fun _ x => x.split.resume == .seen && 4 ≤ x.team.scrSize && !scrErr (sleeping .ready .seen) x.uid 0 4 &&
      !jobBlocks x.team x.tn [(false, 0, 4)]) = true := by decide
def begun : State := sleeping .ready .begun
/-- A table that has been read for the `cbld` that stands at name 3. -/
def tableRead : State := { sleeping .ready (.loaded 3) with ctxs := [(0, { ctx4 with loading := [(3, [(0, 5)])] })] }
theorem witness_OrderAndHints_cbld :
    issuesWith state4 (.cbld cbArgs false) (fun _ x => x.split.resume == .none) = true ∧
    issuesWith begun (.cbld cbArgs false) (fun a x => x.split.resume == .begun &&
      (chunksAt 130 0x100000 0 1024).all (fun q => globCheck begun x .read q.2.1 q.2.2 ==
        .pass .glob ((List.range q.2.2).map fun i => 0x100000 + (q.1 + i)) true) &&
      (List.range 8).all (fun n => !lineBusy begun (0x2000 + n) &&
        mapGet (coreOf begun (l1Holder begun x.core (0x100000 + 128 * n))).l1 (0x2000 + n) == none) && loadTurn begun x.uid x.tn x.train x.train.seq && x.train.sq == [] &&
      (memMods x.train a.pre (fun o => if o = 1 then 1 else 2) (fun _ => 1) id).policy != 5) = true ∧
    begun.net = [] ∧ begun.errs = [] ∧ begun.partials = [] ∧ begun.pick = [] ∧ (ctxOf begun 0).scopechk = false ∧
    issuesWith tableRead (.cbld cbArgs false) (fun _ x => x.split.resume == .loaded 3) = true ∧
    mapGet (ctxOf tableRead 0).loading 3 = some [(0, 5)] := by decide +kernel
theorem test_cbld : (ctxOf (next (.cbld cbArgs false) tableRead) 0).codebook = [(0, 5)] := by decide
/-- Of a table read by parts, what is left stays for later steps. -/
theorem test_cbld_part : (after (.cbld cbArgs false) { begun with pick := [0] }).any (fun t => (t.siding[0]?).any fun p =>
    match p.resume with
      | .table [q] => q.shift == 0
      | _ => false) = true := by decide +kernel

/-! ## Units -/

def crWaiting (drop : Bool) : State := sleeping (.waiting .unit) (.crWork drop 1 0x100000 4096)
theorem witness_UnitsWork_cr :
    issuesWith state4 (.crdecl (args (.k 4) (.b 1) (.k 2) .none) 0 false) (fun _ x => x.split.resume == .none)
      = true ∧
    issuesWith (sleeping .ready (.unitDone 2)) (.crdrop (args (.k 4) (.b 1) .none .none))
      (fun _ x => x.split.resume == .unitDone 2) = true ∧
    ([true, false] : List Bool).all (fun d => (teamOf (crWaiting d) 0).isSome &&
      (trainOf (crWaiting d) 0 0).any (fun t => (t.siding[0]?).any fun p =>
        p.resume == .crWork d 1 0x100000 4096) && (crWaiting d).partials == [] &&
      !foldsPending (crWaiting d) 0 0x100000) = true := by decide
/-- A range is declared; dropping one that is not declared gives status 4 (R285). -/
theorem test_crdecl : (ctxOf (next (.crdeclCrdropDone 0 0) (crWaiting false)) 0).ranges = [⟨0x100000, 4096, 1⟩] ∧
    (after (.crdeclCrdropDone 0 0) (crWaiting true)).any (fun t => (t.siding[0]?).any fun p =>
      p.resume == .unitDone 4) = true := by decide

def stashArgs : Args := args .none (.imm 0) (.k 2) .none
def stashState : State := deepWith fun t => { t with k := [(2, 256)] }
theorem witness_UnitsWork_stash : issuesWith stashState (.stash stashArgs) (fun _ x =>
      x.split.resume == .none && calm stashState && srcNat x.train (.k 2) 1 0 == 256 && 256 ≤ x.team.scrSize &&
      !jobBlocks x.team x.tn [(false, 0, 256)] && x.team.stash.toNat + 256 ≤ x.team.stHi &&
      !scrErr stashState x.uid 0 256 &&
      (match rangePages stashState x.team.ctx .write x.team.stash.toNat 256
          (pagesOf x.team.stash.toNat 256) with
        | .ok _ => true
        | .error _ => false)) = true ∧
    issuesWith (deepOf { team4 { train4 with k := [(2, 256)] } with stash := 0x500100 }) (.unstash stashArgs)
      (fun _ x => x.split.resume == .none && 256 ≤ x.team.scrSize && !jobBlocks x.team x.tn [(false, 0, 256)] &&
        x.team.stLo.toNat + 256 ≤ x.team.stash.toNat) = true ∧
    issuesWith (sleeping .ready (.unitDone 0)) (.unstash stashArgs) (fun _ x => x.split.resume == .unitDone 0) = true ∧
    issuesWith (sleeping .ready (.unitDone 0)) (.stash stashArgs) (fun _ x => x.split.resume == .unitDone 0) = true := by
  decide +kernel
/-- A transfer of 256 bytes between offset 0 of the scratchpad and 0x500000. -/
def moving (out : Bool) : State := { deepOf { team4 { train4 with
    siding := [⟨0x200000, 15, .waiting .unit, false, .stashWork out 0x500000 0 256
      (if out then [(0x14, 0x500000)] else []) 1 (stashPieces 256), false⟩] } with
  scr := [(1, 7)] } with mem := memPutBytes deep.mem 0x500081 [9] }
theorem witness_UnitsWork_transfer : (teamOf (moving true) 0).isSome = true ∧ (trainOf (moving true) 0 0).any (fun t =>
      (t.siding[0]?).any (fun p => p.resume == .stashWork true 0x500000 0 256 [(0x14, 0x500000)] 1 (stashPieces 256)) &&
      t.sq == [] && earlierPassed t t.seq) = true ∧ (moving true).pick = [] := by decide +kernel
theorem witness_UnitsWork_back : (teamOf (moving false) 0).any (fun m => m.ctx == 0 && m.owed == [] &&
      !stashUnwritten (moving false) 0 m 0x500000 256) = true ∧ (trainOf (moving false) 0 0).any (fun t =>
      (t.siding[0]?).any (fun p => p.resume == .stashWork false 0x500000 0 256 [] 1 (stashPieces 256)) &&
      t.sq == [] && !scrStores 0 t && loadTurn (moving false) 0 0 t t.seq) = true ∧ (moving false).pick = [] ∧
    calm (moving false) = true ∧ (moving false).errs = [] ∧
    (List.range 256).all (fun i => (match devXlate (moving false) 0 .read (0x500000 + i) with
        | .ok a => a == 0x500000 + i
        | .error _ => false) && !lineBusy (moving false) ((0x500000 + i) / 128) &&
      mapGet (coreOf (moving false) (l1Holder (moving false) 0 (0x500000 + i))).l1 ((0x500000 + i) / 128) == none) = true := by
  decide +kernel
/-- The bytes leave as stores of the train, and come back from memory (R207). -/
theorem test_stash : (next (.stashTransferDone 0 0) (moving true)).net.any (fun r => r.2.stash && r.2.line == 0xA000 &&
      r.2.ops.any fun o => o.addrs.contains 0x500001 && o.data == 7 * 256) = true ∧
    (teamOf (next (.stashTransferDone 0 0) (moving false)) 0).any (fun m => scrGet m 129 == 9 && scrGet m 1 == 0) = true := by
  decide +kernel

/-! ## Contractions -/

def cxArgs : Args := args .none (vReg 4) (vReg 5) (.k 4)
def cxtArgs : Args := bareArgs .f128 .none .none .none (.k 4)
def noExt : CxExt := ⟨0, 0, 0, 0, 0, 0, 0, 0, 0⟩
/-- v4 is 1.0 and v5 is 2.0 in every lane; the format and tile words are 0: FP32, one by one, at 0. -/
def cxState : State := withTrain fun t => { t with
  v := [(256, 0x3F800000), (257, 0x3F800000), (258, 0x3F800000), (259, 0x3F800000),
        (320, 0x40000000), (321, 0x40000000), (322, 0x40000000), (323, 0x40000000)] }
theorem witness_ContractionIssues :
    issuesWith cxState (.cx cxArgs noExt) (fun a x => fmtOk true 0 && shapeOk true (cxFmtOf 0) 0 &&
      cxExtOk false (cxFmtOf 0) noExt && cxSrc2Ok a (cxFmtOf 0) && srcNat x.train a.s3 2 0 == 0 &&
      (x.lanes.flatMap (rowSpans false (descOf x.train 0 0 noExt))).all (fun p => p.2 == 0 || p.1 + p.2 ≤ x.team.scrSize) &&
      tileSpan 0 == (0, 32) && 32 ≤ x.team.accSize &&
      !storesMeet x.uid x.train (cxSpans false (descOf x.train 0 0 noExt) x.lanes) &&
      !jobBlocks x.team x.tn (cxSpans false (descOf x.train 0 0 noExt) x.lanes)) = true ∧
    issuesWith cxState (.cxs cxtArgs noExt) (fun _ x => fmtOk false 0 && shapeOk false (cxFmtOf 0) 0 &&
      cxExtOk true (cxFmtOf 0) noExt &&
      (x.lanes.flatMap (rowSpans true (descOf x.train 0 0 noExt))).all (fun p => p.2 == 0 || p.1 + p.2 ≤ x.team.scrSize) &&
      tileSpan 0 == (0, 32) && 32 ≤ x.team.accSize &&
      !storesMeet x.uid x.train (cxSpans true (descOf x.train 0 0 noExt) x.lanes) &&
      !jobBlocks x.team x.tn (cxSpans true (descOf x.train 0 0 noExt) x.lanes)) = true := by decide
theorem witness_ContractionIssues_cxt : ([(0, 0), (3, 1), (2, 1)] : List (Nat × Nat)).all (fun e =>
    issuesWith (pointState e.1 e.2) (.cxt cxtArgs 5 noExt) fun _ x => (rvOf x.team 5).expected == e.1 &&
      arrivalReady (pointState e.1 e.2) x.uid x.tn x.team x.train && (rvOf x.team 5).firing == none &&
      srcNat x.train (.k 4) 2 0 == 0 && tileSpan 0 == (0, 32) && 32 ≤ x.team.accSize &&
      ((x.lanes.map fun l => (x.train.lanes[l]?).getD 0).flatMap
        (rowSpans true (descOf x.train 0 0 noExt))).all fun p => p.2 == 0 || p.1 + p.2 ≤ x.team.scrSize)
    = true := by decide
/-- Later, when the array has taken its steps. -/
def later (s : State) : State := { s with now := 65536 }
def contracting : State := later (next (.cx cxArgs noExt) cxState)
theorem witness_AccumulatorWork : (teamOf contracting 0).any (fun m => (mapGet m.jobs 10).any fun j =>
      isContract j.kind && isResident m && !jobHeld m 10 j && !arrayHeld contracting m 10 && jobTimed contracting m j && j.block == 0 &&
      j.row == 0 && j.rv == none && match j.kind with
        | .contract _ _ _ _ rows => rows.all fun r => r.bad == none
        | _ => false) = true ∧ (coreOf contracting 0).halted = false ∧ contracting.errs = [] := by decide
/-- The contraction of a phase that has fired. -/
def firing : State := later (next (.cxt cxtArgs 5 noExt) (pointState 2 1))
theorem witness_AccumulatorWork_phase : (teamOf firing 0).any (fun m => (mapGet m.jobs 10).any fun j =>
      isContract j.kind && isResident m && !jobHeld m 10 j && !arrayHeld firing m 10 && jobTimed firing m j && j.block == 0 &&
      j.row == 0 && j.rv == some 5 && (rvOf m 5).held == [] && (rvOf m 5).firing == some 10 && match j.kind with
        | .contract _ _ _ _ rows => rows.all fun r => r.bad == none
        | _ => false) = true ∧ (coreOf firing 0).halted = false ∧ firing.errs = [] := by decide
theorem test_cxt_fires : (teamOf (next (.contractionComplete 0 10) firing) 0).any (fun m =>
    (rvOf m 5).phase == 5 && (rvOf m 5).arrivals == 0 && (rvOf m 5).firing == none) = true := by decide
/-- A contraction is not over before the array has taken its steps (R196, R383). -/
theorem test_cx_time : (teamOf (next (.contractionComplete 0 10) { contracting with now := 0 }) 0).any
    (fun m => m.jobs != []) = true := by decide
/-- Four products of 1 and 2 on a cleared element: 8. -/
theorem test_cx : (teamOf (next (.contractionComplete 0 10) contracting) 0).any
    (fun m => accWord m 0 == 0x41000000 && m.jobs == []) = true := by decide

def accArgs : Args := args .none (.k 4) (.imm 0) (vReg 4)
def someAcc : List Instr :=
  [.accwr accArgs false, .accclr (args .none (.k 4) .none .none), .accmv (args .none (.k 4) (.imm 1) .none),
   .accpk cxtArgs ⟨0, 0, 0, 0⟩, .accup cxtArgs ⟨0, 0, 0, 0⟩]
/-- The conversion word of FP16 (R204). -/
def accState : State := withTrain fun t => { t with k := [(4, 1)] }
theorem witness_AccumulatorIssues : ([.accpk cxtArgs ⟨0, 0, 0, 0⟩, .accup cxtArgs ⟨0, 0, 0, 0⟩] : List Instr).all
      (fun i => issuesWith accState i fun _ x => (accRule x i).any fun r => r.2.1 &&
        r.2.2.1.all (fun p => p.2 == 0 || p.1 + p.2 ≤ x.team.accSize) &&
        r.2.2.2.1.all (fun p => p.2 == 0 || p.1 + p.2 ≤ x.team.scrSize) &&
        !storesMeet x.uid x.train ((r.2.2.1.map fun p => (true, p.1, p.2)) ++ footprint r.2.2.2.2) &&
        !jobBlocks x.team x.tn ((r.2.2.1.map fun p => (true, p.1, p.2)) ++ footprint r.2.2.2.2)) = true ∧
    (someAcc.take 3).all (fun i => issuesWith state4 i fun _ x => (accRule x i).any fun r => r.2.1 &&
        r.2.2.1.all (fun p => p.2 == 0 || p.1 + p.2 ≤ x.team.accSize) &&
        !storesMeet x.uid x.train ((r.2.2.1.map fun p => (true, p.1, p.2)) ++ footprint r.2.2.2.2) &&
        !jobBlocks x.team x.tn ((r.2.2.1.map fun p => (true, p.1, p.2)) ++ footprint r.2.2.2.2)) = true ∧
    issuesWith state4 (.accrd (args (vReg 9) (.k 4) (.imm 8) .none) false) (fun _ x => 8 + 4 ≤ x.team.accSize &&
      !storesMeet x.uid x.train (x.lanes.map fun _ => (true, 8, 4)) &&
      !jobBlocks x.team x.tn (x.lanes.map fun _ => (true, 8, 4))) = true ∧
    accState.errs = [] ∧ state4.errs = [] := by decide
/-- Lanes in ascending order: the highest lane's word stays (R202). -/
def accWriting : State := next (.accwr accArgs false) state4
theorem witness_AccumulatorWork_write : (teamOf accWriting 0).any (fun m => (mapGet m.jobs 10).any fun j =>
    !isContract j.kind && isResident m && !jobHeld m 10 j) = true := by decide
theorem test_accwr : (teamOf (next (.accumulatorInstructionComplete 0 10) accWriting) 0).any
    (fun m => accWord m 0 == 13 && accWord m 1 == 0) = true := by decide +kernel

/-! ## Engines -/

def copyArgs (dir : BitVec 2) : Args :=
  { bareArgs .f128 .none (if dir = 2 then .none else .b 1) (.k 7) (.k 7) with guard := 1 }
/-- Two rows of 272 bytes, to the scratchpad, from it, or to the sibling, with a bitmap at 1,024. -/
def copyM (dir : BitVec 2) : CopyMods := ⟨dir, false, 0, if dir = 2 then 0 else 64, false, 0, 128, true, 1, 16, 0, 0, 0⟩
/-- One lane copies; the team is its own sibling 0. -/
def copyState : State := deepWith fun t => { t with p := [(1, 1)] }
def copying (dir : BitVec 2) : State := next (.bcopy (copyArgs dir) (copyM dir)) copyState
theorem witness_CopyEngine : ([0, 1, 2] : List (BitVec 2)).all (fun d =>
    issuesWith copyState (.bcopy (copyArgs d) (copyM d)) fun a x =>
      !x.team.determ && match copyChecks copyState x a (copyM d) x.lanes with
        | (ok, []) => calm copyState && !jobBlocks x.team x.tn (copySpans x.team.sib ok) &&
          !bitmapStores copyState x ok &&
          copiesOn copyState x.core + x.lanes.length ≤ 64
        | _ => false) = true := by decide +kernel
theorem witness_CopyEngine_chunk : ([0, 1, 2] : List (BitVec 2)).all (fun d =>
    (teamOf (copying d) 0).any fun m => (mapGet m.copies 10).any fun c => c.left == [0, 1] && c.rv == none &&
      c.dir == d.toNat && c.taken == [] && c.moved == [] && (copying d).pick == [] && (copying d).errs == [] &&
        (copying d).partials == [] &&
      (trainOf (copying d) 0 c.train).any (fun t => !storesBefore (copying d) 0 c.train c.seq t.sq) &&
      (trainOf (copying d) 0 c.train).any (fun t => !sourceStores (copying d) 0 c t.sq (chunkBytes c 1)) &&
      !(linesOf ((chunkBytes c 1).map fun o => pageAddr c.pages (copyByte c o).1)).any (lineBusy (copying d)) &&
      !(linesOf ((chunkBytes c 1).map fun o => pageAddr c.pages (copyByte c o).2)).any (lineUpdating (copying d)))
    = true := by decide +kernel
/-- The same without a bitmap. -/
theorem witness_CopyEngine_plain : ([0, 2] : List (BitVec 2)).all (fun d =>
    let s := next (.bcopy (copyArgs d) { copyM d with bm := false, bmoff := 0 }) copyState
    (teamOf s 0).any fun m => (mapGet m.copies 10).any fun c => c.left == [0, 1] && c.rv == none && c.bm == none &&
      c.dir == d.toNat && c.taken == [] && c.moved == [] && calm s && s.pick == [] && s.errs == [] &&
      (teamOf s (bitmapTeam s 0 c)).isSome) = true := by decide +kernel
/-- The second row is 1,024 bytes further on, and its byte 240 begins chunk 1, which sets bit 1 of the
bitmap. -/
theorem test_bcopy : (teamOf (next (.copyChunkDone 0 10 1) (setMem (copying 0) [(0x1004F0, 0x5A)])) 0).any
    (fun m => scrGet m 512 == 0x5A && scrGet m 1024 == 2) = true := by decide +kernel

def sdefM : SdefMods := ⟨false, true, 2, 2, 1, 1, 0, 2⟩
def sdefArgs : Args := bareArgs .f128 (.k 4) (.k 2) (.imm 1) (.k 5)
theorem witness_Streams : issuesWith deep (.sdef sdefArgs sdefM) (fun _ x =>
      (mapGet x.train.streams 1).isNone && (mergeOut deep x.uid x.tn 1).isNone && streamsOn deep x.core < 256 &&
      (match devXlate deep x.team.ctx .write (bGet x.train 2 &&& ~~~7).toNat with
        | .ok _ => true
        | .error _ => false)) = true ∧ deep.partials = [] ∧ noOwner deep = true := by decide +kernel
def streaming : State := next (.sdef sdefArgs sdefM) deep
theorem witness_Streams_fetch : (teamOf streaming 0).any (fun m => (trainOf streaming 0 0).any fun t =>
      (mapGet t.streams 1).any fun k => isResident m && k.state == 0 && k.fetched < k.count && k.dir &&
        k.limit == 0 && k.fifo.length < 64 && k.ahead == [] && match (fetchElem streaming 0 0 m.ctx t k).2.1 with
          | .ok _ => true
          | _ => false) = true ∧ (coreOf streaming 0).halted = false ∧ noOwner streaming = true ∧
            streaming.partials = [] ∧ streaming.pick = [] := by decide +kernel
def popState : State := withTrain fun t => { t with streams := [(1, { stream4 with count := 2 })] }
theorem witness_Streams_pop :
    issuesWith popState (.movStream (args (vReg 9) (.q 1) .none .none) noMods) (fun _ x =>
      (mergeOut popState x.uid x.tn 1).isNone && (mapGet x.train.streams 1).any fun k =>
        (k.asz == 8) == false && min x.lanes.length (k.count - k.popped) ≤ k.fifo.length) = true ∧
    ([.sfree bare 1, .sfree bare 2] : List Instr).all (issuesIn popState) = true ∧ noOwner popState = true ∧
    ([.sstat (args (vReg 10) .none .none .none) 1, .qlen (args (vReg 9) .none .none .none) 1,
      .mstat (args (vReg 10) .none .none .none)] : List Instr).all (fun i =>
        issuesWith popState i fun _ x => (engineStatus popState x i).isSome) = true := by decide
/-- Elements go to the lanes in ascending order; past the end a lane gets 0 (R321). -/
theorem test_movStream : (after (.movStream (args (vReg 9) (.q 1) .none .none) noMods)
    popState).any (fun t =>
      (vGet t 9 0, vGet t 9 1, vGet t 9 2) == (7, 9, 0)) = true := by decide
/-- A read that the step picks stays in flight (R318). -/
theorem test_streamFetch_ahead : (trainOf (next (.streamFetch 0 0 1) { streaming with pick := [3] }) 0 0).any (fun t =>
      (mapGet t.streams 1).any fun k => k.fifo == [] && k.ahead.map (·.1) == [1]) = true := by decide +kernel
/-- An element of 4 bytes from the base in b1. -/
theorem test_streamFetch : (trainOf (next (.streamFetch 0 0 1) { streaming with
    mem := memPutBytes streaming.mem 0x100000 [0x34, 0x12] }) 0 0).any (fun t =>
      (mapGet t.streams 1).any fun k => k.fifo == [0x1234]) = true := by decide +kernel

/-- A descriptor of two inputs, of one pair each, at 0x100000 and 0x100080, output at 256 of the
scratchpad. -/
def mergeState : State := deepOf { team4 train4 with
  scr := [(0, 2), (5, 1), (18, 0x10), (28, 1), (32, 0x80), (34, 0x10), (44, 1)] }
def mdefArgs : Args := bareArgs .f128 (.k 4) (.imm 0) .none .none
theorem witness_MergeTree : ([⟨1, false, false, 0, 0⟩, ⟨0, true, false, 4, 0⟩] : List MdefMods).all (fun m =>
    issuesWith mergeState (.mdef mdefArgs m) fun a x =>
      let o := srcNat x.train a.s1 1 0 / 16 * 16
      let d := (List.range 144).map fun i => scrGet x.team (o + i)
      !mergeBusy mergeState x && !storesMeet x.uid x.train [(false, o, 144)] && o + 144 ≤ x.team.scrSize &&
        !jobBlocks x.team x.tn [(false, o, 144)] &&
      (!m.scr || natLE ((d.drop 4).take 4) / 8 * 8 + 8 * m.k.toNat ≤ x.team.scrSize && m.k != 0) &&
      mergeDescOk d) = true ∧ noOwner mergeState = true ∧ mergeState.errs = [] := by decide +kernel
def merging : State := next (.mdef mdefArgs ⟨1, false, false, 0, 0⟩) mergeState
theorem witness_MergeTree_best : bestHead false 0 [⟨0, 1, 0, false, [(0, 3)]⟩, ⟨0, 1, 0, false, [(0, 5)]⟩,
    ⟨0, 1, 0, false, [(0, 5)]⟩] = some (1, 5) := by decide
def mnextArgs : Args := args (.k 4) (.imm 1) .none .none
theorem witness_MergeTree_next : issuesWith state4 (.mnext mnextArgs false) (fun _ x =>
      (mergeOf state4 x.uid x.tn).isNone) = true ∧
    issuesWith merging (.mnext mnextArgs false) (fun _ x => (mergeOf merging x.uid x.tn).isSome &&
      x.split.resume == .none) = true ∧
    issuesWith (begins merging) (.mnext mnextArgs false) (fun a x => (mergeOf (begins merging) x.uid x.tn).any fun k =>
      x.split.resume == .begun && !storesBefore (begins merging) x.uid x.tn x.train.seq x.train.sq &&
      (begins merging).partials == [] && (begins merging).pick == [] && k.scr == none && !storesMeet x.uid x.train [] &&
      match mergeRun x.team.ctx (min 64 (srcNat x.train a.s1 1 0) - k.kept) k (begins merging) with
        | (_, _, none) => true
        | _ => false) = true ∧
    issuesIn merging (.mfree bare) = true := by decide +kernel
/-- The inputs' first keys, 7 and another, with the `mnext` in its own run. -/
def merged (key : Byte) : State :=
  begins (setMem merging (memPutBytes (memPutBytes merging.mem 0x100000 [7]) 0x100080 [key]))
theorem witness_MergeTree_emit : issuesWith (merged 9) (.mnext mnextArgs false) (fun a x => x.split.resume == .begun &&
    calm (merged 9) && !storesBefore (merged 9) x.uid x.tn x.train.seq x.train.sq &&
    (mergeOf (merged 9) x.uid x.tn).any fun k => min 64 (srcNat x.train a.s1 1 0) - k.kept == 1 && k.scr == none &&
      k.fifo == [] && !k.done && k.emitted == 0 && (merged 9).pick == [] && match mergeStep x.team.ctx k (merged 9) with
        | (s, .emit _ v) => v == 9 && s == merged 9
        | _ => false) = true := by decide +kernel
/-- Heads 7 and 9 stand in memory; input 1 is live for 9 and input 0 for no more than 7; with an exhausted input
none is. -/
theorem witness_MergeTree_step : (mergeOf (merged 9) 0 0).any (fun k => !k.done && k.k == 0 &&
    k.ins.map (fun i => (i.ended, i.cursor == i.count)) == [(false, false), (false, false)] &&
    calm (merged 9) && (k.ins.zip [7, 9]).all fun e => e.1.ahead == [] && match engineRead (merged 9) 0 ((e.1.base.toNat + 8 * e.1.cursor) % 2 ^ 80) 8 with
      | .ok v => v == e.2
      | _ => false) = true := by decide +kernel
def mergeIn (done : Bool) : Merge := ⟨0, 0, 1, none, false, 0, 0, 0, [⟨0x100000, 1, 1, done, []⟩], [], 0, 0, false⟩
theorem witness_MergeTree_done : ([true, false] : List Bool).all (fun d => (mergeIn d).ins.all fun i =>
    i.cursor == i.count) = true := by decide
/-- A pair on its way into the scratchpad list. -/
theorem witness_MergeTree_output : (teamOf merging ({ mergeIn true with scr := some 8 } : Merge).uid).isSome = true := by
  decide +kernel
/-- A head that is read and not emitted is held (R327); the next pair of its input may be read ahead of it (R323). -/
theorem test_mnext_held : (coreOf (next (.mnext mnextArgs false) (merged 9)) 0).merge.any
    (fun k => k.ins.map (·.ahead) == [[(0, 7)], []]) = true := by decide +kernel
/-- Keys 7 and 9: the second input's pair goes first (R324). -/
theorem test_mnext : (coreOf (next (.mnext mnextArgs false) (merged 9)) 0).merge.any
    (fun k => k.fifo == [9] && k.emitted == 1 && k.ins.map (·.cursor) == [0, 1]) = true := by decide +kernel

/-! ## Launches and tasks -/

/-- Bytes of a record: values of the given widths, in order. -/
def fieldsOf (l : List (Nat × Nat)) : List Byte := l.flatMap fun e => natLe e.1 e.2
/-- A kernel header of 4 lanes (R53): 256 registers, budget 256, split 4, 4,096 bytes of scratchpad. -/
def headerBytes (task : Bool) : List Byte :=
  fieldsOf [(4, if task then 0x101 else 1), (4, if task then 32 else 32 + 4 * 2 ^ 16), (4, 4), (4, 4096), (1, 32)]
/-- A launch record (R130): priority 2, two teams, the header at 0x180000. -/
def recordBytes : List Byte := fieldsOf [(4, 0x201), (4, 9), (4, 2), (4, 0), (16, 0x180000), (16, 0x190000),
  (16, 0x1A0000), (16, 0x1B0000), (8, 4096)]
/-- Headers at 0x180000 and 0x180040, a record at 0x181000, entry 3 of the task table at 0x182060, an
event that is complete at 0x183000, and a queue's tail of 1 at 0x183010. -/
def launchMem : Memory :=
  let m := memPutBytes (memPutBytes nopState.mem 0x180000 (headerBytes false)) 0x180040 (headerBytes true)
  let m := memPutBytes (memPutBytes m 0x181000 recordBytes) 0x182060 (fieldsOf [(12, 0x180040), (4, 3), (10, 0x1C0000)])
  memPutBytes (memPutBytes m 0x183000 [1]) 0x183010 [1]
def launchBase : State := { deepOf (team4 { train4 with
    b := [(1, 0x181000)]
    p := [(1, 1)] }) with
  mem := launchMem
  parts := [(0, { partInit with mask := 1 })]
  ctxs := [(0, { placeCtx ctx4 with
    tasktable := 0x182000
    lq := [⟨0x181000, 1, 0x183010⟩]
    bells := [(0, none)] })] }
def unplaced : Launch := { placeLaunch with
  placed := 0
  teams := 2
  lanes := 4
  width := 4 }
def crowded : State := { launchBase with launches := (List.range 1024).map fun n => (n, unplaced) }
def glaunchI : Instr := .glaunch (args (.k 4) (.b 1) (.imm 0) .none) false
theorem witness_LaunchCommands_full : issuesWith (begins crowded) glaunchI (fun _ x => x.split.resume == .begun &&
      x.train.sq == [] && x.train.prods == [] && decide (1024 ≤ unstarted (begins crowded) x.team.ctx)) = true ∧
    issuesWith crowded glaunchI (fun _ x => x.split.resume == .none) = true ∧
    calm (begins crowded) = true ∧ noOwner (begins crowded) = true := by decide +kernel
/-- The launching states with the instruction in its own run. -/
def launching : State := begins launchBase
theorem witness_LaunchCommands_accepted : calm launching = true ∧ noOwner launching = true ∧
    issuesWith launching glaunchI (fun _ x => x.split.resume == .begun && x.train.sq == [] && x.train.prods == [] &&
    decide (unstarted launching x.team.ctx < 1024) && match devLoad launching x.team.ctx 0x181000 160 with
      | .error _ => false
      | .ok bs => recordOk bs && natLE ((bs.drop 8).take 4) != 0 &&
        match devLoad launching x.team.ctx (natLE ((bs.drop 16).take 10)) 64 with
          | .error _ => false
          | .ok hb => (parseHeader hb).any fun h => !h.task) = true := by decide +kernel
/-- Accepted with status 0; four lanes and two teams at priority 2. -/
theorem test_glaunch : (after glaunchI launching).any (fun t => kGet t 4 == 0) = true ∧
    (next glaunchI launching).launches.map (fun l => (l.2.lanes, l.2.teams, l.2.prio)) = [(4, 2, 2)] := by
  decide +kernel
theorem witness_LaunchCommands_bell : (ctxOf launchBase 0).lq[0]?.any (fun (q : LqRegs) => q.size != (0 : BitVec 5) &&
    (ctxOf launchBase 0).created && (ctxOf launchBase 0).bells.contains (0, none) && bellUpto (ctxOf launchBase 0) 0 == none &&
    (match devLoad launchBase 0 q.ctl.toNat 16 with
      | .ok ctl => natLE (ctl.take 8) == natLE ((ctl.drop 8).take 8) + 1
      | .error _ => false) && decide (unstarted launchBase 0 < 1024) &&
    calm launchBase && noOwner launchBase && match devLoad launchBase 0 q.base.toNat 160 with
      | .ok bs => (acceptRecord launchBase 0 q.base bs).2
      | .error _ => false) = true := by decide +kernel
def depending (va : Addr) : State := { launchBase with launches := [(7, { unplaced with
  ready := false
  deps := [(va, 1)] })] }
theorem witness_LaunchCommands_ready : ([(0x183000, 1), (0x184000, 0)] : List (Addr × Nat)).all (fun e =>
    (mapGet (depending e.1).launches 7).any fun l => !l.ready && calm (depending e.1) && noOwner (depending e.1) &&
      match devLoad (depending e.1) l.ctx e.1.toNat 8 with
      | .ok bs => natLE (bs.take 1) == e.2
      | .error _ => false) = true := by decide +kernel
def tlaunchI : Instr := .tlaunch { args (vReg 9) (.k 2) (.k 2) (.imm 3) with guard := 1 } 0
def aTask : Task := ⟨0, 3, 0x55, 0x180040, 0x1C0000, 0, 0⟩
def aTrain : Departed := ⟨[aTask], 256, 256, 4, 4096, 0, none⟩
def pendingState : State := { launchBase with cores := [(0, { core4 with
  departed := [{ aTrain with tasks := List.replicate 256 aTask }] })] }
theorem witness_LaunchCommands_tlaunch : ([begins pendingState, launching] : List State).all (fun s => calm s &&
  noOwner s &&
      issuesWith s tlaunchI fun _ x => !x.team.determ && x.split.resume == .begun && x.lanes == [0] &&
        (coreOf s x.core).forming == []) = true ∧
    issuesWith launchBase tlaunchI (fun _ x => !x.team.determ && x.split.resume == .none) = true ∧
    256 ≤ pendingTasks (coreOf (begins pendingState) 0) ∧ pendingTasks (coreOf launching 0) < 256 ∧
    (taskEntry launching 0 3).2.isSome = true := by decide +kernel
theorem test_tlaunch : (coreOf (next tlaunchI launching) 0).forming.map (fun f =>
    (f.close, f.tasks.map fun t => (t.task, t.header, t.rec_.extractLsb' 0 64))) =
    [(32, [(3, 0x180040, 0xFFFFFFFE00000005)])] := by decide +kernel
/-- A hold that is over, on a core that has had no room before, and on one that has. -/
def holdOver (room : Bool) : State := modTrain pendingState 0 0 fun t => { t with
  siding := [⟨0x200000, 15, .waiting .unit, false, .tlaunch [] [1, 2] 0 room, false⟩] }
theorem witness_LaunchCommands_expire : ([false, true] : List Bool).all (fun r =>
      (trainOf (holdOver r) 0 0).any fun t => (t.siding[0]?).any fun p =>
        p.resume == .tlaunch [] [1, 2] 0 r && p.st == .waiting .unit && (holdOver r).now == 0) = true := by decide +kernel
/-- The lane receives NO_ROOM, or still has its place (R301). -/
theorem test_tlaunchHold : [false, true].map (fun r => (after (.tlaunchHoldExpire 0 0) (holdOver r)).map fun t =>
    t.siding.map (·.resume)) = [some [.tlaunch [(1, 2)] [2] 2048 false], some [.tlaunch [] [1, 2] 0 true]] := by
  decide +kernel

def placing : State := { launchBase with
  launches := [(7, unplaced)]
  teams := [] }
theorem witness_TeamLife : ranked placing 0 = [7] ∧ mapGet placing.launches 7 = some unplaced ∧
    firstStand (standing placing 0) = some (launchStand placing 0 7 unplaced) ∧
      launchSpot placing unplaced = some [0] := by decide +kernel
theorem test_teamPlace : (trainOf (next (.teamPlace 0) placing) 10 0).any (fun t =>
    t.siding.map (fun p => (p.pc, p.mask)) == [(0x200000, 15)] && t.budget == 256) = true := by decide +kernel
def retiring : State := { launchBase with
  launches := [(7, { unplaced with placed := 1 })]
  teams := [(0, { team4 { train4 with ended := true } with
    launch := some 7
    events := 0x1A0000 })] }
theorem witness_TeamLife_retire : (teamOf retiring 0).any (fun m => m.loc != .retired (coreOfTeam m) &&
    retireReady retiring 0 m && m.csize == 1 && closingOf retiring m == [] && noOwner retiring &&
      match devStore retiring m.ctx 0x1A0000 (natLe 8 1) with
      | .ok _ => true
      | .error _ => false) = true := by decide +kernel
/-- The completion event: status 1, core 0 (R155). -/
theorem test_teamRetire : homeByte (next (.teamRetire 0) retiring) 0x1A0000 = 1 ∧
    (next (.teamRetire 0) retiring).teams = [] := by decide +kernel
def departing (f : List Forming) (d : List Departed) : State := { launchBase with
  teams := []
  cores := [(0, { core4 with
    forming := f
    departed := d })] }
def oneGone : State := departing [] [aTrain]
theorem witness_TeamLife_task : taskFits oneGone 0 aTrain = true ∧
    (coreOf oneGone 0).departed = [aTrain] := by decide +kernel
theorem test_taskTrainPlace : (trainOf (next (.taskTrainPlace 0 0) oneGone) 10 0).any (fun t =>
    vGet t 0 0 == 0x55 && t.siding.map (fun p => (p.pc, p.mask)) == [(0x180080, 1)]) = true := by decide +kernel

def queued : State := { launchBase with slices := [(0, ⟨[⟨0, aTask, none, some 3⟩], []⟩)] }
theorem witness_Continuations_accept : (sliceOf queued 0).queue = [⟨0, aTask, none, some 3⟩] ∧
    queued.net = [] ∧ (ctxCores queued 0).contains 0 = true ∧
    pendingTasks (coreOf queued 0) < 256 ∧
      (coreOf queued 0).forming.all (fun f => !formsFor queued.now aTask f) = true := by
  decide +kernel
def gathering : State := departing [⟨[aTask], 0⟩] []
theorem witness_Continuations_steal : calm gathering = true ∧ noOwner gathering = true ∧
    (departedOf gathering [aTask]).2.lost = 0 ∧ platformIdle gathering 1 = true ∧
    (coreOf gathering 0).departed = [] ∧ (coreOf gathering 0).forming = [⟨[aTask], 0⟩] ∧ gathering.now = 0 ∧
    sharesPart gathering 1 0 0 = true := by decide +kernel
theorem test_gather : (coreOf (next (.gatherWindowClose 0 0) gathering) 0).departed =
      [aTrain] ∧
    (coreOf (next (.platformSteal 1 0) gathering) 1).departed = [aTrain] := by decide +kernel

/-- A `casl` of one lane on its way to slice 0x40 of the home: v4 is 10, compared with v5, 3. -/
def caslBase : State := next (.storePortPass 0 0)
  (next (.casl { atomArgs with dst := vReg 10, guard := 1 } ⟨3, false, 0, false, .none⟩) launchBase)
def caslReq : Req := (mapGet caslBase.net 11).getD noReq
def caslFull : State := { caslBase with slices := [(homeSlice (128 * caslReq.line),
  ⟨List.replicate 64 ⟨0, aTask, none, none⟩, []⟩)] }
def caslTill (till : Nat) : State := { caslBase with
  net := [(11, { caslReq with stage := .holding till })]
  slices := [(homeSlice (128 * caslReq.line), ⟨[], [11]⟩)] }
def caslHeld : State := caslTill 0
def caslOne (r : Req) : Bool := match r.ops with
  | [o] => o.addrs == (List.range 4).map (0x181000 + ·) && o.lane == 0 && match o.op with
    | .casl 3 _ => true
    | _ => false
  | _ => false
theorem witness_Continuations_casl : (mapGet caslBase.net 11).any (fun r => r.stage == .toHome && caslOne r &&
      reqReady caslBase 11 r && reqReady caslFull 11 r && !lineBusy caslBase r.line &&
      r.olds == [] && r.oks == 0 && (sliceOf caslBase (homeSlice (128 * r.line))).queue == [] &&
      (sliceOf caslBase (homeSlice (128 * r.line))).waiting == [] &&
      (sliceOf caslFull (homeSlice (128 * r.line))).queue.length == 64) = true ∧ caslBase.errs = [] ∧
    caslBase.partials = [] ∧ noOwner caslBase = true := by decide +kernel
/-- The comparison fails (v10 is 0); holds on a page that cannot be written; and holds, with a usable entry. -/
def caslCase (cmp : DWord) (w : Bool) : State := { caslBase with net := [(11, { caslReq with
  ops := caslReq.ops.map fun o => { o with cmp := cmp, mayWrite := w } })] }
theorem witness_Continuations_caslCases : caslReq.ops.map (fun o => (o.cmp, o.mayWrite)) = [(0, true)] ∧
    natLE (((List.range 4).map (0x181000 + ·)).map (homeByte caslBase)) = 0x201 ∧
    ([false, true] : List Bool).all (fun w => (mapGet (caslCase 0x201 w).net 11).any fun r =>
      r.ops.all (fun o => o.cmp == 0x201 && o.mayWrite == w) &&
      (taskEntry (homePerform (caslCase 0x201 w) 11 r).1 r.ctx 3).2.isSome) = true := by decide +kernel
/-- Status 1 with the word as read; PROTECTION, reason 1; 0 with the launch enqueued (R280, R293, R341). -/
theorem test_casl : ([(0, true, [(0, 0x100000201)], [], 0), (0x201, false, [], [(0, 0x61)], 0),
      (0x201, true, [(0, 0x201)], [], 1)] : List (DWord × Bool × AMap QWord × AMap (BitVec 8) × Nat)).all (fun e =>
    (mapGet (next (.caslHome 11) (caslCase e.1 e.2.1)).net 11).any (fun r => r.olds == e.2.2.1 && r.bad == e.2.2.2.1) &&
    (sliceOf (next (.caslHome 11) (caslCase e.1 e.2.1)) (homeSlice 0x181000)).queue.length == e.2.2.2.2) = true := by
  decide +kernel
theorem witness_Continuations_held : ([0, 1] : List Nat).all (fun n => (mapGet (caslTill n).net 11).any fun r =>
      r.stage == .holding n && caslOne r && r.olds == [] && r.oks == 0 && noOwner (caslTill n) &&
      (sliceOf (caslTill n) (homeSlice (128 * r.line))).waiting == [11] && !lineBusy (caslTill n) r.line &&
      (sliceOf (caslTill n) (homeSlice (128 * r.line))).queue == [] && !holdBehind (caslTill n) 11 r &&
      (caslTill n).partials == [] && (caslTill n).errs == [] && (caslTill n).now == 0) = true := by decide +kernel
/-- No context of these states checks scopes. -/
theorem noScopechk (s : State) (n : Nat) (c : Ctx) (h : s.ctxs = [(n, c)]) (hc : c.scopechk = false) (k : Nat) :
    (ctxOf s k).scopechk = false := by
  rw [ctxOf, h]
  by_cases hk : n = k
  · simp [mapGet, hk, hc]
  · simp [mapGet, hk]; rfl
theorem witness_Continuations_scope : (∀ c, (ctxOf caslBase c).scopechk = false) ∧
    (∀ c, (ctxOf (caslTill 0) c).scopechk = false) ∧ ∀ c, (ctxOf (caslTill 1) c).scopechk = false :=
  ⟨noScopechk _ 0 (ctxOf caslBase 0) (by decide +kernel) (by decide +kernel),
    noScopechk _ 0 (ctxOf (caslTill 0) 0) (by decide +kernel) (by decide +kernel),
    noScopechk _ 0 (ctxOf (caslTill 1) 0) (by decide +kernel) (by decide +kernel)⟩
/-- The hold of a `casl` that found no room has ended: the word as read and status 2 (R293). -/
theorem test_caslHold : (mapGet (next (.caslHoldExpire 11) caslHeld).net 11).any (fun r =>
    r.olds == [(0, 0x200000201)]) = true := by decide +kernel

/-! ## Caches, translation, the host -/

def aLine : L2Line := ⟨0x77, true, [0], [⟨3, [0], [], 0, 0⟩], none, false, 0, 0⟩
/-- Line 0x2000 is modified in L2, with a sharer and a replica, and in core 0's L1. -/
def cached : State := { deep with
  l2 := [(0x2000, aLine)]
  cores := [(0, { core4 with l1 := [(0x2000, ⟨0x77, 15, none, none, false, false⟩)] })] }
theorem witness_CachesAndHost_lines : mapGet cached.l2 0x2000 = some aLine ∧ aLine.modified = true ∧
    lineUpdating cached 0x2000 = false ∧ cached.errs = [] ∧ cached.partials = [] ∧
    (aLine.replicas.any fun r => r.slice == 3 && r.supplied == [0]) = true := by decide +kernel
theorem test_l2Evict : memGet (next (.l2Evict 0x2000) cached).mem 0x100000 = 0x77 ∧
    (mapGet (coreOf (next (.l2Evict 0x2000) cached) 0).l1 0x2000).isNone = true := by decide +kernel
theorem witness_CachesAndHost_walk : tlbFind (dieAt deep (dieOf 0)).tlb 0 (4 * 2 ^ 18) = none ∧
    (match walk deep 0 (4 * 2 ^ 18) with
      | .ok e => e == ⟨0, 33, 0, 0, true, true, true⟩
      | .error _ => false) = true ∧ calm deep = true := by decide +kernel
theorem witness_CachesAndHost_host : answersHost cached = true ∧ regionOf 0x100040 = .hbm ∧
    present cached 0x100040 = true ∧ lineBusy cached 0x2000 = false ∧ partialWords cached 0x2000 = [] ∧
    inRequest 0x100040 4 = true ∧ regionOf 0x20000000000000 = .host ∧
    mapGet cached.l2 (0x20000000000000 / 128) = none ∧ inRequest 0x20000000000000 8 = true := by decide +kernel
theorem test_hostWrite : homeByte (next (.hostWrite 0x100001 [0x9A]) cached) 0x100001 = 0x9A ∧
    (next (.hostRead 0x100000 2) (next (.hostWrite 0x100001 [0x9A]) cached)).hostOut = [0x77, 0x9A] := by
  decide +kernel
def hostLine : Nat := 0x20000000000000 / 128
def hostHeld : State := { deep with l2 := [(hostLine, aLine)] }
theorem witness_CachesAndHost_recall : regionOf (128 * hostLine) = .host ∧ lineBusy hostHeld hostLine = false ∧
    hostHeld.partials = [] ∧ hostHeld.errs = [] ∧ mapGet hostHeld.l2 hostLine = some aLine := by decide +kernel
theorem test_recall : (homeByte (next (.hostOwnershipRecall hostLine [(1, 5)]) hostHeld) 0x20000000000000,
    homeByte (next (.hostOwnershipRecall hostLine [(1, 5)]) hostHeld) 0x20000000000001) = (0x77, 5) := by
  decide +kernel
theorem witness_CachesAndHost_error : regionOf 0x100004 = .hbm ∧ inFlight state4 (.hbm 0x100004) = false ∧
    ErrPlace.hbm (0x100004 / 8 * 8) ∉ state4.errs := by decide

/-! ## Runs and pre-emption -/

/-- Pipe 0 has no run. -/
def idle (m : Team) : State := { deepOf m with cores := [(0, { core4 with pipes := [] })] }
/-- The same with its train seen ready. -/
def readied : State := settleStep (idle (team4 train4))
theorem witness_RunsAndPreemption : slotOpen readied 0 0 = true ∧
    (slotPick (boundTo readied 0 0)).any (fun b => b.tn == 0 && b.idx == some 0) = true := by
  decide +kernel
theorem test_runSlot : (pipeOf (coreOf (next (.runSlot 0 0) readied) 0) 0).run = some ⟨0, 0, 0, 0⟩ := by
  decide +kernel
/-- A train whose next instruction must wait is not ready (R137): the word of `iadd v9, v4, v6` with v6 empty. -/
theorem test_notReady : [[], [6]].map (fun e => (trainOf (settleStep { idle (team4 { train4 with empty := e }) with
    mem := memPutBytes deep.mem 0x200000 (bytesLE 8 0x0000000C0404B900) }) 0 0).map (·.next)) =
    [some (some 0), some none] := by decide +kernel
/-- A trap of code 5 whose record waits for room in the queue. -/
def pending : State :=
  let s := idle (team4 { train4 with pend := some ⟨0, 5, [someRec]⟩ })
  { s with ctxs := [(0, { placeCtx ctx4 with
    fqWait := [.train 0 0]
    trapmask := 16
    vector := 0x300000 })] }
theorem witness_RunsAndPreemption_entry : (trainOf pending 0 0).any (fun t => t.pend == some ⟨0, 5, [someRec]⟩ &&
      t.handler.isNone && (t.siding[0]?).isSome) = true ∧ (ctxOf pending 0).fqWait = [.train 0 0] ∧
    (ctxOf pending 0).trapmask.getLsbD 4 = true ∧ (ctxOf pending 0).vector ≠ 0 ∧
    (match writeRecs (modCtx pending 0 fun c => { c with fqWait := [] }) 0 [someRec] with
      | .ok _ _ => true
      | _ => false) = true := by decide +kernel
theorem test_trapEntry : (trainOf (next (.trapEntry 0 0) pending) 0 0).any (fun t => t.pend.isNone && t.trap == 5 &&
    t.siding.map (·.pc) == [0x300000]) = true := by decide +kernel
def deferring : State := idle (team4 { train4 with defer := [mkDeferred 15 4 0 0x40 4 0] })
theorem witness_RunsAndPreemption_defer : (teamOf deferring 0).any (fun m => (trainOf deferring 0 0).any fun t =>
    t.defer == [mkDeferred 15 4 0 0x40 4 0] && t.siding != [] &&
    mayDefer deferring 0 0 m t) = true ∧ (coreOf deferring 0).halted = false := by decide +kernel
theorem test_preemptRequest : (coreOf (next (.preemptRequest 0) state4) 0).halted = true ∧
    (pipeOf (coreOf (next (.preemptRequest 0) state4) 0) 0).run = none := by decide

/-- A team of 8 registers per lane and no scratchpad, alone on a halted core; slots start at 8 MiB. -/
def smallTeam : Team := { team4 train4 with
  regs := 8
  scrSize := 0
  accSize := 0 }
def savedCtx : Ctx := { placeCtx ctx4 with
  save := 0x800000
  saveslots := 2 }
def halted : State := { deepOf smallTeam with
  cores := [(0, { core4 with
    halted := true
    vacating := [0] })]
  ctxs := [(0, savedCtx)]
  parts := [(0, { partInit with mask := 1 })] }
theorem witness_RunsAndPreemption_vacate : vacateSet halted 0 [0] = [0] ∧ teamOf halted 0 = some smallTeam ∧
    smallTeam.loc = .core 0 ∧ (coreOf halted 0).halted = true ∧ drained halted 0 smallTeam = true ∧
    slotsFor halted [0] = true ∧ freeSlots (ctxOf halted 0) = [0, 1] := by decide +kernel

/-- The tables lie below 8 MiB, so what is written above leaves translations as they are. -/
theorem xlate_above {s t : State} (hc : t.ctxs = s.ctxs) (hb : t.boot = s.boot) (hw : t.windows = s.windows)
    (hd : t.dies = s.dies)
    (hs : s.partials = []) (ht : t.partials = []) (hh : ∀ q, q < 0x800000 → homeByte t q = homeByte s q)
    (acc : Access) (va : Nat)
    (hr : (walkEntries s va (ctxOf s 0).ptroot.toNat walkLevels).all (fun a => a + 8 ≤ 0x800000) = true) :
    devXlate t 0 acc va = devXlate s 0 acc va := by
  apply devXlate_congr hc hb hw hd
  intro e he
  apply entryAt_congr
  intro q _ h2
  have := List.all_eq_true.1 hr e he
  simp only [decide_eq_true_eq] at this
  rw [viewByte_of_noPartials ht, viewByte_of_noPartials hs, hh q (by omega)]

theorem length_imageBytes (gen off n : Nat) : (imageBytes gen off n).length = n := by simp [imageBytes]

def halted1 : State := sendAll { halted with nextId := halted.nextId + 1 } 0
theorem witness_RunsAndPreemption_image :
    ∃ s1, putImage 0 (saveSlot (ctxOf halted 0) 0) 10 (imageRanges smallTeam 10) halted1 = .ok s1 := by
  have hr : imageRanges smallTeam 10 = [(0, min (Config.imageHead 10) 1024), (2 ^ 18, 128)] := rfl
  have ha : saveSlot (ctxOf halted 0) 0 = 0x800000 := by decide +kernel
  have hp : halted1.partials = [] := by decide +kernel
  have he : halted1.errs = [] := by decide +kernel
  have hn : halted1.net = [] := by decide +kernel
  rw [hr, ha]
  have h1 := devStore_page halted1 0 0x800000 0x800000 (imageBytes 10 0 (min (Config.imageHead 10) 1024))
    (by decide +kernel) (by omega) (by rw [length_imageBytes]; omega) (by rw [length_imageBytes]; omega) hp hn he
  generalize hw : ((List.range (imageBytes 10 0 (min (Config.imageHead 10) 1024)).length).map
    (0x800000 + ·)).zip (imageBytes 10 0 (min (Config.imageHead 10) 1024)) = ws at h1
  have hd : devXlate (coherentStore halted1 ws) 0 .write 0x840000 = .ok 0x840000 := by
    rw [xlate_above (s := halted1) (by rw [(homesOnly_coherentStore _ _).1])
      (by rw [(homesOnly_coherentStore _ _).1]) (by rw [(homesOnly_coherentStore _ _).1])
      (by rw [(homesOnly_coherentStore _ _).1]) hp
      (by rw [(homesOnly_coherentStore _ _).1]; exact hp) _ _ _ (by decide +kernel)]
    · decide +kernel
    · intro q hq
      rw [homeByte_coherentStore, lastWrite_of_notMem]
      intro w hwm
      rw [← hw] at hwm
      have := (List.of_mem_zip hwm).1
      simp only [List.mem_map] at this
      obtain ⟨i, -, hi⟩ := this
      omega
  have h2 := devStore_page (coherentStore halted1 ws) 0 0x840000 0x840000 (imageBytes 10 (2 ^ 18) 128) hd
    (by omega) (by rw [length_imageBytes]; omega) (by rw [length_imageBytes]; omega)
    (by rw [(homesOnly_coherentStore _ _).1]; exact hp) ((homesOnly_coherentStore _ _).2.2.2 hn)
    ((homesOnly_coherentStore _ _).errs_nil he)
  refine ⟨coherentStore (coherentStore halted1 ws)
    (((List.range (imageBytes 10 (2 ^ 18) 128).length).map (0x840000 + ·)).zip (imageBytes 10 (2 ^ 18) 128)), ?_⟩
  simp only [putImage, Nat.add_zero, show (0x800000 : Nat) % 2 ^ 80 = 0x800000 from by omega,
    show (0x800000 + 2 ^ 18 : Nat) % 2 ^ 80 = 0x840000 from by omega, h1, h2]

/-- The team's image of generation 10 lies in slot 0. -/
def imageMem : Memory := memPutBytes (memPutBytes nopState.mem 0x800000 (imageBytes 10 0
  (min (Config.imageHead 10) 1024))) 0x840000 (imageBytes 10 (2 ^ 18) 128)
def savedTeam : Team := { smallTeam with loc := .saved 0 10 }
def savedBase : State := { halted with
  cores := []
  ctxs := [(0, { savedCtx with slots := [0] })]
  teams := [(0, savedTeam)] }
def saved : State := { savedBase with mem := imageMem }
theorem witness_RunsAndPreemption_restore : teamOf saved 0 = some savedTeam ∧ savedTeam.loc = .saved 0 10 ∧
    savedGroup saved 0 savedTeam = [0] ∧ restorable saved [0] = true ∧
    (clustersOf saved (ctxOf saved 0).partition.toNat).contains (clusterOf 0) = true ∧
    firstStand (standing saved (ctxOf saved 0).partition.toNat) =
      some (savedStand saved (ctxOf saved 0).partition.toNat 0 savedTeam) ∧ calm saved = true ∧
    canRestore saved 0 savedTeam = true := by decide +kernel
theorem memGet_imageMem (q : Nat) : memGet imageMem q =
    if 0x840000 ≤ q ∧ q < 0x840000 + 128 then Config.imageByte 10 (q - 0x800000)
    else if 0x800000 ≤ q ∧ q < 0x800000 + min (Config.imageHead 10) 1024 then Config.imageByte 10 (q - 0x800000)
    else memGet nopState.mem q := by
  have hb : ∀ off n i, i < n → ((imageBytes 10 off n)[i]?).getD 0 = Config.imageByte 10 (off + i) := by
    intro off n i hi
    simp [imageBytes, List.getElem?_range hi]
  unfold imageMem
  rw [memGet_memPutBytes, length_imageBytes]
  split
  · rename_i h
    rw [hb _ _ _ (by omega), show 2 ^ 18 + (q - 0x840000) = q - 0x800000 from by omega]
  · rw [memGet_memPutBytes, length_imageBytes]
    split
    · rename_i h
      rw [hb _ _ _ (by omega), Nat.zero_add]
    · rfl
theorem homeByte_saved (q : Nat) : homeByte saved q = memGet imageMem q := by
  have h : saved.l2 = [] := by decide +kernel
  unfold homeByte
  rw [h]
  rfl
theorem homeByte_savedBase (q : Nat) : homeByte savedBase q = memGet nopState.mem q := by
  have h : savedBase.l2 = [] := by decide +kernel
  unfold homeByte
  rw [h]
  rfl
theorem witness_RunsAndPreemption_check : imageOf saved 0 = .ok true := by
  have hx : ∀ va, (walkEntries savedBase va (ctxOf savedBase 0).ptroot.toNat walkLevels).all
      (fun a => a + 8 ≤ 0x800000) = true → devXlate saved 0 .read va = devXlate savedBase 0 .read va :=
    fun va => xlate_above (s := savedBase) (t := saved) rfl rfl rfl rfl rfl rfl (fun q hq => by
      rw [homeByte_saved, homeByte_savedBase, memGet_imageMem, if_neg (not_and.2 fun h _ => absurd h (by omega)),
        if_neg (not_and.2 fun h _ => absurd h (by omega))]) .read va
  have h1 := devLoad_page saved 0 0x800000 0x800000 (min (Config.imageHead 10) 1024)
    ((hx _ (by decide +kernel)).trans (by decide +kernel)) (by omega) (by omega) (by omega) rfl rfl
  have h2 := devLoad_page saved 0 0x840000 0x840000 128
    ((hx _ (by decide +kernel)).trans (by decide +kernel)) (by omega) (by omega) (by omega) rfl rfl
  have e1 : ((List.range (min (Config.imageHead 10) 1024)).map fun i => homeByte saved (0x800000 + i)) =
      imageBytes 10 0 (min (Config.imageHead 10) 1024) := by
    apply List.map_congr_left
    intro i hi
    rw [List.mem_range] at hi
    rw [homeByte_saved, memGet_imageMem, if_neg (by omega), if_pos (by omega), Nat.add_sub_cancel_left,
      Nat.zero_add]
  have e2 : ((List.range 128).map fun i => homeByte saved (0x840000 + i)) = imageBytes 10 (2 ^ 18) 128 := by
    apply List.map_congr_left
    intro i hi
    rw [List.mem_range] at hi
    rw [homeByte_saved, memGet_imageMem, if_pos (by omega),
      show 0x840000 + i - 0x800000 = 2 ^ 18 + i from by omega]
  have hr : imageRanges savedTeam 10 = [(0, min (Config.imageHead 10) 1024), (2 ^ 18, 128)] := rfl
  have ha : saveSlot (ctxOf saved 0) 0 = 0x800000 := by decide +kernel
  show checkImage saved 0 (saveSlot (ctxOf saved 0) 0) 10 (imageRanges savedTeam 10) = .ok true
  rw [hr, ha]
  simp only [checkImage, Nat.add_zero, show (0x800000 : Nat) % 2 ^ 80 = 0x800000 from by omega,
    show (0x800000 + 2 ^ 18 : Nat) % 2 ^ 80 = 0x840000 from by omega, h1, h2, e1, e2, if_true]

/-! ## Power, reset, monitors -/

def goodStart : StartIn := ⟨true, true, true, true, 3, 1⟩
theorem witness_PowerAndReset_start : State.reset.boot.mode ≠ 3 ∧ goodStart.imageOk = true ∧
    goodStart.stacksOk = true ∧ goodStart.diesOk = true ∧ goodStart.cxl0Ok = true := by decide
/-- A start whose image fails and one that is good: one failure, counted until the firmware is up (R379). -/
theorem test_powerOn : (next (.powerOnReset [{ goodStart with imageOk := false }, goodStart]) State.reset).boot.fails = 1 ∧
    (next (.firmwareUp [] 5) (next (.powerOnReset [goodStart]) State.reset)).boot.mode = 1 := by decide
def bootState (fails : BitVec 4) (till : Nat) : State :=
  { State.reset with boot := { Boot.reset with stage := 5, fails := fails, till := till } }
theorem witness_PowerAndReset_firmware : ([0, 3] : List (BitVec 4)).all (fun n => (bootState n 0).boot.mode == 0 &&
    (bootState n 0).boot.stage == 5 && (bootState n 0).boot.fails == n &&
      (bootState n 1).now < (bootState n 1).boot.till)
    = true ∧
    (bootState 3 0).boot.till ≤ (bootState 3 0).now := by decide
theorem test_bootTimeout : (next (.bootTimeout []) (bootState 3 0)).boot.mode = 3 := by decide
theorem witness_PowerAndReset_writes : state4.boot.mode ≠ 3 ∧ State.reset.boot.mode ≠ 3 ∧
    (ctxOf State.reset 7).created = false := by decide
theorem test_budgetWrite : (next (.budgetWrite 100) state4).budget = 600 ∧
    (partOf (next (.pweightWrite 2 300) state4) 2).weight = 44 := by decide
def due : State := { state4 with now := 12000 }
theorem witness_PowerAndReset_period : due.period ≤ due.now ∧ residents due 0 ≠ [] ∧ residents due 1 = [] := by decide
/-- One core of weight 1 and 16 W at full issue among 5 W: 64 · 5 / 16. -/
theorem test_arbiter : (coreOf (next (.arbiterPeriod 2395 [(0, 16)]) { due with
    parts := [(0, { partInit with mask := 1 })] }) 0).grant = 20 := by decide +kernel
def hotSample : Sample := ⟨[(3, 0xFFFF0640)], [(2, 700, 1)], []⟩
def sampling : State := { state4 with period := 12000 }
theorem witness_PowerAndReset_monitor : trips hotSample (dieAt sampling 1) = false ∧ sampling.boot.mode ≠ 3 ∧
    (dieAt sampling 1).sampled ≠ sampling.period ∧ hotSample.thermal = [(3, 0xFFFF0640)] := by decide
/-- A droop event of this cycle, and one of an earlier. -/
def drooped (at_ : Nat) : State := { state4 with
  now := 5
  dies := [(1, { dieAt state4 1 with
    droop := [(2, 9)]
    newAt := at_
    newDroop := [(2, 4)] })] }
theorem witness_PowerAndReset_clear : (dieAt (drooped 5) 1).newAt = (drooped 5).now ∧
    (dieAt (drooped 4) 1).newAt ≠ (drooped 4).now ∧ (drooped 4).boot.mode ≠ 3 := by decide
/-- What was added in the cycle of the clear stays (R385). -/
theorem test_monitorClear : defGet 0 (dieAt (next (.monitorClear 1 0x110) (drooped 5)) 1).droop 2 = 4 ∧
    defGet 0 (dieAt (next (.monitorClear 1 0x110) (drooped 4)) 1).droop 2 = 0 := by decide
/-- Reserved bits of the thermal word are kept 0 (R385). -/
theorem test_monitor : (dieAt (next (.monitorSample 1 hotSample []) sampling) 1).throttled = true ∧
    defGet 0 (dieAt (next (.monitorSample 1 hotSample []) sampling) 1).thermal 3 = 0x80000640 ∧
    defGet 0 (dieAt (next (.monitorSample 1 hotSample []) sampling) 1).droop 2 = 700 * 2 ^ 32 + 1 := by decide
theorem test_registerWrite : (ctxOf (next (.registerWrite (0xFF000000000000 + 0x100000000 + 0x1000 * 7 + 16 * 5) 4 0x3FFFF)
    state4) 7).trapmask = 0x1FFFF := by decide +kernel

/-! ## Contexts -/

/-- Context 0 has a command under way with its arguments. -/
def commandState (code : Nat) (args : List DWord) : State := { deep with
  parts := [(0, { partInit with mask := 1 })]
  windows := [(0, 1)]
  boot := { deep.boot with cxlUp := 3 }
  ctxs := [(0, { placeCtx ctx4 with
    command := BitVec.ofNat 64 code
    args := args
    quiesced := code == 5 })] }
theorem witness_ContextCommands : ([1, 2, 3, 4, 5, 6, 7, 8] : List Nat).all (fun n =>
    commanded (commandState n []) 0 n) = true ∧
    contextOk (commandState 1 []) (ctxOf (commandState 1 []) 0) = true := by decide +kernel
def unquiesced : State := { commandState 4 [] with teams := [] }
theorem witness_ContextCommands_translation : translatedIn (commandState 3 [0x100000, 0x40000]) 0 0x100000 0x40000 = false ∧
    argOf (commandState 3 [0x100000, 0x40000]) 0 1 = 0x40000 := by decide +kernel
/-- The mapping of the first 8 GiB overlaps the range, and goes. -/
theorem test_invalidate : (coreOf (next (.invalidateTranslation 0) (commandState 3 [0x100000, 0x40000])) 0).tlb = [] := by
  decide +kernel
theorem witness_ContextCommands_phase1 : ctxResidents unquiesced 0 = [] ∧ ctxBusy unquiesced 0 = false ∧
    (ctxOf unquiesced 0).quiesced = false := by decide +kernel
def poolAt : DWord := 0x10000000000000
def phase2 : State := commandState 5 [poolAt, 0x600000]
theorem witness_ContextCommands_phase2 : rangeList phase2 0 64 (argOf phase2 0 1) = some [] ∧
    argOf phase2 0 0 % 4096 = 0 ∧ pooled phase2 (argOf phase2 0 0) (checkpointSize (ctxOf phase2 0) []) = true ∧
    readRanges phase2 0 [] = some [] ∧ (ctxOf phase2 0).quiesced = true ∧
    calm phase2 = true ∧ commanded { commandState 5 [] with ctxs := [(0, { ctx4 with command := 5 })] } 0 5 = true := by
  decide +kernel
/-- With a team that has retired but for its scratchpad. -/
def aCkpt (ctx : Nat) : Ckpt := ⟨9, 0x10000000000000, 0, 0, ctx, placeCtx ctx4,
  [(2, { team4 train4 with
    loc := .retired 0
    scr := [(1, 7)] })], [], 3, []⟩
def restoring : State := { commandState 6 [poolAt] with ckpts := [aCkpt 0] }
theorem witness_ContextCommands_restore : findCheckpoint restoring (argOf restoring 0 0) = some (aCkpt 0) ∧
    (∃ s, putRanges 0 (aCkpt 0).ranges (modCtx { restoring with drawn := restoring.drawn + 1 } 0
      (restoredCtx restoring.nextId (aCkpt 0).ctx)) = some s ∧
      putImages 0 (aCkpt 0).teams s = some s) ∧
    restoring.partials = [] ∧ risingKeys (aCkpt 0).teams = true ∧
    findCheckpoint (commandState 6 [0x600000]) 0x600000 = none := by
  exact ⟨by decide +kernel, ⟨_, rfl, rfl⟩, by decide +kernel, by decide +kernel, by decide +kernel⟩
theorem test_restore : (teamOf (next (.restore 0) restoring) 12).any (fun m => scrGet m 1 == 7) = true ∧
    (ctxOf (next (.restore 0) restoring) 0).outcome = 2 := by decide +kernel
/-- A record at 0x600000 whose resume address is 0x200040. -/
def trappedState : State :=
  let s := commandState 7 [0, 0, 0, 0]
  { s with
    mem := memPutBytes s.mem 0x600010 (natLe 10 0x200040)
    teams := [(0, team4 { train4 with
      trapped := true
      fault := 0x600000 })] }
theorem witness_ContextCommands_resume : (findTeam trappedState 0 0 0).any (fun r => r.1 == 0 &&
    (teamOf trappedState 0 == some r.2) && (mapGet r.2.trains 0).any fun t => t.trapped && !t.ended &&
      t.prods == [] && !ownStores trappedState 0 0 t && (resumeFrom trappedState 0 0 r.2 t false).2) = true := by
  decide +kernel
theorem test_resumeTrapped : (trainOf (next (.resumeTrappedTrain 0) trappedState) 0 0).any (fun t =>
    !t.trapped && t.siding.map (·.pc) == [0x200040]) = true := by decide +kernel
theorem witness_ContextCommands_end : (findTeam (commandState 8 [0, 0]) 0 0 0).any (fun r =>
    teamOf (commandState 8 [0, 0]) r.1 == some r.2) = true := by decide +kernel
theorem test_endTeam : (teamOf (next (.endTeam 0) (commandState 8 [0, 0])) 0).any (fun m => m.aborted &&
    m.trains.all fun x => x.2.ended) = true := by decide +kernel
def completing : State := { deep with ctxs := [(0, { placeCtx ctx4 with
  command := 4
  outcome := 2
  noteDue := true })] }
theorem witness_ContextCommands_complete : (ctxOf completing 0).command ≠ 0 ∧ (ctxOf completing 0).outcome ≠ 0 ∧
    (ctxOf completing 0).noteTill ≤ completing.now ∧ (ctxOf completing 0).noteDue = true := by decide +kernel

/-! ## Links -/

def peerIn (kind : Nat) : PeerIn := ⟨9, 0, 0x100004, kind, 0, 4, [(0, 0xAB)], 7, 0, 5⟩
def peered : State := { deep with
  ctxs := [(0, { placeCtx ctx4 with peerok := true })]
  boot := { deep.boot with milern := 0xFFFF }
  now := 700000 }
/-- With every port up each route leads through one that is (the port that a route names is a free value). -/
theorem portUp_routeTo (s : State) (dev : Nat) (h : s.boot.milern = 0xFFFF) : portUp s (routeTo s dev) = true := by
  have hlt : (Config.routePort (defGet 0 s.routes dev)).toNat < 16 := BitVec.isLt _
  unfold portUp routeTo
  rw [h]
  generalize (Config.routePort (defGet 0 s.routes dev)).toNat = n at hlt ⊢
  have : ∀ n < 16, (decide (n < 16) && (0xFFFF : BitVec 16).getLsbD n) = true := by decide
  exact this n hlt
def closed : State := { peered with ctxs := [(0, placeCtx ctx4)] }
theorem witness_PeerLinks : portUp peered (routeTo peered 9) = true ∧ portUp closed (routeTo closed 9) = true ∧
    ([0, 1, 2, 3, 4] : List Nat).all (fun k => peerFits (peerIn k) &&
      match leafOf peered 0 0x100004 with
        | .ok e => match useLeaf peered (if k = 0 ∨ k = 4 then .read else if k = 1 then .write else if k = 2 then .both
            else .test) 0x100004 e with
          | .ok pa => pa == 0x100004
          | .error _ => false
        | .error _ => false) = true ∧ (ctxOf peered 0).created = true ∧ (ctxOf peered 0).peerok = true ∧
    (ctxOf closed 0).peerok = false ∧ lineBusy peered 0x2000 = false ∧ calm peered = true ∧ calm closed = true ∧
    peered.errs = [] :=
  ⟨portUp_routeTo _ 9 (by decide +kernel), portUp_routeTo _ 9 (by decide +kernel), by decide +kernel⟩
/-- A store of an aligned group of four bytes is one operation (R358). -/
theorem test_peerStore_word : (mapGet (next (.peerRequest { peerIn 1 with ws := (List.range 4).map fun i => (i, 1) })
    peered).net peered.nextId).any (fun q => q.ops.map (·.addrs) == [(List.range 4).map (0x100004 + ·)]) = true := by
  decide +kernel
theorem test_peerStore : (mapGet (next (.peerRequest (peerIn 1)) peered).net peered.nextId).any (fun q =>
    q.line == 0x2000 && q.ops.map (fun o => (o.addrs, o.data)) == [([0x100004], 0xAB)]) = true := by decide +kernel
/-- A store for a peer, at the home's door, and one that left and has not been answered in time. -/
def peerReq (st : Stage) : State := { state4 with net := [(3, { caslReq with
  stage := st
  place := .peer 7
  ops := [⟨2, 0x40, .peer 7, [0x40, 0x41, 0x42, 0x43], .store, 1, 0, true⟩]
  prod := none })] }
theorem witness_PeerLinks_leaves : (mapGet (peerReq .toHome).net 3).any (fun r => r.stage == .toHome &&
    r.place == .peer 7 && r.ops.all (fun o => o.op == .store) && r.ops != [] &&
      reqReady (peerReq .toHome) 3 r) = true := by
  decide +kernel
def unanswered : State := peerReq (.atPeer 0)
theorem witness_PeerLinks_timeout : mapGet unanswered.peerLoads 3 = none ∧ mapGet unanswered.probes 3 = none ∧
    (7 ∉ unanswered.silent) ∧ (mapGet unanswered.ctxs 0).any (·.created) = true ∧
    (mapGet unanswered.net 3).any (fun r => r.stage == .atPeer 0 && r.place == .peer 7 && r.prod == none &&
      r.trains == [0] &&
      (trainOf unanswered r.uid 0).any fun t => !t.ended) = true ∧ 0 ≤ unanswered.now := by decide +kernel
/-- A load and a check that no one answers. -/
def lostLoad : State := { unread (.load 2 true) (.peer 7) with peerLoads := [(3, ⟨0, 0, 10, 7, 8, 4, 0⟩)] }
def lostCheck : State := { state4 with probes := [(3, ⟨0, 0, 0x40, 7, 0⟩)] }
theorem witness_PeerLinks_lost : (mapGet lostLoad.peerLoads 3).any (fun l => l.till ≤ lostLoad.now &&
      (trainOf lostLoad l.uid l.train).any fun t => (mapGet t.prods l.prod).any fun p =>
        p.parts.any fun q => q.got.isNone && q.bad == 0 && q.place == .peer l.dev &&
          q.addrs.all fun a => l.addr ≤ a && a < l.addr + l.n) = true ∧ (teamOf lostLoad 0).isSome = true ∧
    mapGet lostCheck.peerLoads 3 = none ∧ (mapGet lostCheck.probes 3).any (fun b => b.till ≤ lostCheck.now &&
      (trainOf lostCheck b.uid b.train).isSome) = true := by decide +kernel
/-- The load's lane fails with PROTECTION, reason 6; the check lets its access go on; every context is told (R362,
R368). -/
theorem test_peerTimeout : ((trainOf (next (.peerTimeout 3) lostLoad) 0 0).any fun t => (mapGet t.prods 10).any fun p =>
      p.parts.all fun q => q.bad == 0x66) = true ∧
    (after (.peerTimeout 3) lostCheck).any (fun t => t.asked == [(0x40, (0, 0))]) = true ∧
    (next (.peerTimeout 3) lostCheck).silent = [7] ∧
    (next (.peerTimeout 3) lostCheck).msix = [(0, Config.causeCode 4)] := by
  refine ⟨by decide +kernel, by decide +kernel, by decide +kernel, ?_⟩
  rfl
theorem witness_PeerLinks_flits : portUp peered 0 = true ∧
    (takeItems [.request (peerIn 0)] peered).isSome = true ∧
    (portOf { peered with ports := [(0, ⟨15, 0⟩)] } 0).fails + 1 = 16 ∧ (portOf peered 0).fails + 1 < 16 ∧
    (portOf peered 0).last + 600000 ≤ peered.now := by decide +kernel
/-- Device 9 has been heard, and then for 1 ms no more. -/
def quiet : State := { peered with lastHeard := [(9, 0)] }
theorem witness_PeerLinks_silence : (mapGet quiet.lastHeard 9).any (fun n => n + 600000 ≤ quiet.now) = true ∧
    9 ∉ quiet.silent ∧ (mapGet quiet.ctxs 0).any (·.created) = true := by decide +kernel
theorem test_flits : portUp (next (.flitReceive 0 false []) { peered with ports := [(0, ⟨15, 0⟩)] }) 0 = false ∧
    portUp (next (.linkSilenceTimeout 0) peered) 0 = false ∧
    portUp (next (.flitReceive 0 false []) peered) 0 = true := by decide +kernel

end Sys2Proof.Tests
end

section
/-!
R48: what `nop` does, and which words are a `nop`.
-/
namespace Sys2Proof

/-! ## The decoder's checks -/

/-- The decoder gives an instruction exactly when every check of step 2 of R32 passes. -/
theorem decodeRaw_eq_ok_iff {r : Raw} {i : Instr} :
    decodeRaw r = .ok i ↔ assigned r.op = true ∧ (r.pre.isSome && !memoryClass r.op) = false ∧
      assemble r = some i ∧ wellFormed i = true ∧ rawInstr i = some r := by
  unfold decodeRaw
  cases assigned r.op with
  | false => simp
  | true =>
    cases r.pre.isSome && !memoryClass r.op with
    | true => simp
    | false =>
      cases assemble r with
      | none => simp
      | some j =>
        simp only [Bool.not_true, Bool.false_eq_true, if_false, Option.some.injEq, true_and]
        split
        · next hw =>
          refine ⟨nofun, ?_⟩
          rintro ⟨rfl, hw', -⟩
          simp [hw'] at hw
        · next hw =>
          split
          · next hr =>
            refine ⟨fun h => ?_, fun h => congrArg _ h.1⟩
            obtain rfl := Except.ok.inj h
            exact ⟨rfl, by simpa using hw, hr⟩
          · next hr =>
            refine ⟨nofun, ?_⟩
            rintro ⟨rfl, -, hr'⟩
            exact absurd hr' hr

/-! ## The words of `nop` -/

/-- What a `nop` of form `f` keeps of the fields of a word. -/
def nopArgs (f : Form) (r : Raw) : Args :=
  ⟨f, r.stop, r.guard, r.gneg, .none, .none, .none, .none, none⟩

/-- The fields that no `nop` uses are 0 (R48). -/
def NopFieldsZero (r : Raw) : Prop :=
  r.dst = 0 ∧ r.s1 = 0 ∧ r.s2 = 0 ∧ r.s3 = 0 ∧ r.e1 = false ∧ r.e2 = false ∧ r.e3 = false ∧
    r.fn = 0 ∧ r.ext = 0

/-- A word of opcode 0 names a `nop` of the form that its length bits and fn[9] give (R30, R47). -/
theorem assemble_nop {r : Raw} (hop : r.op = 0) (hpre : r.pre = none) :
    assemble r = (formOf r.len r.fn).map fun f => .nop (nopArgs f r) := by
  have hb : assemble r = build .nop r := by unfold assemble; rw [hop]; rfl
  rw [hb]
  unfold build argsFrom
  rw [hpre]
  cases formOf r.len r.fn <;> rfl

/-- The forms of R47, and R35. -/
theorem wellFormed_nop_iff (f : Form) (r : Raw) :
    wellFormed (.nop (nopArgs f r)) = true ↔ f ≠ .f96i ∧ ¬ (r.guard = 7 ∧ r.gneg = true) := by
  have hguard : (!(r.guard == 7 && r.gneg)) = true ↔ ¬ (r.guard = 7 ∧ r.gneg = true) := by
    simp [imp_iff_not_or]
  rw [← hguard]
  cases f <;>
    simp [wellFormed, argsOf, nopArgs, argsOk, modsOk, sigOf, mkSig, dash, Opnd.ok, Opnd.plainDst]

theorem rawInstr_nop (f : Form) (r : Raw) :
    rawInstr (.nop (nopArgs f r)) = some
      { r with
        len := f.bits, op := 0, dst := 0, s1 := 0, s2 := 0, s3 := 0, e1 := false, e2 := false,
        e3 := false, fn := BitVec.ofBool (f == .f96i) ++ (0 : BitVec 9), ext := 0, pre := none } := by
  cases f <;>
    simp [rawInstr, argsOf, nopArgs, codeOf, offsetOf, sigOf, mkSig, argsExt, immOf, Opnd.code,
      Opnd.ebit, Opnd.turn]

/-- A `nop` in a form of R47 is encoded in a word exactly when that has its length bits and is 0 in
every field that `nop` does not use. -/
theorem rawInstr_nop_eq_iff {f : Form} {r : Raw} (hop : r.op = 0) (hpre : r.pre = none)
    (hf : f ≠ .f96i) :
    rawInstr (.nop (nopArgs f r)) = some r ↔ f.bits = r.len ∧ NopFieldsZero r := by
  obtain ⟨len, stop, op, guard, gneg, dst, s1, s2, s3, e1, e2, e3, fn, ext, pre⟩ := r
  have hfn : BitVec.ofBool (f == .f96i) ++ (0 : BitVec 9) = (0 : BitVec 10) := by
    rw [beq_false_of_ne hf]; rfl
  simp only [rawInstr_nop, hfn, NopFieldsZero, Option.some.injEq, Raw.mk.injEq]
  simp only at hop hpre
  simp only [hop, hpre, true_and, and_true, eq_comm]

/-- Every length but that of a P64 is the length of a form that `nop` has, fn being 0 (R30, R34). -/
theorem exists_formOf_zero {len : BitVec 2} (h : len ≠ 3) :
    ∃ f, formOf len 0 = some f ∧ f ≠ .f96i ∧ f.bits = len := by
  have hall : ∀ n : BitVec 2, n ≠ 3 →
      (formOf n 0).any (fun f => f != .f96i && f.bits == n) = true := by decide
  obtain ⟨f, hf, hp⟩ := (Option.any_eq_true ..).1 (hall len h)
  rw [Bool.and_eq_true, bne_iff_ne, beq_iff_eq] at hp
  exact ⟨f, hf, hp⟩

theorem Form.bits_ne_three (f : Form) : f.bits ≠ 3 := by cases f <;> decide

/-- What the decoder makes of a word of opcode 0 with no P64 before it (R48). -/
theorem decodeRaw_nop_iff {r : Raw} {i : Instr} (hop : r.op = 0) (hpre : r.pre = none) :
    decodeRaw r = .ok i ↔ ∃ f, i = .nop (nopArgs f r) ∧ formOf r.len r.fn = some f ∧ f ≠ .f96i ∧
      ¬ (r.guard = 7 ∧ r.gneg = true) ∧ f.bits = r.len ∧ NopFieldsZero r := by
  have ha : assigned r.op = true := by rw [hop]; rfl
  rw [decodeRaw_eq_ok_iff, assemble_nop hop hpre]
  constructor
  · rintro ⟨-, -, hi, hw, hr⟩
    obtain ⟨f, hf, rfl⟩ := Option.map_eq_some_iff.1 hi
    obtain ⟨hform, hguard⟩ := (wellFormed_nop_iff f r).1 hw
    exact ⟨f, rfl, hf, hform, hguard, (rawInstr_nop_eq_iff hop hpre hform).1 hr⟩
  · rintro ⟨f, rfl, hf, hform, hguard, hfields⟩
    exact ⟨ha, by simp [hpre], by simp [hf], (wellFormed_nop_iff f r).2 ⟨hform, hguard⟩,
      (rawInstr_nop_eq_iff hop hpre hform).2 hfields⟩

/-- The words of opcode 0 that are an instruction (R48). -/
theorem exists_decodeRaw_nop_iff {r : Raw} (hop : r.op = 0) (hpre : r.pre = none) :
    (∃ i, decodeRaw r = .ok i) ↔
      r.len ≠ 3 ∧ ¬ (r.guard = 7 ∧ r.gneg = true) ∧ NopFieldsZero r := by
  simp only [decodeRaw_nop_iff hop hpre]
  constructor
  · rintro ⟨-, f, -, -, -, hguard, hlen, hzero⟩
    exact ⟨hlen ▸ f.bits_ne_three, hguard, hzero⟩
  · rintro ⟨hlen, hguard, hzero⟩
    obtain ⟨f, hf, hform, hbits⟩ := exists_formOf_zero hlen
    have ⟨_, _, _, _, _, _, _, hfn, _⟩ := hzero
    exact ⟨_, f, rfl, hfn ▸ hf, hform, hguard, hbits, hzero⟩

end Sys2Proof

namespace Sys2Proof.Machine

/-! ## The effect of `nop` -/

theorem exec_nop (a : Args) (s : State) : exec (.nop a) s = issue (.nop a) a s advance := rfl

/-- An instruction whose effect is to go on has changed its train's counts and split only, and nothing
else of the device. -/
theorem advance_keeps {i : Instr} {a : Args} {s : State} {x : Site} (h : siteOf s i a = some x) :
    ∃ u, trainOf (clearRegs i a x (advance x s)) x.uid x.tn = some u ∧ GoesOn x u (nextPc x) ∧
      u = { x.train with
        seq := x.train.seq + 1, siding := u.siding, since := u.since, passed := u.passed } ∧
      OnlyTrain x s (clearRegs i a x (advance x s)) := by
  obtain ⟨-, hu, hp, hr, -⟩ := siteOf_spec h
  obtain ⟨n, k, ht⟩ := trainOf_advanceTo (pc := nextPc x) hr hu
  refine ⟨_, (trainOf_clearRegs ..).trans ht, ⟨rfl, listMod_length .., ?_, ?_⟩, rfl,
    onlyTrain_of_touches h (touches_advanceTo hr)⟩
  · simp [listMod_getElem?, hp]
  · intro j hj
    simp [listMod_getElem?, hj]

/-- Settles O25: `nop` goes on and does no more; its word is read back field by field. -/
theorem nopChangesNothing : Obligations.NopChangesNothing := by
  unfold Obligations.NopChangesNothing
  refine ⟨?_, ?_, by decide, by decide, by decide⟩
  · intro a s x h
    obtain ⟨u, hu, hgo, hkeep, honly⟩ := advance_keeps h.site
    exact ⟨_, u, (exec_nop a s).trans (issue_go h), hu, hgo, hkeep, honly⟩
  · intro r hop hpre
    refine ⟨exists_decodeRaw_nop_iff hop hpre, fun i hi => ?_⟩
    obtain ⟨f, rfl, -⟩ := (decodeRaw_nop_iff hop hpre).1 hi
    exact ⟨_, rfl, rfl, rfl, rfl⟩

end Sys2Proof.Machine
end

section
/-!
R165: the masks that `jget` and `actv` write.
-/
namespace Sys2Proof.Machine

/-! ## Masks and their lanes -/

theorem getLsbD_maskOf (lanes : List Nat) (l : Nat) :
    (maskOf lanes).getLsbD l = true ↔ l < 64 ∧ l ∈ lanes := by
  induction lanes with
  | nil => simp [maskOf]
  | cons k lanes ih =>
    have hbit : (BitVec.ofNat 64 (2 ^ k % 2 ^ 64)).getLsbD l = true ↔ l < 64 ∧ l = k := by
      rw [BitVec.getLsbD_ofNat, Nat.testBit_mod_two_pow, Nat.testBit_two_pow]
      simp [eq_comm (a := k)]
    simp only [maskOf, BitVec.getLsbD_or, Bool.or_eq_true, hbit, ih, List.mem_cons, and_or_left]

/-- One mask has no lane outside another. -/
theorem and_not_eq_zero_iff (m n : LaneMask) :
    m &&& ~~~n = 0 ↔ ∀ l, m.getLsbD l = true → n.getLsbD l = true := by
  constructor
  · intro h l hm
    have hl : l < 64 := BitVec.lt_of_getLsbD hm
    have hbit : (m &&& ~~~n).getLsbD l = false := by rw [h]; simp
    simpa [hm, hl] using hbit
  · intro h
    apply BitVec.eq_of_getLsbD_eq
    intro l hl
    cases hm : m.getLsbD l with
    | false => simp [hm]
    | true => simp [hm, h l hm]

theorem enabledLanes_subset_mask {t : Train} {p : Split} {i : Instr} {g : BitVec 3} {n : Bool}
    {l : Nat} (h : l ∈ enabledLanes t p i g n) : p.mask.getLsbD l = true :=
  (mem_lanesOf.1 (List.mem_filter.1 h).1).2

/-- An instruction's enabled lanes are lanes of its split. -/
theorem maskOf_lanes_subset_split {i : Instr} {a : Args} {s : State} {x : Site}
    (h : siteOf s i a = some x) {l : Nat} (hl : (maskOf x.lanes).getLsbD l = true) :
    x.split.mask.getLsbD l = true := by
  obtain ⟨-, -, -, -, hlanes, -⟩ := siteOf_spec h
  obtain ⟨-, hmem⟩ := (getLsbD_maskOf ..).1 hl
  exact enabledLanes_subset_mask (hlanes ▸ hmem)

/-! ## A mask written to every enabled lane -/

/-- As `uniformWrite_writes`, for a value that the issuing place gives. -/
theorem uniformWrite_writes_at {i : Instr} {a : Args} {s : State} {x : Site} {v : Site → Nat}
    (h : Issues i a s x) (he : exec i s = issue i a s fun y => uniformWrite i a (v y) y) :
    Writes i a s x (sigOf i).dst.n (fun _ => v x) 0 :=
  uniformWrite_writes h (he.trans ((issue_go h).trans (issue_go h).symm))

theorem exec_jget (a : Args) (n : BitVec 3) (s : State) :
    exec (.jget a n) s =
      issue (.jget a n) a s fun x => uniformWrite (.jget a n) a (jGet x.train n.toNat).toNat x := rfl

/-- The mask that a selector of `actv` names (R165). -/
def actvMask (w : BitVec 2) (x : Site) : LaneMask :=
  if w = 0 then maskOf x.lanes else if w = 1 then x.split.mask else x.train.active

theorem exec_actv (a : Args) (w : BitVec 2) (s : State) :
    exec (.actv a w) s =
      issue (.actv a w) a s fun x => uniformWrite (.actv a w) a (actvMask w x).toNat x := by
  have hcases : ∀ w : BitVec 2, w = 0 ∨ w = 1 ∨ w = 2 ∨ w = 3 := by decide
  obtain rfl | rfl | rfl | rfl := hcases w <;> rfl

/-- Where a split's lanes are active, so are those of every selector: the enabled lanes are lanes of the
split. -/
theorem actvMask_active {i : Instr} {a : Args} {s : State} {x : Site} (w : BitVec 2)
    (h : siteOf s i a = some x) (hsplit : x.split.mask &&& ~~~x.train.active = 0) :
    actvMask w x &&& ~~~x.train.active = 0 := by
  rw [and_not_eq_zero_iff] at hsplit ⊢
  intro l hl
  unfold actvMask at hl
  split at hl
  · exact hsplit l (maskOf_lanes_subset_split h hl)
  split at hl
  · exact hsplit l hl
  · exact hl

/-- Settles O19: each writes one mask, and the lanes of each selector of `actv` are the split's or the
train's. -/
theorem laneMaskReads : Obligations.LaneMaskReads := by
  unfold Obligations.LaneMaskReads
  refine ⟨fun a n s x h => uniformWrite_writes_at h (exec_jget a n s), fun a w s x h => ?_⟩
  exact ⟨uniformWrite_writes_at h (exec_actv a w s), actvMask_active w h.site⟩

end Sys2Proof.Machine
end
